-- ==== Sys2Proof/Word.lean ====
section
/-! DEFINITION. The word types of the block and its real-number type.

Registers, encoded fields and integer space elements are bit vectors, because the spec treats them as
bits (R9, R21, R40).  A `Num` is a real number (R12). -/

namespace Sys2Proof

/-- A 32-bit scalar register, control register or command word (R21, R30, R90). -/
abbrev Word := BitVec 32

/-- One element of a `u8` space (R40), and an element of GF(256) (R120). -/
abbrev Byte := BitVec 8

/-- One element of a `u1` space (R40). -/
abbrev Bit := BitVec 1

/-- One element of the `u16` space `MSG`: a UTF-16 unit (R40). -/
abbrev Half := BitVec 16

/-- A register field of a command word: it names one of `x[0]` to `x[15]` (R91). -/
abbrev RegNum := BitVec 4

/-- The `sel` field of a command word: a space number or a control register number (R91). -/
abbrev Sel := BitVec 8

/-- A number of the field generated by the rationals and `cos(π/64)`: its coefficients over
`1, t1, ..., t31` with `tk = 2*cos(k*π/64)`, the zeros at the end left out.  Every constant of the
spec's real-valued rules (the luma weights, `1/sqrt(8)`, the cosines of R180 and R232) lies in it. -/
abbrev CosNum := List Rat

/-- A `Num` of the spec, a real number (R12): `base + a1*r(k1) + a2*r(k2) + ...`, where the list
`atoms` has the pairs `(k, a)`.  The reals `r(0), r(1), ...` are any reals at all: nothing in the model
says what they are (`Config.realAtoms`), so a `Num` that the host writes, that an unwritten element
holds or that an implementation computes is not confined to a field.  The rules' operations are sums
and products with constants, so each value they give is again such a combination, and exact (log entry
3). -/
structure Num where
  base : CosNum
  atoms : List (Nat × CosNum)
  deriving DecidableEq, Repr, Inhabited

end Sys2Proof
end

