-- ==== Sys2Proof/Machine/Mem.lean ====
section
/-! DEFINITION. The content of a buffer space: the elements written so far, by index.

A cell is an index and the element written there; an index without a cell has not been written since
reset, and what reading it gives is the reader's to say (R76).  The canonical form has the indices
strictly rising, so that equal contents are equal lists (log entry 5). -/

namespace Sys2Proof

/-- The written elements of one space. -/
abbrev Mem (α : Type) := List (Nat × α)

/-- The element written last at index `i`, none where nothing was written. -/
def Mem.get? {α : Type} : Mem α → Nat → Option α
  | [], _ => none
  | (j, w) :: m, i => if i = j then some w else Mem.get? m i

/-- The element at index `i`, `free i` where nothing was written. -/
def Mem.readOr {α : Type} (m : Mem α) (free : Nat → α) (i : Nat) : α := (m.get? i).getD (free i)

/-- Write one element. -/
def Mem.write {α : Type} (i : Nat) (v : α) : Mem α → Mem α
  | [] => [(i, v)]
  | (j, w) :: m =>
    if i < j then (i, v) :: (j, w) :: m
    else if i = j then (i, v) :: m
    else (j, w) :: Mem.write i v m

/-- Write several elements; where two cells have one index the first is the one that stays. -/
def Mem.writeAll {α : Type} (cells : List (Nat × α)) (m : Mem α) : Mem α :=
  cells.foldr (fun c acc => Mem.write c.1 c.2 acc) m

/-- The cells of consecutive elements from index `base` on. -/
def Mem.cellsFrom {α : Type} (base : Nat) : List α → List (Nat × α)
  | [] => []
  | v :: vs => (base, v) :: Mem.cellsFrom (base + 1) vs

/-- The canonical form: indices strictly rising and below `size`. -/
def Mem.wf {α : Type} (size : Nat) : Mem α → Bool
  | [] => true
  | [(i, _)] => decide (i < size)
  | (i, _) :: (j, w) :: m => decide (i < j) && Mem.wf size ((j, w) :: m)

end Sys2Proof
end

