-- ==== Sys2Proof/Syntax.lean ====
section
/-! DEFINITION. The commands of the block, its buffer spaces and its control registers, by name. -/

namespace Sys2Proof

/-- The 38 commands of R95, one constructor per row of `spec/opcode_table.json`, operands in the order
of the assembler syntax (R98).  `rd`, `rs1`, `rs2` are register numbers, `sel` a space number or a
control register number, `imm` the 16-bit immediate. -/
inductive Instr where
  | nop
  | li (rd : RegNum) (imm : BitVec 16)
  | lih (rd : RegNum) (imm : BitVec 16)
  | lds (rd : RegNum) (sel : Sel) (rs1 : RegNum)
  | sts (sel : Sel) (rs1 rs2 : RegNum)
  | clrf
  | csrr (rd : RegNum) (sel : Sel)
  | csrw (sel : Sel) (rs1 : RegNum)
  | gfmul (rd rs1 rs2 : RegNum)
  | gfpow (rd rs1 rs2 : RegNum)
  | gfdiv (rd rs1 rs2 : RegNum)
  | gfinv (rd rs1 : RegNum)
  | rscfg (rs1 : RegNum)
  | rsenc (rs1 : RegNum)
  | rssyn (rd rs1 : RegNum)
  | rsdec (rd rs1 : RegNum)
  | seed (rs1 : RegNum)
  | next (rd : RegNum)
  | nexti (rd rs1 rs2 : RegNum)
  | pinit (rs1 : RegNum)
  | shuf
  | sprd (rd : RegNum)
  | dct
  | idct
  | blkget (rs1 : RegNum)
  | blkput (rs1 : RegNum)
  | qemb (rd rs1 rs2 : RegNum)
  | qext (rd rs1 rs2 : RegNum)
  | vclr (rs1 : RegNum)
  | vacc (rs1 rs2 : RegNum)
  | vote (rd rs1 : RegNum)
  | magcmp (rd : RegNum)
  | phash
  | phcmp (rd : RegNum)
  | phver (rd rs1 rs2 : RegNum)
  | lsbenc (rs1 : RegNum)
  | lsbdec (rd : RegNum)
  | lsbhas (rd : RegNum)
  deriving DecidableEq, Repr

/-- The eighteen buffer spaces of R40, in the order of their `sel` numbers. -/
inductive Space where
  | pix | sym | bit | msg | perm | gen | syn | gfexp | gflog | dctc
  | blks | blkf | blkr | acc0 | acc1 | conf | ph | phref
  deriving DecidableEq, Repr

/-- The twelve control and status registers of R30, in the order of their numbers. -/
inductive Csr where
  | status | cause | finfo | rngSeed | rsNsym | permN | imgW | imgH | strength
  | magic | lsbMagic | id
  deriving DecidableEq, Repr

/-- One element of a space: an integer, or a real for a `Num` space (R40). -/
inductive Elem where
  | int (v : Nat)
  | num (v : Num)
  deriving DecidableEq, Repr

/-- What an address of the host's own port reaches (R68, R70). -/
inductive HostTarget where
  /-- The command input (R23). -/
  | command
  /-- A scalar register. -/
  | reg (r : RegNum)
  /-- A control register. -/
  | csr (c : Csr)
  /-- An element of a space. -/
  | space (sp : Space) (i : Nat)
  deriving DecidableEq, Repr

/-- What the host can do to the block between commands, and reset (R23, R70, R340). -/
inductive HostAct where
  /-- The host issues one command word (R23, R90). -/
  | command (w : Word)
  /-- The host writes one element of an `RW` space through its own port (R70). -/
  | writeSpace (sp : Space) (i : Nat) (e : Elem)
  /-- The host writes a scalar register (R70). -/
  | writeReg (r : RegNum) (v : Word)
  /-- The host writes an `RW` control register (R70). -/
  | writeCsr (c : Csr) (v : Nat)
  /-- The platform asserts and releases reset (R340). -/
  | reset
  deriving DecidableEq, Repr

end Sys2Proof
end

