-- ==== Sys2Proof/Config.lean ====
section
/-! DEFINITION. What an instance of the block fixes, and the free values.

`Params` is the parameter table of R8: one instance of the block has one value of it.  A parameter
that the spec leaves `OPEN` is an uninterpreted constant here; the values right after reset are put
together in `Sys2Proof/Machine/Params.lean`. -/

namespace Sys2Proof

/-- The operations that write a real value, to which R12's tolerance applies. -/
inductive NumSite where
  | sts
  | blkget
  | dct
  | idct
  | qemb
  | qext
  | vclr
  | vacc
  | phash
  deriving DecidableEq, Repr

/-- `NUM.scale` of each command that writes a real value (R12).  R12 leaves the scales open and gives them
no type; here each is a rational number (DESIGN CHOICE, log entry 26). -/
structure NumScales where
  sts : Rat
  blkget : Rat
  dct : Rat
  idct : Rat
  qemb : Rat
  qext : Rat
  vclr : Rat
  vacc : Rat
  phash : Rat
  deriving DecidableEq, Repr

/-- `NUM.scale(command)` (R12). -/
def NumScales.at (c : NumScales) : NumSite → Rat
  | .sts => c.sts
  | .blkget => c.blkget
  | .dct => c.dct
  | .idct => c.idct
  | .qemb => c.qemb
  | .qext => c.qext
  | .vclr => c.vclr
  | .vacc => c.vacc
  | .phash => c.phash

/-- The numeric system of an implementation (R8, R12).  R12 leaves `NUM.eps` and the scales open and gives
them no type; here they are rational numbers (DESIGN CHOICE, log entry 26). -/
structure NumImpl where
  /-- Its type, rounding and factorisations: which of the functions `Config.numResult` it computes. -/
  format : Nat
  /-- `NUM.eps`. -/
  eps : Rat
  /-- `NUM.scale`. -/
  scale : NumScales
  deriving DecidableEq, Repr

/-- The numeric system of real-valued state, the parameter `NUM` of R12.

`exact` is the reference semantics over the exact reals (the spec's default in R8).  `approx n` is
an implementation whose `Num` results may differ from the rules' values by at most `NUM.eps` times
the scale of the operation. -/
inductive NumSystem where
  | exact
  | approx (n : NumImpl)
  deriving DecidableEq, Repr

/-- The rows of R8 whose value RPL states: numbers that the commands and the host's sequences read. -/
structure RplValues where
  /-- `LCG_A` (R160). -/
  lcgA : Nat
  /-- `LCG_C` (R160). -/
  lcgC : Nat
  /-- `LCG_MASK`, also the divisor of R163. -/
  lcgMask : Nat
  /-- The reset value of `STRENGTH` (R34, R48). -/
  strengthReset : BitVec 16
  /-- `LUMA_W` for R (R198). -/
  lumaR : Rat
  /-- `LUMA_W` for G (R198). -/
  lumaG : Rat
  /-- `LUMA_W` for B (R198). -/
  lumaB : Rat
  /-- `MAGIC_MIN`, the least count of matching magic bits for `FOUND` (R208). -/
  magicMin : Nat
  /-- `LSB_LEN_MAX`, the largest decoded length accepted (R251). -/
  lsbLenMax : Nat
  /-- `ECC_LEVEL`, the host's (R288). -/
  eccLevel : Rat
  /-- `REDUNDANCY`, the host's (R290). -/
  redundancy : Nat
  /-- `MSG_LEN_MAX`, the host's (R287). -/
  msgLenMax : Nat
  /-- `PH_THRESHOLD` as a fraction, the host's (R240, R297). -/
  phThresholdNum : Nat
  phThresholdDen : Nat
  deriving DecidableEq, Repr

/-- The rows of R8 that give the state, the encoding and the transforms their shape.  The machine reads
them from the parameter table, but for `xlen` and `nreg`, which R13, R21 and R91 put as the numbers 32
and 16 into the registers and the command words: the types `Word` and `RegNum` have them. -/
structure Shape where
  /-- `XLEN`, the width of a scalar register (R21). -/
  xlen : Nat
  /-- `NREG`, the count of scalar registers (R21). -/
  nreg : Nat
  /-- `BLOCK`, the side of a transform block (R180). -/
  block : Nat
  /-- `NPOS`, the count of embedding positions (R196). -/
  npos : Nat
  /-- `PH_SIDE`, the side of the hash's grid (R231). -/
  phSide : Nat
  /-- `PH_LOW`, the side of the hash's low frequencies (R232). -/
  phLow : Nat
  /-- `PH_BITS`, the bits of a fingerprint (R234). -/
  phBits : Nat
  deriving DecidableEq, Repr

/-- The parameter table of R8.  A row that is a function is a number here, which names one of the
functions of an uninterpreted family, because an instance is plain data. -/
structure Params where
  /-- `PRIM_POLY`, a 9-bit integer with bit 8 set (R120). -/
  primPoly : BitVec 9
  /-- `ALPHA`, the primitive element whose powers fill `GFEXP` (R120). -/
  alpha : Byte
  /-- `FCR`, the exponent of the generator polynomial's first root (R142). -/
  fcr : Nat
  /-- `NSYM_MAX`, the largest parity-symbol count accepted (R141). -/
  nsymMax : Nat
  /-- `EMBED_POS[0..14]`, the embedding positions `(u, v)` (R196). -/
  embedPos : List (Nat × Nat)
  /-- `MAGIC`, bit 15 first in the stream (R39, R208). -/
  magic : BitVec 16
  /-- `LSB_MAGIC` (R39, R246). -/
  lsbMagic : BitVec 16
  /-- `PIX_SIZE`, bytes of pixel memory (R40). -/
  pixSize : Nat
  /-- `SYM_SIZE`, bytes of symbol memory (R40). -/
  symSize : Nat
  /-- `BIT_SIZE`, entries of the bit memory and of each vote sum (R40). -/
  bitSize : Nat
  /-- `MSG_SIZE`, units of message memory (R40). -/
  msgSize : Nat
  /-- `PERM_SIZE`, entries of permutation memory (R40). -/
  permSize : Nat
  /-- `NUM`, the numeric system (R12). -/
  num : NumSystem
  /-- `KEYHASH`: which of the functions `Config.keyHash` the host uses (R286). -/
  keyHash : Nat
  /-- `HOSTMAP`: what the addresses of the host's port reach (R68). -/
  hostMap : List (Nat × HostTarget)
  /-- The rows whose value RPL states. -/
  rpl : RplValues
  /-- The rows that give the block its shape. -/
  shape : Shape
  deriving DecidableEq, Repr

namespace Config

/-! ### Parameters the spec leaves `OPEN` (R8) -/

/-- `MAGIC`: the spec takes no value (R8, D30). -/
opaque magic : BitVec 16

/-- `LSB_MAGIC`: the spec takes no value (R8, D30). -/
opaque lsbMagic : BitVec 16

/-- `PIX_SIZE` is any multiple of 4 (R8): four times this count of pixels. -/
opaque pixPixels : Nat

/-- `SYM_SIZE` is at least 3006 (R8): what it has beyond that. -/
opaque symExtra : Nat

/-- `BIT_SIZE` is at least 24048 (R8): what it has beyond that. -/
opaque bitExtra : Nat

/-- `MSG_SIZE` is at least 100000 (R8): what it has beyond that. -/
opaque msgExtra : Nat

/-- `PERM_SIZE`: the spec takes no value and no bound (R8). -/
opaque permSize : Nat

/-- `KEYHASH`, from a key string (16-bit units) to a seed in [0, 2^31) (R8, R286): the functions a
host may use, by number. -/
opaque keyHash : (which : Nat) → List Half → BitVec 31

/-- Which `KEYHASH` the instance's host uses. -/
opaque keyHashNumber : Nat

/-- `HOSTMAP`: the spec takes no value (R68). -/
opaque hostMap : List (Nat × HostTarget)

/-- An implementation's own `luma`, `dct2d`, `idct2d`, `qim` and so on, by the number of its format:
result number `k` of an operation on the given inputs (R12, R186).  It is used only where it lies
within `NUM.eps * NUM.scale` of the rule's value. -/
opaque numResult : (format : Nat) → NumSite → (inputs : List Num) → (k : Nat) → Num

/-! ### Free values: what an element that nothing has written reads as (R48, R76)

The first argument counts the resets so far, the second is the space's `sel`, the third the index:
two reads of one unwritten element agree, and a reset may change every one of them. -/

/-- An unwritten element of a `u1`, `u8`, `u16` or `u32` space. -/
opaque unwrittenInt : (resets sel i : Nat) → Word

/-- An unwritten element of a `Num` space. -/
opaque unwrittenNum : (resets sel i : Nat) → Num

/-- An element of `SYN` between an `RSCFG` and the next `RSSYN` or `RSDEC` (R42); the first argument
counts the `RSCFG` commands and resets so far. -/
opaque unspecifiedSyn : (epoch i : Nat) → Byte

/-! ### Constants the sources state -/

/-- The value of the control register `ID` (R39). -/
def idValue : Word := 0x52504C31#32

/-- The identity string of the command set (R2). -/
def identity : String := "RPLCORE-1"

/-- The values RPL states, which the spec keeps as its defaults (R8). -/
def rplValues : RplValues where
  lcgA := 1103515245
  lcgC := 12345
  lcgMask := 0x7FFFFFFF
  strengthReset := 15#16
  lumaR := 299 / 1000
  lumaG := 587 / 1000
  lumaB := 114 / 1000
  magicMin := 12
  lsbLenMax := 100000
  eccLevel := 1 / 2
  redundancy := 4
  msgLenMax := 1000
  phThresholdNum := 4
  phThresholdDen := 5

/-- The values of the rows that give the block its shape (R8). -/
def shape : Shape where
  xlen := 32
  nreg := 16
  block := 8
  npos := 15
  phSide := 32
  phLow := 8
  phBits := 63

end Config

end Sys2Proof
end

