-- ==== Sys2Proof/Machine/Params.lean ====
section
/-! DEFINITION. The parameters of the instance that reset brings up, and those of the test vectors. -/

namespace Sys2Proof.Machine

/-- The spec's default embedding positions: the 15 pairs with `u + v` in 3, 4, 5, ordered by `u + v`
and then by `u` (R196). -/
def defaultEmbedPos : List (Nat × Nat) :=
  [(0, 3), (1, 2), (2, 1), (3, 0),
   (0, 4), (1, 3), (2, 2), (3, 1), (4, 0),
   (0, 5), (1, 4), (2, 3), (3, 2), (4, 1), (5, 0)]

/-- The instance of the block (R8): the spec's default where it has one, an uninterpreted constant
where it leaves the parameter `OPEN`, within R8's bounds. -/
def instanceParams : Params where
  primPoly := 0x11D#9
  alpha := 2#8
  fcr := 0
  nsymMax := 1024
  embedPos := defaultEmbedPos
  magic := Config.magic
  lsbMagic := Config.lsbMagic
  pixSize := Config.pixPixels * 4
  symSize := Config.symExtra + 3006
  bitSize := Config.bitExtra + 24048
  msgSize := Config.msgExtra + 100000
  permSize := Config.permSize
  num := .exact
  keyHash := Config.keyHashNumber
  hostMap := Config.hostMap
  rpl := Config.rplValues
  shape := Config.shape

/-- The values `spec/95_test_vectors.md` uses for the open parameters, with the first `KEYHASH` and an
empty `HOSTMAP`, which the vectors do not need.  They illustrate; no rule and no definition of the
machine uses them. -/
def illustrativeParams : Params :=
  { instanceParams with
    magic := 0xA53C#16
    lsbMagic := 0x5A3C#16
    pixSize := 16384
    symSize := 3006
    bitSize := 24048
    msgSize := 100000
    permSize := 4096
    keyHash := 0
    hostMap := [] }

end Sys2Proof.Machine
end

