-- ==== Sys2Proof/Machine/State.lean ====
section
/-! DEFINITION. The state of the block, the reasons a step can stop, and the state after reset. -/

namespace Sys2Proof.Machine

/-- Why the machine itself would stop.  There is no such reason: every fault of the spec (R311) is an
architectural event that sets `STATUS.FAULT`, `CAUSE` and `FINFO` and lets the block go on (R312), so
it is a next state.  The type has no constructor, which is safe: no claim can hide behind a stop. -/
inductive Fault where
  deriving DecidableEq, Repr

/-- Why the model gives a step no meaning. -/
inductive Refusal where
  /-- Raised by an arm of `exec` for a command without a meaning; no arm does.  Safe. -/
  | notModelled (mnemonic : String)
  /-- Raised by `step` for a host write that the checks of R61 would refuse: a host error that the
  spec puts outside the model (R70, item U11 of `93_implementation_defined.md`).  Safe: the model
  claims nothing about such a host. -/
  | hostWrite
  deriving DecidableEq, Repr

/-- The nine faults of R311. -/
inductive FaultKind where
  | illegalCommand
  | operandRange
  | bufferBounds
  | divisionByZero
  | gfLogOfZero
  | capacity
  | readOnly
  | numRange
  | rngRange
  deriving DecidableEq, Repr

/-- The state of one block (R20 to R48). -/
structure State where
  /-- The instance's parameters (R8, R46): fixed, no step changes them (log entry 1). -/
  cfg : Params
  /-- Scalar registers `x[0]` to `x[15]` (R21). -/
  x : Vector Word 16
  /-- `STATUS.FAULT`, bit 0 (R31). -/
  fault : Bool
  /-- `STATUS.RSERR`, bit 1 (R31). -/
  rserr : Bool
  /-- `STATUS.FOUND`, bit 2 (R31). -/
  found : Bool
  /-- `CAUSE` (R32). -/
  cause : BitVec 8
  /-- `FINFO` (R32). -/
  finfo : Word
  /-- `RNG_SEED` (R36). -/
  rngSeed : BitVec 31
  /-- `RS_NSYM` (R37). -/
  rsNsym : BitVec 11
  /-- `PERM_N` (R38). -/
  permN : Word
  /-- `IMG_W` (R35). -/
  imgW : Word
  /-- `IMG_H` (R35). -/
  imgH : Word
  /-- `STRENGTH` (R34). -/
  strength : BitVec 16
  /-- Space `PIX` (R40, R43). -/
  pix : Mem Byte
  /-- Space `SYM` (R40). -/
  sym : Mem Byte
  /-- Space `BIT` (R40). -/
  bit : Mem Bit
  /-- Space `MSG` (R40). -/
  msg : Mem Half
  /-- Space `PERM` (R40). -/
  perm : Mem Word
  /-- Space `GEN` (R40, R42). -/
  gen : Mem Byte
  /-- Space `SYN` (R40, R42). -/
  syn : Mem Byte
  /-- Space `BLKS` (R40, R44). -/
  blks : Mem Num
  /-- Space `BLKF` (R40, R44). -/
  blkf : Mem Num
  /-- Space `BLKR` (R40, R44). -/
  blkr : Mem Num
  /-- Space `ACC0` (R40, R204). -/
  acc0 : Mem Num
  /-- Space `ACC1` (R40, R204). -/
  acc1 : Mem Num
  /-- The register `CONF`, a space of one element (R24, R40). -/
  conf : Mem Num
  /-- The register `PH`, a space of 63 bits (R25, R40). -/
  ph : Mem Bit
  /-- The register `PHREF`, a space of 63 bits (R25, R40). -/
  phref : Mem Bit
  /-- The model's own: how many resets there were, the first argument of the free values of R76. -/
  resets : Nat
  /-- The model's own: how many times `SYN` became unspecified (R42). -/
  synEpoch : Nat
  /-- The model's own: what the host has yet to do, in order (R23, R27; log entry 2). -/
  input : List HostAct
  deriving DecidableEq, Repr

/-- The state right after reset of an instance with parameters `p` (R48, R341), with the free-value
counters and the host's pending actions as given. -/
def State.afterReset (p : Params) (resets synEpoch : Nat) (input : List HostAct) : State where
  cfg := p
  x := Vector.replicate 16 0#32
  fault := false
  rserr := false
  found := false
  cause := 0#8
  finfo := 0#32
  rngSeed := 0#31
  rsNsym := 0#11
  permN := 0#32
  imgW := 0#32
  imgH := 0#32
  strength := p.rpl.strengthReset
  pix := []
  sym := []
  bit := []
  msg := []
  perm := []
  gen := [(0, 1#8)]
  syn := []
  blks := []
  blkf := []
  blkr := []
  acc0 := []
  acc1 := []
  conf := []
  ph := []
  phref := []
  resets := resets
  synEpoch := synEpoch
  input := input

/-- The machine right after reset (R48): nothing issued yet. -/
def State.reset : State := State.afterReset instanceParams 0 0 []

end Sys2Proof.Machine
end

