-- ==== Sys2Proof/Machine/Flags.lean ====
section
/-! DEFINITION. The three status bits of `STATUS` (R28, R31).  There are no arithmetic flags. -/

namespace Sys2Proof.Machine

/-- The register `STATUS`: `FAULT` in bit 0, `RSERR` in bit 1, `FOUND` in bit 2 (R31). -/
def State.statusWord (s : State) : BitVec 3 :=
  BitVec.ofBool s.found ++ BitVec.ofBool s.rserr ++ BitVec.ofBool s.fault

/-- Write `STATUS.RSERR` (R147, R149). -/
def State.setRserr (s : State) (b : Bool) : State := { s with rserr := b }

/-- Write `STATUS.FOUND` (R208). -/
def State.setFound (s : State) (b : Bool) : State := { s with found := b }

/-- The flag `RSERR` of a list of syndromes: whether some syndrome is not 0 (R147). -/
def syndromesBad (syn : List Byte) : Bool := syn.any fun v => v != 0#8

/-- The flag `FOUND` of a count of matching magic bits: at least `MAGIC_MIN` (R208). -/
def magicFound (v : RplValues) (cnt : Nat) : Bool := decide (v.magicMin ≤ cnt)

/-- A truth value as a register value, 1 or 0. -/
def boolWord (b : Bool) : Word := if b then 1#32 else 0#32

end Sys2Proof.Machine
end

