-- ==== Sys2Proof/Machine/Galois.lean ====
section
/-! DEFINITION. GF(256): the tables `GFEXP` and `GFLOG` and the field functions (R120 to R127). -/

namespace Sys2Proof.Machine

/-- Multiply by `z`: shift left and reduce by `PRIM_POLY` (R120). -/
def gfDouble (p : Params) (v : Byte) : Byte :=
  if v.msb then (v <<< 1) ^^^ p.primPoly.setWidth 8 else v <<< 1

/-- The product of `v` with the polynomial whose coefficients are the bits of `a` from bit `i` on;
`n` bits of `a` are left. -/
def gfShiftAdd (p : Params) (a : Byte) : (n i : Nat) → (v acc : Byte) → Byte
  | 0, _, _, acc => acc
  | n + 1, i, v, acc =>
    gfShiftAdd p a n (i + 1) (gfDouble p v) (if a.getLsbD i then acc ^^^ v else acc)

/-- Multiply by `ALPHA`: the table fill's step, a doubling for the spec's `ALPHA = 2` (R120). -/
def gfStep (p : Params) (v : Byte) : Byte :=
  if p.alpha = 2#8 then gfDouble p v else gfShiftAdd p p.alpha 8 0 v 0#8

/-- `v`, `step v`, `step (step v)` and so on, `n` elements. -/
def gfIterate (step : Byte → Byte) : (n : Nat) → (v : Byte) → List Byte
  | 0, _ => []
  | n + 1, v => v :: gfIterate step n (step v)

/-- `GFEXP[0..254]`: the powers of `ALPHA` (R120). -/
def gfPowers (p : Params) : List Byte := gfIterate (gfStep p) 255 1#8

/-- The last `i` at which the list, numbered from `i`, has `v`; `found` where it has it nowhere. -/
def lastIndex (v : Byte) : List Byte → (i found : Nat) → Nat
  | [], _, found => found
  | w :: l, i, found => lastIndex v l (i + 1) (if w = v then i else found)

/-- The two tables as the units use them. -/
structure GfTable where
  /-- `GFEXP[0..254]`; the entries up to 511 repeat with period 255 (R120). -/
  exp : Array Byte
  /-- `GFLOG[1..255]`, entry number `v - 1` for `v`: there is no entry for 0 (R120, R41). -/
  log : Array Nat
  deriving DecidableEq, Repr

/-- The tables of an instance, filled as R120 says: `GFLOG[v]` is the `i` that was assigned last. -/
def gfTable (p : Params) : GfTable where
  exp := (gfPowers p).toArray
  log := ((List.range 255).map fun k => lastIndex (BitVec.ofNat 8 (k + 1)) (gfPowers p) 0 0).toArray

/-- `GFEXP[i]` (R120), `i` below 512; every entry is the power `ALPHA^(i mod 255)`. -/
def gfExp (t : GfTable) (i : Nat) : Byte := t.exp.getD (i % 255) 0#8

/-- `GFLOG[v]` for `v` from 1 to 255 (R120).  `0 - 1` is the byte 255, past the last entry: the table has
nothing for 0, and no rule asks for it. -/
def gfLog (t : GfTable) (v : Byte) : Nat := t.log.getD (v - 1#8).toNat 0

/-- `alphaPow(e)` (R125). -/
def alphaPow (t : GfTable) (e : Nat) : Byte := gfExp t (e % 255)

/-- `gfmul(a, b)` (R123). -/
def gfmul (t : GfTable) (a b : Byte) : Byte :=
  if a = 0#8 ∨ b = 0#8 then 0#8 else gfExp t (gfLog t a + gfLog t b)

/-- `gfpow(a, n)` for `a` not 0 (R124). -/
def gfpow (t : GfTable) (a : Byte) (n : Nat) : Byte := gfExp t ((gfLog t a * n) % 255)

/-- `gfdiv(a, b)` for `b` not 0 (R126). -/
def gfdiv (t : GfTable) (a b : Byte) : Byte :=
  if a = 0#8 then 0#8 else gfExp t (gfLog t a + 255 - gfLog t b)

/-- `gfinv(b)` for `b` not 0: `gfdiv(1, b)` (R127). -/
def gfinv (t : GfTable) (b : Byte) : Byte := gfdiv t 1#8 b

end Sys2Proof.Machine
end

