-- ==== Sys2Proof/Machine/Cosine.lean ====
section
/-! DEFINITION. Exact arithmetic in the real fields generated by `cos(π/(2n))`, `n` a power of 2.

An element is the list of its coefficients over `1, t1, ..., t(n-1)` with `tk = 2*cos(k*π/(2n))`;
coefficients left out at the end are 0.  Products follow `2cos(x) * 2cos(y) = 2cos(x+y) + 2cos(x-y)`.
The block needs `n = 32` (type `CosNum`), for the 32-point basis of R232 and the 8-point basis of R180;
the sign of an element is found through the smaller fields. -/

namespace Sys2Proof.Cosine

/-- The element 0. -/
def zero (α : Type) [Zero α] (n : Nat) : List α := List.replicate n 0

/-- The sum of two elements. -/
def addList {α : Type} [Add α] : List α → List α → List α
  | [], b => b
  | a :: as, [] => a :: as
  | a :: as, b :: bs => (a + b) :: addList as bs

/-- Leave out the zeros at the end. -/
def trim {α : Type} [Zero α] [DecidableEq α] : List α → List α
  | [] => []
  | q :: l =>
    match trim l with
    | [] => if q = 0 then [] else [q]
    | r :: m => q :: r :: m

/-- Add `q` to coefficient `k`; nothing happens where there is no coefficient `k`. -/
def addAt {α : Type} [Add α] (q : α) : Nat → List α → List α
  | _, [] => []
  | 0, c :: cs => (c + q) :: cs
  | k + 1, c :: cs => c :: addAt q k cs

/-- Add `q * 2*cos(m*π/(2n))`, for any natural `m`, by the period `4n` and the symmetries of the
cosine. -/
def addCos {α : Type} [Add α] [Neg α] (n : Nat) (q : α) (m : Nat) (l : List α) : List α :=
  let r := m % (4 * n)
  let k := if 2 * n < r then 4 * n - r else r
  if k = 0 then addAt (q + q) 0 l
  else if k < n then addAt q k l
  else if k = n then l
  else if k = 2 * n then addAt (-(q + q)) 0 l
  else addAt (-q) (2 * n - k) l

/-- Add the product of the basis elements number `i` and `j`, times `q`. -/
def addProd {α : Type} [Add α] [Neg α] (n : Nat) (q : α) (i j : Nat) (l : List α) : List α :=
  if i = 0 then addAt q j l
  else if j = 0 then addAt q i l
  else addCos n q (i + j) (addCos n q (if i < j then j - i else i - j) l)

/-- Add `a` times basis element `i` times the element whose coefficients from number `j` on are
given. -/
def mulRow {α : Type} [Zero α] [Add α] [Neg α] [Mul α] [DecidableEq α] (n i : Nat) (a : α) :
    Nat → List α → List α → List α
  | _, [], acc => acc
  | j, b :: bs, acc =>
    mulRow n i a (j + 1) bs (if b = 0 then acc else addProd n (a * b) i j acc)

/-- Add the product of `b` with the element whose coefficients from number `i` on are given. -/
def mulFrom {α : Type} [Zero α] [Add α] [Neg α] [Mul α] [DecidableEq α] (n : Nat) (b : List α) :
    Nat → List α → List α → List α
  | _, [], acc => acc
  | i, a :: as, acc => mulFrom n b (i + 1) as (if a = 0 then acc else mulRow n i a 0 b acc)

/-- The product of two elements. -/
def mul {α : Type} [Zero α] [Add α] [Neg α] [Mul α] [DecidableEq α] (n : Nat) (a b : List α) :
    List α :=
  mulFrom n b 0 a (zero α n)

/-- The coefficients at even places: the part that lies in the field of half the degree. -/
def evens {α : Type} : List α → List α
  | [] => []
  | [a] => [a]
  | a :: _ :: l => a :: evens l

/-- The coefficients at odd places. -/
def odds {α : Type} : List α → List α
  | [] => []
  | [_] => []
  | _ :: b :: l => b :: odds l

/-- The odd part divided by `t1`: `t(2m+1) = t1 * (t(2m) - t(2m-2) + ... ± 1)`, so coefficient `j` of
the quotient is the alternating sum of the odd coefficients from number `j` on. -/
def altSuffix {α : Type} [Sub α] : List α → List α
  | [] => []
  | o :: os =>
    match altSuffix os with
    | [] => [o]
    | s :: ss => (o - s) :: s :: ss

/-- The sign (-1, 0 or 1) of the real number with these integer coefficients, in the field with
`n = 2^k`.  With `x = a + b*t1`, `a` and `b` in the field of half the degree and `t1 > 0`, the sign
is that of the one of the two parts with the larger square, and `t1² = 2 + t2`. -/
def sign : Nat → List Int → Int
  | 0, l => (l.headD 0).sign
  | k + 1, l =>
    let a := evens l
    let b := altSuffix (odds l)
    let sa := sign k a
    let sb := sign k b
    if sb = 0 then sa
    else if sa = 0 then sb
    else if sa = sb then sa
    else
      let n := 2 ^ k
      let t1sq := addCos n 1 1 (addAt 2 0 (zero Int n))
      sa * sign k (List.zipWith (· - ·) (mul n a a) (mul n (mul n b b) t1sq))

/-- The least common multiple of the denominators, at least 1. -/
def commonDen (l : List Rat) : Nat := l.foldr (fun q d => Nat.lcm q.den d) 1

/-- The integer coefficients of an element times `d`, a common multiple of the denominators. -/
def scaled (d : Nat) (l : List Rat) : List Int := l.map (fun q => q.num * ((d / q.den : Nat) : Int))

/-- The sign of an element with rational coefficients, in the field with `n = 2^k`. -/
def signRat (k : Nat) (l : List Rat) : Int := sign k (scaled (commonDen l) l)

end Sys2Proof.Cosine
end

