-- ==== Sys2Proof/Machine/Reals.lean ====
section
/-! DEFINITION. The real numbers that a `CosNum` and a `Num` stand for (R12), and the reals outside the
field, of which the model says nothing.

The real-valued definitions say what the machine's numbers mean; the machine computes with
coefficients. -/

namespace Sys2Proof

namespace Machine

/-- `tk = 2*cos(k*π/(2n))`, and 1 for `k = 0`. -/
noncomputable def cosUnit (n k : Nat) : ℝ := if k = 0 then 1 else 2 * Real.cos (k * Real.pi / (2 * n))

/-- The real number whose coefficients from number `k` on are given, in the field of
`Sys2Proof/Machine/Cosine.lean`. -/
noncomputable def cosValueFrom (n : Nat) : (k : Nat) → List Rat → ℝ
  | _, [] => 0
  | k, q :: l => (q : ℝ) * cosUnit n k + cosValueFrom n (k + 1) l

/-- The real number a list of coefficients stands for. -/
noncomputable def cosValue (n : Nat) (l : List Rat) : ℝ := cosValueFrom n 0 l

/-- `z` is the sign of the real number `x`. -/
def IsSign (z : Int) (x : ℝ) : Prop := (z = 1 ∧ 0 < x) ∨ (z = 0 ∧ x = 0) ∨ (z = -1 ∧ x < 0)

end Machine

open Machine

/-- The real number of an element of the field: a list has at most 32 coefficients, and any beyond
those do not count. -/
noncomputable def CosNum.toReal (a : CosNum) : ℝ := cosValue 32 (a.take 32)

/-- The real number of a `Num` when `r(k)` is `value k`. -/
noncomputable def Num.valueIn (value : Nat → ℝ) (x : Num) : ℝ :=
  CosNum.toReal x.base + (x.atoms.map fun a => CosNum.toReal a.2 * value a.1).sum

/-- The reals `r(0), r(1), ...` that a `Num` may hold beside the field, with what the machine needs of
them: a bound on each, and the sign of every combination. -/
structure RealAtoms where
  value : Nat → ℝ
  bound : Nat → Nat
  abs_value_le : ∀ k, |value k| ≤ bound k
  sign : Num → Int
  sign_spec : ∀ x : Num, IsSign (sign x) (x.valueIn value)

/-- The reals outside the field that occur: a free value, any sequence of reals whatever (R12, R76; log
entry 3).  Where there are none, every `r(k)` counts as 0. -/
opaque Config.realAtoms : Option RealAtoms

/-- `r(k)`. -/
noncomputable def Config.atomValue (k : Nat) : ℝ :=
  match Config.realAtoms with
  | none => 0
  | some a => a.value k

/-- A bound on the size of `r(k)`. -/
def Config.atomBound (k : Nat) : Nat :=
  match Config.realAtoms with
  | none => 0
  | some a => a.bound k

/-- The real number a `Num` stands for. -/
noncomputable def Num.toReal (x : Num) : ℝ := x.valueIn Config.atomValue

end Sys2Proof
end

