-- ==== Sys2Proof/Machine/Num.lean ====
section
/-! DEFINITION. The arithmetic of `Num`, over the exact reals (R12). -/

namespace Sys2Proof

/-! ### The field -/

/-- The sum. -/
def CosNum.add (a b : CosNum) : CosNum := Cosine.trim (Cosine.addList a b)

/-- The product with a rational number. -/
def CosNum.scale (q : Rat) (a : CosNum) : CosNum := Cosine.trim (a.map (q * ·))

/-- The product. -/
def CosNum.mul (a b : CosNum) : CosNum := Cosine.trim (Cosine.mul 32 (a.take 32) (b.take 32))

/-- The sign of the real number: -1, 0 or 1. -/
def CosNum.sign (a : CosNum) : Int := Cosine.signRat 5 (a.take 32)

/-- A rational number. -/
def CosNum.ofRat (q : Rat) : CosNum := Cosine.trim [q]

/-- `cos(m*π/64)`, for any natural `m`. -/
def CosNum.cosPi64 (m : Nat) : CosNum :=
  Cosine.trim (Cosine.addCos 32 (1 / 2 : Rat) m (Cosine.zero Rat 32))

/-- `cos(m*π/16)`, for any natural `m`. -/
def CosNum.cosPi16 (m : Nat) : CosNum := CosNum.cosPi64 (4 * m)

/-- `1/sqrt(8) = cos(4π/16) / 2`. -/
def CosNum.invSqrt8 : CosNum := CosNum.scale (1 / 2) (CosNum.cosPi16 4)

/-- Twice the sum of the coefficients' sizes, each rounded up: no smaller than the absolute value. -/
def CosNum.bound (a : CosNum) : Nat :=
  2 * (a.take 32).foldr (fun q b => (q.num.natAbs / q.den + 1) + b) 0

/-! ### Real numbers -/

/-- An element of the field as a `Num`. -/
def Num.ofCos (a : CosNum) : Num := ⟨a, []⟩

/-- A rational number as a `Num`. -/
def Num.ofRat (q : Rat) : Num := Num.ofCos (CosNum.ofRat q)

/-- An integer as a `Num`. -/
def Num.ofInt (z : Int) : Num := Num.ofRat (z : Rat)

/-- Add `c*r(k)` to a list of such terms, in rising order of `k` and without zero terms. -/
def addAtom (k : Nat) (c : CosNum) : List (Nat × CosNum) → List (Nat × CosNum)
  | [] => if c = [] then [] else [(k, c)]
  | (j, d) :: l =>
    if k < j then (if c = [] then (j, d) :: l else (k, c) :: (j, d) :: l)
    else if k = j then (if CosNum.add c d = [] then l else (k, CosNum.add c d) :: l)
    else (j, d) :: addAtom k c l

/-- The sum. -/
def Num.add (x y : Num) : Num :=
  ⟨CosNum.add x.base y.base, x.atoms.foldr (fun a l => addAtom a.1 a.2 l) y.atoms⟩

/-- Apply `f`, the product with some constant, to every coefficient. -/
def Num.mapCoeffs (f : CosNum → CosNum) (x : Num) : Num :=
  ⟨f x.base, (x.atoms.map fun a => (a.1, f a.2)).filter fun a => a.2 ≠ []⟩

/-- The product with a rational number. -/
def Num.scale (q : Rat) (x : Num) : Num := x.mapCoeffs (CosNum.scale q)

/-- The product with an element of the field. -/
def Num.smul (c : CosNum) (x : Num) : Num := x.mapCoeffs (CosNum.mul c)

/-- The negative. -/
def Num.neg (x : Num) : Num := Num.scale (-1) x

/-- The difference. -/
def Num.sub (x y : Num) : Num := Num.add x (Num.neg y)

/-- The sign of the real number: -1, 0 or 1.  It is computed for a number of the field, and otherwise
what the free reals make it. -/
def Num.sign (x : Num) : Int :=
  if x.atoms = [] then CosNum.sign x.base
  else
    match Config.realAtoms with
    | none => CosNum.sign x.base
    | some a => a.sign x

/-- `x < y` over the reals. -/
def Num.lt (x y : Num) : Bool := decide ((Num.sub y x).sign = 1)

/-- `x <= y` over the reals. -/
def Num.le (x y : Num) : Bool := !Num.lt y x

/-- The absolute value `abs(v)` of R12. -/
def Num.abs (x : Num) : Num := if x.sign = -1 then Num.neg x else x

/-- A bound above the absolute value. -/
def Num.bound (x : Num) : Int :=
  ((CosNum.bound x.base + (x.atoms.map fun a => CosNum.bound a.2 * Config.atomBound a.1).sum + 1 : Nat) :
    Int)

/-- Bisection for the floor: with `lo <= x < lo + 2^fuel` the answer is the floor of `x`. -/
def Num.floorFrom (x : Num) : Nat → Int → Int
  | 0, lo => lo
  | fuel + 1, lo =>
    let mid := lo + (2 ^ fuel : Nat)
    if Num.le (Num.ofInt mid) x then Num.floorFrom x fuel mid else Num.floorFrom x fuel lo

/-- Rational numbers near `1, t1, ..., t31`, used only to guess a floor that is then checked. -/
def CosNum.approximations : List Rat :=
  [1, 1997590912410 / 1000000000000, 1990369453344 / 1000000000000, 1978353019930 / 1000000000000,
   1961570560806 / 1000000000000, 1940062506389 / 1000000000000, 1913880671464 / 1000000000000, 1883088130366 / 1000000000000,
   1847759065023 / 1000000000000, 1807978586247 / 1000000000000, 1763842528697 / 1000000000000, 1715457220001 / 1000000000000,
   1662939224605 / 1000000000000, 1606415062961 / 1000000000000, 1546020906725 / 1000000000000, 1481902250710 / 1000000000000,
   1414213562373 / 1000000000000, 1343117909694 / 1000000000000, 1268786568327 / 1000000000000, 1191398608985 / 1000000000000,
   1111140466039 / 1000000000000, 1028205488386 / 1000000000000, 942793473652 / 1000000000000, 855110186861 / 1000000000000,
   765366864730 / 1000000000000, 673779706784 / 1000000000000, 580569354509 / 1000000000000, 485960359807 / 1000000000000,
   390180644032 / 1000000000000, 293460948911 / 1000000000000, 196034280659 / 1000000000000, 98135348655 / 1000000000000]

/-- A guess of the floor of `x`. -/
def Num.floorGuess (x : Num) : Int :=
  ((List.zipWith (· * ·) x.base CosNum.approximations).foldr (· + ·) 0).floor

/-- `floor(v)`: the guess where it is right, else by bisection. -/
def Num.floor (x : Num) : Int :=
  let g := Num.floorGuess x
  if Num.le (Num.ofInt g) x && Num.lt x (Num.ofInt (g + 1)) then g
  else Num.floorFrom x (Nat.log2 (2 * x.bound.toNat) + 1) (-x.bound)

/-- `roundHalfUp(v) = floor(v + 1/2)` (R12). -/
def Num.roundHalfUp (x : Num) : Int := Num.floor (Num.add x (Num.ofRat (1 / 2)))

/-- The sum of `f 0` to `f (n - 1)`. -/
def Num.sumTo : Nat → (Nat → Num) → Num
  | 0, _ => Num.ofRat 0
  | n + 1, f => Num.add (Num.sumTo n f) (f n)

end Sys2Proof
end

