-- ==== Sys2Proof/Machine/Operands.lean ====
section
/-! DEFINITION. The operand forms: immediates, space and control register numbers, the bounds of the
spaces, one-bit operands, embedding positions and the image geometry. -/

namespace Sys2Proof.Machine

/-! ### Immediates (R94) -/

/-- The operand of `LI`: `zext_32(imm16)` (R94, R266). -/
def immLow (imm : BitVec 16) : Word := imm.setWidth 32

/-- The operand of `LIH`: the immediate above the low half of the old value (R94, R267). -/
def immHigh (imm : BitVec 16) (old : Word) : Word := imm ++ old.extractLsb' 0 16

/-! ### Space numbers (R40) -/

/-- The space a `sel` field names, none for 18 to 255 (R40). -/
def spaceOfSel (sel : Sel) : Option Space :=
  match sel.toNat with
  | 0 => some .pix
  | 1 => some .sym
  | 2 => some .bit
  | 3 => some .msg
  | 4 => some .perm
  | 5 => some .gen
  | 6 => some .syn
  | 7 => some .gfexp
  | 8 => some .gflog
  | 9 => some .dctc
  | 10 => some .blks
  | 11 => some .blkf
  | 12 => some .blkr
  | 13 => some .acc0
  | 14 => some .acc1
  | 15 => some .conf
  | 16 => some .ph
  | 17 => some .phref
  | _ => none

/-- The `sel` number of a space (R40). -/
def selOfSpace : Space → Nat
  | .pix => 0
  | .sym => 1
  | .bit => 2
  | .msg => 3
  | .perm => 4
  | .gen => 5
  | .syn => 6
  | .gfexp => 7
  | .gflog => 8
  | .dctc => 9
  | .blks => 10
  | .blkf => 11
  | .blkr => 12
  | .acc0 => 13
  | .acc1 => 14
  | .conf => 15
  | .ph => 16
  | .phref => 17

/-- Whether a space is `RW`: written by `STS` and by the host (R40). -/
def spaceWritable : Space → Bool
  | .pix | .sym | .bit | .msg | .perm => true
  | .gen | .syn | .gfexp | .gflog | .dctc => false
  | .blks | .blkf | .blkr | .acc0 | .acc1 | .conf => true
  | .ph => false
  | .phref => true

/-- The width of an integer space's elements, none for a `Num` space (R40). -/
def spaceWidth : Space → Option Nat
  | .pix | .sym | .gen | .syn | .gfexp | .gflog => some 8
  | .bit | .ph | .phref => some 1
  | .msg => some 16
  | .perm => some 32
  | .dctc | .blks | .blkf | .blkr | .acc0 | .acc1 | .conf => none

/-- The size of a space in elements (R40). -/
def spaceSize (p : Params) : Space → Nat
  | .pix => p.pixSize
  | .sym => p.symSize
  | .bit => p.bitSize
  | .msg => p.msgSize
  | .perm => p.permSize
  | .gen => p.nsymMax + 1
  | .syn => p.nsymMax
  | .gfexp => 512
  | .gflog => 256
  | .dctc | .blks | .blkf | .blkr => p.shape.block * p.shape.block
  | .acc0 | .acc1 => p.bitSize
  | .conf => 1
  | .ph | .phref => p.shape.phBits

/-- Whether index `i` lies in the live range of a space (R40, R62). -/
def State.live (s : State) (sp : Space) (i : Nat) : Bool :=
  match sp with
  | .perm => decide (i < s.permN.toNat)
  | .gen => decide (i ≤ s.rsNsym.toNat)
  | .syn => decide (i < s.rsNsym.toNat)
  | .gflog => decide (1 ≤ i)
  | _ => true

/-- Whether an index is in bounds: inside the size and inside the live range (R62). -/
def State.inBounds (s : State) (sp : Space) (i : Nat) : Bool :=
  decide (i < spaceSize s.cfg sp) && s.live sp i

/-! ### Control register numbers (R30) -/

/-- The control register a `sel` field names, none for 0x0C to 0xFF (R30). -/
def csrOfSel (sel : Sel) : Option Csr :=
  match sel.toNat with
  | 0x00 => some .status
  | 0x01 => some .cause
  | 0x02 => some .finfo
  | 0x03 => some .rngSeed
  | 0x04 => some .rsNsym
  | 0x05 => some .permN
  | 0x06 => some .imgW
  | 0x07 => some .imgH
  | 0x08 => some .strength
  | 0x09 => some .magic
  | 0x0A => some .lsbMagic
  | 0x0B => some .id
  | _ => none

/-- Whether `CSRW` and the host may write a control register (R30). -/
def csrWritable : Csr → Bool
  | .imgW | .imgH | .strength => true
  | .status | .cause | .finfo | .rngSeed | .rsNsym | .permN | .magic | .lsbMagic | .id => false

/-! ### One-bit operands and positions (R201, R202) -/

/-- `sgn(bit)`: +1 for 1, -1 for 0 (R201). -/
def sgnOfBit (b : Nat) : Int := if b = 1 then 1 else -1

/-- `spr(sf)`: +1 for 1, -1 for 0 (R201). -/
def sprOfFlag (sf : Nat) : Int := if sf = 1 then 1 else -1

/-- The index in `BLKF` of embedding position `k`: `8*u + v`, 8 being `BLOCK` (R196). -/
def posIndex (p : Params) (k : Nat) : Nat :=
  let uv := p.embedPos.getD k (0, 0)
  p.shape.block * uv.1 + uv.2

/-! ### Image geometry (R35, R197) -/

/-- `W` (R35). -/
def State.width (s : State) : Nat := s.imgW.toNat

/-- `H` (R35). -/
def State.height (s : State) : Nat := s.imgH.toNat

/-- `P = W * H`, the pixel count (R35). -/
def State.pixels (s : State) : Nat := s.width * s.height

/-- `BW = W div 8` (R35). -/
def State.blockCols (s : State) : Nat := s.width / s.cfg.shape.block

/-- `BH = H div 8` (R35). -/
def State.blockRows (s : State) : Nat := s.height / s.cfg.shape.block

/-- `NB = BW * BH` (R35). -/
def State.blocks (s : State) : Nat := s.blockCols * s.blockRows

/-- The bytes the image takes, `4*W*H` (R35). -/
def State.imageBytes (s : State) : Nat := 4 * s.width * s.height

/-- The pixel number of sample (`r`, `c`) of image block `b` (R197). -/
def State.blockPixel (s : State) (b r c : Nat) : Nat :=
  (s.cfg.shape.block * (b / s.blockCols) + r) * s.width +
    (s.cfg.shape.block * (b % s.blockCols) + c)

/-! ### Bit order (R64): the most significant bit first -/

/-- The low `w` bits of `v`, most significant first. -/
def bitsMsb (w v : Nat) : List Bit := (List.range w).map fun t => BitVec.ofBool (v.testBit (w - 1 - t))

/-- The integer whose bits these are, most significant first. -/
def ofBitsMsb (l : List Bit) : Nat := l.foldl (fun a b => 2 * a + b.toNat) 0

end Sys2Proof.Machine
end

