-- ==== Sys2Proof/Machine/Ops.lean ====
section
/-! DEFINITION. The named operations over registers, spaces and control registers, taking a fault and
returning from one. -/

namespace Sys2Proof.Machine

/-! ### Scalar registers (R21) -/

/-- `x[r]` (R13, R21). -/
def State.getX (s : State) (r : RegNum) : Word := s.x[r.toNat]

/-- `x[r] <- v` (R13, R21). -/
def State.setX (s : State) (r : RegNum) (v : Word) : State := { s with x := s.x.set r.toNat v }

/-- `x[r]` as the unsigned integer it is (R10). -/
def State.natX (s : State) (r : RegNum) : Nat := (s.getX r).toNat

/-- `x[r] <- v` for an integer, which is first reduced mod 2^32 (R13). -/
def State.putX (s : State) (r : RegNum) (v : Nat) : State := s.setX r (BitVec.ofNat 32 v)

/-! ### Faults (R310 to R317) -/

/-- The code of a fault (R311). -/
def FaultKind.code : FaultKind → BitVec 8
  | .illegalCommand => 1
  | .operandRange => 2
  | .bufferBounds => 3
  | .divisionByZero => 4
  | .gfLogOfZero => 5
  | .capacity => 6
  | .readOnly => 7
  | .numRange => 8
  | .rngRange => 9

/-- Taking a fault with information `v`: `STATUS.FAULT`, `CAUSE` and `FINFO` are written and nothing
else (R312). -/
def State.raise (s : State) (k : FaultKind) (v : Nat) : State :=
  { s with fault := true, cause := k.code, finfo := BitVec.ofNat 32 v }

/-- The return from a fault: `CLRF` clears the three (R270, R316). -/
def State.acknowledge (s : State) : State := { s with fault := false, cause := 0#8, finfo := 0#32 }

/-- What a command's rule gives: the next state, or the fault it raises with its information. -/
abbrev Cmd := Except (FaultKind × Nat) State

/-- A command's effect: the state its rule gives, or the fault taken on the state before the command,
so that faults are precise (R313). -/
def State.settle (s : State) (c : Cmd) : State :=
  match c with
  | .ok t => t
  | .error (k, v) => s.raise k v

/-- Perform a command: while `FAULT = 1` it is discarded (R314). -/
def State.perform (s : State) (c : Cmd) : Host.Outcome State Fault Refusal :=
  .next (if s.fault then s else s.settle c)

/-! ### Real results (R12, R186) -/

/-- A `Num` result of a command: the rule's value in the exact system; with an implementation's
system, what the implementation's own function gives on these inputs, where that is within the
tolerance of the rule's value (R12).  The exact system's functions are the rules' formulas.

`inputs` are the operands and the stored elements that the command's rule reads, in the order of its
pseudocode.  That the result depends on these and on nothing else is the model's choice (DESIGN
CHOICE, log entry 7). -/
def State.approx (s : State) (site : NumSite) (inputs : List Num) (k : Nat) (v : Num) : Num :=
  match s.cfg.num with
  | .exact => v
  | .approx n =>
    let r := Config.numResult n.format site inputs k
    if Num.le (Num.sub r v).abs (Num.ofRat (n.eps * n.scale.at site)) then r else v

/-- The implementation's values of a list of results on given inputs (R12, R186). -/
def State.approxAll (s : State) (site : NumSite) (inputs : List Num) (l : List Num) : List Num :=
  l.zipIdx.map fun vk => s.approx site inputs vk.2 vk.1

/-! ### Elements of the spaces (R40, R76) -/

/-- `PIX[i]`. -/
def State.pixAt (s : State) (i : Nat) : Byte :=
  s.pix.readOr (fun i => (Config.unwrittenInt s.resets 0 i).setWidth 8) i

/-- `SYM[i]`. -/
def State.symAt (s : State) (i : Nat) : Byte :=
  s.sym.readOr (fun i => (Config.unwrittenInt s.resets 1 i).setWidth 8) i

/-- `BIT[i]`. -/
def State.bitAt (s : State) (i : Nat) : Bit :=
  s.bit.readOr (fun i => (Config.unwrittenInt s.resets 2 i).setWidth 1) i

/-- `MSG[i]`. -/
def State.msgAt (s : State) (i : Nat) : Half :=
  s.msg.readOr (fun i => (Config.unwrittenInt s.resets 3 i).setWidth 16) i

/-- `PERM[i]`. -/
def State.permAt (s : State) (i : Nat) : Word :=
  s.perm.readOr (fun i => Config.unwrittenInt s.resets 4 i) i

/-- `GEN[i]`; every live element is written (R37, R42). -/
def State.genAt (s : State) (i : Nat) : Byte :=
  s.gen.readOr (fun i => (Config.unwrittenInt s.resets 5 i).setWidth 8) i

/-- `SYN[i]`; between an `RSCFG` and the next `RSSYN` or `RSDEC` unspecified (R42). -/
def State.synAt (s : State) (i : Nat) : Byte :=
  s.syn.readOr (fun i => Config.unspecifiedSyn s.synEpoch i) i

/-- `BLKS[i]`. -/
def State.blksAt (s : State) (i : Nat) : Num := s.blks.readOr (Config.unwrittenNum s.resets 10) i

/-- `BLKF[i]`. -/
def State.blkfAt (s : State) (i : Nat) : Num := s.blkf.readOr (Config.unwrittenNum s.resets 11) i

/-- `BLKR[i]`. -/
def State.blkrAt (s : State) (i : Nat) : Num := s.blkr.readOr (Config.unwrittenNum s.resets 12) i

/-- `ACC0[i]`. -/
def State.acc0At (s : State) (i : Nat) : Num := s.acc0.readOr (Config.unwrittenNum s.resets 13) i

/-- `ACC1[i]`. -/
def State.acc1At (s : State) (i : Nat) : Num := s.acc1.readOr (Config.unwrittenNum s.resets 14) i

/-- `CONF` (R24). -/
def State.confVal (s : State) : Num := s.conf.readOr (Config.unwrittenNum s.resets 15) 0

/-- `PH[i]` (R25). -/
def State.phAt (s : State) (i : Nat) : Bit :=
  s.ph.readOr (fun i => (Config.unwrittenInt s.resets 16 i).setWidth 1) i

/-- `PHREF[i]` (R25). -/
def State.phrefAt (s : State) (i : Nat) : Bit :=
  s.phref.readOr (fun i => (Config.unwrittenInt s.resets 17 i).setWidth 1) i

/-- The cosine basis `C[i][j] = c(i) * cos((2j+1)*i*π/16)` with `c(0) = 1/sqrt(8)` and `c(i) = 1/2`
(R180). -/
def basis (i j : Nat) : CosNum :=
  if i = 0 then CosNum.invSqrt8 else CosNum.scale (1 / 2) (CosNum.cosPi16 ((2 * j + 1) * i))

/-- `DCTC[k] = C[k div 8][k mod 8]`, 8 being `BLOCK` (R180, R44). -/
def dctcAt (p : Params) (k : Nat) : Num := Num.ofCos (basis (k / p.shape.block) (k % p.shape.block))

/-- Element `i` of a space, for an index in bounds (R60, R70). -/
def State.element (s : State) (sp : Space) (i : Nat) : Elem :=
  match sp with
  | .pix => .int (s.pixAt i).toNat
  | .sym => .int (s.symAt i).toNat
  | .bit => .int (s.bitAt i).toNat
  | .msg => .int (s.msgAt i).toNat
  | .perm => .int (s.permAt i).toNat
  | .gen => .int (s.genAt i).toNat
  | .syn => .int (s.synAt i).toNat
  | .gfexp => .int (gfExp (gfTable s.cfg) i).toNat
  | .gflog => .int (gfLog (gfTable s.cfg) (BitVec.ofNat 8 i))
  | .dctc => .num (dctcAt s.cfg i)
  | .blks => .num (s.blksAt i)
  | .blkf => .num (s.blkfAt i)
  | .blkr => .num (s.blkrAt i)
  | .acc0 => .num (s.acc0At i)
  | .acc1 => .num (s.acc1At i)
  | .conf => .num s.confVal
  | .ph => .int (s.phAt i).toNat
  | .phref => .int (s.phrefAt i).toNat

/-! ### Writing spaces -/

/-- Write cells of `PIX`. -/
def State.writePix (s : State) (cells : List (Nat × Byte)) : State :=
  { s with pix := s.pix.writeAll cells }

/-- Write cells of `SYM`. -/
def State.writeSym (s : State) (cells : List (Nat × Byte)) : State :=
  { s with sym := s.sym.writeAll cells }

/-- Write cells of `BIT`. -/
def State.writeBit (s : State) (cells : List (Nat × Bit)) : State :=
  { s with bit := s.bit.writeAll cells }

/-- Write cells of `MSG`. -/
def State.writeMsg (s : State) (cells : List (Nat × Half)) : State :=
  { s with msg := s.msg.writeAll cells }

/-- Write cells of `PERM`. -/
def State.writePerm (s : State) (cells : List (Nat × Word)) : State :=
  { s with perm := s.perm.writeAll cells }

/-- Write cells of `GEN` (only `RSCFG` does, R42). -/
def State.writeGen (s : State) (cells : List (Nat × Byte)) : State :=
  { s with gen := s.gen.writeAll cells }

/-- Write cells of `SYN` (only `RSSYN` and `RSDEC` do, R42). -/
def State.writeSyn (s : State) (cells : List (Nat × Byte)) : State :=
  { s with syn := s.syn.writeAll cells }

/-- Write cells of `BLKS`. -/
def State.writeBlks (s : State) (cells : List (Nat × Num)) : State :=
  { s with blks := s.blks.writeAll cells }

/-- Write cells of `BLKF`. -/
def State.writeBlkf (s : State) (cells : List (Nat × Num)) : State :=
  { s with blkf := s.blkf.writeAll cells }

/-- Write cells of `BLKR`. -/
def State.writeBlkr (s : State) (cells : List (Nat × Num)) : State :=
  { s with blkr := s.blkr.writeAll cells }

/-- Write cells of `ACC0`. -/
def State.writeAcc0 (s : State) (cells : List (Nat × Num)) : State :=
  { s with acc0 := s.acc0.writeAll cells }

/-- Write cells of `ACC1`. -/
def State.writeAcc1 (s : State) (cells : List (Nat × Num)) : State :=
  { s with acc1 := s.acc1.writeAll cells }

/-- Write `CONF`. -/
def State.writeConf (s : State) (v : Num) : State := { s with conf := s.conf.write 0 v }

/-- Write cells of `PH`. -/
def State.writePh (s : State) (cells : List (Nat × Bit)) : State :=
  { s with ph := s.ph.writeAll cells }

/-- Write cells of `PHREF`. -/
def State.writePhref (s : State) (cells : List (Nat × Bit)) : State :=
  { s with phref := s.phref.writeAll cells }

/-- Write one element of an integer space, reduced to its width; no effect for an `RO` or a `Num`
space. -/
def State.storeInt (s : State) (sp : Space) (i v : Nat) : State :=
  match sp with
  | .pix => s.writePix [(i, BitVec.ofNat 8 v)]
  | .sym => s.writeSym [(i, BitVec.ofNat 8 v)]
  | .bit => s.writeBit [(i, BitVec.ofNat 1 v)]
  | .msg => s.writeMsg [(i, BitVec.ofNat 16 v)]
  | .perm => s.writePerm [(i, BitVec.ofNat 32 v)]
  | .phref => s.writePhref [(i, BitVec.ofNat 1 v)]
  | .gen | .syn | .gfexp | .gflog | .ph => s
  | .dctc | .blks | .blkf | .blkr | .acc0 | .acc1 | .conf => s

/-- Write one element of a `Num` space; no effect for an `RO` or an integer space. -/
def State.storeNum (s : State) (sp : Space) (i : Nat) (v : Num) : State :=
  match sp with
  | .blks => s.writeBlks [(i, v)]
  | .blkf => s.writeBlkf [(i, v)]
  | .blkr => s.writeBlkr [(i, v)]
  | .acc0 => s.writeAcc0 [(i, v)]
  | .acc1 => s.writeAcc1 [(i, v)]
  | .conf => s.writeConf v
  | .dctc => s
  | .pix | .sym | .bit | .msg | .perm | .gen | .syn | .gfexp | .gflog | .ph | .phref => s

/-! ### The access primitives (R60, R61, R69) -/

/-- The register value of an element: an integer zero-extended, a real by `roundHalfUp` to a
two's-complement pattern, with `NumRange` outside the signed range (R60, R69). -/
def elementWord : Elem → Except (FaultKind × Nat) Word
  | .int v => .ok (BitVec.ofNat 32 v)
  | .num e =>
    let r := e.roundHalfUp
    if r < -(2 ^ 31) ∨ r > 2 ^ 31 - 1 then .error (.numRange, 0) else .ok (BitVec.ofInt 32 r)

/-- `MemRead(space(sel), i)`; `word` is the command word (R60). -/
def State.memRead (s : State) (word : Word) (sel : Sel) (i : Nat) :
    Except (FaultKind × Nat) Word :=
  match spaceOfSel sel with
  | none => .error (.illegalCommand, word.toNat)
  | some sp =>
    if s.inBounds sp i then elementWord (s.element sp i)
    else if sp = .gflog ∧ i = 0 then .error (.gfLogOfZero, 0)
    else .error (.bufferBounds, i)

/-- What `STS` reads for a `Num` space: the space, the index and the integer (R61).  An implementation's
stored value may depend on all three (log entry 7). -/
def storeInputs (sel : Sel) (i : Nat) (v : Word) : List Num :=
  [Num.ofInt sel.toNat, Num.ofInt i, Num.ofInt v.toInt]

/-- `MemWrite(space(sel), i, v)`; `word` is the command word (R61, R69).  A `Num` space receives
`sint32(v)`, exactly in the exact system and within the tolerance of R12 in an implementation's. -/
def State.memWrite (s : State) (word : Word) (sel : Sel) (i : Nat) (v : Word) : Cmd :=
  match spaceOfSel sel with
  | none => .error (.illegalCommand, word.toNat)
  | some sp =>
    if !spaceWritable sp then .error (.readOnly, sel.toNat)
    else if !s.inBounds sp i then .error (.bufferBounds, i)
    else
      match spaceWidth sp with
      | none =>
        .ok (s.storeNum sp i (s.approx .sts (storeInputs sel i v) 0 (Num.ofInt v.toInt)))
      | some w =>
        if 2 ^ w ≤ v.toNat then .error (.operandRange, v.toNat)
        else .ok (s.storeInt sp i v.toNat)

/-! ### Control registers (R30) -/

/-- The value of a control register, zero-extended (R30, R39). -/
def State.readCsr (s : State) : Csr → Word
  | .status => s.statusWord.setWidth 32
  | .cause => s.cause.setWidth 32
  | .finfo => s.finfo
  | .rngSeed => s.rngSeed.setWidth 32
  | .rsNsym => s.rsNsym.setWidth 32
  | .permN => s.permN
  | .imgW => s.imgW
  | .imgH => s.imgH
  | .strength => s.strength.setWidth 32
  | .magic => s.cfg.magic.setWidth 32
  | .lsbMagic => s.cfg.lsbMagic.setWidth 32
  | .id => Config.idValue

/-- Write a control register that may be written; no effect on the others (R30, R272). -/
def State.writeCsr (s : State) (c : Csr) (v : Nat) : State :=
  match c with
  | .imgW => { s with imgW := BitVec.ofNat 32 v }
  | .imgH => { s with imgH := BitVec.ofNat 32 v }
  | .strength => { s with strength := BitVec.ofNat 16 v }
  | .status | .cause | .finfo | .rngSeed | .rsNsym | .permN | .magic | .lsbMagic | .id => s

/-! ### The image geometry check (R35) -/

/-- The fault of an image that does not fit `PIX` (R35). -/
def State.geometryFault (s : State) : FaultKind × Nat := (.bufferBounds, s.imageBytes)

/-- Whether the image fits `PIX`: `4*W*H <= PIX_SIZE` (R35). -/
def State.imageFits (s : State) : Bool := !decide (s.cfg.pixSize < s.imageBytes)

/-! ### The generator (R160) -/

/-- One step of the generator: `(s * LCG_A + LCG_C) & LCG_MASK` (R160). -/
def lcg (p : RplValues) (v : BitVec 31) : BitVec 31 :=
  BitVec.ofNat 31 ((v.toNat * p.lcgA + p.lcgC) &&& p.lcgMask)

/-- Write `RNG_SEED` (only `SEED` and the drawing commands do, R168). -/
def State.setSeed (s : State) (v : BitVec 31) : State := { s with rngSeed := v }

/-- `luma(r, g, b)` over the exact reals (R198). -/
def luma (p : RplValues) (r g b : Byte) : Rat :=
  p.lumaR * (r.toNat : Rat) + p.lumaG * (g.toNat : Rat) + p.lumaB * (b.toNat : Rat)

/-- The luma of pixel number `n` (R43, R198). -/
def State.lumaAt (s : State) (n : Nat) : Rat :=
  luma s.cfg.rpl (s.pixAt (4 * n)) (s.pixAt (4 * n + 1)) (s.pixAt (4 * n + 2))

/-- The three colour bytes of pixel number `n`, as inputs of an operation (R43). -/
def State.pixelInputs (s : State) (n : Nat) : List Num :=
  [Num.ofInt (s.pixAt (4 * n)).toNat, Num.ofInt (s.pixAt (4 * n + 1)).toNat,
   Num.ofInt (s.pixAt (4 * n + 2)).toNat]

/-- `clamp255(v)` (R13). -/
def clamp255 (v : Int) : Byte := if v < 0 then 0#8 else if v > 255 then 255#8 else BitVec.ofInt 8 v

end Sys2Proof.Machine
end

