-- ==== Sys2Proof/Machine/Transform.lean ====
section
/-! DEFINITION. The 8×8 transform units (`43_dct8x8.md`), over the exact reals.  The side is `BLOCK`;
the basis is R180's, which is stated for `BLOCK = 8`. -/

namespace Sys2Proof.Machine

/-- A square array of side `n`, row by row, whose element `[i][j]` is the sum of `f i j k` over `k`
below `n`: a list, so that each element is computed once. -/
def matSums (n : Nat) (f : (i j k : Nat) → Num) : List Num :=
  (List.range (n * n)).map fun m => Num.sumTo n (f (m / n) (m % n))

/-- Element `[i][j]` of an array of side `n` held as a list. -/
def matAt (n : Nat) (m : List Num) (i j : Nat) : Num := m.getD (n * i + j) (Num.ofRat 0)

/-- `dct2d(B) = C * B * Cᵀ` (R181). -/
def dct2d (n : Nat) (b : (i j : Nat) → Num) : List Num :=
  let rows := matSums n fun u j i => Num.smul (basis u i) (b i j)
  matSums n fun u v j => Num.smul (basis v j) (matAt n rows u j)

/-- `idct2d(F) = Cᵀ * F * C` (R183). -/
def idct2d (n : Nat) (f : (u v : Nat) → Num) : List Num :=
  let rows := matSums n fun i v u => Num.smul (basis u i) (f u v)
  matSums n fun i j v => Num.smul (basis v j) (matAt n rows i v)

/-- `DCT` (R182). -/
def execDct (s : State) : Host.Outcome State Fault Refusal :=
  s.perform <|
    let n := s.cfg.shape.block
    let inputs := (List.range (n * n)).map s.blksAt
    let f := dct2d n (matAt n inputs)
    .ok (s.writeBlkf (Mem.cellsFrom 0 (s.approxAll .dct inputs f)))

/-- `IDCT` (R184). -/
def execIdct (s : State) : Host.Outcome State Fault Refusal :=
  s.perform <|
    let n := s.cfg.shape.block
    let inputs := (List.range (n * n)).map s.blkfAt
    let b := idct2d n (matAt n inputs)
    .ok (s.writeBlkr (Mem.cellsFrom 0 (s.approxAll .idct inputs b)))

end Sys2Proof.Machine
end

