-- ==== Sys2Proof/Machine/Embed.lean ====
section
/-! DEFINITION. The coefficient quantizer and the majority voter (`44_embed_extract.md`). -/

namespace Sys2Proof.Machine

/-! ### `coefficient_quantizer` -/

/-- The fault of `BLKGET` and `BLKPUT` for block number `b`, none where both checks pass (R199,
R200). -/
def State.blockFault (s : State) (b : Nat) : Option (FaultKind × Nat) :=
  if !s.imageFits then some s.geometryFault
  else if b ≥ s.blocks then some (.bufferBounds, b)
  else none

/-- The numbers `8*r + c` of a block's samples, 8 being `BLOCK` (R44, R197). -/
def State.blockSamples (s : State) : List Nat := List.range (s.cfg.shape.block * s.cfg.shape.block)

/-- The pixel number of sample number `k` of image block `b` (R44, R197). -/
def State.samplePixelNumber (s : State) (b k : Nat) : Nat :=
  s.blockPixel b (k / s.cfg.shape.block) (k % s.cfg.shape.block)

/-- What `BLKGET` reads: the block number, `W`, `H` and the colour bytes of the block's pixels (R199).
An implementation's samples may depend on all of these and on nothing else, also where two blocks have
one luma: R12 does not say what they depend on (DESIGN CHOICE, log entry 7). -/
def State.blockInputs (s : State) (b : Nat) : List Num :=
  [Num.ofInt b, Num.ofInt s.width, Num.ofInt s.height] ++
    s.blockSamples.flatMap fun k => s.pixelInputs (s.samplePixelNumber b k)

/-- `BLKGET rs1` (R199); what an inexact `NUM` may make of it is `State.blockInputs`' choice. -/
def execBlkget (rs1 : RegNum) (s : State) : Host.Outcome State Fault Refusal :=
  s.perform <|
    let b := s.natX rs1
    match s.blockFault b with
    | some e => .error e
    | none =>
      let samples := s.blockSamples.map fun k => Num.ofRat (s.lumaAt (s.samplePixelNumber b k))
      .ok (s.writeBlks (Mem.cellsFrom 0 (s.approxAll .blkget (s.blockInputs b) samples)))

/-- The new value of a channel byte: its weight's share of the luma change, rounded and clamped
(R200). -/
def writeBack (old : Byte) (weight : Rat) (delta : Num) : Byte :=
  clamp255 (Num.add (Num.ofInt old.toNat) (Num.scale weight delta)).roundHalfUp

/-- The three cells `BLKPUT` writes for sample `k` of block `b` (R200). -/
def State.blkputCells (s : State) (b k : Nat) : List (Nat × Byte) :=
  let n := s.samplePixelNumber b k
  let delta := Num.sub (s.blkrAt k) (s.blksAt k)
  [(4 * n, writeBack (s.pixAt (4 * n)) s.cfg.rpl.lumaR delta),
   (4 * n + 1, writeBack (s.pixAt (4 * n + 1)) s.cfg.rpl.lumaG delta),
   (4 * n + 2, writeBack (s.pixAt (4 * n + 2)) s.cfg.rpl.lumaB delta)]

/-- `BLKPUT rs1` (R200). -/
def execBlkput (rs1 : RegNum) (s : State) : Host.Outcome State Fault Refusal :=
  s.perform <|
    let b := s.natX rs1
    match s.blockFault b with
    | some e => .error e
    | none => .ok (s.writePix (s.blockSamples.flatMap (s.blkputCells b)))

/-- `qim(c, bit, sf, T) = roundHalfUp(c / q) * q + sgn(bit) * spr(sf) * T` with `q = 2*T` (R201). -/
def qim (c : Num) (bit sf T : Nat) : Int :=
  (Num.scale (1 / ((2 * T : Nat) : Rat)) c).roundHalfUp * (2 * T : Nat)
    + sgnOfBit bit * sprOfFlag sf * T

/-- `QEMB rd, rs1, rs2`: the `rd` field names a source (R202).  An implementation's result may depend
on the position, the bit, the spread flag, `STRENGTH` and the old coefficient, and on nothing else: R12
does not say (DESIGN CHOICE, log entry 7). -/
def execQemb (rd rs1 rs2 : RegNum) (s : State) : Host.Outcome State Fault Refusal :=
  s.perform <|
    let k := s.natX rd
    let bit := s.natX rs1
    let sf := s.natX rs2
    let T := s.strength.toNat
    if k ≥ s.cfg.shape.npos then .error (.operandRange, k)
    else if bit > 1 then .error (.operandRange, bit)
    else if sf > 1 then .error (.operandRange, sf)
    else if T = 0 then .error (.operandRange, 0)
    else
      let i := posIndex s.cfg k
      let c := s.blkfAt i
      let inputs := [Num.ofInt k, Num.ofInt bit, Num.ofInt sf, Num.ofInt T, c]
      .ok (s.writeBlkf [(i, s.approx .qemb inputs 0 (Num.ofInt (qim c bit sf T)))])

/-- `QEXT rd, rs1, rs2` (R203). -/
def execQext (rd rs1 rs2 : RegNum) (s : State) : Host.Outcome State Fault Refusal :=
  s.perform <|
    let k := s.natX rs1
    let sf := s.natX rs2
    if k ≥ s.cfg.shape.npos then .error (.operandRange, k)
    else if sf > 1 then .error (.operandRange, sf)
    else
      let c := s.blkfAt (posIndex s.cfg k)
      let corr := Num.scale (sprOfFlag sf : Rat) c
      .ok ((s.setX rd (boolWord (Num.lt (Num.ofRat 0) corr))).writeConf
            (s.approx .qext [Num.ofInt k, Num.ofInt sf, c] 0 corr.abs))

/-! ### `majority_voter_with_confidence` -/

/-- `VCLR rs1` (R205). -/
def execVclr (rs1 : RegNum) (s : State) : Host.Outcome State Fault Refusal :=
  s.perform <|
    let n := s.natX rs1
    if n > s.cfg.bitSize then .error (.bufferBounds, n)
    else
      let zero (k : Nat) : Num := s.approx .vclr [Num.ofInt n] k (Num.ofRat 0)
      .ok ((s.writeAcc0 (Mem.cellsFrom 0 ((List.range n).map fun i => zero (2 * i)))).writeAcc1
            (Mem.cellsFrom 0 ((List.range n).map fun i => zero (2 * i + 1))))

/-- `VACC rs1, rs2` (R206). -/
def execVacc (rs1 rs2 : RegNum) (s : State) : Host.Outcome State Fault Refusal :=
  s.perform <|
    let i := s.natX rs1
    let v := s.natX rs2
    if i ≥ s.cfg.bitSize then .error (.bufferBounds, i)
    else if v > 1 then .error (.operandRange, v)
    else if v = 1 then
      .ok (s.writeAcc1 [(i, s.approx .vacc [Num.ofInt i, Num.ofInt v, s.acc1At i, s.confVal] 0
                              (Num.add (s.acc1At i) s.confVal))])
    else
      .ok (s.writeAcc0 [(i, s.approx .vacc [Num.ofInt i, Num.ofInt v, s.acc0At i, s.confVal] 0
                              (Num.add (s.acc0At i) s.confVal))])

/-- `VOTE rd, rs1`: a tie gives 0 (R207). -/
def execVote (rd rs1 : RegNum) (s : State) : Host.Outcome State Fault Refusal :=
  s.perform <|
    let i := s.natX rs1
    if i ≥ s.cfg.bitSize then .error (.bufferBounds, i)
    else
      let b := Num.lt (s.acc0At i) (s.acc1At i)
      .ok ((s.setX rd (boolWord b)).writeBit [(i, BitVec.ofBool b)])

/-- How many of `BIT[0..15]` agree with `MAGIC`, most significant bit first (R208). -/
def State.magicMatches (s : State) : Nat :=
  (List.range 16).countP fun i => decide (s.bitAt i = BitVec.ofBool (s.cfg.magic.getLsbD (15 - i)))

/-- `MAGCMP rd` (R208). -/
def execMagcmp (rd : RegNum) (s : State) : Host.Outcome State Fault Refusal :=
  s.perform <|
    let cnt := s.magicMatches
    .ok ((s.putX rd cnt).setFound (magicFound s.cfg.rpl cnt))

end Sys2Proof.Machine
end

