-- ==== Sys2Proof/Machine/GaloisField.lean ====
section
/-! DEFINITION. The Galois-field commands (`40_galois_field.md`). -/

namespace Sys2Proof.Machine

/-- A field operand as an element; the command has checked that it is at most 255 (R122). -/
def fieldElem (v : Nat) : Byte := BitVec.ofNat 8 v

/-- `GFMUL rd, rs1, rs2` (R123). -/
def execGfmul (rd rs1 rs2 : RegNum) (s : State) : Host.Outcome State Fault Refusal :=
  s.perform <|
    let a := s.natX rs1
    let b := s.natX rs2
    if a > 255 then .error (.operandRange, a)
    else if b > 255 then .error (.operandRange, b)
    else .ok (s.putX rd (gfmul (gfTable s.cfg) (fieldElem a) (fieldElem b)).toNat)

/-- `GFPOW rd, rs1, rs2` (R124). -/
def execGfpow (rd rs1 rs2 : RegNum) (s : State) : Host.Outcome State Fault Refusal :=
  s.perform <|
    let xv := s.natX rs1
    let n := s.natX rs2
    if xv > 255 then .error (.operandRange, xv)
    else if xv = 0 then .error (.gfLogOfZero, n)
    else .ok (s.putX rd (gfpow (gfTable s.cfg) (fieldElem xv) n).toNat)

/-- `GFDIV rd, rs1, rs2` (R126). -/
def execGfdiv (rd rs1 rs2 : RegNum) (s : State) : Host.Outcome State Fault Refusal :=
  s.perform <|
    let a := s.natX rs1
    let b := s.natX rs2
    if a > 255 then .error (.operandRange, a)
    else if b > 255 then .error (.operandRange, b)
    else if b = 0 then .error (.divisionByZero, a)
    else .ok (s.putX rd (gfdiv (gfTable s.cfg) (fieldElem a) (fieldElem b)).toNat)

/-- `GFINV rd, rs1` (R127). -/
def execGfinv (rd rs1 : RegNum) (s : State) : Host.Outcome State Fault Refusal :=
  s.perform <|
    let b := s.natX rs1
    if b > 255 then .error (.operandRange, b)
    else if b = 0 then .error (.divisionByZero, 1)
    else .ok (s.putX rd (gfinv (gfTable s.cfg) (fieldElem b)).toNat)

end Sys2Proof.Machine
end

