-- ==== Sys2Proof/Machine/Generator.lean ====
section
/-! DEFINITION. The seeded generator and the block permuter (`42_seeded_rng.md`). -/

namespace Sys2Proof.Machine

/-- `SEED rs1` (R161). -/
def execSeed (rs1 : RegNum) (s : State) : Host.Outcome State Fault Refusal :=
  s.perform <|
    let v := s.natX rs1
    if v ≥ 2 ^ 31 then .error (.operandRange, v) else .ok (s.setSeed (BitVec.ofNat 31 v))

/-- `NEXT rd`: one draw (R162). -/
def execNext (rd : RegNum) (s : State) : Host.Outcome State Fault Refusal :=
  s.perform <|
    let v := lcg s.cfg.rpl s.rngSeed
    .ok ((s.setSeed v).putX rd v.toNat)

/-- `floor(u(v) * k)` with `u(v) = v / 0x7FFFFFFF`, by exact integer division; the divisor
is `LCG_MASK` (R163, R164). -/
def drawBelow (p : RplValues) (v : BitVec 31) (k : Nat) : Nat := v.toNat * k / p.lcgMask

/-- `NEXTI rd, rs1, rs2`: one draw mapped to a range (R164). -/
def execNexti (rd rs1 rs2 : RegNum) (s : State) : Host.Outcome State Fault Refusal :=
  s.perform <|
    let lo := s.natX rs1
    let hi := s.natX rs2
    if lo > hi then .error (.operandRange, lo)
    else
      let v := lcg s.cfg.rpl s.rngSeed
      .ok ((s.setSeed v).putX rd (drawBelow s.cfg.rpl v (hi - lo + 1) + lo))

/-- `PINIT rs1`: the identity order (R166). -/
def execPinit (rs1 : RegNum) (s : State) : Host.Outcome State Fault Refusal :=
  s.perform <|
    let n := s.natX rs1
    if n > s.cfg.permSize then .error (.bufferBounds, n)
    else
      .ok { s.writePerm (Mem.cellsFrom 0 ((List.range n).map (BitVec.ofNat 32))) with
            permN := BitVec.ofNat 32 n }

/-- Swap the elements number `i` and `j` of a sequence. -/
def swapAt (l : List Word) (i j : Nat) : List Word := (l.set i (l.getD j 0)).set j (l.getD i 0)

/-- The pass of R167 from index `i` down to 1: the shuffled sequence and the generator's state, or
the index at which a draw was out of range. -/
def shuffleFrom (c : RplValues) :
    (i : Nat) → (v : BitVec 31) → (p : List Word) → Except Nat (List Word × BitVec 31)
  | 0, v, p => .ok (p, v)
  | i + 1, v, p =>
    let v' := lcg c v
    let j := drawBelow c v' (i + 2)
    if j > i + 1 then .error (i + 1) else shuffleFrom c i v' (swapAt p (i + 1) j)

/-- `PERM[0..PERM_N-1]`. -/
def State.permList (s : State) : List Word := (List.range s.permN.toNat).map s.permAt

/-- `SHUF`: shuffle the live elements of `PERM` (R167). -/
def execShuf (s : State) : Host.Outcome State Fault Refusal :=
  s.perform <|
    match shuffleFrom s.cfg.rpl (s.permN.toNat - 1) s.rngSeed s.permList with
    | .error i => .error (.rngRange, i)
    | .ok (p, v) => .ok ((s.writePerm (Mem.cellsFrom 0 p)).setSeed v)

/-- `SPRD rd`: one draw mapped to a spread flag (R169). -/
def execSprd (rd : RegNum) (s : State) : Host.Outcome State Fault Refusal :=
  s.perform <|
    let v := lcg s.cfg.rpl s.rngSeed
    .ok ((s.setSeed v).setX rd (boolWord (decide (2 * v.toNat > s.cfg.rpl.lcgMask))))

end Sys2Proof.Machine
end

