-- ==== Sys2Proof/Machine/Hash.lean ====
section
/-! DEFINITION. The perceptual hash unit (`45_perceptual_hash.md`).

The side of the grid, the count of low frequencies and the count of bits are `PH_SIDE`, `PH_LOW` and
`PH_BITS`; the basis is R232's, which is stated for `PH_SIDE = 32`. -/

namespace Sys2Proof.Machine

/-- The first row (or column) of averaging box `i` of `side` along a dimension of `n` pixels (R231). -/
def boxStart (side n i : Nat) : Nat := i * n / side

/-- The row (or column) after the last one of averaging box `i`: the box is never empty (R231). -/
def boxEnd (side n i : Nat) : Nat :=
  if (i + 1) * n / side ≤ boxStart side n i then boxStart side n i + 1 else (i + 1) * n / side

/-- `S[i][j]`: the mean luma of box (`i`, `j`) (R231). -/
def State.boxMean (s : State) (i j : Nat) : Rat :=
  let side := s.cfg.shape.phSide
  let y0 := boxStart side s.height i
  let y1 := boxEnd side s.height i
  let x0 := boxStart side s.width j
  let x1 := boxEnd side s.width j
  let rows := (List.range' y0 (y1 - y0)).map fun y =>
    ((List.range' x0 (x1 - x0)).map fun x => s.lumaAt (y * s.width + x)).sum
  rows.sum / (((y1 - y0) * (x1 - x0) : Nat) : Rat)

/-- The grid `S`, row by row (R231). -/
def State.boxGrid (s : State) : List (List Rat) :=
  (List.range s.cfg.shape.phSide).map fun i =>
    (List.range s.cfg.shape.phSide).map fun j => s.boxMean i j

/-- `a(k) * cos((2*i + 1)*k*π/64)`, with `a(0) = sqrt(1/32) = cos(16π/64) / 4` and `a(k) = 1/4`
(R232). -/
def hashBasis (k i : Nat) : CosNum :=
  CosNum.scale (1 / 4) (CosNum.cosPi64 (if k = 0 then 16 else (2 * i + 1) * k))

/-- The sum of a list of real numbers. -/
def numSum (l : List Num) : Num := l.foldl Num.add (Num.ofRat 0)

/-- One row of the grid against column frequency `v` (R232). -/
def hashRow (row : List Rat) (v : Nat) : Num :=
  numSum (row.zipIdx.map fun sj => Num.ofCos (CosNum.scale sj.1 (hashBasis v sj.2)))

/-- The rows of the grid against the first `low` column frequencies: element `v` of row `i`. -/
def hashRows (low : Nat) (grid : List (List Rat)) : List (List Num) :=
  grid.map fun row => (List.range low).map fun v => hashRow row v

/-- `D[u][v]` (R232), from the rows' transforms. -/
def hashCoeff (rows : List (List Num)) (u v : Nat) : Num :=
  numSum (rows.zipIdx.map fun ri => Num.smul (hashBasis u ri.2) (ri.1.getD v (Num.ofRat 0)))

/-- The sampled coefficients, in the order of R234: number `k` is `D[(k+1) div 8][(k+1) mod 8]`, 8
being `PH_LOW`. -/
def hashCoeffs (sh : Shape) (grid : List (List Rat)) : List Num :=
  let rows := hashRows sh.phLow grid
  (List.range sh.phBits).map fun k => hashCoeff rows ((k + 1) / sh.phLow) ((k + 1) % sh.phLow)

/-- The mean of the coefficients (R233). -/
def hashMean (sh : Shape) (ds : List Num) : Num := Num.scale (1 / (sh.phBits : Rat)) (numSum ds)

/-- What `PHASH` reads: `W`, `H` and the colour bytes of every pixel (R231).  An implementation's
coefficients and mean may depend on all of these, and on nothing else, so that one image has one hash
(R236; DESIGN CHOICE, log entry 7). -/
def State.hashInputs (s : State) : List Num :=
  [Num.ofInt s.width, Num.ofInt s.height] ++ (List.range s.pixels).flatMap s.pixelInputs

/-- The bits of the image in `PIX` (R230 to R234): the coefficients are the results number 0 to 62 and
their mean is number 63.  What an inexact `NUM` may make of them is the choice at
`State.hashInputs`. -/
def State.hashBits (s : State) : List Bit :=
  let sh := s.cfg.shape
  let inputs := s.hashInputs
  let ds := s.approxAll .phash inputs (hashCoeffs sh s.boxGrid)
  let m := s.approx .phash inputs sh.phBits (hashMean sh ds)
  ds.map fun d => BitVec.ofBool (Num.lt m d)

/-- `PHASH` (R235). -/
def execPhash (s : State) : Host.Outcome State Fault Refusal :=
  s.perform <|
    if s.width = 0 ∨ s.height = 0 then .error (.operandRange, 0)
    else if !s.imageFits then .error s.geometryFault
    else .ok (s.writePh (Mem.cellsFrom 0 s.hashBits))

/-- How many of the 63 bits of `PH` and `PHREF` agree (R239). -/
def State.hashMatches (s : State) : Nat :=
  (List.range s.cfg.shape.phBits).countP fun k => decide (s.phAt k = s.phrefAt k)

/-- `PHCMP rd` (R239). -/
def execPhcmp (rd : RegNum) (s : State) : Host.Outcome State Fault Refusal :=
  s.perform (.ok (s.putX rd s.hashMatches))

/-- `PHVER rd, rs1, rs2` (R240). -/
def execPhver (rd rs1 rs2 : RegNum) (s : State) : Host.Outcome State Fault Refusal :=
  s.perform <|
    let num := s.natX rs1
    let den := s.natX rs2
    if den = 0 then .error (.operandRange, 0)
    else .ok (s.setX rd (boolWord (decide (s.hashMatches * den ≥ num * s.cfg.shape.phBits))))

end Sys2Proof.Machine
end

