-- ==== Sys2Proof/Machine/Lsb.lean ====
section
/-! DEFINITION. The LSB codec unit (`46_lsb_codec.md`). -/

namespace Sys2Proof.Machine

/-- `pos(t)`: the byte of `PIX` that carries stream bit `t` (R247). -/
def lsbPos (t : Nat) : Nat := 4 * (t / 3) + t % 3

/-- The stream of a message: magic, 32-bit length, 16 bits for each unit (R246). -/
def lsbStream (magic : BitVec 16) (msg : List Half) : List Bit :=
  bitsMsb 16 magic.toNat ++ bitsMsb 32 msg.length ++ msg.flatMap fun u => bitsMsb 16 u.toNat

/-- `T(L)`, the length of the stream of `L` units (R246). -/
def lsbBits (n : Nat) : Nat := 48 + 16 * n

/-- Bit `b` in the least significant bit of byte `y` (R247). -/
def lsbPut (y : Byte) (b : Bit) : Byte := (y &&& 0xFE#8) ||| b.setWidth 8

/-- The least significant bit of `PIX[pos(t)]` (R247). -/
def State.lsbAt (s : State) (t : Nat) : Bit := (s.pixAt (lsbPos t)).setWidth 1

/-- The integer of the `w` stream bits from bit `t` on, most significant first (R250, R251). -/
def State.lsbField (s : State) (t w : Nat) : Nat :=
  ofBitsMsb ((List.range w).map fun k => s.lsbAt (t + k))

/-- `MSG[0..n-1]`. -/
def State.msgList (s : State) (n : Nat) : List Half := (List.range n).map s.msgAt

/-- `LSBENC rs1` (R249); `ceil(T / 3)` is `(T + 2) div 3`. -/
def execLsbenc (rs1 : RegNum) (s : State) : Host.Outcome State Fault Refusal :=
  s.perform <|
    let n := s.natX rs1
    if !s.imageFits then .error s.geometryFault
    else if n > s.cfg.msgSize then .error (.bufferBounds, n)
    else if (lsbBits n + 2) / 3 > s.pixels then .error (.capacity, n)
    else
      let stream := lsbStream s.cfg.lsbMagic (s.msgList n)
      .ok (s.writePix (stream.zipIdx.map fun bt =>
        (lsbPos bt.2, lsbPut (s.pixAt (lsbPos bt.2)) bt.1)))

/-- The length of the message in `PIX`, 0 for none (R251). -/
def State.lsbLength (s : State) : Nat :=
  if 3 * s.pixels < 48 then 0
  else if s.lsbField 0 16 ≠ s.cfg.lsbMagic.toNat then 0
  else
    let n := s.lsbField 16 32
    if n = 0 ∨ n > s.cfg.rpl.lsbLenMax then 0
    else if lsbBits n > 3 * s.pixels then 0
    else n

/-- `LSBDEC rd`: a result of 0 writes no message (R251). -/
def execLsbdec (rd : RegNum) (s : State) : Host.Outcome State Fault Refusal :=
  s.perform <|
    if !s.imageFits then .error s.geometryFault
    else
      let n := s.lsbLength
      let units := (List.range n).map fun i => BitVec.ofNat 16 (s.lsbField (48 + 16 * i) 16)
      .ok ((s.writeMsg (Mem.cellsFrom 0 units)).putX rd n)

/-- `LSBHAS rd` (R253). -/
def execLsbhas (rd : RegNum) (s : State) : Host.Outcome State Fault Refusal :=
  s.perform <|
    if !s.imageFits then .error s.geometryFault
    else if 3 * s.pixels < 16 then .ok (s.setX rd 0#32)
    else .ok (s.setX rd (boolWord (decide (s.lsbField 0 16 = s.cfg.lsbMagic.toNat))))

end Sys2Proof.Machine
end

