-- ==== Sys2Proof/Machine/ReedSolomon.lean ====
section
/-! DEFINITION. The Reed-Solomon commands (`41_reed_solomon.md`).  A byte sequence stands for the
polynomial whose highest coefficient is the first byte (R140). -/

namespace Sys2Proof.Machine

/-- One factor of the generator polynomial: `g(x) * (x - r)` (R142). -/
def rsTimesRoot (t : GfTable) (g : List Byte) (r : Byte) : List Byte :=
  List.zipWith (· ^^^ ·) (g ++ [0#8]) (0#8 :: g.map (fun c => gfmul t c r))

/-- `rsgen(nsym)`: the generator polynomial with roots `α^FCR` to `α^(FCR+nsym-1)` (R142). -/
def rsGenerator (t : GfTable) (fcr : Nat) : (nsym : Nat) → List Byte
  | 0 => [1#8]
  | n + 1 => rsTimesRoot t (rsGenerator t fcr n) (alphaPow t (fcr + n))

/-- Exclusive or of the second sequence into the front of the first (R143). -/
def xorPrefix : List Byte → List Byte → List Byte
  | [], _ => []
  | b :: bs, [] => b :: bs
  | b :: bs, c :: cs => (b ^^^ c) :: xorPrefix bs cs

/-- `k` steps of the division of R143 on the rest of the buffer: each takes the front byte off and
adds its multiple of `GEN[1..nsym]` (`tail`) to the bytes behind it. -/
def rsDivide (t : GfTable) (tail : List Byte) : (k : Nat) → (buf : List Byte) → List Byte
  | 0, buf => buf
  | _ + 1, [] => []
  | k + 1, coef :: buf =>
    rsDivide t tail k
      (if coef = 0#8 then buf else xorPrefix buf (tail.map fun g => gfmul t g coef))

/-- The parity bytes of `data` for the generator polynomial with coefficients `1` and `tail`
(R143). -/
def rsParity (t : GfTable) (tail data : List Byte) : List Byte :=
  rsDivide t tail data.length (data ++ List.replicate tail.length 0#8)

/-- The value at `a` of the polynomial of a byte sequence, by Horner's rule (R146). -/
def rsHorner (t : GfTable) (a : Byte) (r : List Byte) : Byte :=
  r.foldl (fun acc b => gfmul t acc a ^^^ b) 0#8

/-- The `nsym` syndromes of a received sequence (R146). -/
def rsSyndromes (t : GfTable) (fcr nsym : Nat) (r : List Byte) : List Byte :=
  (List.range nsym).map fun j => rsHorner t (alphaPow t (fcr + j)) r

/-- `SYM[0..n-1]`. -/
def State.symPrefix (s : State) (n : Nat) : List Byte := (List.range n).map s.symAt

/-- `GEN[1..RS_NSYM]`. -/
def State.genTail (s : State) : List Byte :=
  (List.range s.rsNsym.toNat).map fun j => s.genAt (j + 1)

/-- The syndromes of `SYM[0..n-1]` (R147, R149). -/
def State.syndromes (s : State) (n : Nat) : List Byte :=
  rsSyndromes (gfTable s.cfg) s.cfg.fcr s.rsNsym.toNat (s.symPrefix n)

/-- `RSCFG rs1`: it also makes `SYN` unspecified (R141, R42). -/
def execRscfg (rs1 : RegNum) (s : State) : Host.Outcome State Fault Refusal :=
  s.perform <|
    let nsym := s.natX rs1
    if nsym > s.cfg.nsymMax then .error (.operandRange, nsym)
    else
      let g := rsGenerator (gfTable s.cfg) s.cfg.fcr nsym
      .ok { s.writeGen (Mem.cellsFrom 0 g) with
            rsNsym := BitVec.ofNat 11 nsym, syn := [], synEpoch := s.synEpoch + 1 }

/-- `RSENC rs1`: the data bytes are not written (R143). -/
def execRsenc (rs1 : RegNum) (s : State) : Host.Outcome State Fault Refusal :=
  s.perform <|
    let k := s.natX rs1
    let nsym := s.rsNsym.toNat
    if k + nsym > s.cfg.symSize then .error (.bufferBounds, k + nsym)
    else
      let parity := rsParity (gfTable s.cfg) s.genTail (s.symPrefix k)
      .ok (s.writeSym (Mem.cellsFrom k parity))

/-- `RSSYN rd, rs1` (R147). -/
def execRssyn (rd rs1 : RegNum) (s : State) : Host.Outcome State Fault Refusal :=
  s.perform <|
    let n := s.natX rs1
    if n > s.cfg.symSize then .error (.bufferBounds, n)
    else
      let syn := s.syndromes n
      let e := syndromesBad syn
      .ok (((s.writeSyn (Mem.cellsFrom 0 syn)).setX rd (boolWord e)).setRserr e)

/-- `RSDEC rd, rs1`: detection only, the payload stays in place (R149, R150). -/
def execRsdec (rd rs1 : RegNum) (s : State) : Host.Outcome State Fault Refusal :=
  s.perform <|
    let n := s.natX rs1
    let nsym := s.rsNsym.toNat
    if n > s.cfg.symSize then .error (.bufferBounds, n)
    else if n < nsym then .error (.operandRange, n)
    else
      let syn := s.syndromes n
      .ok (((s.writeSyn (Mem.cellsFrom 0 syn)).setRserr (syndromesBad syn)).putX rd (n - nsym))

end Sys2Proof.Machine
end

