-- ==== Sys2Proof/Decode.lean ====
section
/-! DEFINITION. Decoding a command word, total and rejecting by name, and encoding a command
(R90 to R97). -/

namespace Sys2Proof

/-- Why a word is illegal (R96). -/
inductive DecodeError where
  /-- The `op` field is not in the opcode map. -/
  | unassignedOpcode
  /-- A bit that the format or the "uses" column does not name is 1. -/
  | nonzeroUnused
  deriving DecidableEq, Repr

/-! ### Fields (R91) -/

/-- Field `op`, bits 7:0. -/
def opField (w : Word) : BitVec 8 := w.extractLsb' 0 8

/-- Field `rd`, bits 11:8. -/
def rdField (w : Word) : RegNum := w.extractLsb' 8 4

/-- Field `rs1`, bits 15:12. -/
def rs1Field (w : Word) : RegNum := w.extractLsb' 12 4

/-- Field `rs2`, bits 19:16. -/
def rs2Field (w : Word) : RegNum := w.extractLsb' 16 4

/-- Field `sel`, bits 27:20. -/
def selField (w : Word) : Sel := w.extractLsb' 20 8

/-- Field `imm16`, bits 31:16. -/
def immField (w : Word) : BitVec 16 := w.extractLsb' 16 16

/-- The command, when no bit that must be zero is 1 (R97). -/
def decodeUsing (w mustBeZero : Word) (i : Instr) : Except DecodeError Instr :=
  if w &&& mustBeZero = 0#32 then .ok i else .error .nonzeroUnused

/-- The command a word stands for, or why it is illegal (R95, R96, R97).  The mask of each row is the
bits that its format and its "uses" column do not name. -/
def decode (w : Word) : Except DecodeError Instr :=
  match (opField w).toNat with
  | 0x00 => decodeUsing w 0xFFFFFF00#32 .nop
  | 0x01 => decodeUsing w 0x0000F000#32 (.li (rdField w) (immField w))
  | 0x02 => decodeUsing w 0x0000F000#32 (.lih (rdField w) (immField w))
  | 0x03 => decodeUsing w 0xF00F0000#32 (.lds (rdField w) (selField w) (rs1Field w))
  | 0x04 => decodeUsing w 0xF0000F00#32 (.sts (selField w) (rs1Field w) (rs2Field w))
  | 0x05 => decodeUsing w 0xFFFFFF00#32 .clrf
  | 0x06 => decodeUsing w 0xF00FF000#32 (.csrr (rdField w) (selField w))
  | 0x07 => decodeUsing w 0xF00F0F00#32 (.csrw (selField w) (rs1Field w))
  | 0x10 => decodeUsing w 0xFFF00000#32 (.gfmul (rdField w) (rs1Field w) (rs2Field w))
  | 0x11 => decodeUsing w 0xFFF00000#32 (.gfpow (rdField w) (rs1Field w) (rs2Field w))
  | 0x12 => decodeUsing w 0xFFF00000#32 (.gfdiv (rdField w) (rs1Field w) (rs2Field w))
  | 0x13 => decodeUsing w 0xFFFF0000#32 (.gfinv (rdField w) (rs1Field w))
  | 0x20 => decodeUsing w 0xFFFF0F00#32 (.rscfg (rs1Field w))
  | 0x21 => decodeUsing w 0xFFFF0F00#32 (.rsenc (rs1Field w))
  | 0x22 => decodeUsing w 0xFFFF0000#32 (.rssyn (rdField w) (rs1Field w))
  | 0x23 => decodeUsing w 0xFFFF0000#32 (.rsdec (rdField w) (rs1Field w))
  | 0x30 => decodeUsing w 0xFFFF0F00#32 (.seed (rs1Field w))
  | 0x31 => decodeUsing w 0xFFFFF000#32 (.next (rdField w))
  | 0x32 => decodeUsing w 0xFFF00000#32 (.nexti (rdField w) (rs1Field w) (rs2Field w))
  | 0x33 => decodeUsing w 0xFFFF0F00#32 (.pinit (rs1Field w))
  | 0x34 => decodeUsing w 0xFFFFFF00#32 .shuf
  | 0x35 => decodeUsing w 0xFFFFF000#32 (.sprd (rdField w))
  | 0x40 => decodeUsing w 0xFFFFFF00#32 .dct
  | 0x41 => decodeUsing w 0xFFFFFF00#32 .idct
  | 0x50 => decodeUsing w 0xFFFF0F00#32 (.blkget (rs1Field w))
  | 0x51 => decodeUsing w 0xFFFF0F00#32 (.blkput (rs1Field w))
  | 0x52 => decodeUsing w 0xFFF00000#32 (.qemb (rdField w) (rs1Field w) (rs2Field w))
  | 0x53 => decodeUsing w 0xFFF00000#32 (.qext (rdField w) (rs1Field w) (rs2Field w))
  | 0x54 => decodeUsing w 0xFFFF0F00#32 (.vclr (rs1Field w))
  | 0x55 => decodeUsing w 0xFFF00F00#32 (.vacc (rs1Field w) (rs2Field w))
  | 0x56 => decodeUsing w 0xFFFF0000#32 (.vote (rdField w) (rs1Field w))
  | 0x57 => decodeUsing w 0xFFFFF000#32 (.magcmp (rdField w))
  | 0x60 => decodeUsing w 0xFFFFFF00#32 .phash
  | 0x61 => decodeUsing w 0xFFFFF000#32 (.phcmp (rdField w))
  | 0x62 => decodeUsing w 0xFFF00000#32 (.phver (rdField w) (rs1Field w) (rs2Field w))
  | 0x70 => decodeUsing w 0xFFFF0F00#32 (.lsbenc (rs1Field w))
  | 0x71 => decodeUsing w 0xFFFFF000#32 (.lsbdec (rdField w))
  | 0x72 => decodeUsing w 0xFFFFF000#32 (.lsbhas (rdField w))
  | _ => .error .unassignedOpcode

/-! ### Encoding (R92) -/

/-- Format `Z`. -/
def formatZ (op : BitVec 8) : Word := 0#24 ++ op

/-- Format `R`; a register field a command does not use is 0. -/
def formatR (op : BitVec 8) (rd rs1 rs2 : RegNum) : Word := 0#12 ++ rs2 ++ rs1 ++ rd ++ op

/-- Format `I`. -/
def formatI (op : BitVec 8) (rd : RegNum) (imm : BitVec 16) : Word := imm ++ 0#4 ++ rd ++ op

/-- Format `S`; a register field a command does not use is 0. -/
def formatS (op : BitVec 8) (rd rs1 rs2 : RegNum) (sel : Sel) : Word :=
  0#4 ++ sel ++ rs2 ++ rs1 ++ rd ++ op

/-- The word of a command (R92, R95). -/
def encode : Instr → Word
  | .nop => formatZ 0x00#8
  | .li rd imm => formatI 0x01#8 rd imm
  | .lih rd imm => formatI 0x02#8 rd imm
  | .lds rd sel rs1 => formatS 0x03#8 rd rs1 0 sel
  | .sts sel rs1 rs2 => formatS 0x04#8 0 rs1 rs2 sel
  | .clrf => formatZ 0x05#8
  | .csrr rd sel => formatS 0x06#8 rd 0 0 sel
  | .csrw sel rs1 => formatS 0x07#8 0 rs1 0 sel
  | .gfmul rd rs1 rs2 => formatR 0x10#8 rd rs1 rs2
  | .gfpow rd rs1 rs2 => formatR 0x11#8 rd rs1 rs2
  | .gfdiv rd rs1 rs2 => formatR 0x12#8 rd rs1 rs2
  | .gfinv rd rs1 => formatR 0x13#8 rd rs1 0
  | .rscfg rs1 => formatR 0x20#8 0 rs1 0
  | .rsenc rs1 => formatR 0x21#8 0 rs1 0
  | .rssyn rd rs1 => formatR 0x22#8 rd rs1 0
  | .rsdec rd rs1 => formatR 0x23#8 rd rs1 0
  | .seed rs1 => formatR 0x30#8 0 rs1 0
  | .next rd => formatR 0x31#8 rd 0 0
  | .nexti rd rs1 rs2 => formatR 0x32#8 rd rs1 rs2
  | .pinit rs1 => formatR 0x33#8 0 rs1 0
  | .shuf => formatZ 0x34#8
  | .sprd rd => formatR 0x35#8 rd 0 0
  | .dct => formatZ 0x40#8
  | .idct => formatZ 0x41#8
  | .blkget rs1 => formatR 0x50#8 0 rs1 0
  | .blkput rs1 => formatR 0x51#8 0 rs1 0
  | .qemb rd rs1 rs2 => formatR 0x52#8 rd rs1 rs2
  | .qext rd rs1 rs2 => formatR 0x53#8 rd rs1 rs2
  | .vclr rs1 => formatR 0x54#8 0 rs1 0
  | .vacc rs1 rs2 => formatR 0x55#8 0 rs1 rs2
  | .vote rd rs1 => formatR 0x56#8 rd rs1 0
  | .magcmp rd => formatR 0x57#8 rd 0 0
  | .phash => formatZ 0x60#8
  | .phcmp rd => formatR 0x61#8 rd 0 0
  | .phver rd rs1 rs2 => formatR 0x62#8 rd rs1 rs2
  | .lsbenc rs1 => formatR 0x70#8 0 rs1 0
  | .lsbdec rd => formatR 0x71#8 rd 0 0
  | .lsbhas rd => formatR 0x72#8 rd 0 0

/-- The word of `CLRF`, exactly 0x00000005 (R314). -/
def clrfWord : Word := 0x00000005#32

/-- The command the decoder reads from a word given as a number, bit 0 the least significant (R9).
Every command is one 32-bit word, consumed whole when issued (R73, R90), so there are no later words
and no byte order of fetch. -/
def decodeTableWord (_nbits w : Nat) : Option Instr :=
  match decode (BitVec.ofNat 32 w) with
  | .ok i => some i
  | .error _ => none

end Sys2Proof
end

