-- ==== Sys2Proof/Machine/System.lean ====
section
/-! DEFINITION. System and data-movement commands (`47_system_and_data.md`). -/

namespace Sys2Proof.Machine

/-- `NOP` (R265). -/
def execNop (s : State) : Host.Outcome State Fault Refusal := s.perform (.ok s)

/-- `LI rd, imm16` (R266). -/
def execLi (rd : RegNum) (imm : BitVec 16) (s : State) : Host.Outcome State Fault Refusal :=
  s.perform (.ok (s.setX rd (immLow imm)))

/-- `LIH rd, imm16` (R267). -/
def execLih (rd : RegNum) (imm : BitVec 16) (s : State) : Host.Outcome State Fault Refusal :=
  s.perform (.ok (s.setX rd (immHigh imm (s.getX rd))))

/-- `LDS rd, SPACE, rs1` (R268). -/
def execLds (rd : RegNum) (sel : Sel) (rs1 : RegNum) (s : State) :
    Host.Outcome State Fault Refusal :=
  s.perform <|
    match s.memRead (encode (.lds rd sel rs1)) sel (s.natX rs1) with
    | .ok v => .ok (s.setX rd v)
    | .error e => .error e

/-- `STS SPACE, rs1, rs2` (R269). -/
def execSts (sel : Sel) (rs1 rs2 : RegNum) (s : State) : Host.Outcome State Fault Refusal :=
  s.perform (s.memWrite (encode (.sts sel rs1 rs2)) sel (s.natX rs1) (s.getX rs2))

/-- `CLRF`: the one command that is performed while `FAULT = 1` (R270, R314). -/
def execClrf (s : State) : Host.Outcome State Fault Refusal := .next s.acknowledge

/-- `CSRR rd, CSR` (R271). -/
def execCsrr (rd : RegNum) (sel : Sel) (s : State) : Host.Outcome State Fault Refusal :=
  s.perform <|
    match csrOfSel sel with
    | none => .error (.illegalCommand, (encode (.csrr rd sel)).toNat)
    | some c => .ok (s.setX rd (s.readCsr c))

/-- `CSRW CSR, rs1` (R272). -/
def execCsrw (sel : Sel) (rs1 : RegNum) (s : State) : Host.Outcome State Fault Refusal :=
  s.perform <|
    match csrOfSel sel with
    | none => .error (.illegalCommand, (encode (.csrw sel rs1)).toNat)
    | some c =>
      if !csrWritable c then .error (.readOnly, sel.toNat)
      else if c = .strength ∧ s.natX rs1 > 65535 then .error (.operandRange, s.natX rs1)
      else .ok (s.writeCsr c (s.natX rs1))

end Sys2Proof.Machine
end

