-- ==== Sys2Proof/Machine/Dispatch.lean ====
section
/-! DEFINITION. The meaning of each command, one arm per constructor of `Instr` (R95). -/

namespace Sys2Proof.Machine

def exec (i : Instr) (s : State) : Host.Outcome State Fault Refusal :=
  match i with
  | .nop => Sys2Proof.Machine.execNop s
  | .li rd imm => Sys2Proof.Machine.execLi rd imm s
  | .lih rd imm => Sys2Proof.Machine.execLih rd imm s
  | .lds rd sel rs1 => Sys2Proof.Machine.execLds rd sel rs1 s
  | .sts sel rs1 rs2 => Sys2Proof.Machine.execSts sel rs1 rs2 s
  | .clrf => Sys2Proof.Machine.execClrf s
  | .csrr rd sel => Sys2Proof.Machine.execCsrr rd sel s
  | .csrw sel rs1 => Sys2Proof.Machine.execCsrw sel rs1 s
  | .gfmul rd rs1 rs2 => Sys2Proof.Machine.execGfmul rd rs1 rs2 s
  | .gfpow rd rs1 rs2 => Sys2Proof.Machine.execGfpow rd rs1 rs2 s
  | .gfdiv rd rs1 rs2 => Sys2Proof.Machine.execGfdiv rd rs1 rs2 s
  | .gfinv rd rs1 => Sys2Proof.Machine.execGfinv rd rs1 s
  | .rscfg rs1 => Sys2Proof.Machine.execRscfg rs1 s
  | .rsenc rs1 => Sys2Proof.Machine.execRsenc rs1 s
  | .rssyn rd rs1 => Sys2Proof.Machine.execRssyn rd rs1 s
  | .rsdec rd rs1 => Sys2Proof.Machine.execRsdec rd rs1 s
  | .seed rs1 => Sys2Proof.Machine.execSeed rs1 s
  | .next rd => Sys2Proof.Machine.execNext rd s
  | .nexti rd rs1 rs2 => Sys2Proof.Machine.execNexti rd rs1 rs2 s
  | .pinit rs1 => Sys2Proof.Machine.execPinit rs1 s
  | .shuf => Sys2Proof.Machine.execShuf s
  | .sprd rd => Sys2Proof.Machine.execSprd rd s
  | .dct => Sys2Proof.Machine.execDct s
  | .idct => Sys2Proof.Machine.execIdct s
  | .blkget rs1 => Sys2Proof.Machine.execBlkget rs1 s
  | .blkput rs1 => Sys2Proof.Machine.execBlkput rs1 s
  | .qemb rd rs1 rs2 => Sys2Proof.Machine.execQemb rd rs1 rs2 s
  | .qext rd rs1 rs2 => Sys2Proof.Machine.execQext rd rs1 rs2 s
  | .vclr rs1 => Sys2Proof.Machine.execVclr rs1 s
  | .vacc rs1 rs2 => Sys2Proof.Machine.execVacc rs1 rs2 s
  | .vote rd rs1 => Sys2Proof.Machine.execVote rd rs1 s
  | .magcmp rd => Sys2Proof.Machine.execMagcmp rd s
  | .phash => Sys2Proof.Machine.execPhash s
  | .phcmp rd => Sys2Proof.Machine.execPhcmp rd s
  | .phver rd rs1 rs2 => Sys2Proof.Machine.execPhver rd rs1 rs2 s
  | .lsbenc rs1 => Sys2Proof.Machine.execLsbenc rs1 s
  | .lsbdec rd => Sys2Proof.Machine.execLsbdec rd s
  | .lsbhas rd => Sys2Proof.Machine.execLsbhas rd s

end Sys2Proof.Machine
end

