-- ==== Sys2Proof/Machine/Front.lean ====
section
/-! DEFINITION. The command front end: a word the host issues, and the host's own accesses. -/

namespace Sys2Proof.Machine

/-- The host issues a command word.  While `FAULT = 1` every word but exactly `CLRF` is discarded
without being decoded (R314); then an illegal word raises `IllegalCommand` with the word, and a legal
one is performed (R96, R315). -/
def State.issue (s : State) (w : Word) : Host.Outcome State Fault Refusal :=
  if s.fault && w != clrfWord then .next s
  else
    match decode w with
    | .ok i => exec i s
    | .error _ => .next (s.raise .illegalCommand w.toNat)

/-- Whether the checks of R61 accept a host write of this element: an `RW` space, an index in bounds,
a value of the element type (R70).  R69 says that the port carries a `Num` in the representation of
`NUM`, and leaves open which values the representation of an inexact `NUM` has: here the port carries
every `Num`, whatever `Params.num` is (DESIGN CHOICE, log entry 25). -/
def State.hostWriteOk (s : State) (sp : Space) (i : Nat) (e : Elem) : Bool :=
  spaceWritable sp && s.inBounds sp i &&
    match spaceWidth sp, e with
    | some w, .int v => decide (v < 2 ^ w)
    | none, .num _ => true
    | some _, .num _ => false
    | none, .int _ => false

/-- A host write to a space: not a command, raises no fault, performed while `FAULT = 1` too; a write
the checks refuse is outside the model (R70). -/
def State.hostWriteSpace (s : State) (sp : Space) (i : Nat) (e : Elem) :
    Host.Outcome State Fault Refusal :=
  if s.hostWriteOk sp i e then
    match e with
    | .int v => .next (s.storeInt sp i v)
    | .num v => .next (s.storeNum sp i v)
  else .refused .hostWrite

/-- A host write to a control register: `IMG_W`, `IMG_H` or `STRENGTH`, a value of its width (R70,
R30). -/
def State.hostWriteCsr (s : State) (c : Csr) (v : Nat) : Host.Outcome State Fault Refusal :=
  if csrWritable c && decide (v < 2 ^ (if c = .strength then 16 else 32)) then .next (s.writeCsr c v)
  else .refused .hostWrite

/-- The host action that an access of the host's port at an address is, by `HOSTMAP`; none where the
address reaches nothing or the value has no meaning there (R68, log entry 18). -/
def State.portWrite (s : State) (address : Nat) (e : Elem) : Option HostAct :=
  match s.cfg.hostMap.lookup address, e with
  | some .command, .int v => if v < 2 ^ 32 then some (.command (BitVec.ofNat 32 v)) else none
  | some (.reg r), .int v => if v < 2 ^ 32 then some (.writeReg r (BitVec.ofNat 32 v)) else none
  | some (.csr c), .int v => some (.writeCsr c v)
  | some (.space sp i), e => some (.writeSpace sp i e)
  | some .command, .num _ => none
  | some (.reg _), .num _ => none
  | some (.csr _), .num _ => none
  | none, _ => none

/-- What the host reads from a space through its own port, none out of bounds; no state changes
(R70). -/
def State.hostRead (s : State) (sp : Space) (i : Nat) : Option Elem :=
  if s.inBounds sp i then some (s.element sp i) else none

/-- What the host's port reads at an address, by `HOSTMAP`; no state changes (R68, R70). -/
def State.portRead (s : State) (address : Nat) : Option Elem :=
  match s.cfg.hostMap.lookup address with
  | some (.reg r) => some (.int (s.natX r))
  | some (.csr c) => some (.int (s.readCsr c).toNat)
  | some (.space sp i) => s.hostRead sp i
  | some .command => none
  | none => none

/-- One action of the host or the platform (R23, R70, R340). -/
def State.act (s : State) : HostAct → Host.Outcome State Fault Refusal
  | .command w => s.issue w
  | .writeSpace sp i e => s.hostWriteSpace sp i e
  | .writeReg r v => .next (s.setX r v)
  | .writeCsr c v => s.hostWriteCsr c v
  | .reset => .next (State.afterReset s.cfg (s.resets + 1) (s.synEpoch + 1) s.input)

end Sys2Proof.Machine
end

