-- ==== Sys2Proof/Machine/Step.lean ====
section
/-! DEFINITION. One step of the machine: the next action of the host is performed, whole (R14, R23).

The block has no program counter and no fetch (R27): the next command is whatever word the host
issues next, here the head of `State.input`. -/

namespace Sys2Proof.Machine

/-- One step: the host's next action; with none pending the block waits and nothing changes (R312,
R320). -/
def step (s : State) : Host.Outcome State Fault Refusal :=
  match s.input with
  | [] => .next s
  | a :: rest => State.act { s with input := rest } a

/-- `s` with the command word `w` as the next thing the host issues (R27). -/
def State.withFetchWord (s : State) (_nbits w : Nat) : State :=
  { s with input := HostAct.command (BitVec.ofNat 32 w) :: s.input }

end Sys2Proof.Machine
end

