-- ==== Sys2Proof/WellFormed.lean ====
section
/-! DEFINITION. Which commands the assembler can write, and which parameter tables R8 allows.

Every `Instr` is encodable and decodable, also one whose `sel` names nothing: such a word is legal in
format and raises `IllegalCommand` when it is performed (R96). -/

namespace Sys2Proof

open Machine

/-- Whether every operand of a command names something: the commands that R98's syntax can write. -/
def Instr.wellFormed : Instr → Bool
  | .lds _ sel _ => (spaceOfSel sel).isSome
  | .sts sel _ _ => (spaceOfSel sel).isSome
  | .csrr _ sel => (csrOfSel sel).isSome
  | .csrw sel _ => (csrOfSel sel).isSome
  | .nop | .li _ _ | .lih _ _ | .clrf => true
  | .gfmul _ _ _ | .gfpow _ _ _ | .gfdiv _ _ _ | .gfinv _ _ => true
  | .rscfg _ | .rsenc _ | .rssyn _ _ | .rsdec _ _ => true
  | .seed _ | .next _ | .nexti _ _ _ | .pinit _ | .shuf | .sprd _ => true
  | .dct | .idct => true
  | .blkget _ | .blkput _ | .qemb _ _ _ | .qext _ _ _ => true
  | .vclr _ | .vacc _ _ | .vote _ _ | .magcmp _ => true
  | .phash | .phcmp _ | .phver _ _ _ => true
  | .lsbenc _ | .lsbdec _ | .lsbhas _ => true

/-- Whether repeating a step from 1 runs through the 255 non-zero elements, each once, and comes back to
1 (R120). -/
def runsThroughField (step : Byte → Byte) : Bool :=
  let powers := gfIterate step 255 1#8
  decide powers.Nodup && !powers.contains 0#8 && decide ((gfIterate step 256 1#8)[255]? = some 1#8)

/-- `PRIM_POLY` is primitive of degree 8, which the powers of `z` say, and `ALPHA` is a primitive
element, which for `ALPHA = 2` is the same (R120, U16). -/
def Params.primitive (p : Params) : Bool :=
  p.primPoly.msb && runsThroughField (gfDouble p) &&
    (decide (p.alpha = 2#8) || runsThroughField (gfStep p))

/-- `EMBED_POS` is `NPOS` distinct pairs of numbers below `BLOCK` (R196, U16). -/
def Params.positionsOk (p : Params) : Bool :=
  decide (p.embedPos.length = p.shape.npos) && decide p.embedPos.Nodup &&
    p.embedPos.all fun uv => decide (uv.1 < p.shape.block) && decide (uv.2 < p.shape.block)

/-- The bounds R8 sets on the sizes. -/
def Params.sizesOk (p : Params) : Bool :=
  decide (p.pixSize % 4 = 0) && decide (3006 ≤ p.symSize) && decide (24048 ≤ p.bitSize) &&
    decide (p.rpl.lsbLenMax ≤ p.msgSize)

/-- `NSYM_MAX` fits the 11 bits of `RS_NSYM` (R30, R37). -/
def Params.nsymOk (p : Params) : Bool := decide (p.nsymMax < 2048)

/-- No scale is negative. -/
def NumScales.ok (c : NumScales) : Bool :=
  decide (0 ≤ c.sts) && decide (0 ≤ c.blkget) && decide (0 ≤ c.dct) && decide (0 ≤ c.idct) &&
    decide (0 ≤ c.qemb) && decide (0 ≤ c.qext) && decide (0 ≤ c.vclr) && decide (0 ≤ c.vacc) &&
    decide (0 ≤ c.phash)

/-- The tolerance factors of `NUM` are not negative (R12). -/
def Params.numOk (p : Params) : Bool :=
  match p.num with
  | .exact => true
  | .approx n => decide (0 ≤ n.eps) && n.scale.ok

/-- The rows whose value RPL states have it (R8). -/
def Params.rplOk (p : Params) : Bool := decide (p.rpl = Config.rplValues)

/-- The rows that give the block its shape have R8's values. -/
def Params.shapeOk (p : Params) : Bool := decide (p.shape = Config.shape)

/-- The parameter table has the values of R8's rows that RPL states or the spec fixes: those that the
rules write as numbers.  Every state with the invariant has them. -/
abbrev Params.Standard (p : Params) : Prop := p.rpl = Config.rplValues ∧ p.shape = Config.shape

/-- The parameter tables R8 allows. -/
def Params.wellFormed (p : Params) : Bool :=
  p.primitive && p.positionsOk && p.sizesOk && p.nsymOk && p.numOk && p.rplOk && p.shapeOk

end Sys2Proof
end

