-- ==== Sys2Proof/Safety.lean ====
section
/-! DEFINITION. The terms claims are written in: the invariant of the block, what a command may
write, and the rules' pseudocode element by element and over the reals (R12).

The real-valued definitions are not part of the machine, which computes with `Num` only; they say what
the machine's numbers mean. -/

namespace Sys2Proof.Machine

/-! ### The invariant -/

/-- Every space holds elements below its size only, in the canonical form of log entry 5. -/
structure State.SpacesOk (s : State) : Prop where
  pix : s.pix.wf s.cfg.pixSize = true
  sym : s.sym.wf s.cfg.symSize = true
  bit : s.bit.wf s.cfg.bitSize = true
  msg : s.msg.wf s.cfg.msgSize = true
  perm : s.perm.wf s.cfg.permSize = true
  gen : s.gen.wf (s.cfg.nsymMax + 1) = true
  syn : s.syn.wf s.cfg.nsymMax = true
  blks : s.blks.wf (s.cfg.shape.block * s.cfg.shape.block) = true
  blkf : s.blkf.wf (s.cfg.shape.block * s.cfg.shape.block) = true
  blkr : s.blkr.wf (s.cfg.shape.block * s.cfg.shape.block) = true
  acc0 : s.acc0.wf s.cfg.bitSize = true
  acc1 : s.acc1.wf s.cfg.bitSize = true
  conf : s.conf.wf 1 = true
  ph : s.ph.wf s.cfg.shape.phBits = true
  phref : s.phref.wf s.cfg.shape.phBits = true

/-- The invariant of the block: every step keeps it and reset has it. -/
structure State.Inv (s : State) : Prop where
  /-- The parameters are allowed (R8). -/
  params : s.cfg.wellFormed = true
  /-- The spaces hold what lies inside them (R40, R62). -/
  spaces : s.SpacesOk
  /-- `RS_NSYM` is at most `NSYM_MAX` (R37). -/
  nsym : s.rsNsym.toNat ≤ s.cfg.nsymMax
  /-- `GEN[0..RS_NSYM]` is the generator polynomial of that degree (R37, R42). -/
  gen : ∀ i ≤ s.rsNsym.toNat,
    s.gen.get? i = (rsGenerator (gfTable s.cfg) s.cfg.fcr s.rsNsym.toNat)[i]?
  /-- `PERM_N` is at most `PERM_SIZE` (R38). -/
  permN : s.permN.toNat ≤ s.cfg.permSize
  /-- Every live element of `PERM` has been written (item U4 of `93_implementation_defined.md`). -/
  perm : ∀ i < s.permN.toNat, (s.perm.get? i).isSome = true
  /-- `CAUSE` and `FINFO` are 0 without a pending fault (R32). -/
  quiet : s.fault = false → s.cause = 0#8 ∧ s.finfo = 0#32
  /-- With one, `CAUSE` is a code of R311. -/
  pending : s.fault = true → 1 ≤ s.cause.toNat ∧ s.cause.toNat ≤ 9

/-! ### What a command may write -/

/-- Nothing differs from `s` to `t` but the scalar registers in `regs`, the control registers other
than `STATUS` in `csrs`, the status bits `RSERR` and `FOUND` where they are named, and the elements of
the spaces that `cells` names; `FAULT` and what is not the block's own is the same too. -/
structure State.SameBut (s t : State) (regs : List RegNum) (csrs : List Csr)
    (rserr found : Bool) (cells : Space → Nat → Prop) : Prop where
  regs : ∀ r, r ∉ regs → t.getX r = s.getX r
  csrs : ∀ c, c ≠ .status → c ∉ csrs → t.readCsr c = s.readCsr c
  fault : t.fault = s.fault
  rserr : rserr = false → t.rserr = s.rserr
  found : found = false → t.found = s.found
  cells : ∀ sp i, ¬ cells sp i → t.element sp i = s.element sp i
  cfg : t.cfg = s.cfg
  input : t.input = s.input

/-- No element of any space. -/
def noCells : Space → Nat → Prop := fun _ _ => False

/-- The elements of `sp` from `lo` to `hi - 1`. -/
def cellRange (sp : Space) (lo hi : Nat) : Space → Nat → Prop :=
  fun sp' i => sp' = sp ∧ lo ≤ i ∧ i < hi

/-- The colour bytes of image block `b` (R197, R200). -/
def State.blockBytes (s : State) (b : Nat) : Space → Nat → Prop :=
  fun sp i => sp = .pix ∧ ∃ r < 8, ∃ c < 8, ∃ k < 3, i = 4 * s.blockPixel b r c + k

/-- The bytes that carry the stream of `n` units (R247). -/
def streamBytes (n : Nat) : Space → Nat → Prop :=
  fun sp i => sp = .pix ∧ ∃ t < lsbBits n, i = lsbPos t

/-- The columns `mask` and `match` of `spec/opcode_table.json`, row by row (R97). -/
def opcodeRows : List (Word × Word) :=
  [(0xFFFFFFFF#32, 0x00000000#32),
   (0x0000F0FF#32, 0x00000001#32),
   (0x0000F0FF#32, 0x00000002#32),
   (0xF00F00FF#32, 0x00000003#32),
   (0xF0000FFF#32, 0x00000004#32),
   (0xFFFFFFFF#32, 0x00000005#32),
   (0xF00FF0FF#32, 0x00000006#32),
   (0xF00F0FFF#32, 0x00000007#32),
   (0xFFF000FF#32, 0x00000010#32),
   (0xFFF000FF#32, 0x00000011#32),
   (0xFFF000FF#32, 0x00000012#32),
   (0xFFFF00FF#32, 0x00000013#32),
   (0xFFFF0FFF#32, 0x00000020#32),
   (0xFFFF0FFF#32, 0x00000021#32),
   (0xFFFF00FF#32, 0x00000022#32),
   (0xFFFF00FF#32, 0x00000023#32),
   (0xFFFF0FFF#32, 0x00000030#32),
   (0xFFFFF0FF#32, 0x00000031#32),
   (0xFFF000FF#32, 0x00000032#32),
   (0xFFFF0FFF#32, 0x00000033#32),
   (0xFFFFFFFF#32, 0x00000034#32),
   (0xFFFFF0FF#32, 0x00000035#32),
   (0xFFFFFFFF#32, 0x00000040#32),
   (0xFFFFFFFF#32, 0x00000041#32),
   (0xFFFF0FFF#32, 0x00000050#32),
   (0xFFFF0FFF#32, 0x00000051#32),
   (0xFFF000FF#32, 0x00000052#32),
   (0xFFF000FF#32, 0x00000053#32),
   (0xFFFF0FFF#32, 0x00000054#32),
   (0xFFF00FFF#32, 0x00000055#32),
   (0xFFFF00FF#32, 0x00000056#32),
   (0xFFFFF0FF#32, 0x00000057#32),
   (0xFFFFFFFF#32, 0x00000060#32),
   (0xFFFFF0FF#32, 0x00000061#32),
   (0xFFF000FF#32, 0x00000062#32),
   (0xFFFF0FFF#32, 0x00000070#32),
   (0xFFFFF0FF#32, 0x00000071#32),
   (0xFFFFF0FF#32, 0x00000072#32)]

/-- Taking the fault with this code and information (R312). -/
def State.faulted (s : State) (code : BitVec 8) (info : Nat) : State :=
  { s with fault := true, cause := code, finfo := BitVec.ofNat 32 info }

/-- The state R48 describes. -/
structure State.JustReset (s : State) : Prop where
  x : ∀ r, s.getX r = 0#32
  status : s.fault = false ∧ s.rserr = false ∧ s.found = false
  faultInfo : s.cause = 0#8 ∧ s.finfo = 0#32
  rngSeed : s.rngSeed = 0#31
  rsNsym : s.rsNsym = 0#11
  permN : s.permN = 0#32
  geometry : s.imgW = 0#32 ∧ s.imgH = 0#32
  strength : s.strength = 15#16
  constants : s.readCsr .magic = s.cfg.magic.setWidth 32 ∧
    s.readCsr .lsbMagic = s.cfg.lsbMagic.setWidth 32 ∧ s.readCsr .id = 0x52504C31#32
  gen : s.genAt 0 = 1#8
  tables : (∀ i < 512, s.element .gfexp i = .int (gfExp (gfTable s.cfg) i).toNat) ∧
    (∀ v : Byte, v ≠ 0#8 → s.element .gflog v.toNat = .int (gfLog (gfTable s.cfg) v)) ∧
    ∀ i < 64, s.element .dctc i = .num (Num.ofCos (basis (i / 8) (i % 8)))
  live : ∀ i, (s.inBounds .gen i = true ↔ i = 0) ∧ s.inBounds .syn i = false ∧
    s.inBounds .perm i = false
  unwritten : s.pix = [] ∧ s.sym = [] ∧ s.bit = [] ∧ s.msg = [] ∧ s.perm = [] ∧ s.blks = [] ∧
    s.blkf = [] ∧ s.blkr = [] ∧ s.acc0 = [] ∧ s.acc1 = [] ∧ s.conf = [] ∧ s.ph = [] ∧ s.phref = []

/-! ### The rules' pseudocode, element by element -/

/-- Multiplying by 2 as R120's loop does. -/
def tableDouble (p : Params) (v : Nat) : Nat :=
  if 256 ≤ 2 * v then (2 * v) ^^^ p.primPoly.toNat else 2 * v

/-- `buf` of R143 after the passes for `i = 0` to `steps - 1`. -/
def rsBuffer (t : GfTable) (gen : Nat → Byte) (nsym : Nat) :
    (steps : Nat) → (buf : Nat → Byte) → Nat → Byte
  | 0, buf, m => buf m
  | i + 1, buf, m =>
    let b := rsBuffer t gen nsym i buf
    if b i ≠ 0#8 ∧ i < m ∧ m ≤ i + nsym then b m ^^^ gfmul t (gen (m - i)) (b i) else b m

/-- Horner's rule of R146 over `r[0..n-1]`. -/
def hornerValue (t : GfTable) (a : Byte) (r : Nat → Byte) : (n : Nat) → Byte
  | 0 => 0#8
  | n + 1 => gfmul t (hornerValue t a r n) a ^^^ r n

/-- The step of the generator on integers (R160). -/
def lcgNat (v : Nat) : Nat := (v * 1103515245 + 12345) % 2 ^ 31

/-- The loop of R167 from index `i` down to 1. -/
def shuffleRule : (i v : Nat) → (p : Nat → Word) → Except Nat ((Nat → Word) × Nat)
  | 0, v, p => .ok (p, v)
  | i + 1, v, p =>
    let v' := lcgNat v
    let j := v' * (i + 2) / 0x7FFFFFFF
    if j > i + 1 then .error (i + 1)
    else shuffleRule i v' fun k => if k = i + 1 then p j else if k = j then p (i + 1) else p k

/-- Bit number `t` of the stream of `n` units (R246). -/
def State.streamBit (s : State) (n t : Nat) : Bool :=
  if t < 16 then s.cfg.lsbMagic.getLsbD (15 - t)
  else if t < 48 then n.testBit (31 - (t - 16))
  else (s.msgAt ((t - 48) / 16)).getLsbD (15 - (t - 48) % 16)

/-- The `w`-bit integer in the stream bits from bit `t` on, most significant first (R250, R251). -/
def State.hiddenField (s : State) (t w : Nat) : Nat :=
  ∑ k ∈ Finset.range w, ((s.pixAt (lsbPos (t + k))).toNat % 2) * 2 ^ (w - 1 - k)

/-- The length `LSBDEC` answers (R251). -/
def State.hiddenLength (s : State) : Nat :=
  let pixels := s.imgW.toNat * s.imgH.toNat
  let len := s.hiddenField 16 32
  if 3 * pixels < 48 then 0
  else if s.hiddenField 0 16 ≠ s.cfg.lsbMagic.toNat then 0
  else if len = 0 ∨ len > 100000 then 0
  else if 48 + 16 * len > 3 * pixels then 0
  else len

/-- The pixel number of sample (`r`, `c`) of image block `b`, from the registers (R197). -/
def State.samplePixel (s : State) (b r c : Nat) : Nat :=
  (8 * (b / (s.imgW.toNat / 8)) + r) * s.imgW.toNat + (8 * (b % (s.imgW.toNat / 8)) + c)

/-! ### The reals (R12) -/

/-- How far a `Num` that a command writes may lie from the value its rule gives (R12): nothing in the
exact system. -/
noncomputable def State.tolerance (s : State) (site : NumSite) : ℝ :=
  match s.cfg.num with
  | .exact => 0
  | .approx n => max 0 ((n.eps * n.scale.at site : Rat) : ℝ)

/-- `C[i][j]` by its formula (R180). -/
noncomputable def basisReal (i j : Nat) : ℝ :=
  (if i = 0 then 1 / Real.sqrt 8 else 1 / 2) * Real.cos ((2 * j + 1) * i * Real.pi / 16)

/-- `F[u][v]` of `dct2d` by its formula (R181). -/
noncomputable def dctReal (b : Nat → Nat → ℝ) (u v : Nat) : ℝ :=
  ∑ i ∈ Finset.range 8, ∑ j ∈ Finset.range 8, basisReal u i * b i j * basisReal v j

/-- `B[a][b]` of `idct2d` by its formula (R183). -/
noncomputable def idctReal (f : Nat → Nat → ℝ) (i j : Nat) : ℝ :=
  ∑ u ∈ Finset.range 8, ∑ v ∈ Finset.range 8, basisReal u i * f u v * basisReal v j

/-- `a(k)` of the hash's transform (R232). -/
noncomputable def hashWeight (k : Nat) : ℝ := if k = 0 then Real.sqrt (1 / 32) else 1 / 4

/-- `luma` of pixel number `n`, over the reals (R43, R198). -/
noncomputable def State.lumaReal (s : State) (n : Nat) : ℝ :=
  0.299 * (s.pixAt (4 * n)).toNat + 0.587 * (s.pixAt (4 * n + 1)).toNat +
    0.114 * (s.pixAt (4 * n + 2)).toNat

/-- `S[i][j]` by its formula (R231). -/
noncomputable def State.boxReal (s : State) (i j : Nat) : ℝ :=
  let w := s.imgW.toNat
  let h := s.imgH.toNat
  let y0 := i * h / 32
  let y1 := max ((i + 1) * h / 32) (y0 + 1)
  let x0 := j * w / 32
  let x1 := max ((j + 1) * w / 32) (x0 + 1)
  (∑ y ∈ Finset.Ico y0 y1, ∑ x ∈ Finset.Ico x0 x1, s.lumaReal (y * w + x)) /
    (((y1 - y0) * (x1 - x0) : Nat) : ℝ)

/-- `D[u][v]` of the image by its formula (R232), over the grid `S` of R231. -/
noncomputable def State.hashReal (s : State) (u v : Nat) : ℝ :=
  hashWeight u * hashWeight v *
    ∑ i ∈ Finset.range 32, ∑ j ∈ Finset.range 32,
      s.boxReal i j * Real.cos ((2 * i + 1) * u * Real.pi / 64) *
        Real.cos ((2 * j + 1) * v * Real.pi / 64)

/-- Coefficient number `k` (R234). -/
noncomputable def State.hashRealAt (s : State) (k : Nat) : ℝ :=
  s.hashReal ((k + 1) / 8) ((k + 1) % 8)

/-- The mean of the 63 coefficients (R233). -/
noncomputable def State.hashMeanReal (s : State) : ℝ :=
  (∑ k ∈ Finset.range 63, s.hashRealAt k) / 63

/-- `qim(c, bit, sf, T)` over the reals (R201). -/
noncomputable def qimReal (c : ℝ) (bit sf T : Nat) : ℝ :=
  (⌊c / (2 * T) + 1 / 2⌋ : ℝ) * (2 * T) + (sgnOfBit bit * sprOfFlag sf * T : Int)

/-- A byte as the polynomial over GF(2) whose coefficients are its bits (R120). -/
noncomputable def bytePoly (b : Byte) : Polynomial (ZMod 2) :=
  ∑ i ∈ Finset.range 8, if b.getLsbD i then Polynomial.X ^ i else 0

/-- `PRIM_POLY` as a polynomial (R120). -/
noncomputable def primPolynomial (p : Params) : Polynomial (ZMod 2) :=
  ∑ i ∈ Finset.range 9, if p.primPoly.getLsbD i then Polynomial.X ^ i else 0

/-- The new value of a channel byte over the reals (R200). -/
noncomputable def writeBackReal (old : Byte) (weight : Rat) (delta : ℝ) : Byte :=
  clamp255 ⌊(old.toNat : ℝ) + weight * delta + 1 / 2⌋

end Sys2Proof.Machine
end

