-- ==== Sys2Proof/Certificates/Slice0/Obligations.lean ====
section
/-! DEFINITION. The statements for the provers, from the numbered rules of the spec.

A statement about a command says that `exec` answers a next state, what that state reads as, and
(with `State.SameBut`) that nothing else differs; its later clauses are the faults, in the order in
which the rule checks.  Real values are compared over the reals, within the tolerance of R12, which
is 0 in the exact system.  What an implementation's value depends on is the model's choice (log entry
7).  Where a rule of the spec writes as a number a row of the parameter table with only one value (R8),
the statement has the premise `Params.Standard`: the table holds that value, which is part of the
invariant `State.Inv`. -/

open Sys2Proof Sys2Proof.Machine

/-! ### Encoding and decoding -/

/-- The word of every command decodes to that command (R91, R92, R95, R97). -/
def Obligations.DecodeInvertsEncode : Prop :=
  ∀ i : Instr, decode (encode i) = .ok i

/-- A word is a command exactly when it matches a row of the opcode table, at most one row, and then it
is the word of the command it decodes to (R96, R97). -/
def Obligations.DecodeAgreesWithTable : Prop :=
  (∀ w : Word, (∃ i, decode w = .ok i) ↔ ∃ r ∈ opcodeRows, w &&& r.1 = r.2) ∧
    (∀ w : Word, ∀ r ∈ opcodeRows, ∀ r' ∈ opcodeRows, w &&& r.1 = r.2 → w &&& r'.1 = r'.2 → r = r') ∧
    ∀ (w : Word) (i : Instr), decode w = .ok i → encode i = w

/-- The worked encodings of R100, and its two illegal words. -/
def Obligations.WordsDecode : Prop :=
  decode 0x00000000#32 = .ok .nop ∧
    decode 0x00530101#32 = .ok (.li 1 0x53) ∧
    decode 0x41C60102#32 = .ok (.lih 1 0x41C6) ∧
    decode 0x00021310#32 = .ok (.gfmul 3 1 2) ∧
    decode 0x00105403#32 = .ok (.lds 4 1 5) ∧
    decode 0x00065004#32 = .ok (.sts 0 5 6) ∧
    decode 0x00602007#32 = .ok (.csrw 6 2) ∧
    decode 0x00000706#32 = .ok (.csrr 7 0) ∧
    decode 0x00032152#32 = .ok (.qemb 1 2 3) ∧
    decode 0x00000034#32 = .ok .shuf ∧
    decode 0x00100034#32 = .error .nonzeroUnused ∧
    decode 0x00000008#32 = .error .unassignedOpcode

/-! ### Steps, faults, reset -/

/-- An illegal word, or a legal one whose `sel` names nothing, raises `IllegalCommand` with the word and
changes nothing else (R96). -/
def Obligations.IllegalCommandFaults : Prop :=
  ∀ (s : State) (w : Word), s.fault = false →
    ((∀ r ∈ opcodeRows, w &&& r.1 ≠ r.2) → s.issue w = .next (s.faulted 1 w.toNat)) ∧
      (∀ rd sel rs1, decode w = .ok (.lds rd sel rs1) → 18 ≤ sel.toNat →
        s.issue w = .next (s.faulted 1 w.toNat)) ∧
      (∀ sel rs1 rs2, decode w = .ok (.sts sel rs1 rs2) → 18 ≤ sel.toNat →
        s.issue w = .next (s.faulted 1 w.toNat)) ∧
      (∀ rd sel, decode w = .ok (.csrr rd sel) → 12 ≤ sel.toNat →
        s.issue w = .next (s.faulted 1 w.toNat)) ∧
      ∀ sel rs1, decode w = .ok (.csrw sel rs1) → 12 ≤ sel.toNat →
        s.issue w = .next (s.faulted 1 w.toNat)

/-- A step performs the command that the word the host issues decodes to (R23, R27, R315).  That the
words to come are a list in the state is the model's choice (log entry 2). -/
def Obligations.StepRunsDecodedCommand : Prop :=
  ∀ (s : State) (w : Word) (rest : List HostAct) (i : Instr),
    s.input = .command w :: rest → s.fault = false ∨ w = 0x00000005#32 → decode w = .ok i →
      step s = exec i { s with input := rest }

/-- While a fault is pending every word but exactly 0x00000005 is discarded, and that word is performed
(R314). -/
def Obligations.PendingFaultDiscards : Prop :=
  ∀ (s : State) (w : Word) (rest : List HostAct), s.fault = true → s.input = .command w :: rest →
    (w ≠ 0x00000005#32 → step s = .next { s with input := rest }) ∧
      (w = 0x00000005#32 →
        step s = .next { s with input := rest, fault := false, cause := 0#8, finfo := 0#32 })

/-- What the host does between commands: writes of registers, of the writable control registers and of
the `RW` spaces, with or without a pending fault; a write that R61's checks would refuse is outside the
model; with nothing to do the block waits (R70, R320).  The list of the host's actions, the refusal and
the waiting step are the model's choices (log entries 2, 9 and 11), and so is that the port carries
every `Num`, whatever `Params.num` is, and the element then holds exactly that value: R69 leaves the
representation of an inexact `NUM` open (log entry 25). -/
def Obligations.HostAccesses : Prop :=
  ∀ (s : State) (rest : List HostAct),
    (s.input = [] → step s = .next s) ∧
      (∀ r v, s.input = .writeReg r v :: rest →
        ∃ t, step s = .next t ∧ t.getX r = v ∧
          State.SameBut { s with input := rest } t [r] [] false false noCells) ∧
      (∀ (c : Csr) (v : Nat), s.input = .writeCsr c v :: rest →
        (c = .imgW ∧ v < 2 ^ 32 ∨ c = .imgH ∧ v < 2 ^ 32 ∨ c = .strength ∧ v < 2 ^ 16) →
        ∃ t, step s = .next t ∧ (t.readCsr c).toNat = v ∧
          State.SameBut { s with input := rest } t [] [c] false false noCells) ∧
      (∀ sp i v w, s.input = .writeSpace sp i (.int v) :: rest → spaceWritable sp = true →
        s.inBounds sp i = true → spaceWidth sp = some w → v < 2 ^ w →
        ∃ t, step s = .next t ∧ t.element sp i = .int v ∧
          State.SameBut { s with input := rest } t [] [] false false fun sp' i' => sp' = sp ∧ i' = i) ∧
      (∀ sp i v, s.input = .writeSpace sp i (.num v) :: rest → spaceWritable sp = true →
        s.inBounds sp i = true → spaceWidth sp = none →
        ∃ t, step s = .next t ∧ t.element sp i = .num v ∧
          State.SameBut { s with input := rest } t [] [] false false
            fun sp' i' => sp' = sp ∧ (i' = i ∨ sp = .conf)) ∧
      ∀ sp i e, s.input = .writeSpace sp i e :: rest →
        (spaceWritable sp = false ∨ s.inBounds sp i = false) → step s = .refused .hostWrite

/-- The state after reset, at the start and from any state (R48, R340, R341).  That a reset is an action
of the host between commands and keeps the parameters and the other actions is the model's choice (log
entry 12). -/
def Obligations.ResetState : Prop :=
  State.reset.JustReset ∧
    ∀ (s : State) (rest : List HostAct), s.input = .reset :: rest → s.cfg.Standard →
      ∃ t, step s = .next t ∧ t.JustReset ∧ t.cfg = s.cfg ∧ t.input = rest

/-- The state after reset has the invariant (R37, R42, R48). -/
def Obligations.ResetHasInvariant : Prop := State.reset.Inv

/-- Every step keeps the invariant: the canonical form of every space, `RS_NSYM` within its bound and
`GEN` its generator polynomial, the live elements of `PERM` written, `CAUSE` and `FINFO` 0 exactly
without a pending fault's code (R32, R37, R38, R42, R62).  The canonical form is the model's choice
(log entry 5). -/
def Obligations.StepKeepsInvariant : Prop :=
  ∀ s t : State, s.Inv → step s = .next t → t.Inv

/-- Every command ends in a next state, and where it faults it has written `STATUS.FAULT`, `CAUSE` and
`FINFO` and nothing else; no step stops but for a host write outside the model (R312, R313, R343,
R70). -/
def Obligations.CommandsEndPrecisely : Prop :=
  (∀ (i : Instr) (s : State), s.fault = false →
    ∃ t, exec i s = .next t ∧
      (t.fault = true → ∃ (c : BitVec 8) (v : Word), 1 ≤ c.toNat ∧ c.toNat ≤ 9 ∧
        t = { s with fault := true, cause := c, finfo := v })) ∧
    ∀ s : State, (∃ t, step s = .next t) ∨ step s = .refused .hostWrite

/-- Which commands draw, and how often (R168). -/
def Obligations.DrawCounts : Prop :=
  ∀ (s t : State), s.cfg.Standard →
    (exec .shuf s = .next t → t.fault = false →
      t.rngSeed.toNat = lcgNat^[s.permN.toNat - 1] s.rngSeed.toNat) ∧
      (∀ rd, exec (.next rd) s = .next t → t.fault = false →
        t.rngSeed.toNat = lcgNat s.rngSeed.toNat) ∧
      (∀ rd rs1 rs2, exec (.nexti rd rs1 rs2) s = .next t → t.fault = false →
        t.rngSeed.toNat = lcgNat s.rngSeed.toNat) ∧
      (∀ rd, exec (.sprd rd) s = .next t → t.fault = false →
        t.rngSeed.toNat = lcgNat s.rngSeed.toNat) ∧
      ∀ i : Instr, i ≠ .shuf → (∀ rd, i ≠ .next rd) → (∀ rd rs1 rs2, i ≠ .nexti rd rs1 rs2) →
        (∀ rd, i ≠ .sprd rd) → (∀ rs1, i ≠ .seed rs1) → exec i s = .next t → t.rngSeed = s.rngSeed

/-- The column "written by" of R30: the only commands that change each control register. -/
def Obligations.RegistersWrittenBy : Prop :=
  ∀ (i : Instr) (s t : State), exec i s = .next t →
    (t.rngSeed ≠ s.rngSeed → i = .shuf ∨ (∃ rd, i = .next rd ∨ i = .sprd rd ∨ i = .seed rd) ∨
      ∃ rd rs1 rs2, i = .nexti rd rs1 rs2) ∧
      (t.rsNsym ≠ s.rsNsym → ∃ rs1, i = .rscfg rs1) ∧
      (t.permN ≠ s.permN → ∃ rs1, i = .pinit rs1) ∧
      (t.imgW ≠ s.imgW → ∃ rs1, i = .csrw 6 rs1) ∧
      (t.imgH ≠ s.imgH → ∃ rs1, i = .csrw 7 rs1) ∧
      (t.strength ≠ s.strength → ∃ rs1, i = .csrw 8 rs1) ∧
      (t.rserr ≠ s.rserr → ∃ rd rs1, i = .rssyn rd rs1 ∨ i = .rsdec rd rs1) ∧
      (t.found ≠ s.found → ∃ rd, i = .magcmp rd) ∧
      (t.cause ≠ s.cause ∨ t.finfo ≠ s.finfo ∨ t.fault ≠ s.fault → t.fault = true ∨ i = .clrf) ∧
      t.readCsr .magic = s.readCsr .magic ∧ t.readCsr .lsbMagic = s.readCsr .lsbMagic ∧
      t.readCsr .id = s.readCsr .id

/-- The column "written by" of R40: the only commands that change an element of each space.  `RSCFG`
stands beside `SYN`'s own because it leaves `SYN` unspecified (R42). -/
def Obligations.SpacesWrittenBy : Prop :=
  ∀ (i : Instr) (s t : State) (n : Nat), exec i s = .next t →
    (t.element .pix n ≠ s.element .pix n →
      ∃ r r', i = .sts 0 r r' ∨ i = .blkput r ∨ i = .lsbenc r) ∧
      (t.element .sym n ≠ s.element .sym n → ∃ r r', i = .sts 1 r r' ∨ i = .rsenc r) ∧
      (t.element .bit n ≠ s.element .bit n → ∃ r r', i = .sts 2 r r' ∨ i = .vote r r') ∧
      (t.element .msg n ≠ s.element .msg n → ∃ r r', i = .sts 3 r r' ∨ i = .lsbdec r) ∧
      (t.element .perm n ≠ s.element .perm n →
        ∃ r r', i = .sts 4 r r' ∨ i = .pinit r ∨ i = .shuf) ∧
      (t.element .gen n ≠ s.element .gen n → ∃ r, i = .rscfg r) ∧
      (t.element .syn n ≠ s.element .syn n →
        ∃ r r', i = .rssyn r r' ∨ i = .rsdec r r' ∨ i = .rscfg r) ∧
      t.element .gfexp n = s.element .gfexp n ∧ t.element .gflog n = s.element .gflog n ∧
      t.element .dctc n = s.element .dctc n ∧
      (t.element .blks n ≠ s.element .blks n → ∃ r r', i = .sts 10 r r' ∨ i = .blkget r) ∧
      (t.element .blkf n ≠ s.element .blkf n →
        ∃ r r' r'', i = .sts 11 r r' ∨ i = .dct ∨ i = .qemb r r' r'') ∧
      (t.element .blkr n ≠ s.element .blkr n → ∃ r r', i = .sts 12 r r' ∨ i = .idct) ∧
      (t.element .acc0 n ≠ s.element .acc0 n →
        ∃ r r', i = .sts 13 r r' ∨ i = .vclr r ∨ i = .vacc r r') ∧
      (t.element .acc1 n ≠ s.element .acc1 n →
        ∃ r r', i = .sts 14 r r' ∨ i = .vclr r ∨ i = .vacc r r') ∧
      (t.element .conf n ≠ s.element .conf n →
        ∃ r r' r'', i = .sts 15 r r' ∨ i = .qext r r' r'') ∧
      (t.element .ph n ≠ s.element .ph n → i = .phash) ∧
      (t.element .phref n ≠ s.element .phref n → ∃ r r', i = .sts 17 r r')

/-! ### System and data movement -/

/-- `NOP`, `LI` and `LIH` (R265, R266, R267). -/
def Obligations.NopLiLihEffects : Prop :=
  ∀ (s : State) (rd : RegNum) (imm : BitVec 16), s.fault = false →
    exec .nop s = .next s ∧
      (∃ t, exec (.li rd imm) s = .next t ∧ (t.getX rd).toNat = imm.toNat ∧
        s.SameBut t [rd] [] false false noCells) ∧
      ∃ t, exec (.lih rd imm) s = .next t ∧
        (t.getX rd).toNat = imm.toNat * 65536 + (s.getX rd).toNat % 65536 ∧
        s.SameBut t [rd] [] false false noCells

/-- `LDS` (R268, R60, R69). -/
def Obligations.LdsLoadsElementOrFaults : Prop :=
  ∀ (s : State) (rd : RegNum) (sel : Sel) (rs1 : RegNum), s.fault = false →
    (∀ sp v, spaceOfSel sel = some sp → s.inBounds sp (s.natX rs1) = true →
      s.element sp (s.natX rs1) = .int v →
      ∃ t, exec (.lds rd sel rs1) s = .next t ∧ (t.getX rd).toNat = v ∧
        s.SameBut t [rd] [] false false noCells) ∧
      (∀ sp e, spaceOfSel sel = some sp → s.inBounds sp (s.natX rs1) = true →
        s.element sp (s.natX rs1) = .num e →
        (-(2 ^ 31) ≤ ⌊e.toReal + 1 / 2⌋ ∧ ⌊e.toReal + 1 / 2⌋ ≤ 2 ^ 31 - 1 →
          ∃ t, exec (.lds rd sel rs1) s = .next t ∧ (t.getX rd).toInt = ⌊e.toReal + 1 / 2⌋ ∧
            s.SameBut t [rd] [] false false noCells) ∧
          (⌊e.toReal + 1 / 2⌋ < -(2 ^ 31) ∨ 2 ^ 31 - 1 < ⌊e.toReal + 1 / 2⌋ →
            exec (.lds rd sel rs1) s = .next (s.faulted 8 0))) ∧
      (18 ≤ sel.toNat → exec (.lds rd sel rs1) s =
        .next (s.faulted 1 (0x03 + 0x100 * rd.toNat + 0x1000 * rs1.toNat + 0x100000 * sel.toNat))) ∧
      (sel = 8 → s.natX rs1 = 0 → exec (.lds rd sel rs1) s = .next (s.faulted 5 0)) ∧
      ∀ sp, spaceOfSel sel = some sp → s.inBounds sp (s.natX rs1) = false →
        ¬ (sel = 8 ∧ s.natX rs1 = 0) →
        exec (.lds rd sel rs1) s = .next (s.faulted 3 (s.natX rs1))

/-- `STS` (R269, R61). -/
def Obligations.StsStoresElementOrFaults : Prop :=
  ∀ (s : State) (sel : Sel) (rs1 rs2 : RegNum), s.fault = false →
    (∀ sp w, spaceOfSel sel = some sp → spaceWritable sp = true →
      s.inBounds sp (s.natX rs1) = true → spaceWidth sp = some w →
      (s.natX rs2 < 2 ^ w →
        ∃ t, exec (.sts sel rs1 rs2) s = .next t ∧
          t.element sp (s.natX rs1) = .int (s.natX rs2) ∧
          s.SameBut t [] [] false false fun sp' i => sp' = sp ∧ i = s.natX rs1) ∧
        (2 ^ w ≤ s.natX rs2 → exec (.sts sel rs1 rs2) s = .next (s.faulted 2 (s.natX rs2)))) ∧
      (∀ sp, spaceOfSel sel = some sp → spaceWritable sp = true →
        s.inBounds sp (s.natX rs1) = true → spaceWidth sp = none →
        ∃ t e, exec (.sts sel rs1 rs2) s = .next t ∧
          t.element sp (s.natX rs1) = .num e ∧ |e.toReal - ((s.getX rs2).toInt : ℝ)| ≤ s.tolerance .sts ∧
          s.SameBut t [] [] false false fun sp' i => sp' = sp ∧ (i = s.natX rs1 ∨ sp = .conf)) ∧
      (18 ≤ sel.toNat → exec (.sts sel rs1 rs2) s = .next
        (s.faulted 1 (0x04 + 0x1000 * rs1.toNat + 0x10000 * rs2.toNat + 0x100000 * sel.toNat))) ∧
      (sel ∈ ([5, 6, 7, 8, 9, 16] : List Sel) →
        exec (.sts sel rs1 rs2) s = .next (s.faulted 7 sel.toNat)) ∧
      ∀ sp, spaceOfSel sel = some sp → spaceWritable sp = true →
        s.inBounds sp (s.natX rs1) = false →
        exec (.sts sel rs1 rs2) s = .next (s.faulted 3 (s.natX rs1))

/-- Which indices of each space are in bounds (R40, R62). -/
def Obligations.IndexInBoundsIffLive : Prop :=
  ∀ (s : State) (i : Nat), s.cfg.Standard →
    (s.inBounds .pix i = true ↔ i < s.cfg.pixSize) ∧
      (s.inBounds .sym i = true ↔ i < s.cfg.symSize) ∧
      (s.inBounds .bit i = true ↔ i < s.cfg.bitSize) ∧
      (s.inBounds .msg i = true ↔ i < s.cfg.msgSize) ∧
      (s.inBounds .perm i = true ↔ i < s.cfg.permSize ∧ i < s.permN.toNat) ∧
      (s.inBounds .gen i = true ↔ i < s.cfg.nsymMax + 1 ∧ i ≤ s.rsNsym.toNat) ∧
      (s.inBounds .syn i = true ↔ i < s.cfg.nsymMax ∧ i < s.rsNsym.toNat) ∧
      (s.inBounds .gfexp i = true ↔ i < 512) ∧
      (s.inBounds .gflog i = true ↔ 1 ≤ i ∧ i < 256) ∧
      (∀ sp ∈ ([.dctc, .blks, .blkf, .blkr] : List Space), (s.inBounds sp i = true ↔ i < 64)) ∧
      (∀ sp ∈ ([.acc0, .acc1] : List Space), (s.inBounds sp i = true ↔ i < s.cfg.bitSize)) ∧
      (s.inBounds .conf i = true ↔ i = 0) ∧
      ∀ sp ∈ ([.ph, .phref] : List Space), (s.inBounds sp i = true ↔ i < 63)

/-- `CLRF`, with and without a pending fault (R270, R316). -/
def Obligations.ClrfClearsFault : Prop :=
  ∀ s : State,
    exec .clrf s = .next { s with fault := false, cause := 0#8, finfo := 0#32 } ∧
      (s.Inv → s.fault = false → exec .clrf s = .next s)

/-- `CSRR` of each control register (R271, R30, R31). -/
def Obligations.CsrrReadsRegisterOrFaults : Prop :=
  ∀ (s : State) (rd : RegNum) (sel : Sel), s.fault = false →
    (sel.toNat < 12 →
      ∃ t, exec (.csrr rd sel) s = .next t ∧ s.SameBut t [rd] [] false false noCells ∧
        (t.getX rd).toNat =
          ([2 * s.rserr.toNat + 4 * s.found.toNat, s.cause.toNat, s.finfo.toNat, s.rngSeed.toNat,
            s.rsNsym.toNat, s.permN.toNat, s.imgW.toNat, s.imgH.toNat, s.strength.toNat,
            s.cfg.magic.toNat, s.cfg.lsbMagic.toNat, 0x52504C31].getD sel.toNat 0)) ∧
      (12 ≤ sel.toNat → exec (.csrr rd sel) s =
        .next (s.faulted 1 (0x06 + 0x100 * rd.toNat + 0x100000 * sel.toNat)))

/-- `CSRW` (R272). -/
def Obligations.CsrwWritesRegisterOrFaults : Prop :=
  ∀ (s : State) (sel : Sel) (rs1 : RegNum), s.fault = false →
    (sel = 6 → ∃ t, exec (.csrw sel rs1) s = .next t ∧ t.imgW = s.getX rs1 ∧
      s.SameBut t [] [.imgW] false false noCells) ∧
      (sel = 7 → ∃ t, exec (.csrw sel rs1) s = .next t ∧ t.imgH = s.getX rs1 ∧
        s.SameBut t [] [.imgH] false false noCells) ∧
      (sel = 8 → s.natX rs1 ≤ 65535 →
        ∃ t, exec (.csrw sel rs1) s = .next t ∧ t.strength.toNat = s.natX rs1 ∧
          s.SameBut t [] [.strength] false false noCells) ∧
      (12 ≤ sel.toNat → exec (.csrw sel rs1) s =
        .next (s.faulted 1 (0x07 + 0x1000 * rs1.toNat + 0x100000 * sel.toNat))) ∧
      (sel ∈ ([0, 1, 2, 3, 4, 5, 9, 10, 11] : List Sel) →
        exec (.csrw sel rs1) s = .next (s.faulted 7 sel.toNat)) ∧
      (sel = 8 → 65535 < s.natX rs1 →
        exec (.csrw sel rs1) s = .next (s.faulted 2 (s.natX rs1)))

/-! ### Galois field -/

/-- `GFMUL` (R123). -/
def Obligations.GfmulResultAndFaults : Prop :=
  ∀ (s : State) (rd rs1 rs2 : RegNum), s.fault = false →
    let a := s.natX rs1
    let b := s.natX rs2
    let tab := gfTable s.cfg
    (a ≤ 255 → b ≤ 255 →
      ∃ t, exec (.gfmul rd rs1 rs2) s = .next t ∧ s.SameBut t [rd] [] false false noCells ∧
        (t.getX rd).toNat =
          if a = 0 ∨ b = 0 then 0
          else (gfExp tab (gfLog tab (BitVec.ofNat 8 a) + gfLog tab (BitVec.ofNat 8 b))).toNat) ∧
      (255 < a → exec (.gfmul rd rs1 rs2) s = .next (s.faulted 2 a)) ∧
      (a ≤ 255 → 255 < b → exec (.gfmul rd rs1 rs2) s = .next (s.faulted 2 b))

/-- `GFPOW` (R124). -/
def Obligations.GfpowResultAndFaults : Prop :=
  ∀ (s : State) (rd rs1 rs2 : RegNum), s.fault = false →
    let x := s.natX rs1
    let n := s.natX rs2
    let tab := gfTable s.cfg
    (0 < x → x ≤ 255 →
      ∃ t, exec (.gfpow rd rs1 rs2) s = .next t ∧ s.SameBut t [rd] [] false false noCells ∧
        (t.getX rd).toNat = (gfExp tab ((gfLog tab (BitVec.ofNat 8 x) * n) % 255)).toNat) ∧
      (255 < x → exec (.gfpow rd rs1 rs2) s = .next (s.faulted 2 x)) ∧
      (x = 0 → exec (.gfpow rd rs1 rs2) s = .next (s.faulted 5 n))

/-- `GFDIV` (R126). -/
def Obligations.GfdivResultAndFaults : Prop :=
  ∀ (s : State) (rd rs1 rs2 : RegNum), s.fault = false →
    let a := s.natX rs1
    let b := s.natX rs2
    let tab := gfTable s.cfg
    (a ≤ 255 → 0 < b → b ≤ 255 →
      ∃ t, exec (.gfdiv rd rs1 rs2) s = .next t ∧ s.SameBut t [rd] [] false false noCells ∧
        (t.getX rd).toNat =
          if a = 0 then 0
          else (gfExp tab (gfLog tab (BitVec.ofNat 8 a) + 255 - gfLog tab (BitVec.ofNat 8 b))).toNat) ∧
      (255 < a → exec (.gfdiv rd rs1 rs2) s = .next (s.faulted 2 a)) ∧
      (a ≤ 255 → 255 < b → exec (.gfdiv rd rs1 rs2) s = .next (s.faulted 2 b)) ∧
      (a ≤ 255 → b = 0 → exec (.gfdiv rd rs1 rs2) s = .next (s.faulted 4 a))

/-- `GFINV`: the one element whose product with the operand is 1 (R127, R121). -/
def Obligations.GfinvResultAndFaults : Prop :=
  ∀ (s : State) (rd rs1 : RegNum), s.fault = false →
    let b := s.natX rs1
    let tab := gfTable s.cfg
    (s.cfg.wellFormed = true → 0 < b → b ≤ 255 →
      ∃ t, exec (.gfinv rd rs1) s = .next t ∧ s.SameBut t [rd] [] false false noCells ∧
        (t.getX rd).toNat = (gfExp tab (255 - gfLog tab (BitVec.ofNat 8 b))).toNat ∧
        gfmul tab (BitVec.ofNat 8 b) ((t.getX rd).setWidth 8) = 1#8) ∧
      (255 < b → exec (.gfinv rd rs1) s = .next (s.faulted 2 b)) ∧
      (b = 0 → exec (.gfinv rd rs1) s = .next (s.faulted 4 1))

/-- The tables are what R120's loop fills, and invert each other (R120, R121), for `ALPHA = 2`. -/
def Obligations.GaloisTables : Prop :=
  ∀ p : Params, p.wellFormed = true → p.alpha = 2#8 →
    gfExp (gfTable p) 0 = 1#8 ∧
      (∀ i < 254,
        (gfExp (gfTable p) (i + 1)).toNat = tableDouble p (gfExp (gfTable p) i).toNat) ∧
      (∀ i < 255, gfLog (gfTable p) (gfExp (gfTable p) i) = i) ∧
      (∀ v : Byte, v ≠ 0#8 →
        gfLog (gfTable p) v < 255 ∧ gfExp (gfTable p) (gfLog (gfTable p) v) = v) ∧
      ∀ i ≤ 256, gfExp (gfTable p) (i + 255) = gfExp (gfTable p) i

/-- `gfmul` makes the bytes a field with `^` as the sum, and `gfdiv` and `gfpow` are its quotient and
its power (R120, R121, R126, R128).  The rules say so of the default parameters; that the same holds of
every `PRIM_POLY` and `ALPHA` the model allows is the model's own inference, since which ones it allows
is its choice (log entries 14 and 15). -/
def Obligations.GaloisFieldLaws : Prop :=
  ∀ p : Params, p.wellFormed = true →
    let m := gfmul (gfTable p)
    (∀ a b, m a b = m b a) ∧ (∀ a b c, m (m a b) c = m a (m b c)) ∧
      (∀ a b c, m a (b ^^^ c) = m a b ^^^ m a c) ∧ (∀ a, m 1#8 a = a) ∧ (∀ a, m a 0#8 = 0#8) ∧
      (∀ b, b ≠ 0#8 → ∃! c, m b c = 1#8) ∧
      (∀ a b, b ≠ 0#8 → gfdiv (gfTable p) (m a b) b = a ∧ m (gfdiv (gfTable p) a b) b = a) ∧
      ∀ a, a ≠ 0#8 → gfpow (gfTable p) a 0 = 1#8 ∧
        (∀ n, gfpow (gfTable p) a (n + 1) = m (gfpow (gfTable p) a n) a) ∧
        gfpow (gfTable p) a 255 = 1#8

/-- `gfmul` is the product of polynomials over GF(2) modulo `PRIM_POLY` (R120, R123).  R120 writes the
fill for `ALPHA = 2`; that the same holds of every `PRIM_POLY` and `ALPHA` of R8 that the model allows is
the model's own inference, since how another `ALPHA` fills the table and which ones are allowed are its
choices (log entries 14 and 15). -/
def Obligations.GfmulIsPolynomialProduct : Prop :=
  ∀ p : Params, p.wellFormed = true → ∀ a b : Byte,
    primPolynomial p ∣ bytePoly a * bytePoly b - bytePoly (gfmul (gfTable p) a b)

/-! ### Reed-Solomon -/

/-- `rsgen` by R142's loop, and its worked values for the default parameters. -/
def Obligations.GeneratorPolynomial : Prop :=
  (∀ (t : GfTable) (fcr : Nat), rsGenerator t fcr 0 = [1#8] ∧
    ∀ n, (rsGenerator t fcr (n + 1)).length = n + 2 ∧
      ∀ j ≤ n + 1, (rsGenerator t fcr (n + 1)).getD j 0#8 =
        (if j < n + 1 then (rsGenerator t fcr n).getD j 0#8 else 0#8) ^^^
          (if 1 ≤ j then
            gfmul t ((rsGenerator t fcr n).getD (j - 1) 0#8) (gfExp t ((fcr + n) % 255))
          else 0#8)) ∧
    (rsGenerator (gfTable instanceParams) 0 1 = [0x01#8, 0x01#8] ∧
      rsGenerator (gfTable instanceParams) 0 2 = [0x01#8, 0x03#8, 0x02#8] ∧
      rsGenerator (gfTable instanceParams) 0 3 = [0x01#8, 0x07#8, 0x0E#8, 0x08#8] ∧
      rsGenerator (gfTable instanceParams) 0 4 = [0x01#8, 0x0F#8, 0x36#8, 0x78#8, 0x40#8])

/-- `RSCFG` (R141): `SYN` may read differently afterwards (R42, log entry 6). -/
def Obligations.RscfgSetsGenerator : Prop :=
  ∀ (s : State) (rs1 : RegNum), s.fault = false → s.cfg.wellFormed = true →
    let nsym := s.natX rs1
    (nsym ≤ s.cfg.nsymMax →
      ∃ t, exec (.rscfg rs1) s = .next t ∧ t.rsNsym.toNat = nsym ∧
        (∀ j ≤ nsym, t.genAt j = (rsGenerator (gfTable s.cfg) s.cfg.fcr nsym).getD j 0#8) ∧
        s.SameBut t [] [.rsNsym] false false
          fun sp i => sp = .gen ∧ i ≤ nsym ∨ sp = .syn) ∧
      (s.cfg.nsymMax < nsym → exec (.rscfg rs1) s = .next (s.faulted 2 nsym))

/-- `RSENC` (R143). -/
def Obligations.RsencWritesParity : Prop :=
  ∀ (s : State) (rs1 : RegNum), s.fault = false →
    let k := s.natX rs1
    let nsym := s.rsNsym.toNat
    (k + nsym ≤ s.cfg.symSize →
      ∃ t, exec (.rsenc rs1) s = .next t ∧
        (∀ j < nsym, t.symAt (k + j) =
          rsBuffer (gfTable s.cfg) s.genAt nsym k (fun m => if m < k then s.symAt m else 0#8)
            (k + j)) ∧
        s.SameBut t [] [] false false (cellRange .sym k (k + nsym))) ∧
      (s.cfg.symSize < k + nsym → exec (.rsenc rs1) s = .next (s.faulted 3 (k + nsym)))

/-- `RSSYN` (R147, R146). -/
def Obligations.RssynWritesSyndromes : Prop :=
  ∀ (s : State) (rd rs1 : RegNum), s.fault = false →
    let n := s.natX rs1
    let nsym := s.rsNsym.toNat
    let S := fun j => hornerValue (gfTable s.cfg) (gfExp (gfTable s.cfg) ((s.cfg.fcr + j) % 255))
      s.symAt n
    (n ≤ s.cfg.symSize →
      ∃ t, exec (.rssyn rd rs1) s = .next t ∧ (∀ j < nsym, t.synAt j = S j) ∧
        (t.rserr = true ↔ ∃ j < nsym, S j ≠ 0#8) ∧
        t.getX rd = (if t.rserr then 1#32 else 0#32) ∧
        s.SameBut t [rd] [] true false (cellRange .syn 0 nsym)) ∧
      (s.cfg.symSize < n → exec (.rssyn rd rs1) s = .next (s.faulted 3 n))

/-- `RSDEC` (R149): it gives the same payload length whatever the syndromes are (R150). -/
def Obligations.RsdecChecksAndCounts : Prop :=
  ∀ (s : State) (rd rs1 : RegNum), s.fault = false →
    let n := s.natX rs1
    let nsym := s.rsNsym.toNat
    let S := fun j => hornerValue (gfTable s.cfg) (gfExp (gfTable s.cfg) ((s.cfg.fcr + j) % 255))
      s.symAt n
    (n ≤ s.cfg.symSize → nsym ≤ n →
      ∃ t, exec (.rsdec rd rs1) s = .next t ∧ (∀ j < nsym, t.synAt j = S j) ∧
        (t.rserr = true ↔ ∃ j < nsym, S j ≠ 0#8) ∧ (t.getX rd).toNat = n - nsym ∧
        s.SameBut t [rd] [] true false (cellRange .syn 0 nsym)) ∧
      (s.cfg.symSize < n → exec (.rsdec rd rs1) s = .next (s.faulted 3 n)) ∧
      (n ≤ s.cfg.symSize → n < nsym → exec (.rsdec rd rs1) s = .next (s.faulted 2 n))

/-- An undamaged codeword has zero syndromes, for every `k` and `nsym` (R148). -/
def Obligations.CleanCodeword : Prop :=
  ∀ (s t : State) (rs1 rd rn : RegNum), s.Inv → s.fault = false →
    s.natX rs1 + s.rsNsym.toNat ≤ s.cfg.symSize → exec (.rsenc rs1) s = .next t →
    t.natX rn = s.natX rs1 + s.rsNsym.toNat →
    ∃ u, exec (.rssyn rd rn) t = .next u ∧ u.rserr = false ∧ u.getX rd = 0#32 ∧
      ∀ j < s.rsNsym.toNat, u.synAt j = 0#8

/-! ### Generator and permuter -/

/-- `SEED`, `NEXT` and `SPRD` (R161, R162, R169). -/
def Obligations.SeedNextSprdResults : Prop :=
  ∀ (s : State) (rd : RegNum), s.fault = false → s.cfg.Standard →
    let v := lcgNat s.rngSeed.toNat
    (s.natX rd < 2 ^ 31 → ∃ t, exec (.seed rd) s = .next t ∧ t.rngSeed.toNat = s.natX rd ∧
      s.SameBut t [] [.rngSeed] false false noCells) ∧
      (2 ^ 31 ≤ s.natX rd → exec (.seed rd) s = .next (s.faulted 2 (s.natX rd))) ∧
      (∃ t, exec (.next rd) s = .next t ∧ t.rngSeed.toNat = v ∧ (t.getX rd).toNat = v ∧
        s.SameBut t [rd] [.rngSeed] false false noCells) ∧
      ∃ t, exec (.sprd rd) s = .next t ∧ t.rngSeed.toNat = v ∧
        t.getX rd = (if 2 * v > 0x7FFFFFFF then 1#32 else 0#32) ∧
        s.SameBut t [rd] [.rngSeed] false false noCells

/-- `NEXTI` (R164). -/
def Obligations.NextiResultAndFaults : Prop :=
  ∀ (s : State) (rd rs1 rs2 : RegNum), s.fault = false → s.cfg.Standard →
    let lo := s.natX rs1
    let hi := s.natX rs2
    let v := lcgNat s.rngSeed.toNat
    (lo ≤ hi →
      ∃ t, exec (.nexti rd rs1 rs2) s = .next t ∧ t.rngSeed.toNat = v ∧
        (t.getX rd).toNat = (v * (hi - lo + 1) / 0x7FFFFFFF + lo) % 2 ^ 32 ∧
        s.SameBut t [rd] [.rngSeed] false false noCells) ∧
      (hi < lo → exec (.nexti rd rs1 rs2) s = .next (s.faulted 2 lo))

/-- `NEXTI` stays inside its range but for the draw 0x7FFFFFFF, which gives `hi + 1` (R165). -/
def Obligations.NextiRange : Prop :=
  ∀ (s t : State) (rd rs1 rs2 : RegNum), s.fault = false → s.cfg.Standard →
    s.natX rs1 ≤ s.natX rs2 → exec (.nexti rd rs1 rs2) s = .next t →
    (lcgNat s.rngSeed.toNat = 0x7FFFFFFF → (t.getX rd).toNat = (s.natX rs2 + 1) % 2 ^ 32) ∧
      (lcgNat s.rngSeed.toNat ≠ 0x7FFFFFFF →
        s.natX rs1 ≤ (t.getX rd).toNat ∧ (t.getX rd).toNat ≤ s.natX rs2)

/-- The step of the generator is a bijection, and 0x7FFFFFFF comes from 0x0DBDBB1E alone (R160, R163,
R353). -/
def Obligations.GeneratorBijection : Prop :=
  Function.Bijective (lcg Config.rplValues) ∧
    (∀ v, (lcg Config.rplValues v).toNat = lcgNat v.toNat) ∧
    ∀ v : BitVec 31, lcg Config.rplValues v = 0x7FFFFFFF#31 ↔ v = 0x0DBDBB1E#31

/-- `PINIT` (R166). -/
def Obligations.PinitWritesIdentityOrder : Prop :=
  ∀ (s : State) (rs1 : RegNum), s.fault = false →
    let n := s.natX rs1
    (n ≤ s.cfg.permSize →
      ∃ t, exec (.pinit rs1) s = .next t ∧ t.permN.toNat = n ∧
        (∀ i < n, (t.permAt i).toNat = i) ∧
        s.SameBut t [] [.permN] false false (cellRange .perm 0 n)) ∧
      (s.cfg.permSize < n → exec (.pinit rs1) s = .next (s.faulted 3 n))

/-- `SHUF` by the loop of R167. -/
def Obligations.ShufFollowsLoop : Prop :=
  ∀ s : State, s.fault = false → s.cfg.Standard →
    let n := s.permN.toNat
    (∀ p v, shuffleRule (n - 1) s.rngSeed.toNat s.permAt = .ok (p, v) →
      ∃ t, exec .shuf s = .next t ∧ (∀ i < n, t.permAt i = p i) ∧ t.rngSeed.toNat = v ∧
        s.SameBut t [] [.rngSeed] false false (cellRange .perm 0 n)) ∧
      ∀ i, shuffleRule (n - 1) s.rngSeed.toNat s.permAt = .error i →
        exec .shuf s = .next (s.faulted 9 i)

/-- The result of `SHUF` is a permutation of the previous contents, and it faults exactly when one of
its draws is 0x7FFFFFFF (R167). -/
def Obligations.ShufPermutes : Prop :=
  ∀ s t : State, s.fault = false → s.cfg.Standard → exec .shuf s = .next t →
    (t.fault = false →
      ((List.range s.permN.toNat).map t.permAt).Perm ((List.range s.permN.toNat).map s.permAt)) ∧
      (t.fault = true ↔
        ∃ k, 1 ≤ k ∧ k ≤ s.permN.toNat - 1 ∧ lcgNat^[k] s.rngSeed.toNat = 0x7FFFFFFF)

/-! ### Transforms -/

/-- `DCT` and the basis it uses (R180, R181, R182, R186). -/
def Obligations.DctWritesTransform : Prop :=
  (∀ i < 8, ∀ j < 8, ∀ s : State, s.cfg.Standard →
    ∃ c, s.element .dctc (8 * i + j) = .num c ∧ c.toReal = basisReal i j) ∧
    ∀ s : State, s.fault = false → s.cfg.Standard →
      ∃ t, exec .dct s = .next t ∧ s.SameBut t [] [] false false (cellRange .blkf 0 64) ∧
        ∀ u < 8, ∀ v < 8,
          |(t.blkfAt (8 * u + v)).toReal - dctReal (fun a b => (s.blksAt (8 * a + b)).toReal) u v| ≤
            s.tolerance .dct

/-- `IDCT` (R183, R184, R186). -/
def Obligations.IdctWritesInverse : Prop :=
  ∀ s : State, s.fault = false → s.cfg.Standard →
    ∃ t, exec .idct s = .next t ∧ s.SameBut t [] [] false false (cellRange .blkr 0 64) ∧
      ∀ a < 8, ∀ b < 8,
        |(t.blkrAt (8 * a + b)).toReal - idctReal (fun u v => (s.blkfAt (8 * u + v)).toReal) a b| ≤
          s.tolerance .idct

/-- In the exact system `IDCT` after `DCT` brings `BLKS` back in `BLKR`, because the basis is
orthonormal (R183, R185). -/
def Obligations.IdctInvertsDct : Prop :=
  (∀ i < 8, ∀ k < 8, ∑ j ∈ Finset.range 8, basisReal i j * basisReal k j = if i = k then 1 else 0) ∧
    ∀ s : State, s.fault = false → s.cfg.Standard → s.cfg.num = .exact →
      ∃ t u, exec .dct s = .next t ∧ exec .idct t = .next u ∧
        ∀ k < 64, (u.blkrAt k).toReal = (s.blksAt k).toReal

/-! ### Embedding and extraction -/

/-- `BLKGET` (R199, R197, R198). -/
def Obligations.BlkgetWritesLuma : Prop :=
  ∀ (s : State) (rs1 : RegNum), s.fault = false → s.cfg.Standard →
    let b := s.natX rs1
    let w := s.imgW.toNat
    let h := s.imgH.toNat
    (4 * w * h ≤ s.cfg.pixSize → b < w / 8 * (h / 8) →
      ∃ t, exec (.blkget rs1) s = .next t ∧
        s.SameBut t [] [] false false (cellRange .blks 0 64) ∧
        ∀ r < 8, ∀ c < 8,
          |(t.blksAt (8 * r + c)).toReal - s.lumaReal (s.samplePixel b r c)| ≤
            s.tolerance .blkget) ∧
      (s.cfg.pixSize < 4 * w * h → exec (.blkget rs1) s = .next (s.faulted 3 (4 * w * h))) ∧
      (4 * w * h ≤ s.cfg.pixSize → w / 8 * (h / 8) ≤ b →
        exec (.blkget rs1) s = .next (s.faulted 3 b))

/-- `BLKPUT` (R200). -/
def Obligations.BlkputWritesBytes : Prop :=
  ∀ (s : State) (rs1 : RegNum), s.fault = false → s.cfg.Standard →
    let b := s.natX rs1
    let w := s.imgW.toNat
    let h := s.imgH.toNat
    (4 * w * h ≤ s.cfg.pixSize → b < w / 8 * (h / 8) →
      ∃ t, exec (.blkput rs1) s = .next t ∧
        s.SameBut t [] [] false false (s.blockBytes b) ∧
        ∀ r < 8, ∀ c < 8,
          let n := s.samplePixel b r c
          let delta := (s.blkrAt (8 * r + c)).toReal - (s.blksAt (8 * r + c)).toReal
          t.pixAt (4 * n) = writeBackReal (s.pixAt (4 * n)) (299 / 1000) delta ∧
            t.pixAt (4 * n + 1) = writeBackReal (s.pixAt (4 * n + 1)) (587 / 1000) delta ∧
            t.pixAt (4 * n + 2) = writeBackReal (s.pixAt (4 * n + 2)) (114 / 1000) delta) ∧
      (s.cfg.pixSize < 4 * w * h → exec (.blkput rs1) s = .next (s.faulted 3 (4 * w * h))) ∧
      (4 * w * h ≤ s.cfg.pixSize → w / 8 * (h / 8) ≤ b →
        exec (.blkput rs1) s = .next (s.faulted 3 b))

/-- `QEMB` (R202, R201). -/
def Obligations.QembQuantizes : Prop :=
  ∀ (s : State) (rd rs1 rs2 : RegNum), s.fault = false → s.cfg.Standard →
    let k := s.natX rd
    let bit := s.natX rs1
    let sf := s.natX rs2
    let T := s.strength.toNat
    let uv := s.cfg.embedPos.getD k (0, 0)
    let i := 8 * uv.1 + uv.2
    (k ≤ 14 → bit ≤ 1 → sf ≤ 1 → 1 ≤ T →
      ∃ t, exec (.qemb rd rs1 rs2) s = .next t ∧
        s.SameBut t [] [] false false (fun sp j => sp = .blkf ∧ j = i) ∧
        |(t.blkfAt i).toReal - qimReal (s.blkfAt i).toReal bit sf T| ≤ s.tolerance .qemb) ∧
      (14 < k → exec (.qemb rd rs1 rs2) s = .next (s.faulted 2 k)) ∧
      (k ≤ 14 → 1 < bit → exec (.qemb rd rs1 rs2) s = .next (s.faulted 2 bit)) ∧
      (k ≤ 14 → bit ≤ 1 → 1 < sf → exec (.qemb rd rs1 rs2) s = .next (s.faulted 2 sf)) ∧
      (k ≤ 14 → bit ≤ 1 → sf ≤ 1 → T = 0 → exec (.qemb rd rs1 rs2) s = .next (s.faulted 2 0))

/-- `QEXT` (R203). -/
def Obligations.QextEstimates : Prop :=
  ∀ (s : State) (rd rs1 rs2 : RegNum), s.fault = false → s.cfg.Standard →
    let k := s.natX rs1
    let sf := s.natX rs2
    let uv := s.cfg.embedPos.getD k (0, 0)
    let corr := (s.blkfAt (8 * uv.1 + uv.2)).toReal * (if sf = 1 then 1 else -1)
    (k ≤ 14 → sf ≤ 1 →
      ∃ t, exec (.qext rd rs1 rs2) s = .next t ∧
        (0 < corr → t.getX rd = 1#32) ∧ (corr ≤ 0 → t.getX rd = 0#32) ∧
        |t.confVal.toReal - abs corr| ≤ s.tolerance .qext ∧
        s.SameBut t [rd] [] false false (fun sp _ => sp = .conf)) ∧
      (14 < k → exec (.qext rd rs1 rs2) s = .next (s.faulted 2 k)) ∧
      (k ≤ 14 → 1 < sf → exec (.qext rd rs1 rs2) s = .next (s.faulted 2 sf))

/-- In the exact system `QEXT` recovers the bit and the strength that `QEMB` put into a coefficient near
0, and of any other coefficient it gives an estimate that does not depend on the bit (R209). -/
def Obligations.QextRecoversQemb : Prop :=
  ∀ (s t : State) (rd rs1 rs2 rd' rs1' : RegNum), s.fault = false → s.cfg.Standard →
    s.cfg.num = .exact →
    let k := s.natX rd
    let bit := s.natX rs1
    let sf := s.natX rs2
    let T : ℝ := s.strength.toNat
    let uv := s.cfg.embedPos.getD k (0, 0)
    let c := (s.blkfAt (8 * uv.1 + uv.2)).toReal
    k ≤ 14 → bit ≤ 1 → sf ≤ 1 → 1 ≤ s.strength.toNat → exec (.qemb rd rs1 rs2) s = .next t →
    t.natX rs1' = k →
    ∃ u, exec (.qext rd' rs1' rs2) t = .next u ∧
      (-T ≤ c → c < T → (u.getX rd').toNat = bit ∧ u.confVal.toReal = T) ∧
      (c < -T → (u.getX rd').toNat = 1 - sf) ∧ (T ≤ c → (u.getX rd').toNat = sf)

/-- `VCLR` (R205). -/
def Obligations.VclrClearsSums : Prop :=
  ∀ (s : State) (rs1 : RegNum), s.fault = false →
    let n := s.natX rs1
    (n ≤ s.cfg.bitSize →
      ∃ t, exec (.vclr rs1) s = .next t ∧
        (∀ i < n, |(t.acc0At i).toReal| ≤ s.tolerance .vclr ∧
          |(t.acc1At i).toReal| ≤ s.tolerance .vclr) ∧
        s.SameBut t [] [] false false fun sp i => (sp = .acc0 ∨ sp = .acc1) ∧ i < n) ∧
      (s.cfg.bitSize < n → exec (.vclr rs1) s = .next (s.faulted 3 n))

/-- `VACC` (R206). -/
def Obligations.VaccAddsConfidence : Prop :=
  ∀ (s : State) (rs1 rs2 : RegNum), s.fault = false →
    let i := s.natX rs1
    let v := s.natX rs2
    (i < s.cfg.bitSize → v = 1 →
      ∃ t, exec (.vacc rs1 rs2) s = .next t ∧
        |(t.acc1At i).toReal - ((s.acc1At i).toReal + s.confVal.toReal)| ≤ s.tolerance .vacc ∧
        s.SameBut t [] [] false false fun sp j => sp = .acc1 ∧ j = i) ∧
      (i < s.cfg.bitSize → v = 0 →
        ∃ t, exec (.vacc rs1 rs2) s = .next t ∧
          |(t.acc0At i).toReal - ((s.acc0At i).toReal + s.confVal.toReal)| ≤ s.tolerance .vacc ∧
          s.SameBut t [] [] false false fun sp j => sp = .acc0 ∧ j = i) ∧
      (s.cfg.bitSize ≤ i → exec (.vacc rs1 rs2) s = .next (s.faulted 3 i)) ∧
      (i < s.cfg.bitSize → 1 < v → exec (.vacc rs1 rs2) s = .next (s.faulted 2 v))

/-- `VOTE` (R207). -/
def Obligations.VoteComparesSums : Prop :=
  ∀ (s : State) (rd rs1 : RegNum), s.fault = false →
    let i := s.natX rs1
    (i < s.cfg.bitSize →
      ∃ t, exec (.vote rd rs1) s = .next t ∧
        ((s.acc0At i).toReal < (s.acc1At i).toReal → t.getX rd = 1#32 ∧ t.bitAt i = 1#1) ∧
        ((s.acc1At i).toReal ≤ (s.acc0At i).toReal → t.getX rd = 0#32 ∧ t.bitAt i = 0#1) ∧
        s.SameBut t [rd] [] false false fun sp j => sp = .bit ∧ j = i) ∧
      (s.cfg.bitSize ≤ i → exec (.vote rd rs1) s = .next (s.faulted 3 i))

/-- `MAGCMP` (R208). -/
def Obligations.MagcmpCountsMatches : Prop :=
  ∀ (s : State) (rd : RegNum), s.fault = false → s.cfg.Standard →
    ∃ t, exec (.magcmp rd) s = .next t ∧
      (t.getX rd).toNat = ((Finset.range 16).filter fun i =>
        (s.bitAt i).toNat = (s.cfg.magic.getLsbD (15 - i)).toNat).card ∧
      (t.found = true ↔ 12 ≤ (t.getX rd).toNat) ∧
      s.SameBut t [rd] [] false true noCells

/-! ### Perceptual hash -/

/-- `PHASH` (R235, R231 to R234). -/
def Obligations.PhashWritesFingerprint : Prop :=
  ∀ s : State, s.fault = false → s.cfg.Standard →
    let w := s.imgW.toNat
    let h := s.imgH.toNat
    (1 ≤ w → 1 ≤ h → 4 * w * h ≤ s.cfg.pixSize →
      ∃ t, exec .phash s = .next t ∧ s.SameBut t [] [] false false (cellRange .ph 0 63) ∧
        (s.cfg.num = .exact → ∀ k < 63,
          (s.hashMeanReal < s.hashRealAt k → t.phAt k = 1#1) ∧
            (s.hashRealAt k ≤ s.hashMeanReal → t.phAt k = 0#1))) ∧
      (w = 0 ∨ h = 0 → exec .phash s = .next (s.faulted 2 0)) ∧
      (1 ≤ w → 1 ≤ h → s.cfg.pixSize < 4 * w * h →
        exec .phash s = .next (s.faulted 3 (4 * w * h)))

/-- In the exact system a uniform image has a fingerprint of 63 zeros (R236). -/
def Obligations.UniformImageHash : Prop :=
  ∀ (s : State) (r g b : Byte), s.fault = false → s.cfg.Standard → s.cfg.num = .exact →
    1 ≤ s.imgW.toNat → 1 ≤ s.imgH.toNat → 4 * s.imgW.toNat * s.imgH.toNat ≤ s.cfg.pixSize →
    (∀ n < s.imgW.toNat * s.imgH.toNat,
      s.pixAt (4 * n) = r ∧ s.pixAt (4 * n + 1) = g ∧ s.pixAt (4 * n + 2) = b) →
    ∃ t, exec .phash s = .next t ∧ ∀ k < 63, t.phAt k = 0#1

/-- `PHCMP` and `PHVER` (R239, R240). -/
def Obligations.PhcmpPhverCompare : Prop :=
  ∀ (s : State) (rd rs1 rs2 : RegNum), s.fault = false → s.cfg.Standard →
    let cnt := ((Finset.range 63).filter fun k => s.phAt k = s.phrefAt k).card
    let num := s.natX rs1
    let den := s.natX rs2
    (∃ t, exec (.phcmp rd) s = .next t ∧ (t.getX rd).toNat = cnt ∧
      s.SameBut t [rd] [] false false noCells) ∧
      (den ≠ 0 →
        ∃ t, exec (.phver rd rs1 rs2) s = .next t ∧
          t.getX rd = (if num * 63 ≤ cnt * den then 1#32 else 0#32) ∧
          s.SameBut t [rd] [] false false noCells) ∧
      (den = 0 → exec (.phver rd rs1 rs2) s = .next (s.faulted 2 0))

/-! ### LSB codec -/

/-- `LSBENC` (R249, R246, R247, R248). -/
def Obligations.LsbencWritesStream : Prop :=
  ∀ (s : State) (rs1 : RegNum), s.fault = false →
    let n := s.natX rs1
    let w := s.imgW.toNat
    let h := s.imgH.toNat
    (4 * w * h ≤ s.cfg.pixSize → n ≤ s.cfg.msgSize →
      Nat.ceil (((48 + 16 * n : Nat) : ℚ) / 3) ≤ w * h →
      ∃ t, exec (.lsbenc rs1) s = .next t ∧
        (∀ k < 48 + 16 * n, t.pixAt (4 * (k / 3) + k % 3) =
          (s.pixAt (4 * (k / 3) + k % 3) &&& 0xFE#8) |||
            (if s.streamBit n k then 1#8 else 0#8)) ∧
        s.SameBut t [] [] false false (streamBytes n)) ∧
      (s.cfg.pixSize < 4 * w * h → exec (.lsbenc rs1) s = .next (s.faulted 3 (4 * w * h))) ∧
      (4 * w * h ≤ s.cfg.pixSize → s.cfg.msgSize < n →
        exec (.lsbenc rs1) s = .next (s.faulted 3 n)) ∧
      (4 * w * h ≤ s.cfg.pixSize → n ≤ s.cfg.msgSize →
        w * h < Nat.ceil (((48 + 16 * n : Nat) : ℚ) / 3) →
        exec (.lsbenc rs1) s = .next (s.faulted 6 n))

/-- `LSBDEC` (R251, R250). -/
def Obligations.LsbdecFindsMessage : Prop :=
  ∀ (s : State) (rd : RegNum), s.fault = false → s.cfg.Standard →
    let w := s.imgW.toNat
    let h := s.imgH.toNat
    (4 * w * h ≤ s.cfg.pixSize →
      ∃ t, exec (.lsbdec rd) s = .next t ∧ (t.getX rd).toNat = s.hiddenLength ∧
        (∀ i < s.hiddenLength, (t.msgAt i).toNat = s.hiddenField (48 + 16 * i) 16) ∧
        s.SameBut t [rd] [] false false (cellRange .msg 0 s.hiddenLength)) ∧
      (s.cfg.pixSize < 4 * w * h → exec (.lsbdec rd) s = .next (s.faulted 3 (4 * w * h)))

/-- `LSBHAS` (R253, R250). -/
def Obligations.LsbhasTestsMagic : Prop :=
  ∀ (s : State) (rd : RegNum), s.fault = false →
    let w := s.imgW.toNat
    let h := s.imgH.toNat
    (4 * w * h ≤ s.cfg.pixSize →
      ∃ t, exec (.lsbhas rd) s = .next t ∧ s.SameBut t [rd] [] false false noCells ∧
        t.getX rd =
          (if 16 ≤ 3 * (w * h) ∧ s.hiddenField 0 16 = s.cfg.lsbMagic.toNat then 1#32 else 0#32)) ∧
      (s.cfg.pixSize < 4 * w * h → exec (.lsbhas rd) s = .next (s.faulted 3 (4 * w * h)))

/-- A message of 1 to 100000 units that `LSBENC` hides is what `LSBDEC` finds; the empty message is
not found (R252). -/
def Obligations.LsbRoundTrip : Prop :=
  ∀ (s t : State) (rs1 rd : RegNum), s.fault = false → s.cfg.Standard →
    exec (.lsbenc rs1) s = .next t → t.fault = false →
    ∃ u v, exec (.lsbdec rd) t = .next u ∧ exec (.lsbhas rd) t = .next v ∧ v.getX rd = 1#32 ∧
      (1 ≤ s.natX rs1 → s.natX rs1 ≤ 100000 →
        (u.getX rd).toNat = s.natX rs1 ∧ ∀ i < s.natX rs1, u.msgAt i = s.msgAt i) ∧
      (s.natX rs1 = 0 ∨ 100000 < s.natX rs1 → u.getX rd = 0#32)
end

