-- ==== Sys2Proof/Laws/Cosine.lean ====
section
/-! SUPPORT. The arithmetic of `Sys2Proof/Machine/Cosine.lean` over the reals: each operation on
coefficients is the operation on the real numbers they stand for. -/

namespace Sys2Proof.Machine

open Cosine

/-! ### The value of a coefficient list -/

/-- The value of coefficients in any ring, mapped into the reals. -/
noncomputable def evalFrom {α : Type} (f : α → ℝ) (n : Nat) : (k : Nat) → List α → ℝ
  | _, [] => 0
  | k, q :: l => f q * cosUnit n k + evalFrom f n (k + 1) l

theorem evalFrom_rat (n k : Nat) (l : List Rat) :
    evalFrom (fun q : ℚ => (q : ℝ)) n k l = cosValueFrom n k l := by
  induction l generalizing k with
  | nil => rfl
  | cons q l ih => simp only [evalFrom, cosValueFrom, ih]

theorem cosValue_eq (n : Nat) (l : List Rat) :
    cosValue n l = evalFrom (Rat.castHom ℝ) n 0 l := (evalFrom_rat n 0 l).symm

@[simp] theorem cosUnit_zero (n : Nat) : cosUnit n 0 = 1 := rfl

theorem cosUnit_pos {n k : Nat} (h : k ≠ 0) :
    cosUnit n k = 2 * Real.cos (k * Real.pi / (2 * n)) := by simp [cosUnit, h]

theorem addAt_length {α : Type} [Add α] (q : α) (k : Nat) (l : List α) :
    (addAt q k l).length = l.length := by
  induction l generalizing k with
  | nil => cases k <;> rfl
  | cons c cs ih => cases k <;> simp [addAt, ih]

theorem addCos_length {α : Type} [Add α] [Neg α] (n : Nat) (q : α) (m : Nat) (l : List α) :
    (addCos n q m l).length = l.length := by
  simp only [addCos]; split_ifs <;> simp [addAt_length]

theorem addProd_length {α : Type} [Add α] [Neg α] (n : Nat) (q : α) (i j : Nat) (l : List α) :
    (addProd n q i j l).length = l.length := by
  simp only [addProd]; split_ifs <;> simp [addAt_length, addCos_length]

section Ring

variable {α : Type} [CommRing α] (f : α →+* ℝ) (n : Nat)

theorem evalFrom_addAt (q : α) (j k : Nat) (l : List α) (h : k < l.length) :
    evalFrom f n j (addAt q k l) = evalFrom f n j l + f q * cosUnit n (j + k) := by
  induction l generalizing j k with
  | nil => simp at h
  | cons c cs ih =>
    cases k with
    | zero => simp only [addAt, evalFrom, map_add, Nat.add_zero]; ring
    | succ k =>
      simp only [addAt, evalFrom, ih (j + 1) k (by simpa using h)]
      rw [show j + 1 + k = j + (k + 1) by omega]; ring

/-- Adding a cosine of any natural multiple of `π/(2n)`. -/
theorem evalFrom_addCos (hn : 0 < n) (q : α) (m : Nat) (l : List α) (h : l.length = n) :
    evalFrom f n 0 (addCos n q m l) =
      evalFrom f n 0 l + f q * (2 * Real.cos (m * Real.pi / (2 * n))) := by
  have hn' : (n : ℝ) ≠ 0 := by exact_mod_cast hn.ne'
  -- the angle depends on `m` modulo `4n` only
  have h1 : Real.cos (m * Real.pi / (2 * n)) =
      Real.cos (((m % (4 * n) : Nat) : ℝ) * Real.pi / (2 * n)) := by
    have hm : (m : ℝ) = (4 * n) * ((m / (4 * n) : Nat) : ℝ) + ((m % (4 * n) : Nat) : ℝ) := by
      exact_mod_cast (Nat.div_add_mod m (4 * n)).symm
    rw [hm, show ((4 * n) * ((m / (4 * n) : Nat) : ℝ) + ((m % (4 * n) : Nat) : ℝ)) * Real.pi / (2 * n)
      = ((m % (4 * n) : Nat) : ℝ) * Real.pi / (2 * n) + ((m / (4 * n) : Nat) : ℝ) * (2 * Real.pi) by
        field_simp; ring, Real.cos_add_nat_mul_two_pi]
  have hr : m % (4 * n) < 4 * n := Nat.mod_lt _ (by omega)
  simp only [addCos]
  generalize m % (4 * n) = r at h1 hr
  rw [h1]
  -- and it is even about `2n`
  have h2 : Real.cos ((r : ℝ) * Real.pi / (2 * n)) =
      Real.cos (((if 2 * n < r then 4 * n - r else r : Nat) : ℝ) * Real.pi / (2 * n)) := by
    split_ifs with hc
    · rw [Nat.cast_sub hr.le]
      rw [show ((4 * n : Nat) - (r : ℝ)) * Real.pi / (2 * n) = 2 * Real.pi - r * Real.pi / (2 * n) by
        push_cast; field_simp; ring, Real.cos_two_pi_sub]
    · rfl
  have hk : (if 2 * n < r then 4 * n - r else r) ≤ 2 * n := by split_ifs <;> omega
  rw [h2]
  generalize (if 2 * n < r then 4 * n - r else r) = k at hk
  split_ifs with c0 c1 c2 c3
  · subst c0
    rw [evalFrom_addAt f n _ _ _ _ (by omega)]
    simp only [map_add, Nat.zero_add, cosUnit_zero, Nat.cast_zero, zero_mul, zero_div, Real.cos_zero]
    ring
  · rw [evalFrom_addAt f n _ _ _ _ (by omega), Nat.zero_add, cosUnit_pos c0]
  · subst c2
    rw [show (k : ℝ) * Real.pi / (2 * k) = Real.pi / 2 by field_simp, Real.cos_pi_div_two]
    ring
  · subst c3
    rw [evalFrom_addAt f n _ _ _ _ (by omega)]
    rw [show ((2 * n : Nat) : ℝ) * Real.pi / (2 * n) = Real.pi by push_cast; field_simp, Real.cos_pi]
    simp only [map_neg, map_add, Nat.zero_add, cosUnit_zero]
    ring
  · rw [evalFrom_addAt f n _ _ _ _ (by omega), Nat.zero_add, cosUnit_pos (by omega),
      Nat.cast_sub (by omega)]
    rw [show ((2 * n : Nat) - (k : ℝ)) * Real.pi / (2 * n) = Real.pi - k * Real.pi / (2 * n) by
      push_cast; field_simp, Real.cos_pi_sub, map_neg]
    ring

/-- Adding the product of two basis elements. -/
theorem evalFrom_addProd (hn : 0 < n) (q : α) (i j : Nat) (hi : i < n) (hj : j < n) (l : List α)
    (h : l.length = n) :
    evalFrom f n 0 (addProd n q i j l) =
      evalFrom f n 0 l + f q * (cosUnit n i * cosUnit n j) := by
  simp only [addProd]
  split_ifs with c0 c1 c2
  · subst c0; rw [evalFrom_addAt f n _ _ _ _ (by omega)]; simp
  · subst c1; rw [evalFrom_addAt f n _ _ _ _ (by omega)]; simp
  all_goals
    rw [evalFrom_addCos f n hn _ _ _ (by rw [addCos_length]; exact h),
      evalFrom_addCos f n hn _ _ _ h, cosUnit_pos c0, cosUnit_pos c1]
    have key : ∀ d : ℝ, Real.cos d = Real.cos ((i : ℝ) * Real.pi / (2 * n) - j * Real.pi / (2 * n)) →
        evalFrom f n 0 l + f q * (2 * Real.cos d) +
            f q * (2 * Real.cos (((i + j : Nat) : ℝ) * Real.pi / (2 * n))) =
          evalFrom f n 0 l + f q * (2 * Real.cos ((i : ℝ) * Real.pi / (2 * n)) *
            (2 * Real.cos ((j : ℝ) * Real.pi / (2 * n)))) := by
      intro d hd
      rw [hd, show ((i + j : Nat) : ℝ) * Real.pi / (2 * n) =
        (i : ℝ) * Real.pi / (2 * n) + j * Real.pi / (2 * n) by push_cast; ring,
        Real.cos_add, Real.cos_sub]
      ring
    refine key _ ?_
  · rw [Nat.cast_sub (by omega), ← Real.cos_neg]; congr 1; ring
  · rw [Nat.cast_sub (by omega)]; congr 1; ring

theorem mulRow_length [DecidableEq α] (i : Nat) (a : α) (j : Nat) (b acc : List α) :
    (mulRow n i a j b acc).length = acc.length := by
  induction b generalizing j acc with
  | nil => rfl
  | cons c cs ih => simp only [mulRow, ih]; split_ifs <;> simp [addProd_length]

theorem mulFrom_length [DecidableEq α] (b : List α) (i : Nat) (a acc : List α) :
    (mulFrom n b i a acc).length = acc.length := by
  induction a generalizing i acc with
  | nil => rfl
  | cons c cs ih => simp only [mulFrom, ih]; split_ifs <;> simp [mulRow_length]

theorem mul_length [DecidableEq α] (a b : List α) : (mul n a b).length = n := by
  simp [mul, mulFrom_length, zero]

theorem evalFrom_mulRow [DecidableEq α] (hn : 0 < n) (i : Nat) (hi : i < n) (a : α) (j : Nat) (b acc : List α)
    (hb : j + b.length ≤ n) (h : acc.length = n) :
    evalFrom f n 0 (mulRow n i a j b acc) =
      evalFrom f n 0 acc + f a * cosUnit n i * evalFrom f n j b := by
  induction b generalizing j acc with
  | nil => simp [mulRow, evalFrom]
  | cons c cs ih =>
    simp only [List.length_cons] at hb
    simp only [mulRow, evalFrom]
    split_ifs with hc
    · rw [ih (j + 1) acc (by omega) h, hc, map_zero]; ring
    · rw [ih (j + 1) _ (by omega) (by rw [addProd_length]; exact h),
        evalFrom_addProd f n hn _ i j hi (by omega) _ h, map_mul]
      ring

theorem evalFrom_mulFrom [DecidableEq α] (hn : 0 < n) (b : List α) (hb : b.length ≤ n) (i : Nat) (a acc : List α)
    (ha : i + a.length ≤ n) (h : acc.length = n) :
    evalFrom f n 0 (mulFrom n b i a acc) =
      evalFrom f n 0 acc + evalFrom f n i a * evalFrom f n 0 b := by
  induction a generalizing i acc with
  | nil => simp [mulFrom, evalFrom]
  | cons c cs ih =>
    simp only [List.length_cons] at ha
    simp only [mulFrom, evalFrom]
    split_ifs with hc
    · rw [ih (i + 1) acc (by omega) h, hc, map_zero]; ring
    · rw [ih (i + 1) _ (by omega) (by rw [mulRow_length]; exact h),
        evalFrom_mulRow f n hn i (by omega) c 0 b acc (by omega) h]
      ring

theorem evalFrom_replicate_zero (j m : Nat) : evalFrom f n j (List.replicate m 0) = 0 := by
  induction m generalizing j with
  | zero => rfl
  | succ m ih => simp [List.replicate_succ, evalFrom, ih]

@[simp] theorem evalFrom_zero (j : Nat) : evalFrom f n j (zero α n) = 0 :=
  evalFrom_replicate_zero f n j n

/-- The product of coefficient lists is the product of the reals. -/
theorem evalFrom_mul [DecidableEq α] (hn : 0 < n) (a b : List α) (ha : a.length ≤ n) (hb : b.length ≤ n) :
    evalFrom f n 0 (mul n a b) = evalFrom f n 0 a * evalFrom f n 0 b := by
  rw [mul, evalFrom_mulFrom f n hn b hb 0 a _ (by omega) (by simp [zero]), evalFrom_zero]
  ring

theorem evalFrom_addList (j : Nat) (a b : List α) :
    evalFrom f n j (addList a b) = evalFrom f n j a + evalFrom f n j b := by
  induction a generalizing j b with
  | nil => simp [addList, evalFrom]
  | cons c cs ih =>
    cases b with
    | nil => simp [addList, evalFrom]
    | cons d ds => simp only [addList, evalFrom, map_add, ih]; ring

/-- Leaving out zeros at the end keeps the value, of any first part too. -/
theorem evalFrom_take_trim [DecidableEq α] (j m : Nat) (l : List α) :
    evalFrom f n j ((trim l).take m) = evalFrom f n j (l.take m) := by
  induction l generalizing j m with
  | nil => rfl
  | cons q l ih =>
    cases m with
    | zero => simp
    | succ m =>
      rw [List.take_succ_cons, evalFrom, ← ih]
      simp only [trim]
      cases trim l with
      | nil => split_ifs with h <;> simp [evalFrom, h]
      | cons r t => rfl

theorem take_addList (m : Nat) (a b : List α) :
    (addList a b).take m = addList (a.take m) (b.take m) := by
  induction a generalizing m b with
  | nil => simp [addList]
  | cons c cs ih =>
    cases m with
    | zero => simp [addList]
    | succ m =>
      cases b with
      | nil => simp [addList]
      | cons d ds => simp [addList, ih]

theorem evalFrom_zipWith_sub (j : Nat) (a b : List α) (h : a.length = b.length) :
    evalFrom f n j (List.zipWith (· - ·) a b) = evalFrom f n j a - evalFrom f n j b := by
  induction a generalizing j b with
  | nil => cases b <;> simp_all [evalFrom]
  | cons c cs ih =>
    cases b with
    | nil => simp at h
    | cons d ds =>
      simp only [List.zipWith_cons_cons, evalFrom, map_sub, ih (j + 1) ds (by simpa using h)]
      ring

theorem evalFrom_map_mul (q : α) (j : Nat) (a : List α) :
    evalFrom f n j (a.map (q * ·)) = f q * evalFrom f n j a := by
  induction a generalizing j with
  | nil => simp [evalFrom]
  | cons c cs ih => simp only [List.map_cons, evalFrom, map_mul, ih]; ring

end Ring

/-! ### The sign -/

theorem IsSign.eq_one_iff {z : Int} {x : ℝ} (h : IsSign z x) : z = 1 ↔ 0 < x := by
  rcases h with ⟨rfl, h⟩ | ⟨rfl, h⟩ | ⟨rfl, h⟩
  · simp [h]
  · simp [h]
  · simp [h.le]

theorem IsSign.eq_neg_one_iff {z : Int} {x : ℝ} (h : IsSign z x) : z = -1 ↔ x < 0 := by
  rcases h with ⟨rfl, h⟩ | ⟨rfl, h⟩ | ⟨rfl, h⟩
  · simp [h.le]
  · simp [h]
  · simp [h]

theorem isSign_int (z : Int) : IsSign z.sign (z : ℝ) := by
  rcases lt_trichotomy z 0 with h | h | h
  · exact .inr (.inr ⟨Int.sign_eq_neg_one_of_neg h, by exact_mod_cast h⟩)
  · subst h; exact .inr (.inl ⟨rfl, by simp⟩)
  · exact .inl ⟨Int.sign_eq_one_of_pos h, by exact_mod_cast h⟩

/-- The sign of `a + b*t` for `t > 0` from the signs of `a`, `b` and `a² - b²t²`. -/
theorem isSign_combine {a b t : ℝ} (ht : 0 < t) {sa sb sd : Int} (ha : IsSign sa a) (hb : IsSign sb b)
    (hd : IsSign sd (a * a - b * b * (t * t))) :
    IsSign (if sb = 0 then sa else if sa = 0 then sb else if sa = sb then sa else sa * sd)
      (a + b * t) := by
  have hfac : a * a - b * b * (t * t) = (a - b * t) * (a + b * t) := by ring
  rcases ha with ⟨rfl, ha⟩ | ⟨rfl, ha⟩ | ⟨rfl, ha⟩ <;>
    rcases hb with ⟨rfl, hb⟩ | ⟨rfl, hb⟩ | ⟨rfl, hb⟩ <;> simp only [IsSign, reduceIte]
  · left; exact ⟨by norm_num, by positivity⟩
  · left; subst hb; simpa using ha
  · have hpos : 0 < a - b * t := by nlinarith
    rw [hfac] at hd
    rcases hd with ⟨rfl, hd⟩ | ⟨rfl, hd⟩ | ⟨rfl, hd⟩
    · left; exact ⟨by norm_num, (pos_iff_pos_of_mul_pos hd).1 hpos⟩
    · right; left
      exact ⟨by norm_num, (mul_eq_zero.1 hd).resolve_left hpos.ne'⟩
    · right; right
      exact ⟨by norm_num, neg_of_mul_neg_right hd hpos.le⟩
  · left; subst ha; exact ⟨by norm_num, by simpa using mul_pos hb ht⟩
  · right; left; subst ha hb; simp
  · right; right; subst ha; exact ⟨by norm_num, by simpa using mul_neg_of_neg_of_pos hb ht⟩
  · have hneg : a - b * t < 0 := by nlinarith
    rw [hfac] at hd
    rcases hd with ⟨rfl, hd⟩ | ⟨rfl, hd⟩ | ⟨rfl, hd⟩
    · right; right
      exact ⟨by norm_num, by by_contra hc; rw [not_lt] at hc; nlinarith [mul_nonneg (neg_nonneg.2 hneg.le) hc]⟩
    · right; left
      exact ⟨by norm_num, (mul_eq_zero.1 hd).resolve_left hneg.ne⟩
    · left
      exact ⟨by norm_num, by by_contra hc; rw [not_lt] at hc; nlinarith [mul_nonneg_of_nonpos_of_nonpos hneg.le hc]⟩
  · right; right; subst hb; simpa using ha
  · right; right; exact ⟨by norm_num, by nlinarith [mul_neg_of_neg_of_pos hb ht]⟩

section Halving

variable {α : Type} [CommRing α] (f : α →+* ℝ) (n : Nat)

theorem evens_length {β : Type} : ∀ (m : Nat) (l : List β), l.length ≤ 2 * m → (evens l).length ≤ m
  | _, [], _ => Nat.zero_le _
  | m + 1, [_], _ => by simp [evens]
  | m + 1, a :: b :: l, h => by
    simp only [evens, List.length_cons]
    exact Nat.succ_le_succ (evens_length m l (by simp at h; omega))

theorem odds_length {β : Type} : ∀ (m : Nat) (l : List β), l.length ≤ 2 * m → (odds l).length ≤ m
  | _, [], _ => Nat.zero_le _
  | _, [_], _ => Nat.zero_le _
  | m + 1, a :: b :: l, h => by
    simp only [odds, List.length_cons]
    exact Nat.succ_le_succ (odds_length m l (by simp at h; omega))

theorem altSuffix_length (l : List α) : (altSuffix l).length = l.length := by
  induction l with
  | nil => rfl
  | cons o os ih =>
    simp only [altSuffix]
    cases h : altSuffix os with
    | nil => rw [h] at ih; simp [← ih]
    | cons s ss => rw [h] at ih; simp at ih; simp [ih]

theorem cosUnit_double (k : Nat) : cosUnit (2 * n) (2 * k) = cosUnit n k := by
  by_cases hk : k = 0
  · subst hk; rfl
  · rw [cosUnit_pos hk, cosUnit_pos (by omega)]
    congr 2
    push_cast
    rw [show (2 : ℝ) * (2 * n) = 2 * (2 * n) by rfl, mul_assoc 2 (k : ℝ), mul_div_mul_left _ _ two_ne_zero]

/-- The sum of a list's values at the odd multiples of `π/(4n)`, from multiple `2j + 1` on. -/
noncomputable def oddFrom (j : Nat) : List α → ℝ
  | [] => 0
  | o :: os => f o * (2 * Real.cos ((2 * j + 1 : Nat) * Real.pi / (2 * (2 * n : Nat)))) + oddFrom (j + 1) os

theorem evalFrom_split : ∀ (j : Nat) (l : List α),
    evalFrom f (2 * n) (2 * j) l = evalFrom f n j (evens l) + oddFrom f n j (odds l)
  | j, [] => by simp [evens, odds, evalFrom, oddFrom]
  | j, [a] => by simp [evens, odds, evalFrom, oddFrom, cosUnit_double]
  | j, a :: b :: l => by
    have hodd : cosUnit (2 * n) (2 * j + 1) =
        2 * Real.cos ((2 * j + 1 : Nat) * Real.pi / (2 * (2 * n : Nat))) := cosUnit_pos (by omega)
    simp only [evens, odds, evalFrom, oddFrom]
    rw [show 2 * j + 1 + 1 = 2 * (j + 1) by ring, evalFrom_split (j + 1) l, cosUnit_double, hodd]
    ring

/-- Dividing the odd part by `t1`, from any place but the first. -/
theorem oddFrom_pos (j : Nat) (hj : 0 < j) (os : List α) :
    oddFrom f n j os = 2 * Real.cos (Real.pi / (2 * (2 * n : Nat))) * evalFrom f n j (altSuffix os)
      - f ((altSuffix os).headD 0) * (2 * Real.cos ((2 * j - 1 : Nat) * Real.pi / (2 * (2 * n : Nat)))) := by
  induction os generalizing j with
  | nil => simp [oddFrom, altSuffix, evalFrom]
  | cons o os ih =>
    have hcos : 2 * Real.cos (Real.pi / (2 * (2 * n : Nat))) * cosUnit n j =
        2 * Real.cos ((2 * j + 1 : Nat) * Real.pi / (2 * (2 * n : Nat))) +
          2 * Real.cos ((2 * j - 1 : Nat) * Real.pi / (2 * (2 * n : Nat))) := by
      rw [cosUnit_pos hj.ne']
      have e1 : ((2 * j + 1 : Nat) : ℝ) * Real.pi / (2 * (2 * n : Nat)) =
          j * Real.pi / (2 * n) + Real.pi / (2 * (2 * n : Nat)) := by
        by_cases hn : (n : ℝ) = 0
        · simp [hn]
        · push_cast; field_simp
      have e2 : ((2 * j - 1 : Nat) : ℝ) * Real.pi / (2 * (2 * n : Nat)) =
          j * Real.pi / (2 * n) - Real.pi / (2 * (2 * n : Nat)) := by
        rw [Nat.cast_sub (by omega)]
        by_cases hn : (n : ℝ) = 0
        · simp [hn]
        · push_cast; field_simp
      rw [e1, e2, Real.cos_add, Real.cos_sub]
      ring
    simp only [oddFrom, altSuffix]
    rw [ih (j + 1) (by omega)]
    cases hs : altSuffix os with
    | nil =>
      simp only [evalFrom, List.headD_nil, map_zero, List.headD_cons]
      linear_combination (- f o) * hcos
    | cons s ss =>
      simp only [evalFrom, List.headD_cons, map_sub]
      rw [show 2 * (j + 1) - 1 = 2 * j + 1 by omega]
      linear_combination (- (f o - f s)) * hcos

/-- Dividing the odd part by `t1`. -/
theorem oddFrom_zero (os : List α) :
    oddFrom f n 0 os =
      2 * Real.cos (Real.pi / (2 * (2 * n : Nat))) * evalFrom f n 0 (altSuffix os) := by
  cases os with
  | nil => simp [oddFrom, altSuffix, evalFrom]
  | cons o os =>
    simp only [oddFrom, altSuffix]
    rw [oddFrom_pos f n 1 (by omega)]
    cases hs : altSuffix os with
    | nil => simp [evalFrom]; ring
    | cons s ss => simp [evalFrom]; ring

end Halving

/-- The sign of a list of integer coefficients is the sign of the real number. -/
theorem isSign_sign (k : Nat) (l : List Int) (h : l.length ≤ 2 ^ k) :
    IsSign (sign k l) (evalFrom (Int.castRingHom ℝ) (2 ^ k) 0 l) := by
  induction k generalizing l with
  | zero =>
    match l, h with
    | [], _ => exact .inr (.inl ⟨rfl, rfl⟩)
    | [z], _ => simp [sign, evalFrom, isSign_int]
  | succ k ih =>
    have hn : 0 < 2 ^ k := by positivity
    have h' : l.length ≤ 2 * 2 ^ k := by rw [← pow_succ']; exact h
    have he := evens_length _ l h'
    have ho : (altSuffix (odds l)).length ≤ 2 ^ k := by
      rw [altSuffix_length]; exact odds_length _ l h'
    set t : ℝ := 2 * Real.cos (Real.pi / (2 * (2 * 2 ^ k : Nat))) with ht
    have htpos : 0 < t := by
      have h1 : (1 : ℝ) ≤ 2 ^ k := one_le_pow₀ (by norm_num)
      have : 0 < Real.cos (Real.pi / (2 * (2 * 2 ^ k : Nat))) := by
        apply Real.cos_pos_of_mem_Ioo
        constructor
        · have : 0 < Real.pi / (2 * (2 * 2 ^ k : Nat)) := by have := Real.pi_pos; positivity
          linarith [Real.pi_pos]
        · apply div_lt_div_of_pos_left Real.pi_pos (by norm_num)
          push_cast; linarith
      positivity
    have hval : evalFrom (Int.castRingHom ℝ) (2 ^ (k + 1)) 0 l =
        evalFrom (Int.castRingHom ℝ) (2 ^ k) 0 (evens l) +
          evalFrom (Int.castRingHom ℝ) (2 ^ k) 0 (altSuffix (odds l)) * t := by
      have := evalFrom_split (Int.castRingHom ℝ) (2 ^ k) 0 l
      rw [oddFrom_zero] at this
      rw [show 2 ^ (k + 1) = 2 * 2 ^ k by ring, show (0 : Nat) = 2 * 0 from rfl, this, ← ht]
      ring
    have hsq : evalFrom (Int.castRingHom ℝ) (2 ^ k) 0
        (addCos (2 ^ k) 1 1 (addAt 2 0 (zero Int (2 ^ k)))) = t * t := by
      rw [evalFrom_addCos _ _ hn _ _ _ (by simp [addAt_length, zero]),
        evalFrom_addAt _ _ _ _ _ _ (by simp [zero]), evalFrom_zero, ht]
      have : Real.cos (((1 : Nat) : ℝ) * Real.pi / (2 * (2 ^ k : Nat))) =
          2 * Real.cos (Real.pi / (2 * (2 * 2 ^ k : Nat))) ^ 2 - 1 := by
        rw [← Real.cos_two_mul]
        congr 1
        push_cast; field_simp
      rw [this]
      simp
      ring
    rw [hval]
    have hlen : (mul (2 ^ k) (evens l) (evens l)).length =
        (mul (2 ^ k) (mul (2 ^ k) (altSuffix (odds l)) (altSuffix (odds l)))
          (addCos (2 ^ k) 1 1 (addAt 2 0 (zero Int (2 ^ k))))).length := by
      rw [mul_length, mul_length]
    have hd := ih (List.zipWith (· - ·) (mul (2 ^ k) (evens l) (evens l))
        (mul (2 ^ k) (mul (2 ^ k) (altSuffix (odds l)) (altSuffix (odds l)))
          (addCos (2 ^ k) 1 1 (addAt 2 0 (zero Int (2 ^ k)))))) (by simp [mul_length])
    rw [evalFrom_zipWith_sub _ _ _ _ _ hlen, evalFrom_mul _ _ hn _ _ he he,
      evalFrom_mul _ _ hn _ _ (by rw [mul_length])
        (by simp [addCos_length, addAt_length, zero]),
      evalFrom_mul _ _ hn _ _ ho ho, hsq] at hd
    have := isSign_combine htpos (ih _ he) (ih _ ho) hd
    simpa only [sign] using this

/-! ### Rational coefficients -/

theorem commonDen_pos (l : List Rat) : 0 < commonDen l := by
  induction l with
  | nil => simp [commonDen]
  | cons q l ih => exact Nat.lcm_pos q.pos ih

theorem den_dvd_commonDen {q : Rat} {l : List Rat} (h : q ∈ l) : q.den ∣ commonDen l := by
  induction l with
  | nil => simp at h
  | cons p l ih =>
    rcases List.mem_cons.1 h with rfl | h
    · exact Nat.dvd_lcm_left _ _
    · exact (ih h).trans (Nat.dvd_lcm_right _ _)

theorem evalFrom_scaled (n j d : Nat) (l : List Rat) (h : ∀ q ∈ l, q.den ∣ d) :
    evalFrom (Int.castRingHom ℝ) n j (scaled d l) = d * evalFrom (Rat.castHom ℝ) n j l := by
  induction l generalizing j with
  | nil => simp [scaled, evalFrom]
  | cons q l ih =>
    have hq := h q (by simp)
    have hcast : ((q.num * ((d / q.den : Nat) : Int) : Int) : ℝ) = d * (q : ℝ) := by
      obtain ⟨c, rfl⟩ := hq
      rw [Nat.mul_div_cancel_left _ q.pos]
      push_cast
      have hden : (q.den : ℝ) ≠ 0 := by exact_mod_cast q.den_nz
      have : (q : ℝ) = q.num / q.den := by exact_mod_cast (Rat.num_div_den q).symm
      rw [this]; field_simp
    have hs : scaled d (q :: l) = q.num * ((d / q.den : Nat) : Int) :: scaled d l := rfl
    rw [hs]
    simp only [evalFrom, ih (j + 1) fun q hq => h q (by simp [hq])]
    rw [show (Int.castRingHom ℝ) (q.num * ((d / q.den : Nat) : Int)) = d * (q : ℝ) from hcast]
    simp only [Rat.coe_castHom]
    ring

/-- The sign of a list of rational coefficients is the sign of the real number. -/
theorem isSign_signRat (k : Nat) (l : List Rat) (h : l.length ≤ 2 ^ k) :
    IsSign (signRat k l) (cosValue (2 ^ k) l) := by
  have h1 := isSign_sign k (scaled (commonDen l) l) (by simp [scaled, h])
  rw [evalFrom_scaled _ _ _ _ fun q hq => den_dvd_commonDen hq, ← cosValue_eq] at h1
  have hd : (0 : ℝ) < commonDen l := by exact_mod_cast commonDen_pos l
  rcases h1 with ⟨e, h1⟩ | ⟨e, h1⟩ | ⟨e, h1⟩
  · exact .inl ⟨e, (pos_iff_pos_of_mul_pos h1).1 hd⟩
  · exact .inr (.inl ⟨e, (mul_eq_zero.1 h1).resolve_left hd.ne'⟩)
  · exact .inr (.inr ⟨e, neg_of_mul_neg_right h1 hd.le⟩)

end Sys2Proof.Machine
end

