-- ==== Sys2Proof/Laws/Mem.lean ====
section
/-! SUPPORT. The laws of a space's content: reading after writing, and the canonical form. -/

namespace Sys2Proof

variable {α : Type}

@[simp] theorem Mem.get?_nil (i : Nat) : Mem.get? ([] : Mem α) i = none := rfl

theorem Mem.get?_cons (j : Nat) (w : α) (m : Mem α) (i : Nat) :
    Mem.get? ((j, w) :: m) i = if i = j then some w else Mem.get? m i := rfl

/-! ### Reading after writing -/

/-- One read after one write, for any content, canonical or not. -/
theorem Mem.get?_write (i : Nat) (v : α) (m : Mem α) (k : Nat) :
    (Mem.write i v m).get? k = if k = i then some v else m.get? k := by
  induction m with
  | nil => rfl
  | cons c m ih =>
    obtain ⟨j, w⟩ := c
    simp only [Mem.write]
    split_ifs <;> simp only [Mem.get?_cons, ih] <;> split_ifs <;> first | rfl | omega

@[simp] theorem Mem.get?_write_same (i : Nat) (v : α) (m : Mem α) :
    (Mem.write i v m).get? i = some v := by simp [Mem.get?_write]

theorem Mem.get?_write_other {i k : Nat} (v : α) (m : Mem α) (h : k ≠ i) :
    (Mem.write i v m).get? k = m.get? k := by simp [Mem.get?_write, h]

@[simp] theorem Mem.writeAll_nil (m : Mem α) : m.writeAll [] = m := rfl

theorem Mem.writeAll_cons (c : Nat × α) (cs : List (Nat × α)) (m : Mem α) :
    m.writeAll (c :: cs) = Mem.write c.1 c.2 (m.writeAll cs) := rfl

/-- One read after many writes: the first cell with that index, else the old element. -/
theorem Mem.get?_writeAll (cells : List (Nat × α)) (m : Mem α) (k : Nat) :
    (m.writeAll cells).get? k =
      ((Mem.get? cells k).or (m.get? k)) := by
  induction cells with
  | nil => rfl
  | cons c cs ih =>
    obtain ⟨i, v⟩ := c
    simp only [Mem.writeAll_cons, Mem.get?_write, Mem.get?_cons, ih]
    split_ifs <;> rfl

theorem Mem.get?_eq_none {m : Mem α} {k : Nat} (h : ∀ c ∈ m, c.1 ≠ k) : m.get? k = none := by
  induction m with
  | nil => rfl
  | cons c m ih =>
    obtain ⟨j, w⟩ := c
    rw [Mem.get?_cons, if_neg (fun e => h (j, w) (by simp) e.symm), ih fun c hc => h c (by simp [hc])]

/-- Indices that no cell names read as before. -/
theorem Mem.get?_writeAll_other {cells : List (Nat × α)} (m : Mem α) {k : Nat}
    (h : ∀ c ∈ cells, c.1 ≠ k) : (m.writeAll cells).get? k = m.get? k := by
  rw [Mem.get?_writeAll, Mem.get?_eq_none h]; rfl

theorem Mem.get?_cellsFrom (base : Nat) (l : List α) (k : Nat) :
    Mem.get? (Mem.cellsFrom base l) k = if k < base then none else l[k - base]? := by
  induction l generalizing base with
  | nil => simp [Mem.cellsFrom]
  | cons v l ih =>
    simp only [Mem.cellsFrom, Mem.get?_cons, ih]
    rcases Nat.lt_trichotomy k base with h | h | h
    · simp [h, Nat.ne_of_lt h, Nat.lt_succ_of_lt h]
    · simp [h]
    · rw [if_neg (by omega), if_neg (by omega), if_neg (by omega)]
      obtain ⟨d, rfl⟩ : ∃ d, k = base + 1 + d := ⟨k - base - 1, by omega⟩
      rw [show base + 1 + d - base = d + 1 by omega, show base + 1 + d - (base + 1) = d by omega]
      rfl

/-- One read after writing consecutive elements. -/
theorem Mem.get?_writeAll_cellsFrom (base : Nat) (l : List α) (m : Mem α) (k : Nat) :
    (m.writeAll (Mem.cellsFrom base l)).get? k =
      if base ≤ k ∧ k < base + l.length then l[k - base]? else m.get? k := by
  rw [Mem.get?_writeAll, Mem.get?_cellsFrom]
  by_cases h1 : k < base
  · rw [if_pos h1, if_neg (by omega)]; rfl
  · rw [if_neg h1]
    by_cases h2 : k < base + l.length
    · rw [if_pos ⟨by omega, h2⟩, List.getElem?_eq_getElem (by omega)]; rfl
    · rw [if_neg (by omega), List.getElem?_eq_none (by omega)]; rfl

/-- Two contents that read the same give the same elements. -/
theorem Mem.readOr_congr {m m' : Mem α} {i : Nat} (h : m.get? i = m'.get? i) (free : Nat → α) :
    m.readOr free i = m'.readOr free i := by rw [Mem.readOr, Mem.readOr, h]

/-- An element just written is what was written, whatever unwritten elements read as. -/
theorem Mem.readOr_of_get? {m : Mem α} {i : Nat} {v : α} (h : m.get? i = some v) (free : Nat → α) :
    m.readOr free i = v := by rw [Mem.readOr, h]; rfl

/-! ### The canonical form -/

/-- The canonical form, said once for the whole list. -/
theorem Mem.wf_iff (size : Nat) (m : Mem α) :
    m.wf size = true ↔ m.Pairwise (fun a b => a.1 < b.1) ∧ ∀ c ∈ m, c.1 < size := by
  induction m with
  | nil => simp [Mem.wf]
  | cons c m ih =>
    obtain ⟨i, v⟩ := c
    cases m with
    | nil => simp [Mem.wf]
    | cons d m =>
      obtain ⟨j, w⟩ := d
      simp only [Mem.wf, Bool.and_eq_true, decide_eq_true_eq, ih, List.pairwise_cons]
      constructor
      · rintro ⟨hij, ⟨h1, h2⟩, h3⟩
        refine ⟨⟨?_, h1, h2⟩, ?_⟩
        · intro a ha
          rcases List.mem_cons.1 ha with rfl | ha
          · exact hij
          · exact lt_trans hij (h1 a ha)
        · intro a ha
          rcases List.mem_cons.1 ha with rfl | ha
          · exact lt_trans hij (h3 (j, w) (by simp))
          · exact h3 a ha
      · rintro ⟨⟨h0, h1, h2⟩, h3⟩
        exact ⟨h0 (j, w) (by simp), ⟨h1, h2⟩, fun a ha => h3 a (List.mem_cons_of_mem _ ha)⟩

theorem Mem.mem_write {i : Nat} {v : α} {m : Mem α} {c : Nat × α} (h : c ∈ Mem.write i v m) :
    c = (i, v) ∨ c ∈ m := by
  induction m with
  | nil => simpa [Mem.write] using h
  | cons d m ih =>
    obtain ⟨j, w⟩ := d
    simp only [Mem.write] at h
    split_ifs at h <;> simp only [List.mem_cons] at h ⊢
    · tauto
    · tauto
    · rcases h with h | h
      · exact .inr (.inl h)
      · exact (ih h).imp_right .inr

/-- A write inside the size keeps the canonical form. -/
theorem Mem.wf_write {size i : Nat} (v : α) {m : Mem α} (hi : i < size) (h : m.wf size = true) :
    (Mem.write i v m).wf size = true := by
  rw [Mem.wf_iff] at h ⊢
  refine ⟨?_, fun c hc => (Mem.mem_write hc).elim (fun e => e ▸ hi) (h.2 c)⟩
  obtain ⟨h, -⟩ := h
  induction m with
  | nil => simp [Mem.write]
  | cons d m ih =>
    obtain ⟨j, w⟩ := d
    rw [List.pairwise_cons] at h
    simp only [Mem.write]
    split_ifs with h1 h2
    · refine List.pairwise_cons.2 ⟨fun a ha => ?_, List.pairwise_cons.2 h⟩
      rcases List.mem_cons.1 ha with rfl | ha
      · exact h1
      · exact lt_trans h1 (h.1 a ha)
    · subst h2
      exact List.pairwise_cons.2 h
    · refine List.pairwise_cons.2 ⟨fun a ha => ?_, ih h.2⟩
      rcases Mem.mem_write ha with rfl | ha
      · show j < i; omega
      · exact h.1 a ha

/-- Writes inside the size keep the canonical form. -/
theorem Mem.wf_writeAll {size : Nat} {cells : List (Nat × α)} {m : Mem α}
    (hc : ∀ c ∈ cells, c.1 < size) (h : m.wf size = true) : (m.writeAll cells).wf size = true := by
  induction cells with
  | nil => exact h
  | cons c cs ih =>
    rw [Mem.writeAll_cons]
    exact Mem.wf_write _ (hc c (by simp)) (ih fun c hc' => hc c (by simp [hc']))

theorem Mem.mem_cellsFrom {base : Nat} {l : List α} {c : Nat × α} (h : c ∈ Mem.cellsFrom base l) :
    base ≤ c.1 ∧ c.1 < base + l.length := by
  induction l generalizing base with
  | nil => simp [Mem.cellsFrom] at h
  | cons v l ih =>
    simp only [Mem.cellsFrom, List.mem_cons] at h
    rcases h with rfl | h
    · simp
    · have := ih h
      simp only [List.length_cons]
      omega

/-- Consecutive elements that end inside the size keep the canonical form. -/
theorem Mem.wf_writeAll_cellsFrom {size base : Nat} {l : List α} {m : Mem α}
    (hl : base + l.length ≤ size ∨ l = []) (h : m.wf size = true) :
    (m.writeAll (Mem.cellsFrom base l)).wf size = true := by
  refine Mem.wf_writeAll (fun c hc => ?_) h
  have := Mem.mem_cellsFrom hc
  rcases hl with hl | rfl
  · omega
  · simp [Mem.cellsFrom] at hc

/-- In the canonical form equal reads mean equal contents. -/
theorem Mem.ext_of_wf {size : Nat} {m m' : Mem α} (h : m.wf size = true) (h' : m'.wf size = true)
    (he : ∀ i, m.get? i = m'.get? i) : m = m' := by
  rw [Mem.wf_iff] at h h'
  obtain ⟨h, -⟩ := h
  obtain ⟨h', -⟩ := h'
  induction m generalizing m' with
  | nil =>
    cases m' with
    | nil => rfl
    | cons d m' =>
      obtain ⟨j, w⟩ := d
      have := he j
      simp [Mem.get?_cons] at this
  | cons c m ih =>
    cases m' with
    | nil =>
      obtain ⟨i, v⟩ := c
      have := he i
      simp [Mem.get?_cons] at this
    | cons d m' =>
      obtain ⟨i, v⟩ := c
      obtain ⟨j, w⟩ := d
      rw [List.pairwise_cons] at h h'
      have below {k : Nat} {l : Mem α} (hl : ∀ a ∈ l, k < a.1) (n : Nat) (hn : n ≤ k) :
          l.get? n = none := Mem.get?_eq_none fun a ha => by have := hl a ha; omega
      have hij : i = j := by
        rcases Nat.lt_trichotomy i j with hlt | heq | hgt
        · have := he i
          rw [Mem.get?_cons, Mem.get?_cons, if_pos rfl, if_neg (by omega),
            below h'.1 i (by omega)] at this
          simp at this
        · exact heq
        · have := he j
          rw [Mem.get?_cons, Mem.get?_cons, if_neg (by omega), if_pos rfl,
            below h.1 j (by omega)] at this
          simp at this
      subst hij
      have hvw : v = w := by simpa [Mem.get?_cons] using he i
      subst hvw
      refine congrArg _ (ih (fun k => ?_) h.2 h'.2)
      have := he k
      rw [Mem.get?_cons, Mem.get?_cons] at this
      by_cases hk : k = i
      · rw [below h.1 k (by omega), below h'.1 k (by omega)]
      · simpa [hk] using this

end Sys2Proof
end

