-- ==== Sys2Proof/Laws/Num.lean ====
section
/-! SUPPORT. The arithmetic of `Num` over the reals (R12): every operation is the real one. -/

namespace Sys2Proof

open Machine Cosine

/-! ### The field -/

theorem CosNum.toReal_eq (a : CosNum) : CosNum.toReal a = evalFrom (Rat.castHom ℝ) 32 0 (a.take 32) :=
  cosValue_eq 32 _

theorem CosNum.toReal_trim (l : List Rat) :
    CosNum.toReal (trim l) = evalFrom (Rat.castHom ℝ) 32 0 (l.take 32) := by
  rw [CosNum.toReal_eq, evalFrom_take_trim]

@[simp] theorem CosNum.toReal_nil : CosNum.toReal [] = 0 := rfl

@[simp] theorem CosNum.toReal_ofRat (q : Rat) : CosNum.toReal (CosNum.ofRat q) = q := by
  rw [CosNum.ofRat, CosNum.toReal_trim]; simp [evalFrom]

@[simp] theorem CosNum.toReal_add (a b : CosNum) :
    CosNum.toReal (CosNum.add a b) = CosNum.toReal a + CosNum.toReal b := by
  rw [CosNum.add, CosNum.toReal_trim, take_addList, evalFrom_addList, CosNum.toReal_eq,
    CosNum.toReal_eq]

@[simp] theorem CosNum.toReal_scale (q : Rat) (a : CosNum) :
    CosNum.toReal (CosNum.scale q a) = q * CosNum.toReal a := by
  rw [CosNum.scale, CosNum.toReal_trim, ← List.map_take, evalFrom_map_mul, CosNum.toReal_eq]
  rfl

@[simp] theorem CosNum.toReal_mul (a b : CosNum) :
    CosNum.toReal (CosNum.mul a b) = CosNum.toReal a * CosNum.toReal b := by
  rw [CosNum.mul, CosNum.toReal_trim, List.take_of_length_le (by rw [mul_length]),
    evalFrom_mul _ _ (by norm_num) _ _ (List.length_take_le _ _) (List.length_take_le _ _),
    CosNum.toReal_eq, CosNum.toReal_eq]

theorem CosNum.isSign (a : CosNum) : IsSign (CosNum.sign a) (CosNum.toReal a) :=
  isSign_signRat 5 (a.take 32) (List.length_take_le _ _)

@[simp] theorem CosNum.toReal_cosPi64 (m : Nat) :
    CosNum.toReal (CosNum.cosPi64 m) = Real.cos (m * Real.pi / 64) := by
  rw [CosNum.cosPi64, CosNum.toReal_trim, List.take_of_length_le (by rw [addCos_length]; simp [zero]),
    evalFrom_addCos (Rat.castHom ℝ) 32 (by norm_num) _ m _ (by simp [zero]), evalFrom_zero]
  rw [show (m : ℝ) * Real.pi / (2 * (32 : Nat)) = m * Real.pi / 64 by push_cast; ring]
  simp

@[simp] theorem CosNum.toReal_cosPi16 (m : Nat) :
    CosNum.toReal (CosNum.cosPi16 m) = Real.cos (m * Real.pi / 16) := by
  rw [CosNum.cosPi16, CosNum.toReal_cosPi64]
  congr 1
  push_cast
  ring

@[simp] theorem CosNum.toReal_invSqrt8 : CosNum.toReal CosNum.invSqrt8 = 1 / Real.sqrt 8 := by
  rw [CosNum.invSqrt8, CosNum.toReal_scale, CosNum.toReal_cosPi16]
  rw [show ((4 : Nat) : ℝ) * Real.pi / 16 = Real.pi / 4 by push_cast; ring, Real.cos_pi_div_four]
  have h8 : Real.sqrt 8 = 2 * Real.sqrt 2 := by
    rw [show (8 : ℝ) = 2 ^ 2 * 2 by norm_num, Real.sqrt_mul (by norm_num), Real.sqrt_sq (by norm_num)]
  have h2 : Real.sqrt 2 * Real.sqrt 2 = 2 := Real.mul_self_sqrt (by norm_num)
  have h0 : Real.sqrt 2 ≠ 0 := by positivity
  rw [h8]
  push_cast
  field_simp
  nlinarith

/-! ### The reals outside the field -/

/-- Any sequence of reals can be `r(0), r(1), ...`: the model confines a `Num` to no field. -/
theorem RealAtoms.exists_of_value (value : Nat → ℝ) : ∃ a : RealAtoms, a.value = value := by
  have h : ∀ x : ℝ, ∃ z, IsSign z x := fun x => by
    rcases lt_trichotomy x 0 with h | h | h
    · exact ⟨-1, .inr (.inr ⟨rfl, h⟩)⟩
    · exact ⟨0, .inr (.inl ⟨rfl, h⟩)⟩
    · exact ⟨1, .inl ⟨rfl, h⟩⟩
  choose sign sign_spec using h
  exact ⟨⟨value, fun k => ⌈|value k|⌉₊, fun k => Nat.le_ceil _, fun x => sign (x.valueIn value),
    fun x => sign_spec _⟩, rfl⟩

theorem Config.abs_atomValue_le (k : Nat) : |Config.atomValue k| ≤ Config.atomBound k := by
  rw [Config.atomValue, Config.atomBound]
  cases Config.realAtoms with
  | none => simp
  | some a => exact a.abs_value_le k

/-- The value of the terms outside the field. -/
noncomputable def atomsValue (l : List (Nat × CosNum)) : ℝ :=
  (l.map fun a => CosNum.toReal a.2 * Config.atomValue a.1).sum

theorem Num.toReal_eq (x : Num) : x.toReal = CosNum.toReal x.base + atomsValue x.atoms := rfl

@[simp] theorem atomsValue_nil : atomsValue [] = 0 := rfl

@[simp] theorem atomsValue_cons (a : Nat × CosNum) (l : List (Nat × CosNum)) :
    atomsValue (a :: l) = CosNum.toReal a.2 * Config.atomValue a.1 + atomsValue l := rfl

theorem atomsValue_addAtom (k : Nat) (c : CosNum) (l : List (Nat × CosNum)) :
    atomsValue (addAtom k c l) = CosNum.toReal c * Config.atomValue k + atomsValue l := by
  induction l with
  | nil => rw [addAtom]; split_ifs with h <;> simp [h]
  | cons a l ih =>
    obtain ⟨j, d⟩ := a
    rw [addAtom]
    split_ifs with h1 h2 h3 h4
    · simp [h2]
    · simp
    · subst h3
      have := CosNum.toReal_add c d
      rw [h4, CosNum.toReal_nil] at this
      simp only [atomsValue_cons]
      linear_combination Config.atomValue k * this
    · subst h3; simp only [atomsValue_cons, CosNum.toReal_add]; ring
    · simp only [atomsValue_cons, ih]; ring

theorem atomsValue_foldr (a b : List (Nat × CosNum)) :
    atomsValue (a.foldr (fun a l => addAtom a.1 a.2 l) b) = atomsValue a + atomsValue b := by
  induction a with
  | nil => simp
  | cons p l ih => simp only [List.foldr_cons, atomsValue_addAtom, ih, atomsValue_cons]; ring

theorem Num.toReal_mapCoeffs (f : CosNum → CosNum) (c : ℝ)
    (hf : ∀ a, CosNum.toReal (f a) = c * CosNum.toReal a) (x : Num) :
    (x.mapCoeffs f).toReal = c * x.toReal := by
  have h : ∀ l : List (Nat × CosNum),
      atomsValue ((l.map fun a => (a.1, f a.2)).filter fun a => a.2 ≠ []) = c * atomsValue l := by
    intro l
    induction l with
    | nil => simp
    | cons a l ih =>
      rw [List.map_cons, List.filter_cons]
      split_ifs with h
      · rw [atomsValue_cons, ih, atomsValue_cons, hf]; ring
      · have h0 : f a.2 = [] := by simpa using h
        have := hf a.2
        rw [h0, CosNum.toReal_nil] at this
        rw [ih, atomsValue_cons]
        linear_combination Config.atomValue a.1 * this
  rw [Num.toReal_eq, Num.toReal_eq, Num.mapCoeffs, hf, h]
  ring

/-! ### Arithmetic -/

@[simp] theorem Num.toReal_ofCos (a : CosNum) : (Num.ofCos a).toReal = CosNum.toReal a := by
  simp [Num.toReal_eq, Num.ofCos]

@[simp] theorem Num.toReal_ofRat (q : Rat) : (Num.ofRat q).toReal = q := by simp [Num.ofRat]

@[simp] theorem Num.toReal_ofInt (z : Int) : (Num.ofInt z).toReal = z := by simp [Num.ofInt]

@[simp] theorem Num.toReal_add (x y : Num) : (Num.add x y).toReal = x.toReal + y.toReal := by
  simp only [Num.toReal_eq, Num.add, CosNum.toReal_add, atomsValue_foldr]; ring

@[simp] theorem Num.toReal_scale (q : Rat) (x : Num) : (Num.scale q x).toReal = q * x.toReal :=
  Num.toReal_mapCoeffs _ _ (CosNum.toReal_scale q) x

@[simp] theorem Num.toReal_smul (c : CosNum) (x : Num) :
    (Num.smul c x).toReal = CosNum.toReal c * x.toReal :=
  Num.toReal_mapCoeffs _ _ (CosNum.toReal_mul c) x

@[simp] theorem Num.toReal_neg (x : Num) : (Num.neg x).toReal = -x.toReal := by
  simp [Num.neg]

@[simp] theorem Num.toReal_sub (x y : Num) : (Num.sub x y).toReal = x.toReal - y.toReal := by
  simp [Num.sub, sub_eq_add_neg]

@[simp] theorem Num.toReal_sumTo (n : Nat) (f : Nat → Num) :
    (Num.sumTo n f).toReal = ∑ k ∈ Finset.range n, (f k).toReal := by
  induction n with
  | zero => simp [Num.sumTo]
  | succ n ih => rw [Num.sumTo, Num.toReal_add, ih, Finset.sum_range_succ]

/-! ### Order -/

theorem Num.isSign (x : Num) : IsSign x.sign x.toReal := by
  rw [Num.sign]
  split_ifs with h
  · rw [Num.toReal_eq, h, atomsValue_nil, add_zero]
    exact CosNum.isSign _
  · rw [Num.toReal]
    cases h' : Config.realAtoms with
    | none =>
      have h0 : Config.atomValue = fun _ => 0 := by funext k; rw [Config.atomValue, h']
      rw [h0, Num.valueIn]
      simpa using CosNum.isSign x.base
    | some a =>
      have h0 : Config.atomValue = a.value := by funext k; rw [Config.atomValue, h']
      rw [h0]
      exact a.sign_spec x

/-- `Num.lt` is the order of the reals. -/
theorem Num.lt_iff (x y : Num) : Num.lt x y = true ↔ x.toReal < y.toReal := by
  rw [Num.lt, decide_eq_true_iff, (Num.isSign _).eq_one_iff, Num.toReal_sub, sub_pos]

theorem Num.le_iff (x y : Num) : Num.le x y = true ↔ x.toReal ≤ y.toReal := by
  rw [Num.le, Bool.not_eq_true', ← Bool.not_eq_true, Num.lt_iff, not_lt]

@[simp] theorem Num.toReal_abs (x : Num) : (Num.abs x).toReal = |x.toReal| := by
  rw [Num.abs]
  split_ifs with h
  · rw [Num.toReal_neg, abs_of_neg ((Num.isSign x).eq_neg_one_iff.1 h)]
  · rw [abs_of_nonneg]
    exact le_of_not_gt fun hc => h ((Num.isSign x).eq_neg_one_iff.2 hc)

/-! ### Rounding -/

theorem abs_cosUnit_le (n k : Nat) : |cosUnit n k| ≤ 2 := by
  by_cases hk : k = 0
  · subst hk; simp
  · rw [cosUnit_pos hk, abs_mul, abs_two]
    have := Real.abs_cos_le_one (k * Real.pi / (2 * n))
    linarith

theorem abs_rat_le (q : Rat) : |(q : ℝ)| ≤ ((q.num.natAbs / q.den + 1 : Nat) : ℝ) := by
  have hd : (0 : ℝ) < q.den := by exact_mod_cast q.pos
  have h1 : (q : ℝ) = q.num / q.den := by exact_mod_cast (Rat.num_div_den q).symm
  rw [h1, abs_div, abs_of_pos hd, div_le_iff₀ hd]
  have h2 : q.num.natAbs < (q.num.natAbs / q.den + 1) * q.den := by
    rw [mul_comm]; exact Nat.lt_mul_div_succ _ q.pos
  have h3 : |(q.num : ℝ)| = (q.num.natAbs : ℝ) := by
    rw [Nat.cast_natAbs, Int.cast_abs]
  rw [h3]
  exact_mod_cast h2.le

theorem abs_cosValueFrom_le (n k : Nat) (l : List Rat) :
    |cosValueFrom n k l| ≤
      2 * ((l.foldr (fun q b => (q.num.natAbs / q.den + 1 : Nat) + b) 0 : Nat) : ℝ) := by
  induction l generalizing k with
  | nil => simp [cosValueFrom]
  | cons q l ih =>
    simp only [cosValueFrom, List.foldr_cons, Nat.cast_add, mul_add]
    refine (abs_add_le _ _).trans (add_le_add ?_ (ih _))
    rw [abs_mul, mul_comm 2]
    have := mul_le_mul (abs_rat_le q) (abs_cosUnit_le n k) (abs_nonneg _) (by positivity)
    push_cast at this ⊢
    linarith

theorem CosNum.abs_toReal_le (a : CosNum) : |CosNum.toReal a| ≤ (CosNum.bound a : ℝ) := by
  rw [CosNum.bound]
  push_cast
  exact abs_cosValueFrom_le 32 0 (a.take 32)

theorem abs_atomsValue_le (l : List (Nat × CosNum)) :
    |atomsValue l| ≤ ((l.map fun a => CosNum.bound a.2 * Config.atomBound a.1).sum : Nat) := by
  induction l with
  | nil => simp
  | cons a l ih =>
    rw [atomsValue_cons, List.map_cons, List.sum_cons, Nat.cast_add, Nat.cast_mul]
    refine (abs_add_le _ _).trans (add_le_add ?_ ih)
    rw [abs_mul]
    exact mul_le_mul (CosNum.abs_toReal_le _) (Config.abs_atomValue_le _) (abs_nonneg _) (by positivity)

theorem Num.abs_toReal_lt_bound (x : Num) : |x.toReal| < (x.bound : ℝ) := by
  have h1 := CosNum.abs_toReal_le x.base
  have h2 := abs_atomsValue_le x.atoms
  have h3 := abs_add_le (CosNum.toReal x.base) (atomsValue x.atoms)
  rw [Num.toReal_eq, Num.bound, Int.cast_natCast]
  push_cast at h2 ⊢
  linarith

theorem Num.floorFrom_spec (x : Num) (fuel : Nat) (lo : Int) (h1 : (lo : ℝ) ≤ x.toReal)
    (h2 : x.toReal < lo + (2 ^ fuel : Nat)) : x.floorFrom fuel lo = ⌊x.toReal⌋ := by
  induction fuel generalizing lo with
  | zero =>
    rw [Num.floorFrom]
    exact (Int.floor_eq_iff.2 ⟨h1, by simpa using h2⟩).symm
  | succ fuel ih =>
    simp only [Num.floorFrom]
    split_ifs with h
    · rw [Num.le_iff, Num.toReal_ofInt] at h
      refine ih _ h ?_
      rw [pow_succ] at h2
      push_cast at h2 ⊢
      linarith
    · rw [Num.le_iff, Num.toReal_ofInt, not_le] at h
      refine ih _ h1 ?_
      push_cast at h ⊢
      linarith

/-- `Num.floor` is the floor of the reals. -/
theorem Num.floor_eq (x : Num) : x.floor = ⌊x.toReal⌋ := by
  simp only [Num.floor]
  split_ifs with h
  · rw [Bool.and_eq_true, Num.le_iff, Num.lt_iff, Num.toReal_ofInt, Num.toReal_ofInt] at h
    exact (Int.floor_eq_iff.2 ⟨h.1, by simpa using h.2⟩).symm
  · have hb := Num.abs_toReal_lt_bound x
    obtain ⟨hb1, hb2⟩ := abs_lt.1 hb
    refine Num.floorFrom_spec x _ _ (by push_cast; linarith) ?_
    have hpos : 0 ≤ x.bound := by
      have : (0 : ℝ) ≤ x.bound := (abs_nonneg _).trans hb.le
      exact_mod_cast this
    have h3 : 2 * x.bound.toNat < 2 ^ (Nat.log2 (2 * x.bound.toNat) + 1) := Nat.lt_log2_self
    have h4 : (2 * x.bound : ℝ) < ((2 ^ (Nat.log2 (2 * x.bound.toNat) + 1) : Nat) : ℝ) := by
      have h5 : (x.bound : ℝ) = ((x.bound.toNat : Nat) : ℝ) := by
        have : ((x.bound.toNat : Nat) : Int) = x.bound := Int.toNat_of_nonneg hpos
        exact_mod_cast this.symm
      rw [h5]
      exact_mod_cast h3
    push_cast at h4 ⊢
    linarith

/-- `roundHalfUp` is `floor(v + 1/2)` (R12). -/
theorem Num.roundHalfUp_eq (x : Num) : x.roundHalfUp = ⌊x.toReal + 1 / 2⌋ := by
  rw [Num.roundHalfUp, Num.floor_eq, Num.toReal_add, Num.toReal_ofRat]
  norm_num

end Sys2Proof

namespace Sys2Proof.Machine

/-! ### The basis and the transforms (R180 to R183) -/

/-- Every entry of the basis is the real of R180's formula. -/
theorem toReal_basis (i j : Nat) : CosNum.toReal (basis i j) = basisReal i j := by
  rw [basis, basisReal]
  split_ifs with h
  · subst h; simp
  · rw [CosNum.toReal_scale, CosNum.toReal_cosPi16]; push_cast; ring_nf

theorem matAt_matSums (n : Nat) (f : Nat → Nat → Nat → Num) (i j : Nat) (hi : i < n) (hj : j < n) :
    matAt n (matSums n f) i j = Num.sumTo n (f i j) := by
  have h : n * i + j < n * n := by nlinarith
  simp only [matAt, matSums, List.getD_eq_getElem?_getD, List.getElem?_map, List.getElem?_range h,
    Option.map_some, Option.getD_some]
  rw [Nat.mul_add_div (by omega), Nat.div_eq_of_lt hj, Nat.mul_add_mod, Nat.mod_eq_of_lt hj,
    Nat.add_zero]

/-- `dct2d` is R181's double sum. -/
theorem toReal_dct2d (b : Nat → Nat → Num) (u v : Nat) (hu : u < 8) (hv : v < 8) :
    (matAt 8 (dct2d 8 b) u v).toReal = dctReal (fun i j => (b i j).toReal) u v := by
  rw [dct2d, matAt_matSums _ _ u v hu hv, Num.toReal_sumTo, dctReal, Finset.sum_comm]
  refine Finset.sum_congr rfl fun k hk => ?_
  rw [Num.toReal_smul, matAt_matSums _ _ u k hu (Finset.mem_range.1 hk), Num.toReal_sumTo,
    Finset.mul_sum]
  refine Finset.sum_congr rfl fun i _ => ?_
  rw [Num.toReal_smul, toReal_basis, toReal_basis]
  ring

/-- `idct2d` is R183's double sum. -/
theorem toReal_idct2d (f : Nat → Nat → Num) (i j : Nat) (hi : i < 8) (hj : j < 8) :
    (matAt 8 (idct2d 8 f) i j).toReal = idctReal (fun u v => (f u v).toReal) i j := by
  rw [idct2d, matAt_matSums _ _ i j hi hj, Num.toReal_sumTo, idctReal, Finset.sum_comm]
  refine Finset.sum_congr rfl fun k hk => ?_
  rw [Num.toReal_smul, matAt_matSums _ _ i k hi (Finset.mem_range.1 hk), Num.toReal_sumTo,
    Finset.mul_sum]
  refine Finset.sum_congr rfl fun u _ => ?_
  rw [Num.toReal_smul, toReal_basis, toReal_basis]
  ring

/-- Every entry of the hash's basis is the real of R232's formula. -/
theorem toReal_hashBasis (k i : Nat) :
    CosNum.toReal (hashBasis k i) = hashWeight k * Real.cos ((2 * i + 1) * k * Real.pi / 64) := by
  rw [hashBasis, hashWeight, CosNum.toReal_scale, CosNum.toReal_cosPi64]
  split_ifs with h
  · have h32 : Real.sqrt (1 / 32) = Real.sqrt 2 / 8 := by
      rw [show (1 / 32 : ℝ) = (Real.sqrt 2 / 8) ^ 2 by
        rw [div_pow, Real.sq_sqrt (by norm_num)]; norm_num]
      exact Real.sqrt_sq (by positivity)
    subst h
    rw [show ((16 : Nat) : ℝ) * Real.pi / 64 = Real.pi / 4 by push_cast; ring, Real.cos_pi_div_four, h32]
    push_cast
    simp
    ring
  · push_cast; ring_nf

/-- A result within the tolerance of the rule's value (R12). -/
theorem abs_approx_sub_le (s : State) (site : NumSite) (inputs : List Num) (k : Nat) (v : Num) :
    |(s.approx site inputs k v).toReal - v.toReal| ≤ s.tolerance site := by
  rw [State.approx, State.tolerance]
  cases s.cfg.num with
  | exact => simp
  | approx n =>
    simp only
    split_ifs with h
    · rw [Num.le_iff, Num.toReal_abs, Num.toReal_ofRat, Num.toReal_sub] at h
      exact le_max_of_le_right h
    · simp

end Sys2Proof.Machine
end

