-- ==== Sys2Proof/Laws/State.lean ====
section
/-! SUPPORT. What each update of the state does to each field: one lemma for each pair. -/

namespace Sys2Proof.Machine

/-! `State.setX` -/

@[simp] theorem State.setX_cfg (s : State) (r : RegNum) (v : Word) : (s.setX r v).cfg = s.cfg := rfl
@[simp] theorem State.setX_x (s : State) (r : RegNum) (v : Word) : (s.setX r v).x = s.x.set r.toNat v := rfl
@[simp] theorem State.setX_fault (s : State) (r : RegNum) (v : Word) : (s.setX r v).fault = s.fault := rfl
@[simp] theorem State.setX_rserr (s : State) (r : RegNum) (v : Word) : (s.setX r v).rserr = s.rserr := rfl
@[simp] theorem State.setX_found (s : State) (r : RegNum) (v : Word) : (s.setX r v).found = s.found := rfl
@[simp] theorem State.setX_cause (s : State) (r : RegNum) (v : Word) : (s.setX r v).cause = s.cause := rfl
@[simp] theorem State.setX_finfo (s : State) (r : RegNum) (v : Word) : (s.setX r v).finfo = s.finfo := rfl
@[simp] theorem State.setX_rngSeed (s : State) (r : RegNum) (v : Word) : (s.setX r v).rngSeed = s.rngSeed := rfl
@[simp] theorem State.setX_rsNsym (s : State) (r : RegNum) (v : Word) : (s.setX r v).rsNsym = s.rsNsym := rfl
@[simp] theorem State.setX_permN (s : State) (r : RegNum) (v : Word) : (s.setX r v).permN = s.permN := rfl
@[simp] theorem State.setX_imgW (s : State) (r : RegNum) (v : Word) : (s.setX r v).imgW = s.imgW := rfl
@[simp] theorem State.setX_imgH (s : State) (r : RegNum) (v : Word) : (s.setX r v).imgH = s.imgH := rfl
@[simp] theorem State.setX_strength (s : State) (r : RegNum) (v : Word) : (s.setX r v).strength = s.strength := rfl
@[simp] theorem State.setX_pix (s : State) (r : RegNum) (v : Word) : (s.setX r v).pix = s.pix := rfl
@[simp] theorem State.setX_sym (s : State) (r : RegNum) (v : Word) : (s.setX r v).sym = s.sym := rfl
@[simp] theorem State.setX_bit (s : State) (r : RegNum) (v : Word) : (s.setX r v).bit = s.bit := rfl
@[simp] theorem State.setX_msg (s : State) (r : RegNum) (v : Word) : (s.setX r v).msg = s.msg := rfl
@[simp] theorem State.setX_perm (s : State) (r : RegNum) (v : Word) : (s.setX r v).perm = s.perm := rfl
@[simp] theorem State.setX_gen (s : State) (r : RegNum) (v : Word) : (s.setX r v).gen = s.gen := rfl
@[simp] theorem State.setX_syn (s : State) (r : RegNum) (v : Word) : (s.setX r v).syn = s.syn := rfl
@[simp] theorem State.setX_blks (s : State) (r : RegNum) (v : Word) : (s.setX r v).blks = s.blks := rfl
@[simp] theorem State.setX_blkf (s : State) (r : RegNum) (v : Word) : (s.setX r v).blkf = s.blkf := rfl
@[simp] theorem State.setX_blkr (s : State) (r : RegNum) (v : Word) : (s.setX r v).blkr = s.blkr := rfl
@[simp] theorem State.setX_acc0 (s : State) (r : RegNum) (v : Word) : (s.setX r v).acc0 = s.acc0 := rfl
@[simp] theorem State.setX_acc1 (s : State) (r : RegNum) (v : Word) : (s.setX r v).acc1 = s.acc1 := rfl
@[simp] theorem State.setX_conf (s : State) (r : RegNum) (v : Word) : (s.setX r v).conf = s.conf := rfl
@[simp] theorem State.setX_ph (s : State) (r : RegNum) (v : Word) : (s.setX r v).ph = s.ph := rfl
@[simp] theorem State.setX_phref (s : State) (r : RegNum) (v : Word) : (s.setX r v).phref = s.phref := rfl
@[simp] theorem State.setX_resets (s : State) (r : RegNum) (v : Word) : (s.setX r v).resets = s.resets := rfl
@[simp] theorem State.setX_synEpoch (s : State) (r : RegNum) (v : Word) : (s.setX r v).synEpoch = s.synEpoch := rfl
@[simp] theorem State.setX_input (s : State) (r : RegNum) (v : Word) : (s.setX r v).input = s.input := rfl

/-! `State.raise` -/

@[simp] theorem State.raise_cfg (s : State) (k : FaultKind) (v : Nat) : (s.raise k v).cfg = s.cfg := rfl
@[simp] theorem State.raise_x (s : State) (k : FaultKind) (v : Nat) : (s.raise k v).x = s.x := rfl
@[simp] theorem State.raise_fault (s : State) (k : FaultKind) (v : Nat) : (s.raise k v).fault = true := rfl
@[simp] theorem State.raise_rserr (s : State) (k : FaultKind) (v : Nat) : (s.raise k v).rserr = s.rserr := rfl
@[simp] theorem State.raise_found (s : State) (k : FaultKind) (v : Nat) : (s.raise k v).found = s.found := rfl
@[simp] theorem State.raise_cause (s : State) (k : FaultKind) (v : Nat) : (s.raise k v).cause = k.code := rfl
@[simp] theorem State.raise_finfo (s : State) (k : FaultKind) (v : Nat) : (s.raise k v).finfo = BitVec.ofNat 32 v := rfl
@[simp] theorem State.raise_rngSeed (s : State) (k : FaultKind) (v : Nat) : (s.raise k v).rngSeed = s.rngSeed := rfl
@[simp] theorem State.raise_rsNsym (s : State) (k : FaultKind) (v : Nat) : (s.raise k v).rsNsym = s.rsNsym := rfl
@[simp] theorem State.raise_permN (s : State) (k : FaultKind) (v : Nat) : (s.raise k v).permN = s.permN := rfl
@[simp] theorem State.raise_imgW (s : State) (k : FaultKind) (v : Nat) : (s.raise k v).imgW = s.imgW := rfl
@[simp] theorem State.raise_imgH (s : State) (k : FaultKind) (v : Nat) : (s.raise k v).imgH = s.imgH := rfl
@[simp] theorem State.raise_strength (s : State) (k : FaultKind) (v : Nat) : (s.raise k v).strength = s.strength := rfl
@[simp] theorem State.raise_pix (s : State) (k : FaultKind) (v : Nat) : (s.raise k v).pix = s.pix := rfl
@[simp] theorem State.raise_sym (s : State) (k : FaultKind) (v : Nat) : (s.raise k v).sym = s.sym := rfl
@[simp] theorem State.raise_bit (s : State) (k : FaultKind) (v : Nat) : (s.raise k v).bit = s.bit := rfl
@[simp] theorem State.raise_msg (s : State) (k : FaultKind) (v : Nat) : (s.raise k v).msg = s.msg := rfl
@[simp] theorem State.raise_perm (s : State) (k : FaultKind) (v : Nat) : (s.raise k v).perm = s.perm := rfl
@[simp] theorem State.raise_gen (s : State) (k : FaultKind) (v : Nat) : (s.raise k v).gen = s.gen := rfl
@[simp] theorem State.raise_syn (s : State) (k : FaultKind) (v : Nat) : (s.raise k v).syn = s.syn := rfl
@[simp] theorem State.raise_blks (s : State) (k : FaultKind) (v : Nat) : (s.raise k v).blks = s.blks := rfl
@[simp] theorem State.raise_blkf (s : State) (k : FaultKind) (v : Nat) : (s.raise k v).blkf = s.blkf := rfl
@[simp] theorem State.raise_blkr (s : State) (k : FaultKind) (v : Nat) : (s.raise k v).blkr = s.blkr := rfl
@[simp] theorem State.raise_acc0 (s : State) (k : FaultKind) (v : Nat) : (s.raise k v).acc0 = s.acc0 := rfl
@[simp] theorem State.raise_acc1 (s : State) (k : FaultKind) (v : Nat) : (s.raise k v).acc1 = s.acc1 := rfl
@[simp] theorem State.raise_conf (s : State) (k : FaultKind) (v : Nat) : (s.raise k v).conf = s.conf := rfl
@[simp] theorem State.raise_ph (s : State) (k : FaultKind) (v : Nat) : (s.raise k v).ph = s.ph := rfl
@[simp] theorem State.raise_phref (s : State) (k : FaultKind) (v : Nat) : (s.raise k v).phref = s.phref := rfl
@[simp] theorem State.raise_resets (s : State) (k : FaultKind) (v : Nat) : (s.raise k v).resets = s.resets := rfl
@[simp] theorem State.raise_synEpoch (s : State) (k : FaultKind) (v : Nat) : (s.raise k v).synEpoch = s.synEpoch := rfl
@[simp] theorem State.raise_input (s : State) (k : FaultKind) (v : Nat) : (s.raise k v).input = s.input := rfl

/-! `State.acknowledge` -/

@[simp] theorem State.acknowledge_cfg (s : State) : (s.acknowledge).cfg = s.cfg := rfl
@[simp] theorem State.acknowledge_x (s : State) : (s.acknowledge).x = s.x := rfl
@[simp] theorem State.acknowledge_fault (s : State) : (s.acknowledge).fault = false := rfl
@[simp] theorem State.acknowledge_rserr (s : State) : (s.acknowledge).rserr = s.rserr := rfl
@[simp] theorem State.acknowledge_found (s : State) : (s.acknowledge).found = s.found := rfl
@[simp] theorem State.acknowledge_cause (s : State) : (s.acknowledge).cause = 0#8 := rfl
@[simp] theorem State.acknowledge_finfo (s : State) : (s.acknowledge).finfo = 0#32 := rfl
@[simp] theorem State.acknowledge_rngSeed (s : State) : (s.acknowledge).rngSeed = s.rngSeed := rfl
@[simp] theorem State.acknowledge_rsNsym (s : State) : (s.acknowledge).rsNsym = s.rsNsym := rfl
@[simp] theorem State.acknowledge_permN (s : State) : (s.acknowledge).permN = s.permN := rfl
@[simp] theorem State.acknowledge_imgW (s : State) : (s.acknowledge).imgW = s.imgW := rfl
@[simp] theorem State.acknowledge_imgH (s : State) : (s.acknowledge).imgH = s.imgH := rfl
@[simp] theorem State.acknowledge_strength (s : State) : (s.acknowledge).strength = s.strength := rfl
@[simp] theorem State.acknowledge_pix (s : State) : (s.acknowledge).pix = s.pix := rfl
@[simp] theorem State.acknowledge_sym (s : State) : (s.acknowledge).sym = s.sym := rfl
@[simp] theorem State.acknowledge_bit (s : State) : (s.acknowledge).bit = s.bit := rfl
@[simp] theorem State.acknowledge_msg (s : State) : (s.acknowledge).msg = s.msg := rfl
@[simp] theorem State.acknowledge_perm (s : State) : (s.acknowledge).perm = s.perm := rfl
@[simp] theorem State.acknowledge_gen (s : State) : (s.acknowledge).gen = s.gen := rfl
@[simp] theorem State.acknowledge_syn (s : State) : (s.acknowledge).syn = s.syn := rfl
@[simp] theorem State.acknowledge_blks (s : State) : (s.acknowledge).blks = s.blks := rfl
@[simp] theorem State.acknowledge_blkf (s : State) : (s.acknowledge).blkf = s.blkf := rfl
@[simp] theorem State.acknowledge_blkr (s : State) : (s.acknowledge).blkr = s.blkr := rfl
@[simp] theorem State.acknowledge_acc0 (s : State) : (s.acknowledge).acc0 = s.acc0 := rfl
@[simp] theorem State.acknowledge_acc1 (s : State) : (s.acknowledge).acc1 = s.acc1 := rfl
@[simp] theorem State.acknowledge_conf (s : State) : (s.acknowledge).conf = s.conf := rfl
@[simp] theorem State.acknowledge_ph (s : State) : (s.acknowledge).ph = s.ph := rfl
@[simp] theorem State.acknowledge_phref (s : State) : (s.acknowledge).phref = s.phref := rfl
@[simp] theorem State.acknowledge_resets (s : State) : (s.acknowledge).resets = s.resets := rfl
@[simp] theorem State.acknowledge_synEpoch (s : State) : (s.acknowledge).synEpoch = s.synEpoch := rfl
@[simp] theorem State.acknowledge_input (s : State) : (s.acknowledge).input = s.input := rfl

/-! `State.setRserr` -/

@[simp] theorem State.setRserr_cfg (s : State) (b : Bool) : (s.setRserr b).cfg = s.cfg := rfl
@[simp] theorem State.setRserr_x (s : State) (b : Bool) : (s.setRserr b).x = s.x := rfl
@[simp] theorem State.setRserr_fault (s : State) (b : Bool) : (s.setRserr b).fault = s.fault := rfl
@[simp] theorem State.setRserr_rserr (s : State) (b : Bool) : (s.setRserr b).rserr = b := rfl
@[simp] theorem State.setRserr_found (s : State) (b : Bool) : (s.setRserr b).found = s.found := rfl
@[simp] theorem State.setRserr_cause (s : State) (b : Bool) : (s.setRserr b).cause = s.cause := rfl
@[simp] theorem State.setRserr_finfo (s : State) (b : Bool) : (s.setRserr b).finfo = s.finfo := rfl
@[simp] theorem State.setRserr_rngSeed (s : State) (b : Bool) : (s.setRserr b).rngSeed = s.rngSeed := rfl
@[simp] theorem State.setRserr_rsNsym (s : State) (b : Bool) : (s.setRserr b).rsNsym = s.rsNsym := rfl
@[simp] theorem State.setRserr_permN (s : State) (b : Bool) : (s.setRserr b).permN = s.permN := rfl
@[simp] theorem State.setRserr_imgW (s : State) (b : Bool) : (s.setRserr b).imgW = s.imgW := rfl
@[simp] theorem State.setRserr_imgH (s : State) (b : Bool) : (s.setRserr b).imgH = s.imgH := rfl
@[simp] theorem State.setRserr_strength (s : State) (b : Bool) : (s.setRserr b).strength = s.strength := rfl
@[simp] theorem State.setRserr_pix (s : State) (b : Bool) : (s.setRserr b).pix = s.pix := rfl
@[simp] theorem State.setRserr_sym (s : State) (b : Bool) : (s.setRserr b).sym = s.sym := rfl
@[simp] theorem State.setRserr_bit (s : State) (b : Bool) : (s.setRserr b).bit = s.bit := rfl
@[simp] theorem State.setRserr_msg (s : State) (b : Bool) : (s.setRserr b).msg = s.msg := rfl
@[simp] theorem State.setRserr_perm (s : State) (b : Bool) : (s.setRserr b).perm = s.perm := rfl
@[simp] theorem State.setRserr_gen (s : State) (b : Bool) : (s.setRserr b).gen = s.gen := rfl
@[simp] theorem State.setRserr_syn (s : State) (b : Bool) : (s.setRserr b).syn = s.syn := rfl
@[simp] theorem State.setRserr_blks (s : State) (b : Bool) : (s.setRserr b).blks = s.blks := rfl
@[simp] theorem State.setRserr_blkf (s : State) (b : Bool) : (s.setRserr b).blkf = s.blkf := rfl
@[simp] theorem State.setRserr_blkr (s : State) (b : Bool) : (s.setRserr b).blkr = s.blkr := rfl
@[simp] theorem State.setRserr_acc0 (s : State) (b : Bool) : (s.setRserr b).acc0 = s.acc0 := rfl
@[simp] theorem State.setRserr_acc1 (s : State) (b : Bool) : (s.setRserr b).acc1 = s.acc1 := rfl
@[simp] theorem State.setRserr_conf (s : State) (b : Bool) : (s.setRserr b).conf = s.conf := rfl
@[simp] theorem State.setRserr_ph (s : State) (b : Bool) : (s.setRserr b).ph = s.ph := rfl
@[simp] theorem State.setRserr_phref (s : State) (b : Bool) : (s.setRserr b).phref = s.phref := rfl
@[simp] theorem State.setRserr_resets (s : State) (b : Bool) : (s.setRserr b).resets = s.resets := rfl
@[simp] theorem State.setRserr_synEpoch (s : State) (b : Bool) : (s.setRserr b).synEpoch = s.synEpoch := rfl
@[simp] theorem State.setRserr_input (s : State) (b : Bool) : (s.setRserr b).input = s.input := rfl

/-! `State.setFound` -/

@[simp] theorem State.setFound_cfg (s : State) (b : Bool) : (s.setFound b).cfg = s.cfg := rfl
@[simp] theorem State.setFound_x (s : State) (b : Bool) : (s.setFound b).x = s.x := rfl
@[simp] theorem State.setFound_fault (s : State) (b : Bool) : (s.setFound b).fault = s.fault := rfl
@[simp] theorem State.setFound_rserr (s : State) (b : Bool) : (s.setFound b).rserr = s.rserr := rfl
@[simp] theorem State.setFound_found (s : State) (b : Bool) : (s.setFound b).found = b := rfl
@[simp] theorem State.setFound_cause (s : State) (b : Bool) : (s.setFound b).cause = s.cause := rfl
@[simp] theorem State.setFound_finfo (s : State) (b : Bool) : (s.setFound b).finfo = s.finfo := rfl
@[simp] theorem State.setFound_rngSeed (s : State) (b : Bool) : (s.setFound b).rngSeed = s.rngSeed := rfl
@[simp] theorem State.setFound_rsNsym (s : State) (b : Bool) : (s.setFound b).rsNsym = s.rsNsym := rfl
@[simp] theorem State.setFound_permN (s : State) (b : Bool) : (s.setFound b).permN = s.permN := rfl
@[simp] theorem State.setFound_imgW (s : State) (b : Bool) : (s.setFound b).imgW = s.imgW := rfl
@[simp] theorem State.setFound_imgH (s : State) (b : Bool) : (s.setFound b).imgH = s.imgH := rfl
@[simp] theorem State.setFound_strength (s : State) (b : Bool) : (s.setFound b).strength = s.strength := rfl
@[simp] theorem State.setFound_pix (s : State) (b : Bool) : (s.setFound b).pix = s.pix := rfl
@[simp] theorem State.setFound_sym (s : State) (b : Bool) : (s.setFound b).sym = s.sym := rfl
@[simp] theorem State.setFound_bit (s : State) (b : Bool) : (s.setFound b).bit = s.bit := rfl
@[simp] theorem State.setFound_msg (s : State) (b : Bool) : (s.setFound b).msg = s.msg := rfl
@[simp] theorem State.setFound_perm (s : State) (b : Bool) : (s.setFound b).perm = s.perm := rfl
@[simp] theorem State.setFound_gen (s : State) (b : Bool) : (s.setFound b).gen = s.gen := rfl
@[simp] theorem State.setFound_syn (s : State) (b : Bool) : (s.setFound b).syn = s.syn := rfl
@[simp] theorem State.setFound_blks (s : State) (b : Bool) : (s.setFound b).blks = s.blks := rfl
@[simp] theorem State.setFound_blkf (s : State) (b : Bool) : (s.setFound b).blkf = s.blkf := rfl
@[simp] theorem State.setFound_blkr (s : State) (b : Bool) : (s.setFound b).blkr = s.blkr := rfl
@[simp] theorem State.setFound_acc0 (s : State) (b : Bool) : (s.setFound b).acc0 = s.acc0 := rfl
@[simp] theorem State.setFound_acc1 (s : State) (b : Bool) : (s.setFound b).acc1 = s.acc1 := rfl
@[simp] theorem State.setFound_conf (s : State) (b : Bool) : (s.setFound b).conf = s.conf := rfl
@[simp] theorem State.setFound_ph (s : State) (b : Bool) : (s.setFound b).ph = s.ph := rfl
@[simp] theorem State.setFound_phref (s : State) (b : Bool) : (s.setFound b).phref = s.phref := rfl
@[simp] theorem State.setFound_resets (s : State) (b : Bool) : (s.setFound b).resets = s.resets := rfl
@[simp] theorem State.setFound_synEpoch (s : State) (b : Bool) : (s.setFound b).synEpoch = s.synEpoch := rfl
@[simp] theorem State.setFound_input (s : State) (b : Bool) : (s.setFound b).input = s.input := rfl

/-! `State.setSeed` -/

@[simp] theorem State.setSeed_cfg (s : State) (v : BitVec 31) : (s.setSeed v).cfg = s.cfg := rfl
@[simp] theorem State.setSeed_x (s : State) (v : BitVec 31) : (s.setSeed v).x = s.x := rfl
@[simp] theorem State.setSeed_fault (s : State) (v : BitVec 31) : (s.setSeed v).fault = s.fault := rfl
@[simp] theorem State.setSeed_rserr (s : State) (v : BitVec 31) : (s.setSeed v).rserr = s.rserr := rfl
@[simp] theorem State.setSeed_found (s : State) (v : BitVec 31) : (s.setSeed v).found = s.found := rfl
@[simp] theorem State.setSeed_cause (s : State) (v : BitVec 31) : (s.setSeed v).cause = s.cause := rfl
@[simp] theorem State.setSeed_finfo (s : State) (v : BitVec 31) : (s.setSeed v).finfo = s.finfo := rfl
@[simp] theorem State.setSeed_rngSeed (s : State) (v : BitVec 31) : (s.setSeed v).rngSeed = v := rfl
@[simp] theorem State.setSeed_rsNsym (s : State) (v : BitVec 31) : (s.setSeed v).rsNsym = s.rsNsym := rfl
@[simp] theorem State.setSeed_permN (s : State) (v : BitVec 31) : (s.setSeed v).permN = s.permN := rfl
@[simp] theorem State.setSeed_imgW (s : State) (v : BitVec 31) : (s.setSeed v).imgW = s.imgW := rfl
@[simp] theorem State.setSeed_imgH (s : State) (v : BitVec 31) : (s.setSeed v).imgH = s.imgH := rfl
@[simp] theorem State.setSeed_strength (s : State) (v : BitVec 31) : (s.setSeed v).strength = s.strength := rfl
@[simp] theorem State.setSeed_pix (s : State) (v : BitVec 31) : (s.setSeed v).pix = s.pix := rfl
@[simp] theorem State.setSeed_sym (s : State) (v : BitVec 31) : (s.setSeed v).sym = s.sym := rfl
@[simp] theorem State.setSeed_bit (s : State) (v : BitVec 31) : (s.setSeed v).bit = s.bit := rfl
@[simp] theorem State.setSeed_msg (s : State) (v : BitVec 31) : (s.setSeed v).msg = s.msg := rfl
@[simp] theorem State.setSeed_perm (s : State) (v : BitVec 31) : (s.setSeed v).perm = s.perm := rfl
@[simp] theorem State.setSeed_gen (s : State) (v : BitVec 31) : (s.setSeed v).gen = s.gen := rfl
@[simp] theorem State.setSeed_syn (s : State) (v : BitVec 31) : (s.setSeed v).syn = s.syn := rfl
@[simp] theorem State.setSeed_blks (s : State) (v : BitVec 31) : (s.setSeed v).blks = s.blks := rfl
@[simp] theorem State.setSeed_blkf (s : State) (v : BitVec 31) : (s.setSeed v).blkf = s.blkf := rfl
@[simp] theorem State.setSeed_blkr (s : State) (v : BitVec 31) : (s.setSeed v).blkr = s.blkr := rfl
@[simp] theorem State.setSeed_acc0 (s : State) (v : BitVec 31) : (s.setSeed v).acc0 = s.acc0 := rfl
@[simp] theorem State.setSeed_acc1 (s : State) (v : BitVec 31) : (s.setSeed v).acc1 = s.acc1 := rfl
@[simp] theorem State.setSeed_conf (s : State) (v : BitVec 31) : (s.setSeed v).conf = s.conf := rfl
@[simp] theorem State.setSeed_ph (s : State) (v : BitVec 31) : (s.setSeed v).ph = s.ph := rfl
@[simp] theorem State.setSeed_phref (s : State) (v : BitVec 31) : (s.setSeed v).phref = s.phref := rfl
@[simp] theorem State.setSeed_resets (s : State) (v : BitVec 31) : (s.setSeed v).resets = s.resets := rfl
@[simp] theorem State.setSeed_synEpoch (s : State) (v : BitVec 31) : (s.setSeed v).synEpoch = s.synEpoch := rfl
@[simp] theorem State.setSeed_input (s : State) (v : BitVec 31) : (s.setSeed v).input = s.input := rfl

/-! `State.writePix` -/

@[simp] theorem State.writePix_cfg (s : State) (c : List (Nat × Byte)) : (s.writePix c).cfg = s.cfg := rfl
@[simp] theorem State.writePix_x (s : State) (c : List (Nat × Byte)) : (s.writePix c).x = s.x := rfl
@[simp] theorem State.writePix_fault (s : State) (c : List (Nat × Byte)) : (s.writePix c).fault = s.fault := rfl
@[simp] theorem State.writePix_rserr (s : State) (c : List (Nat × Byte)) : (s.writePix c).rserr = s.rserr := rfl
@[simp] theorem State.writePix_found (s : State) (c : List (Nat × Byte)) : (s.writePix c).found = s.found := rfl
@[simp] theorem State.writePix_cause (s : State) (c : List (Nat × Byte)) : (s.writePix c).cause = s.cause := rfl
@[simp] theorem State.writePix_finfo (s : State) (c : List (Nat × Byte)) : (s.writePix c).finfo = s.finfo := rfl
@[simp] theorem State.writePix_rngSeed (s : State) (c : List (Nat × Byte)) : (s.writePix c).rngSeed = s.rngSeed := rfl
@[simp] theorem State.writePix_rsNsym (s : State) (c : List (Nat × Byte)) : (s.writePix c).rsNsym = s.rsNsym := rfl
@[simp] theorem State.writePix_permN (s : State) (c : List (Nat × Byte)) : (s.writePix c).permN = s.permN := rfl
@[simp] theorem State.writePix_imgW (s : State) (c : List (Nat × Byte)) : (s.writePix c).imgW = s.imgW := rfl
@[simp] theorem State.writePix_imgH (s : State) (c : List (Nat × Byte)) : (s.writePix c).imgH = s.imgH := rfl
@[simp] theorem State.writePix_strength (s : State) (c : List (Nat × Byte)) : (s.writePix c).strength = s.strength := rfl
@[simp] theorem State.writePix_pix (s : State) (c : List (Nat × Byte)) : (s.writePix c).pix = s.pix.writeAll c := rfl
@[simp] theorem State.writePix_sym (s : State) (c : List (Nat × Byte)) : (s.writePix c).sym = s.sym := rfl
@[simp] theorem State.writePix_bit (s : State) (c : List (Nat × Byte)) : (s.writePix c).bit = s.bit := rfl
@[simp] theorem State.writePix_msg (s : State) (c : List (Nat × Byte)) : (s.writePix c).msg = s.msg := rfl
@[simp] theorem State.writePix_perm (s : State) (c : List (Nat × Byte)) : (s.writePix c).perm = s.perm := rfl
@[simp] theorem State.writePix_gen (s : State) (c : List (Nat × Byte)) : (s.writePix c).gen = s.gen := rfl
@[simp] theorem State.writePix_syn (s : State) (c : List (Nat × Byte)) : (s.writePix c).syn = s.syn := rfl
@[simp] theorem State.writePix_blks (s : State) (c : List (Nat × Byte)) : (s.writePix c).blks = s.blks := rfl
@[simp] theorem State.writePix_blkf (s : State) (c : List (Nat × Byte)) : (s.writePix c).blkf = s.blkf := rfl
@[simp] theorem State.writePix_blkr (s : State) (c : List (Nat × Byte)) : (s.writePix c).blkr = s.blkr := rfl
@[simp] theorem State.writePix_acc0 (s : State) (c : List (Nat × Byte)) : (s.writePix c).acc0 = s.acc0 := rfl
@[simp] theorem State.writePix_acc1 (s : State) (c : List (Nat × Byte)) : (s.writePix c).acc1 = s.acc1 := rfl
@[simp] theorem State.writePix_conf (s : State) (c : List (Nat × Byte)) : (s.writePix c).conf = s.conf := rfl
@[simp] theorem State.writePix_ph (s : State) (c : List (Nat × Byte)) : (s.writePix c).ph = s.ph := rfl
@[simp] theorem State.writePix_phref (s : State) (c : List (Nat × Byte)) : (s.writePix c).phref = s.phref := rfl
@[simp] theorem State.writePix_resets (s : State) (c : List (Nat × Byte)) : (s.writePix c).resets = s.resets := rfl
@[simp] theorem State.writePix_synEpoch (s : State) (c : List (Nat × Byte)) : (s.writePix c).synEpoch = s.synEpoch := rfl
@[simp] theorem State.writePix_input (s : State) (c : List (Nat × Byte)) : (s.writePix c).input = s.input := rfl

/-! `State.writeSym` -/

@[simp] theorem State.writeSym_cfg (s : State) (c : List (Nat × Byte)) : (s.writeSym c).cfg = s.cfg := rfl
@[simp] theorem State.writeSym_x (s : State) (c : List (Nat × Byte)) : (s.writeSym c).x = s.x := rfl
@[simp] theorem State.writeSym_fault (s : State) (c : List (Nat × Byte)) : (s.writeSym c).fault = s.fault := rfl
@[simp] theorem State.writeSym_rserr (s : State) (c : List (Nat × Byte)) : (s.writeSym c).rserr = s.rserr := rfl
@[simp] theorem State.writeSym_found (s : State) (c : List (Nat × Byte)) : (s.writeSym c).found = s.found := rfl
@[simp] theorem State.writeSym_cause (s : State) (c : List (Nat × Byte)) : (s.writeSym c).cause = s.cause := rfl
@[simp] theorem State.writeSym_finfo (s : State) (c : List (Nat × Byte)) : (s.writeSym c).finfo = s.finfo := rfl
@[simp] theorem State.writeSym_rngSeed (s : State) (c : List (Nat × Byte)) : (s.writeSym c).rngSeed = s.rngSeed := rfl
@[simp] theorem State.writeSym_rsNsym (s : State) (c : List (Nat × Byte)) : (s.writeSym c).rsNsym = s.rsNsym := rfl
@[simp] theorem State.writeSym_permN (s : State) (c : List (Nat × Byte)) : (s.writeSym c).permN = s.permN := rfl
@[simp] theorem State.writeSym_imgW (s : State) (c : List (Nat × Byte)) : (s.writeSym c).imgW = s.imgW := rfl
@[simp] theorem State.writeSym_imgH (s : State) (c : List (Nat × Byte)) : (s.writeSym c).imgH = s.imgH := rfl
@[simp] theorem State.writeSym_strength (s : State) (c : List (Nat × Byte)) : (s.writeSym c).strength = s.strength := rfl
@[simp] theorem State.writeSym_pix (s : State) (c : List (Nat × Byte)) : (s.writeSym c).pix = s.pix := rfl
@[simp] theorem State.writeSym_sym (s : State) (c : List (Nat × Byte)) : (s.writeSym c).sym = s.sym.writeAll c := rfl
@[simp] theorem State.writeSym_bit (s : State) (c : List (Nat × Byte)) : (s.writeSym c).bit = s.bit := rfl
@[simp] theorem State.writeSym_msg (s : State) (c : List (Nat × Byte)) : (s.writeSym c).msg = s.msg := rfl
@[simp] theorem State.writeSym_perm (s : State) (c : List (Nat × Byte)) : (s.writeSym c).perm = s.perm := rfl
@[simp] theorem State.writeSym_gen (s : State) (c : List (Nat × Byte)) : (s.writeSym c).gen = s.gen := rfl
@[simp] theorem State.writeSym_syn (s : State) (c : List (Nat × Byte)) : (s.writeSym c).syn = s.syn := rfl
@[simp] theorem State.writeSym_blks (s : State) (c : List (Nat × Byte)) : (s.writeSym c).blks = s.blks := rfl
@[simp] theorem State.writeSym_blkf (s : State) (c : List (Nat × Byte)) : (s.writeSym c).blkf = s.blkf := rfl
@[simp] theorem State.writeSym_blkr (s : State) (c : List (Nat × Byte)) : (s.writeSym c).blkr = s.blkr := rfl
@[simp] theorem State.writeSym_acc0 (s : State) (c : List (Nat × Byte)) : (s.writeSym c).acc0 = s.acc0 := rfl
@[simp] theorem State.writeSym_acc1 (s : State) (c : List (Nat × Byte)) : (s.writeSym c).acc1 = s.acc1 := rfl
@[simp] theorem State.writeSym_conf (s : State) (c : List (Nat × Byte)) : (s.writeSym c).conf = s.conf := rfl
@[simp] theorem State.writeSym_ph (s : State) (c : List (Nat × Byte)) : (s.writeSym c).ph = s.ph := rfl
@[simp] theorem State.writeSym_phref (s : State) (c : List (Nat × Byte)) : (s.writeSym c).phref = s.phref := rfl
@[simp] theorem State.writeSym_resets (s : State) (c : List (Nat × Byte)) : (s.writeSym c).resets = s.resets := rfl
@[simp] theorem State.writeSym_synEpoch (s : State) (c : List (Nat × Byte)) : (s.writeSym c).synEpoch = s.synEpoch := rfl
@[simp] theorem State.writeSym_input (s : State) (c : List (Nat × Byte)) : (s.writeSym c).input = s.input := rfl

/-! `State.writeBit` -/

@[simp] theorem State.writeBit_cfg (s : State) (c : List (Nat × Bit)) : (s.writeBit c).cfg = s.cfg := rfl
@[simp] theorem State.writeBit_x (s : State) (c : List (Nat × Bit)) : (s.writeBit c).x = s.x := rfl
@[simp] theorem State.writeBit_fault (s : State) (c : List (Nat × Bit)) : (s.writeBit c).fault = s.fault := rfl
@[simp] theorem State.writeBit_rserr (s : State) (c : List (Nat × Bit)) : (s.writeBit c).rserr = s.rserr := rfl
@[simp] theorem State.writeBit_found (s : State) (c : List (Nat × Bit)) : (s.writeBit c).found = s.found := rfl
@[simp] theorem State.writeBit_cause (s : State) (c : List (Nat × Bit)) : (s.writeBit c).cause = s.cause := rfl
@[simp] theorem State.writeBit_finfo (s : State) (c : List (Nat × Bit)) : (s.writeBit c).finfo = s.finfo := rfl
@[simp] theorem State.writeBit_rngSeed (s : State) (c : List (Nat × Bit)) : (s.writeBit c).rngSeed = s.rngSeed := rfl
@[simp] theorem State.writeBit_rsNsym (s : State) (c : List (Nat × Bit)) : (s.writeBit c).rsNsym = s.rsNsym := rfl
@[simp] theorem State.writeBit_permN (s : State) (c : List (Nat × Bit)) : (s.writeBit c).permN = s.permN := rfl
@[simp] theorem State.writeBit_imgW (s : State) (c : List (Nat × Bit)) : (s.writeBit c).imgW = s.imgW := rfl
@[simp] theorem State.writeBit_imgH (s : State) (c : List (Nat × Bit)) : (s.writeBit c).imgH = s.imgH := rfl
@[simp] theorem State.writeBit_strength (s : State) (c : List (Nat × Bit)) : (s.writeBit c).strength = s.strength := rfl
@[simp] theorem State.writeBit_pix (s : State) (c : List (Nat × Bit)) : (s.writeBit c).pix = s.pix := rfl
@[simp] theorem State.writeBit_sym (s : State) (c : List (Nat × Bit)) : (s.writeBit c).sym = s.sym := rfl
@[simp] theorem State.writeBit_bit (s : State) (c : List (Nat × Bit)) : (s.writeBit c).bit = s.bit.writeAll c := rfl
@[simp] theorem State.writeBit_msg (s : State) (c : List (Nat × Bit)) : (s.writeBit c).msg = s.msg := rfl
@[simp] theorem State.writeBit_perm (s : State) (c : List (Nat × Bit)) : (s.writeBit c).perm = s.perm := rfl
@[simp] theorem State.writeBit_gen (s : State) (c : List (Nat × Bit)) : (s.writeBit c).gen = s.gen := rfl
@[simp] theorem State.writeBit_syn (s : State) (c : List (Nat × Bit)) : (s.writeBit c).syn = s.syn := rfl
@[simp] theorem State.writeBit_blks (s : State) (c : List (Nat × Bit)) : (s.writeBit c).blks = s.blks := rfl
@[simp] theorem State.writeBit_blkf (s : State) (c : List (Nat × Bit)) : (s.writeBit c).blkf = s.blkf := rfl
@[simp] theorem State.writeBit_blkr (s : State) (c : List (Nat × Bit)) : (s.writeBit c).blkr = s.blkr := rfl
@[simp] theorem State.writeBit_acc0 (s : State) (c : List (Nat × Bit)) : (s.writeBit c).acc0 = s.acc0 := rfl
@[simp] theorem State.writeBit_acc1 (s : State) (c : List (Nat × Bit)) : (s.writeBit c).acc1 = s.acc1 := rfl
@[simp] theorem State.writeBit_conf (s : State) (c : List (Nat × Bit)) : (s.writeBit c).conf = s.conf := rfl
@[simp] theorem State.writeBit_ph (s : State) (c : List (Nat × Bit)) : (s.writeBit c).ph = s.ph := rfl
@[simp] theorem State.writeBit_phref (s : State) (c : List (Nat × Bit)) : (s.writeBit c).phref = s.phref := rfl
@[simp] theorem State.writeBit_resets (s : State) (c : List (Nat × Bit)) : (s.writeBit c).resets = s.resets := rfl
@[simp] theorem State.writeBit_synEpoch (s : State) (c : List (Nat × Bit)) : (s.writeBit c).synEpoch = s.synEpoch := rfl
@[simp] theorem State.writeBit_input (s : State) (c : List (Nat × Bit)) : (s.writeBit c).input = s.input := rfl

/-! `State.writeMsg` -/

@[simp] theorem State.writeMsg_cfg (s : State) (c : List (Nat × Half)) : (s.writeMsg c).cfg = s.cfg := rfl
@[simp] theorem State.writeMsg_x (s : State) (c : List (Nat × Half)) : (s.writeMsg c).x = s.x := rfl
@[simp] theorem State.writeMsg_fault (s : State) (c : List (Nat × Half)) : (s.writeMsg c).fault = s.fault := rfl
@[simp] theorem State.writeMsg_rserr (s : State) (c : List (Nat × Half)) : (s.writeMsg c).rserr = s.rserr := rfl
@[simp] theorem State.writeMsg_found (s : State) (c : List (Nat × Half)) : (s.writeMsg c).found = s.found := rfl
@[simp] theorem State.writeMsg_cause (s : State) (c : List (Nat × Half)) : (s.writeMsg c).cause = s.cause := rfl
@[simp] theorem State.writeMsg_finfo (s : State) (c : List (Nat × Half)) : (s.writeMsg c).finfo = s.finfo := rfl
@[simp] theorem State.writeMsg_rngSeed (s : State) (c : List (Nat × Half)) : (s.writeMsg c).rngSeed = s.rngSeed := rfl
@[simp] theorem State.writeMsg_rsNsym (s : State) (c : List (Nat × Half)) : (s.writeMsg c).rsNsym = s.rsNsym := rfl
@[simp] theorem State.writeMsg_permN (s : State) (c : List (Nat × Half)) : (s.writeMsg c).permN = s.permN := rfl
@[simp] theorem State.writeMsg_imgW (s : State) (c : List (Nat × Half)) : (s.writeMsg c).imgW = s.imgW := rfl
@[simp] theorem State.writeMsg_imgH (s : State) (c : List (Nat × Half)) : (s.writeMsg c).imgH = s.imgH := rfl
@[simp] theorem State.writeMsg_strength (s : State) (c : List (Nat × Half)) : (s.writeMsg c).strength = s.strength := rfl
@[simp] theorem State.writeMsg_pix (s : State) (c : List (Nat × Half)) : (s.writeMsg c).pix = s.pix := rfl
@[simp] theorem State.writeMsg_sym (s : State) (c : List (Nat × Half)) : (s.writeMsg c).sym = s.sym := rfl
@[simp] theorem State.writeMsg_bit (s : State) (c : List (Nat × Half)) : (s.writeMsg c).bit = s.bit := rfl
@[simp] theorem State.writeMsg_msg (s : State) (c : List (Nat × Half)) : (s.writeMsg c).msg = s.msg.writeAll c := rfl
@[simp] theorem State.writeMsg_perm (s : State) (c : List (Nat × Half)) : (s.writeMsg c).perm = s.perm := rfl
@[simp] theorem State.writeMsg_gen (s : State) (c : List (Nat × Half)) : (s.writeMsg c).gen = s.gen := rfl
@[simp] theorem State.writeMsg_syn (s : State) (c : List (Nat × Half)) : (s.writeMsg c).syn = s.syn := rfl
@[simp] theorem State.writeMsg_blks (s : State) (c : List (Nat × Half)) : (s.writeMsg c).blks = s.blks := rfl
@[simp] theorem State.writeMsg_blkf (s : State) (c : List (Nat × Half)) : (s.writeMsg c).blkf = s.blkf := rfl
@[simp] theorem State.writeMsg_blkr (s : State) (c : List (Nat × Half)) : (s.writeMsg c).blkr = s.blkr := rfl
@[simp] theorem State.writeMsg_acc0 (s : State) (c : List (Nat × Half)) : (s.writeMsg c).acc0 = s.acc0 := rfl
@[simp] theorem State.writeMsg_acc1 (s : State) (c : List (Nat × Half)) : (s.writeMsg c).acc1 = s.acc1 := rfl
@[simp] theorem State.writeMsg_conf (s : State) (c : List (Nat × Half)) : (s.writeMsg c).conf = s.conf := rfl
@[simp] theorem State.writeMsg_ph (s : State) (c : List (Nat × Half)) : (s.writeMsg c).ph = s.ph := rfl
@[simp] theorem State.writeMsg_phref (s : State) (c : List (Nat × Half)) : (s.writeMsg c).phref = s.phref := rfl
@[simp] theorem State.writeMsg_resets (s : State) (c : List (Nat × Half)) : (s.writeMsg c).resets = s.resets := rfl
@[simp] theorem State.writeMsg_synEpoch (s : State) (c : List (Nat × Half)) : (s.writeMsg c).synEpoch = s.synEpoch := rfl
@[simp] theorem State.writeMsg_input (s : State) (c : List (Nat × Half)) : (s.writeMsg c).input = s.input := rfl

/-! `State.writePerm` -/

@[simp] theorem State.writePerm_cfg (s : State) (c : List (Nat × Word)) : (s.writePerm c).cfg = s.cfg := rfl
@[simp] theorem State.writePerm_x (s : State) (c : List (Nat × Word)) : (s.writePerm c).x = s.x := rfl
@[simp] theorem State.writePerm_fault (s : State) (c : List (Nat × Word)) : (s.writePerm c).fault = s.fault := rfl
@[simp] theorem State.writePerm_rserr (s : State) (c : List (Nat × Word)) : (s.writePerm c).rserr = s.rserr := rfl
@[simp] theorem State.writePerm_found (s : State) (c : List (Nat × Word)) : (s.writePerm c).found = s.found := rfl
@[simp] theorem State.writePerm_cause (s : State) (c : List (Nat × Word)) : (s.writePerm c).cause = s.cause := rfl
@[simp] theorem State.writePerm_finfo (s : State) (c : List (Nat × Word)) : (s.writePerm c).finfo = s.finfo := rfl
@[simp] theorem State.writePerm_rngSeed (s : State) (c : List (Nat × Word)) : (s.writePerm c).rngSeed = s.rngSeed := rfl
@[simp] theorem State.writePerm_rsNsym (s : State) (c : List (Nat × Word)) : (s.writePerm c).rsNsym = s.rsNsym := rfl
@[simp] theorem State.writePerm_permN (s : State) (c : List (Nat × Word)) : (s.writePerm c).permN = s.permN := rfl
@[simp] theorem State.writePerm_imgW (s : State) (c : List (Nat × Word)) : (s.writePerm c).imgW = s.imgW := rfl
@[simp] theorem State.writePerm_imgH (s : State) (c : List (Nat × Word)) : (s.writePerm c).imgH = s.imgH := rfl
@[simp] theorem State.writePerm_strength (s : State) (c : List (Nat × Word)) : (s.writePerm c).strength = s.strength := rfl
@[simp] theorem State.writePerm_pix (s : State) (c : List (Nat × Word)) : (s.writePerm c).pix = s.pix := rfl
@[simp] theorem State.writePerm_sym (s : State) (c : List (Nat × Word)) : (s.writePerm c).sym = s.sym := rfl
@[simp] theorem State.writePerm_bit (s : State) (c : List (Nat × Word)) : (s.writePerm c).bit = s.bit := rfl
@[simp] theorem State.writePerm_msg (s : State) (c : List (Nat × Word)) : (s.writePerm c).msg = s.msg := rfl
@[simp] theorem State.writePerm_perm (s : State) (c : List (Nat × Word)) : (s.writePerm c).perm = s.perm.writeAll c := rfl
@[simp] theorem State.writePerm_gen (s : State) (c : List (Nat × Word)) : (s.writePerm c).gen = s.gen := rfl
@[simp] theorem State.writePerm_syn (s : State) (c : List (Nat × Word)) : (s.writePerm c).syn = s.syn := rfl
@[simp] theorem State.writePerm_blks (s : State) (c : List (Nat × Word)) : (s.writePerm c).blks = s.blks := rfl
@[simp] theorem State.writePerm_blkf (s : State) (c : List (Nat × Word)) : (s.writePerm c).blkf = s.blkf := rfl
@[simp] theorem State.writePerm_blkr (s : State) (c : List (Nat × Word)) : (s.writePerm c).blkr = s.blkr := rfl
@[simp] theorem State.writePerm_acc0 (s : State) (c : List (Nat × Word)) : (s.writePerm c).acc0 = s.acc0 := rfl
@[simp] theorem State.writePerm_acc1 (s : State) (c : List (Nat × Word)) : (s.writePerm c).acc1 = s.acc1 := rfl
@[simp] theorem State.writePerm_conf (s : State) (c : List (Nat × Word)) : (s.writePerm c).conf = s.conf := rfl
@[simp] theorem State.writePerm_ph (s : State) (c : List (Nat × Word)) : (s.writePerm c).ph = s.ph := rfl
@[simp] theorem State.writePerm_phref (s : State) (c : List (Nat × Word)) : (s.writePerm c).phref = s.phref := rfl
@[simp] theorem State.writePerm_resets (s : State) (c : List (Nat × Word)) : (s.writePerm c).resets = s.resets := rfl
@[simp] theorem State.writePerm_synEpoch (s : State) (c : List (Nat × Word)) : (s.writePerm c).synEpoch = s.synEpoch := rfl
@[simp] theorem State.writePerm_input (s : State) (c : List (Nat × Word)) : (s.writePerm c).input = s.input := rfl

/-! `State.writeGen` -/

@[simp] theorem State.writeGen_cfg (s : State) (c : List (Nat × Byte)) : (s.writeGen c).cfg = s.cfg := rfl
@[simp] theorem State.writeGen_x (s : State) (c : List (Nat × Byte)) : (s.writeGen c).x = s.x := rfl
@[simp] theorem State.writeGen_fault (s : State) (c : List (Nat × Byte)) : (s.writeGen c).fault = s.fault := rfl
@[simp] theorem State.writeGen_rserr (s : State) (c : List (Nat × Byte)) : (s.writeGen c).rserr = s.rserr := rfl
@[simp] theorem State.writeGen_found (s : State) (c : List (Nat × Byte)) : (s.writeGen c).found = s.found := rfl
@[simp] theorem State.writeGen_cause (s : State) (c : List (Nat × Byte)) : (s.writeGen c).cause = s.cause := rfl
@[simp] theorem State.writeGen_finfo (s : State) (c : List (Nat × Byte)) : (s.writeGen c).finfo = s.finfo := rfl
@[simp] theorem State.writeGen_rngSeed (s : State) (c : List (Nat × Byte)) : (s.writeGen c).rngSeed = s.rngSeed := rfl
@[simp] theorem State.writeGen_rsNsym (s : State) (c : List (Nat × Byte)) : (s.writeGen c).rsNsym = s.rsNsym := rfl
@[simp] theorem State.writeGen_permN (s : State) (c : List (Nat × Byte)) : (s.writeGen c).permN = s.permN := rfl
@[simp] theorem State.writeGen_imgW (s : State) (c : List (Nat × Byte)) : (s.writeGen c).imgW = s.imgW := rfl
@[simp] theorem State.writeGen_imgH (s : State) (c : List (Nat × Byte)) : (s.writeGen c).imgH = s.imgH := rfl
@[simp] theorem State.writeGen_strength (s : State) (c : List (Nat × Byte)) : (s.writeGen c).strength = s.strength := rfl
@[simp] theorem State.writeGen_pix (s : State) (c : List (Nat × Byte)) : (s.writeGen c).pix = s.pix := rfl
@[simp] theorem State.writeGen_sym (s : State) (c : List (Nat × Byte)) : (s.writeGen c).sym = s.sym := rfl
@[simp] theorem State.writeGen_bit (s : State) (c : List (Nat × Byte)) : (s.writeGen c).bit = s.bit := rfl
@[simp] theorem State.writeGen_msg (s : State) (c : List (Nat × Byte)) : (s.writeGen c).msg = s.msg := rfl
@[simp] theorem State.writeGen_perm (s : State) (c : List (Nat × Byte)) : (s.writeGen c).perm = s.perm := rfl
@[simp] theorem State.writeGen_gen (s : State) (c : List (Nat × Byte)) : (s.writeGen c).gen = s.gen.writeAll c := rfl
@[simp] theorem State.writeGen_syn (s : State) (c : List (Nat × Byte)) : (s.writeGen c).syn = s.syn := rfl
@[simp] theorem State.writeGen_blks (s : State) (c : List (Nat × Byte)) : (s.writeGen c).blks = s.blks := rfl
@[simp] theorem State.writeGen_blkf (s : State) (c : List (Nat × Byte)) : (s.writeGen c).blkf = s.blkf := rfl
@[simp] theorem State.writeGen_blkr (s : State) (c : List (Nat × Byte)) : (s.writeGen c).blkr = s.blkr := rfl
@[simp] theorem State.writeGen_acc0 (s : State) (c : List (Nat × Byte)) : (s.writeGen c).acc0 = s.acc0 := rfl
@[simp] theorem State.writeGen_acc1 (s : State) (c : List (Nat × Byte)) : (s.writeGen c).acc1 = s.acc1 := rfl
@[simp] theorem State.writeGen_conf (s : State) (c : List (Nat × Byte)) : (s.writeGen c).conf = s.conf := rfl
@[simp] theorem State.writeGen_ph (s : State) (c : List (Nat × Byte)) : (s.writeGen c).ph = s.ph := rfl
@[simp] theorem State.writeGen_phref (s : State) (c : List (Nat × Byte)) : (s.writeGen c).phref = s.phref := rfl
@[simp] theorem State.writeGen_resets (s : State) (c : List (Nat × Byte)) : (s.writeGen c).resets = s.resets := rfl
@[simp] theorem State.writeGen_synEpoch (s : State) (c : List (Nat × Byte)) : (s.writeGen c).synEpoch = s.synEpoch := rfl
@[simp] theorem State.writeGen_input (s : State) (c : List (Nat × Byte)) : (s.writeGen c).input = s.input := rfl

/-! `State.writeSyn` -/

@[simp] theorem State.writeSyn_cfg (s : State) (c : List (Nat × Byte)) : (s.writeSyn c).cfg = s.cfg := rfl
@[simp] theorem State.writeSyn_x (s : State) (c : List (Nat × Byte)) : (s.writeSyn c).x = s.x := rfl
@[simp] theorem State.writeSyn_fault (s : State) (c : List (Nat × Byte)) : (s.writeSyn c).fault = s.fault := rfl
@[simp] theorem State.writeSyn_rserr (s : State) (c : List (Nat × Byte)) : (s.writeSyn c).rserr = s.rserr := rfl
@[simp] theorem State.writeSyn_found (s : State) (c : List (Nat × Byte)) : (s.writeSyn c).found = s.found := rfl
@[simp] theorem State.writeSyn_cause (s : State) (c : List (Nat × Byte)) : (s.writeSyn c).cause = s.cause := rfl
@[simp] theorem State.writeSyn_finfo (s : State) (c : List (Nat × Byte)) : (s.writeSyn c).finfo = s.finfo := rfl
@[simp] theorem State.writeSyn_rngSeed (s : State) (c : List (Nat × Byte)) : (s.writeSyn c).rngSeed = s.rngSeed := rfl
@[simp] theorem State.writeSyn_rsNsym (s : State) (c : List (Nat × Byte)) : (s.writeSyn c).rsNsym = s.rsNsym := rfl
@[simp] theorem State.writeSyn_permN (s : State) (c : List (Nat × Byte)) : (s.writeSyn c).permN = s.permN := rfl
@[simp] theorem State.writeSyn_imgW (s : State) (c : List (Nat × Byte)) : (s.writeSyn c).imgW = s.imgW := rfl
@[simp] theorem State.writeSyn_imgH (s : State) (c : List (Nat × Byte)) : (s.writeSyn c).imgH = s.imgH := rfl
@[simp] theorem State.writeSyn_strength (s : State) (c : List (Nat × Byte)) : (s.writeSyn c).strength = s.strength := rfl
@[simp] theorem State.writeSyn_pix (s : State) (c : List (Nat × Byte)) : (s.writeSyn c).pix = s.pix := rfl
@[simp] theorem State.writeSyn_sym (s : State) (c : List (Nat × Byte)) : (s.writeSyn c).sym = s.sym := rfl
@[simp] theorem State.writeSyn_bit (s : State) (c : List (Nat × Byte)) : (s.writeSyn c).bit = s.bit := rfl
@[simp] theorem State.writeSyn_msg (s : State) (c : List (Nat × Byte)) : (s.writeSyn c).msg = s.msg := rfl
@[simp] theorem State.writeSyn_perm (s : State) (c : List (Nat × Byte)) : (s.writeSyn c).perm = s.perm := rfl
@[simp] theorem State.writeSyn_gen (s : State) (c : List (Nat × Byte)) : (s.writeSyn c).gen = s.gen := rfl
@[simp] theorem State.writeSyn_syn (s : State) (c : List (Nat × Byte)) : (s.writeSyn c).syn = s.syn.writeAll c := rfl
@[simp] theorem State.writeSyn_blks (s : State) (c : List (Nat × Byte)) : (s.writeSyn c).blks = s.blks := rfl
@[simp] theorem State.writeSyn_blkf (s : State) (c : List (Nat × Byte)) : (s.writeSyn c).blkf = s.blkf := rfl
@[simp] theorem State.writeSyn_blkr (s : State) (c : List (Nat × Byte)) : (s.writeSyn c).blkr = s.blkr := rfl
@[simp] theorem State.writeSyn_acc0 (s : State) (c : List (Nat × Byte)) : (s.writeSyn c).acc0 = s.acc0 := rfl
@[simp] theorem State.writeSyn_acc1 (s : State) (c : List (Nat × Byte)) : (s.writeSyn c).acc1 = s.acc1 := rfl
@[simp] theorem State.writeSyn_conf (s : State) (c : List (Nat × Byte)) : (s.writeSyn c).conf = s.conf := rfl
@[simp] theorem State.writeSyn_ph (s : State) (c : List (Nat × Byte)) : (s.writeSyn c).ph = s.ph := rfl
@[simp] theorem State.writeSyn_phref (s : State) (c : List (Nat × Byte)) : (s.writeSyn c).phref = s.phref := rfl
@[simp] theorem State.writeSyn_resets (s : State) (c : List (Nat × Byte)) : (s.writeSyn c).resets = s.resets := rfl
@[simp] theorem State.writeSyn_synEpoch (s : State) (c : List (Nat × Byte)) : (s.writeSyn c).synEpoch = s.synEpoch := rfl
@[simp] theorem State.writeSyn_input (s : State) (c : List (Nat × Byte)) : (s.writeSyn c).input = s.input := rfl

/-! `State.writeBlks` -/

@[simp] theorem State.writeBlks_cfg (s : State) (c : List (Nat × Num)) : (s.writeBlks c).cfg = s.cfg := rfl
@[simp] theorem State.writeBlks_x (s : State) (c : List (Nat × Num)) : (s.writeBlks c).x = s.x := rfl
@[simp] theorem State.writeBlks_fault (s : State) (c : List (Nat × Num)) : (s.writeBlks c).fault = s.fault := rfl
@[simp] theorem State.writeBlks_rserr (s : State) (c : List (Nat × Num)) : (s.writeBlks c).rserr = s.rserr := rfl
@[simp] theorem State.writeBlks_found (s : State) (c : List (Nat × Num)) : (s.writeBlks c).found = s.found := rfl
@[simp] theorem State.writeBlks_cause (s : State) (c : List (Nat × Num)) : (s.writeBlks c).cause = s.cause := rfl
@[simp] theorem State.writeBlks_finfo (s : State) (c : List (Nat × Num)) : (s.writeBlks c).finfo = s.finfo := rfl
@[simp] theorem State.writeBlks_rngSeed (s : State) (c : List (Nat × Num)) : (s.writeBlks c).rngSeed = s.rngSeed := rfl
@[simp] theorem State.writeBlks_rsNsym (s : State) (c : List (Nat × Num)) : (s.writeBlks c).rsNsym = s.rsNsym := rfl
@[simp] theorem State.writeBlks_permN (s : State) (c : List (Nat × Num)) : (s.writeBlks c).permN = s.permN := rfl
@[simp] theorem State.writeBlks_imgW (s : State) (c : List (Nat × Num)) : (s.writeBlks c).imgW = s.imgW := rfl
@[simp] theorem State.writeBlks_imgH (s : State) (c : List (Nat × Num)) : (s.writeBlks c).imgH = s.imgH := rfl
@[simp] theorem State.writeBlks_strength (s : State) (c : List (Nat × Num)) : (s.writeBlks c).strength = s.strength := rfl
@[simp] theorem State.writeBlks_pix (s : State) (c : List (Nat × Num)) : (s.writeBlks c).pix = s.pix := rfl
@[simp] theorem State.writeBlks_sym (s : State) (c : List (Nat × Num)) : (s.writeBlks c).sym = s.sym := rfl
@[simp] theorem State.writeBlks_bit (s : State) (c : List (Nat × Num)) : (s.writeBlks c).bit = s.bit := rfl
@[simp] theorem State.writeBlks_msg (s : State) (c : List (Nat × Num)) : (s.writeBlks c).msg = s.msg := rfl
@[simp] theorem State.writeBlks_perm (s : State) (c : List (Nat × Num)) : (s.writeBlks c).perm = s.perm := rfl
@[simp] theorem State.writeBlks_gen (s : State) (c : List (Nat × Num)) : (s.writeBlks c).gen = s.gen := rfl
@[simp] theorem State.writeBlks_syn (s : State) (c : List (Nat × Num)) : (s.writeBlks c).syn = s.syn := rfl
@[simp] theorem State.writeBlks_blks (s : State) (c : List (Nat × Num)) : (s.writeBlks c).blks = s.blks.writeAll c := rfl
@[simp] theorem State.writeBlks_blkf (s : State) (c : List (Nat × Num)) : (s.writeBlks c).blkf = s.blkf := rfl
@[simp] theorem State.writeBlks_blkr (s : State) (c : List (Nat × Num)) : (s.writeBlks c).blkr = s.blkr := rfl
@[simp] theorem State.writeBlks_acc0 (s : State) (c : List (Nat × Num)) : (s.writeBlks c).acc0 = s.acc0 := rfl
@[simp] theorem State.writeBlks_acc1 (s : State) (c : List (Nat × Num)) : (s.writeBlks c).acc1 = s.acc1 := rfl
@[simp] theorem State.writeBlks_conf (s : State) (c : List (Nat × Num)) : (s.writeBlks c).conf = s.conf := rfl
@[simp] theorem State.writeBlks_ph (s : State) (c : List (Nat × Num)) : (s.writeBlks c).ph = s.ph := rfl
@[simp] theorem State.writeBlks_phref (s : State) (c : List (Nat × Num)) : (s.writeBlks c).phref = s.phref := rfl
@[simp] theorem State.writeBlks_resets (s : State) (c : List (Nat × Num)) : (s.writeBlks c).resets = s.resets := rfl
@[simp] theorem State.writeBlks_synEpoch (s : State) (c : List (Nat × Num)) : (s.writeBlks c).synEpoch = s.synEpoch := rfl
@[simp] theorem State.writeBlks_input (s : State) (c : List (Nat × Num)) : (s.writeBlks c).input = s.input := rfl

/-! `State.writeBlkf` -/

@[simp] theorem State.writeBlkf_cfg (s : State) (c : List (Nat × Num)) : (s.writeBlkf c).cfg = s.cfg := rfl
@[simp] theorem State.writeBlkf_x (s : State) (c : List (Nat × Num)) : (s.writeBlkf c).x = s.x := rfl
@[simp] theorem State.writeBlkf_fault (s : State) (c : List (Nat × Num)) : (s.writeBlkf c).fault = s.fault := rfl
@[simp] theorem State.writeBlkf_rserr (s : State) (c : List (Nat × Num)) : (s.writeBlkf c).rserr = s.rserr := rfl
@[simp] theorem State.writeBlkf_found (s : State) (c : List (Nat × Num)) : (s.writeBlkf c).found = s.found := rfl
@[simp] theorem State.writeBlkf_cause (s : State) (c : List (Nat × Num)) : (s.writeBlkf c).cause = s.cause := rfl
@[simp] theorem State.writeBlkf_finfo (s : State) (c : List (Nat × Num)) : (s.writeBlkf c).finfo = s.finfo := rfl
@[simp] theorem State.writeBlkf_rngSeed (s : State) (c : List (Nat × Num)) : (s.writeBlkf c).rngSeed = s.rngSeed := rfl
@[simp] theorem State.writeBlkf_rsNsym (s : State) (c : List (Nat × Num)) : (s.writeBlkf c).rsNsym = s.rsNsym := rfl
@[simp] theorem State.writeBlkf_permN (s : State) (c : List (Nat × Num)) : (s.writeBlkf c).permN = s.permN := rfl
@[simp] theorem State.writeBlkf_imgW (s : State) (c : List (Nat × Num)) : (s.writeBlkf c).imgW = s.imgW := rfl
@[simp] theorem State.writeBlkf_imgH (s : State) (c : List (Nat × Num)) : (s.writeBlkf c).imgH = s.imgH := rfl
@[simp] theorem State.writeBlkf_strength (s : State) (c : List (Nat × Num)) : (s.writeBlkf c).strength = s.strength := rfl
@[simp] theorem State.writeBlkf_pix (s : State) (c : List (Nat × Num)) : (s.writeBlkf c).pix = s.pix := rfl
@[simp] theorem State.writeBlkf_sym (s : State) (c : List (Nat × Num)) : (s.writeBlkf c).sym = s.sym := rfl
@[simp] theorem State.writeBlkf_bit (s : State) (c : List (Nat × Num)) : (s.writeBlkf c).bit = s.bit := rfl
@[simp] theorem State.writeBlkf_msg (s : State) (c : List (Nat × Num)) : (s.writeBlkf c).msg = s.msg := rfl
@[simp] theorem State.writeBlkf_perm (s : State) (c : List (Nat × Num)) : (s.writeBlkf c).perm = s.perm := rfl
@[simp] theorem State.writeBlkf_gen (s : State) (c : List (Nat × Num)) : (s.writeBlkf c).gen = s.gen := rfl
@[simp] theorem State.writeBlkf_syn (s : State) (c : List (Nat × Num)) : (s.writeBlkf c).syn = s.syn := rfl
@[simp] theorem State.writeBlkf_blks (s : State) (c : List (Nat × Num)) : (s.writeBlkf c).blks = s.blks := rfl
@[simp] theorem State.writeBlkf_blkf (s : State) (c : List (Nat × Num)) : (s.writeBlkf c).blkf = s.blkf.writeAll c := rfl
@[simp] theorem State.writeBlkf_blkr (s : State) (c : List (Nat × Num)) : (s.writeBlkf c).blkr = s.blkr := rfl
@[simp] theorem State.writeBlkf_acc0 (s : State) (c : List (Nat × Num)) : (s.writeBlkf c).acc0 = s.acc0 := rfl
@[simp] theorem State.writeBlkf_acc1 (s : State) (c : List (Nat × Num)) : (s.writeBlkf c).acc1 = s.acc1 := rfl
@[simp] theorem State.writeBlkf_conf (s : State) (c : List (Nat × Num)) : (s.writeBlkf c).conf = s.conf := rfl
@[simp] theorem State.writeBlkf_ph (s : State) (c : List (Nat × Num)) : (s.writeBlkf c).ph = s.ph := rfl
@[simp] theorem State.writeBlkf_phref (s : State) (c : List (Nat × Num)) : (s.writeBlkf c).phref = s.phref := rfl
@[simp] theorem State.writeBlkf_resets (s : State) (c : List (Nat × Num)) : (s.writeBlkf c).resets = s.resets := rfl
@[simp] theorem State.writeBlkf_synEpoch (s : State) (c : List (Nat × Num)) : (s.writeBlkf c).synEpoch = s.synEpoch := rfl
@[simp] theorem State.writeBlkf_input (s : State) (c : List (Nat × Num)) : (s.writeBlkf c).input = s.input := rfl

/-! `State.writeBlkr` -/

@[simp] theorem State.writeBlkr_cfg (s : State) (c : List (Nat × Num)) : (s.writeBlkr c).cfg = s.cfg := rfl
@[simp] theorem State.writeBlkr_x (s : State) (c : List (Nat × Num)) : (s.writeBlkr c).x = s.x := rfl
@[simp] theorem State.writeBlkr_fault (s : State) (c : List (Nat × Num)) : (s.writeBlkr c).fault = s.fault := rfl
@[simp] theorem State.writeBlkr_rserr (s : State) (c : List (Nat × Num)) : (s.writeBlkr c).rserr = s.rserr := rfl
@[simp] theorem State.writeBlkr_found (s : State) (c : List (Nat × Num)) : (s.writeBlkr c).found = s.found := rfl
@[simp] theorem State.writeBlkr_cause (s : State) (c : List (Nat × Num)) : (s.writeBlkr c).cause = s.cause := rfl
@[simp] theorem State.writeBlkr_finfo (s : State) (c : List (Nat × Num)) : (s.writeBlkr c).finfo = s.finfo := rfl
@[simp] theorem State.writeBlkr_rngSeed (s : State) (c : List (Nat × Num)) : (s.writeBlkr c).rngSeed = s.rngSeed := rfl
@[simp] theorem State.writeBlkr_rsNsym (s : State) (c : List (Nat × Num)) : (s.writeBlkr c).rsNsym = s.rsNsym := rfl
@[simp] theorem State.writeBlkr_permN (s : State) (c : List (Nat × Num)) : (s.writeBlkr c).permN = s.permN := rfl
@[simp] theorem State.writeBlkr_imgW (s : State) (c : List (Nat × Num)) : (s.writeBlkr c).imgW = s.imgW := rfl
@[simp] theorem State.writeBlkr_imgH (s : State) (c : List (Nat × Num)) : (s.writeBlkr c).imgH = s.imgH := rfl
@[simp] theorem State.writeBlkr_strength (s : State) (c : List (Nat × Num)) : (s.writeBlkr c).strength = s.strength := rfl
@[simp] theorem State.writeBlkr_pix (s : State) (c : List (Nat × Num)) : (s.writeBlkr c).pix = s.pix := rfl
@[simp] theorem State.writeBlkr_sym (s : State) (c : List (Nat × Num)) : (s.writeBlkr c).sym = s.sym := rfl
@[simp] theorem State.writeBlkr_bit (s : State) (c : List (Nat × Num)) : (s.writeBlkr c).bit = s.bit := rfl
@[simp] theorem State.writeBlkr_msg (s : State) (c : List (Nat × Num)) : (s.writeBlkr c).msg = s.msg := rfl
@[simp] theorem State.writeBlkr_perm (s : State) (c : List (Nat × Num)) : (s.writeBlkr c).perm = s.perm := rfl
@[simp] theorem State.writeBlkr_gen (s : State) (c : List (Nat × Num)) : (s.writeBlkr c).gen = s.gen := rfl
@[simp] theorem State.writeBlkr_syn (s : State) (c : List (Nat × Num)) : (s.writeBlkr c).syn = s.syn := rfl
@[simp] theorem State.writeBlkr_blks (s : State) (c : List (Nat × Num)) : (s.writeBlkr c).blks = s.blks := rfl
@[simp] theorem State.writeBlkr_blkf (s : State) (c : List (Nat × Num)) : (s.writeBlkr c).blkf = s.blkf := rfl
@[simp] theorem State.writeBlkr_blkr (s : State) (c : List (Nat × Num)) : (s.writeBlkr c).blkr = s.blkr.writeAll c := rfl
@[simp] theorem State.writeBlkr_acc0 (s : State) (c : List (Nat × Num)) : (s.writeBlkr c).acc0 = s.acc0 := rfl
@[simp] theorem State.writeBlkr_acc1 (s : State) (c : List (Nat × Num)) : (s.writeBlkr c).acc1 = s.acc1 := rfl
@[simp] theorem State.writeBlkr_conf (s : State) (c : List (Nat × Num)) : (s.writeBlkr c).conf = s.conf := rfl
@[simp] theorem State.writeBlkr_ph (s : State) (c : List (Nat × Num)) : (s.writeBlkr c).ph = s.ph := rfl
@[simp] theorem State.writeBlkr_phref (s : State) (c : List (Nat × Num)) : (s.writeBlkr c).phref = s.phref := rfl
@[simp] theorem State.writeBlkr_resets (s : State) (c : List (Nat × Num)) : (s.writeBlkr c).resets = s.resets := rfl
@[simp] theorem State.writeBlkr_synEpoch (s : State) (c : List (Nat × Num)) : (s.writeBlkr c).synEpoch = s.synEpoch := rfl
@[simp] theorem State.writeBlkr_input (s : State) (c : List (Nat × Num)) : (s.writeBlkr c).input = s.input := rfl

/-! `State.writeAcc0` -/

@[simp] theorem State.writeAcc0_cfg (s : State) (c : List (Nat × Num)) : (s.writeAcc0 c).cfg = s.cfg := rfl
@[simp] theorem State.writeAcc0_x (s : State) (c : List (Nat × Num)) : (s.writeAcc0 c).x = s.x := rfl
@[simp] theorem State.writeAcc0_fault (s : State) (c : List (Nat × Num)) : (s.writeAcc0 c).fault = s.fault := rfl
@[simp] theorem State.writeAcc0_rserr (s : State) (c : List (Nat × Num)) : (s.writeAcc0 c).rserr = s.rserr := rfl
@[simp] theorem State.writeAcc0_found (s : State) (c : List (Nat × Num)) : (s.writeAcc0 c).found = s.found := rfl
@[simp] theorem State.writeAcc0_cause (s : State) (c : List (Nat × Num)) : (s.writeAcc0 c).cause = s.cause := rfl
@[simp] theorem State.writeAcc0_finfo (s : State) (c : List (Nat × Num)) : (s.writeAcc0 c).finfo = s.finfo := rfl
@[simp] theorem State.writeAcc0_rngSeed (s : State) (c : List (Nat × Num)) : (s.writeAcc0 c).rngSeed = s.rngSeed := rfl
@[simp] theorem State.writeAcc0_rsNsym (s : State) (c : List (Nat × Num)) : (s.writeAcc0 c).rsNsym = s.rsNsym := rfl
@[simp] theorem State.writeAcc0_permN (s : State) (c : List (Nat × Num)) : (s.writeAcc0 c).permN = s.permN := rfl
@[simp] theorem State.writeAcc0_imgW (s : State) (c : List (Nat × Num)) : (s.writeAcc0 c).imgW = s.imgW := rfl
@[simp] theorem State.writeAcc0_imgH (s : State) (c : List (Nat × Num)) : (s.writeAcc0 c).imgH = s.imgH := rfl
@[simp] theorem State.writeAcc0_strength (s : State) (c : List (Nat × Num)) : (s.writeAcc0 c).strength = s.strength := rfl
@[simp] theorem State.writeAcc0_pix (s : State) (c : List (Nat × Num)) : (s.writeAcc0 c).pix = s.pix := rfl
@[simp] theorem State.writeAcc0_sym (s : State) (c : List (Nat × Num)) : (s.writeAcc0 c).sym = s.sym := rfl
@[simp] theorem State.writeAcc0_bit (s : State) (c : List (Nat × Num)) : (s.writeAcc0 c).bit = s.bit := rfl
@[simp] theorem State.writeAcc0_msg (s : State) (c : List (Nat × Num)) : (s.writeAcc0 c).msg = s.msg := rfl
@[simp] theorem State.writeAcc0_perm (s : State) (c : List (Nat × Num)) : (s.writeAcc0 c).perm = s.perm := rfl
@[simp] theorem State.writeAcc0_gen (s : State) (c : List (Nat × Num)) : (s.writeAcc0 c).gen = s.gen := rfl
@[simp] theorem State.writeAcc0_syn (s : State) (c : List (Nat × Num)) : (s.writeAcc0 c).syn = s.syn := rfl
@[simp] theorem State.writeAcc0_blks (s : State) (c : List (Nat × Num)) : (s.writeAcc0 c).blks = s.blks := rfl
@[simp] theorem State.writeAcc0_blkf (s : State) (c : List (Nat × Num)) : (s.writeAcc0 c).blkf = s.blkf := rfl
@[simp] theorem State.writeAcc0_blkr (s : State) (c : List (Nat × Num)) : (s.writeAcc0 c).blkr = s.blkr := rfl
@[simp] theorem State.writeAcc0_acc0 (s : State) (c : List (Nat × Num)) : (s.writeAcc0 c).acc0 = s.acc0.writeAll c := rfl
@[simp] theorem State.writeAcc0_acc1 (s : State) (c : List (Nat × Num)) : (s.writeAcc0 c).acc1 = s.acc1 := rfl
@[simp] theorem State.writeAcc0_conf (s : State) (c : List (Nat × Num)) : (s.writeAcc0 c).conf = s.conf := rfl
@[simp] theorem State.writeAcc0_ph (s : State) (c : List (Nat × Num)) : (s.writeAcc0 c).ph = s.ph := rfl
@[simp] theorem State.writeAcc0_phref (s : State) (c : List (Nat × Num)) : (s.writeAcc0 c).phref = s.phref := rfl
@[simp] theorem State.writeAcc0_resets (s : State) (c : List (Nat × Num)) : (s.writeAcc0 c).resets = s.resets := rfl
@[simp] theorem State.writeAcc0_synEpoch (s : State) (c : List (Nat × Num)) : (s.writeAcc0 c).synEpoch = s.synEpoch := rfl
@[simp] theorem State.writeAcc0_input (s : State) (c : List (Nat × Num)) : (s.writeAcc0 c).input = s.input := rfl

/-! `State.writeAcc1` -/

@[simp] theorem State.writeAcc1_cfg (s : State) (c : List (Nat × Num)) : (s.writeAcc1 c).cfg = s.cfg := rfl
@[simp] theorem State.writeAcc1_x (s : State) (c : List (Nat × Num)) : (s.writeAcc1 c).x = s.x := rfl
@[simp] theorem State.writeAcc1_fault (s : State) (c : List (Nat × Num)) : (s.writeAcc1 c).fault = s.fault := rfl
@[simp] theorem State.writeAcc1_rserr (s : State) (c : List (Nat × Num)) : (s.writeAcc1 c).rserr = s.rserr := rfl
@[simp] theorem State.writeAcc1_found (s : State) (c : List (Nat × Num)) : (s.writeAcc1 c).found = s.found := rfl
@[simp] theorem State.writeAcc1_cause (s : State) (c : List (Nat × Num)) : (s.writeAcc1 c).cause = s.cause := rfl
@[simp] theorem State.writeAcc1_finfo (s : State) (c : List (Nat × Num)) : (s.writeAcc1 c).finfo = s.finfo := rfl
@[simp] theorem State.writeAcc1_rngSeed (s : State) (c : List (Nat × Num)) : (s.writeAcc1 c).rngSeed = s.rngSeed := rfl
@[simp] theorem State.writeAcc1_rsNsym (s : State) (c : List (Nat × Num)) : (s.writeAcc1 c).rsNsym = s.rsNsym := rfl
@[simp] theorem State.writeAcc1_permN (s : State) (c : List (Nat × Num)) : (s.writeAcc1 c).permN = s.permN := rfl
@[simp] theorem State.writeAcc1_imgW (s : State) (c : List (Nat × Num)) : (s.writeAcc1 c).imgW = s.imgW := rfl
@[simp] theorem State.writeAcc1_imgH (s : State) (c : List (Nat × Num)) : (s.writeAcc1 c).imgH = s.imgH := rfl
@[simp] theorem State.writeAcc1_strength (s : State) (c : List (Nat × Num)) : (s.writeAcc1 c).strength = s.strength := rfl
@[simp] theorem State.writeAcc1_pix (s : State) (c : List (Nat × Num)) : (s.writeAcc1 c).pix = s.pix := rfl
@[simp] theorem State.writeAcc1_sym (s : State) (c : List (Nat × Num)) : (s.writeAcc1 c).sym = s.sym := rfl
@[simp] theorem State.writeAcc1_bit (s : State) (c : List (Nat × Num)) : (s.writeAcc1 c).bit = s.bit := rfl
@[simp] theorem State.writeAcc1_msg (s : State) (c : List (Nat × Num)) : (s.writeAcc1 c).msg = s.msg := rfl
@[simp] theorem State.writeAcc1_perm (s : State) (c : List (Nat × Num)) : (s.writeAcc1 c).perm = s.perm := rfl
@[simp] theorem State.writeAcc1_gen (s : State) (c : List (Nat × Num)) : (s.writeAcc1 c).gen = s.gen := rfl
@[simp] theorem State.writeAcc1_syn (s : State) (c : List (Nat × Num)) : (s.writeAcc1 c).syn = s.syn := rfl
@[simp] theorem State.writeAcc1_blks (s : State) (c : List (Nat × Num)) : (s.writeAcc1 c).blks = s.blks := rfl
@[simp] theorem State.writeAcc1_blkf (s : State) (c : List (Nat × Num)) : (s.writeAcc1 c).blkf = s.blkf := rfl
@[simp] theorem State.writeAcc1_blkr (s : State) (c : List (Nat × Num)) : (s.writeAcc1 c).blkr = s.blkr := rfl
@[simp] theorem State.writeAcc1_acc0 (s : State) (c : List (Nat × Num)) : (s.writeAcc1 c).acc0 = s.acc0 := rfl
@[simp] theorem State.writeAcc1_acc1 (s : State) (c : List (Nat × Num)) : (s.writeAcc1 c).acc1 = s.acc1.writeAll c := rfl
@[simp] theorem State.writeAcc1_conf (s : State) (c : List (Nat × Num)) : (s.writeAcc1 c).conf = s.conf := rfl
@[simp] theorem State.writeAcc1_ph (s : State) (c : List (Nat × Num)) : (s.writeAcc1 c).ph = s.ph := rfl
@[simp] theorem State.writeAcc1_phref (s : State) (c : List (Nat × Num)) : (s.writeAcc1 c).phref = s.phref := rfl
@[simp] theorem State.writeAcc1_resets (s : State) (c : List (Nat × Num)) : (s.writeAcc1 c).resets = s.resets := rfl
@[simp] theorem State.writeAcc1_synEpoch (s : State) (c : List (Nat × Num)) : (s.writeAcc1 c).synEpoch = s.synEpoch := rfl
@[simp] theorem State.writeAcc1_input (s : State) (c : List (Nat × Num)) : (s.writeAcc1 c).input = s.input := rfl

/-! `State.writePh` -/

@[simp] theorem State.writePh_cfg (s : State) (c : List (Nat × Bit)) : (s.writePh c).cfg = s.cfg := rfl
@[simp] theorem State.writePh_x (s : State) (c : List (Nat × Bit)) : (s.writePh c).x = s.x := rfl
@[simp] theorem State.writePh_fault (s : State) (c : List (Nat × Bit)) : (s.writePh c).fault = s.fault := rfl
@[simp] theorem State.writePh_rserr (s : State) (c : List (Nat × Bit)) : (s.writePh c).rserr = s.rserr := rfl
@[simp] theorem State.writePh_found (s : State) (c : List (Nat × Bit)) : (s.writePh c).found = s.found := rfl
@[simp] theorem State.writePh_cause (s : State) (c : List (Nat × Bit)) : (s.writePh c).cause = s.cause := rfl
@[simp] theorem State.writePh_finfo (s : State) (c : List (Nat × Bit)) : (s.writePh c).finfo = s.finfo := rfl
@[simp] theorem State.writePh_rngSeed (s : State) (c : List (Nat × Bit)) : (s.writePh c).rngSeed = s.rngSeed := rfl
@[simp] theorem State.writePh_rsNsym (s : State) (c : List (Nat × Bit)) : (s.writePh c).rsNsym = s.rsNsym := rfl
@[simp] theorem State.writePh_permN (s : State) (c : List (Nat × Bit)) : (s.writePh c).permN = s.permN := rfl
@[simp] theorem State.writePh_imgW (s : State) (c : List (Nat × Bit)) : (s.writePh c).imgW = s.imgW := rfl
@[simp] theorem State.writePh_imgH (s : State) (c : List (Nat × Bit)) : (s.writePh c).imgH = s.imgH := rfl
@[simp] theorem State.writePh_strength (s : State) (c : List (Nat × Bit)) : (s.writePh c).strength = s.strength := rfl
@[simp] theorem State.writePh_pix (s : State) (c : List (Nat × Bit)) : (s.writePh c).pix = s.pix := rfl
@[simp] theorem State.writePh_sym (s : State) (c : List (Nat × Bit)) : (s.writePh c).sym = s.sym := rfl
@[simp] theorem State.writePh_bit (s : State) (c : List (Nat × Bit)) : (s.writePh c).bit = s.bit := rfl
@[simp] theorem State.writePh_msg (s : State) (c : List (Nat × Bit)) : (s.writePh c).msg = s.msg := rfl
@[simp] theorem State.writePh_perm (s : State) (c : List (Nat × Bit)) : (s.writePh c).perm = s.perm := rfl
@[simp] theorem State.writePh_gen (s : State) (c : List (Nat × Bit)) : (s.writePh c).gen = s.gen := rfl
@[simp] theorem State.writePh_syn (s : State) (c : List (Nat × Bit)) : (s.writePh c).syn = s.syn := rfl
@[simp] theorem State.writePh_blks (s : State) (c : List (Nat × Bit)) : (s.writePh c).blks = s.blks := rfl
@[simp] theorem State.writePh_blkf (s : State) (c : List (Nat × Bit)) : (s.writePh c).blkf = s.blkf := rfl
@[simp] theorem State.writePh_blkr (s : State) (c : List (Nat × Bit)) : (s.writePh c).blkr = s.blkr := rfl
@[simp] theorem State.writePh_acc0 (s : State) (c : List (Nat × Bit)) : (s.writePh c).acc0 = s.acc0 := rfl
@[simp] theorem State.writePh_acc1 (s : State) (c : List (Nat × Bit)) : (s.writePh c).acc1 = s.acc1 := rfl
@[simp] theorem State.writePh_conf (s : State) (c : List (Nat × Bit)) : (s.writePh c).conf = s.conf := rfl
@[simp] theorem State.writePh_ph (s : State) (c : List (Nat × Bit)) : (s.writePh c).ph = s.ph.writeAll c := rfl
@[simp] theorem State.writePh_phref (s : State) (c : List (Nat × Bit)) : (s.writePh c).phref = s.phref := rfl
@[simp] theorem State.writePh_resets (s : State) (c : List (Nat × Bit)) : (s.writePh c).resets = s.resets := rfl
@[simp] theorem State.writePh_synEpoch (s : State) (c : List (Nat × Bit)) : (s.writePh c).synEpoch = s.synEpoch := rfl
@[simp] theorem State.writePh_input (s : State) (c : List (Nat × Bit)) : (s.writePh c).input = s.input := rfl

/-! `State.writePhref` -/

@[simp] theorem State.writePhref_cfg (s : State) (c : List (Nat × Bit)) : (s.writePhref c).cfg = s.cfg := rfl
@[simp] theorem State.writePhref_x (s : State) (c : List (Nat × Bit)) : (s.writePhref c).x = s.x := rfl
@[simp] theorem State.writePhref_fault (s : State) (c : List (Nat × Bit)) : (s.writePhref c).fault = s.fault := rfl
@[simp] theorem State.writePhref_rserr (s : State) (c : List (Nat × Bit)) : (s.writePhref c).rserr = s.rserr := rfl
@[simp] theorem State.writePhref_found (s : State) (c : List (Nat × Bit)) : (s.writePhref c).found = s.found := rfl
@[simp] theorem State.writePhref_cause (s : State) (c : List (Nat × Bit)) : (s.writePhref c).cause = s.cause := rfl
@[simp] theorem State.writePhref_finfo (s : State) (c : List (Nat × Bit)) : (s.writePhref c).finfo = s.finfo := rfl
@[simp] theorem State.writePhref_rngSeed (s : State) (c : List (Nat × Bit)) : (s.writePhref c).rngSeed = s.rngSeed := rfl
@[simp] theorem State.writePhref_rsNsym (s : State) (c : List (Nat × Bit)) : (s.writePhref c).rsNsym = s.rsNsym := rfl
@[simp] theorem State.writePhref_permN (s : State) (c : List (Nat × Bit)) : (s.writePhref c).permN = s.permN := rfl
@[simp] theorem State.writePhref_imgW (s : State) (c : List (Nat × Bit)) : (s.writePhref c).imgW = s.imgW := rfl
@[simp] theorem State.writePhref_imgH (s : State) (c : List (Nat × Bit)) : (s.writePhref c).imgH = s.imgH := rfl
@[simp] theorem State.writePhref_strength (s : State) (c : List (Nat × Bit)) : (s.writePhref c).strength = s.strength := rfl
@[simp] theorem State.writePhref_pix (s : State) (c : List (Nat × Bit)) : (s.writePhref c).pix = s.pix := rfl
@[simp] theorem State.writePhref_sym (s : State) (c : List (Nat × Bit)) : (s.writePhref c).sym = s.sym := rfl
@[simp] theorem State.writePhref_bit (s : State) (c : List (Nat × Bit)) : (s.writePhref c).bit = s.bit := rfl
@[simp] theorem State.writePhref_msg (s : State) (c : List (Nat × Bit)) : (s.writePhref c).msg = s.msg := rfl
@[simp] theorem State.writePhref_perm (s : State) (c : List (Nat × Bit)) : (s.writePhref c).perm = s.perm := rfl
@[simp] theorem State.writePhref_gen (s : State) (c : List (Nat × Bit)) : (s.writePhref c).gen = s.gen := rfl
@[simp] theorem State.writePhref_syn (s : State) (c : List (Nat × Bit)) : (s.writePhref c).syn = s.syn := rfl
@[simp] theorem State.writePhref_blks (s : State) (c : List (Nat × Bit)) : (s.writePhref c).blks = s.blks := rfl
@[simp] theorem State.writePhref_blkf (s : State) (c : List (Nat × Bit)) : (s.writePhref c).blkf = s.blkf := rfl
@[simp] theorem State.writePhref_blkr (s : State) (c : List (Nat × Bit)) : (s.writePhref c).blkr = s.blkr := rfl
@[simp] theorem State.writePhref_acc0 (s : State) (c : List (Nat × Bit)) : (s.writePhref c).acc0 = s.acc0 := rfl
@[simp] theorem State.writePhref_acc1 (s : State) (c : List (Nat × Bit)) : (s.writePhref c).acc1 = s.acc1 := rfl
@[simp] theorem State.writePhref_conf (s : State) (c : List (Nat × Bit)) : (s.writePhref c).conf = s.conf := rfl
@[simp] theorem State.writePhref_ph (s : State) (c : List (Nat × Bit)) : (s.writePhref c).ph = s.ph := rfl
@[simp] theorem State.writePhref_phref (s : State) (c : List (Nat × Bit)) : (s.writePhref c).phref = s.phref.writeAll c := rfl
@[simp] theorem State.writePhref_resets (s : State) (c : List (Nat × Bit)) : (s.writePhref c).resets = s.resets := rfl
@[simp] theorem State.writePhref_synEpoch (s : State) (c : List (Nat × Bit)) : (s.writePhref c).synEpoch = s.synEpoch := rfl
@[simp] theorem State.writePhref_input (s : State) (c : List (Nat × Bit)) : (s.writePhref c).input = s.input := rfl

/-! `State.writeConf` -/

@[simp] theorem State.writeConf_cfg (s : State) (v : Num) : (s.writeConf v).cfg = s.cfg := rfl
@[simp] theorem State.writeConf_x (s : State) (v : Num) : (s.writeConf v).x = s.x := rfl
@[simp] theorem State.writeConf_fault (s : State) (v : Num) : (s.writeConf v).fault = s.fault := rfl
@[simp] theorem State.writeConf_rserr (s : State) (v : Num) : (s.writeConf v).rserr = s.rserr := rfl
@[simp] theorem State.writeConf_found (s : State) (v : Num) : (s.writeConf v).found = s.found := rfl
@[simp] theorem State.writeConf_cause (s : State) (v : Num) : (s.writeConf v).cause = s.cause := rfl
@[simp] theorem State.writeConf_finfo (s : State) (v : Num) : (s.writeConf v).finfo = s.finfo := rfl
@[simp] theorem State.writeConf_rngSeed (s : State) (v : Num) : (s.writeConf v).rngSeed = s.rngSeed := rfl
@[simp] theorem State.writeConf_rsNsym (s : State) (v : Num) : (s.writeConf v).rsNsym = s.rsNsym := rfl
@[simp] theorem State.writeConf_permN (s : State) (v : Num) : (s.writeConf v).permN = s.permN := rfl
@[simp] theorem State.writeConf_imgW (s : State) (v : Num) : (s.writeConf v).imgW = s.imgW := rfl
@[simp] theorem State.writeConf_imgH (s : State) (v : Num) : (s.writeConf v).imgH = s.imgH := rfl
@[simp] theorem State.writeConf_strength (s : State) (v : Num) : (s.writeConf v).strength = s.strength := rfl
@[simp] theorem State.writeConf_pix (s : State) (v : Num) : (s.writeConf v).pix = s.pix := rfl
@[simp] theorem State.writeConf_sym (s : State) (v : Num) : (s.writeConf v).sym = s.sym := rfl
@[simp] theorem State.writeConf_bit (s : State) (v : Num) : (s.writeConf v).bit = s.bit := rfl
@[simp] theorem State.writeConf_msg (s : State) (v : Num) : (s.writeConf v).msg = s.msg := rfl
@[simp] theorem State.writeConf_perm (s : State) (v : Num) : (s.writeConf v).perm = s.perm := rfl
@[simp] theorem State.writeConf_gen (s : State) (v : Num) : (s.writeConf v).gen = s.gen := rfl
@[simp] theorem State.writeConf_syn (s : State) (v : Num) : (s.writeConf v).syn = s.syn := rfl
@[simp] theorem State.writeConf_blks (s : State) (v : Num) : (s.writeConf v).blks = s.blks := rfl
@[simp] theorem State.writeConf_blkf (s : State) (v : Num) : (s.writeConf v).blkf = s.blkf := rfl
@[simp] theorem State.writeConf_blkr (s : State) (v : Num) : (s.writeConf v).blkr = s.blkr := rfl
@[simp] theorem State.writeConf_acc0 (s : State) (v : Num) : (s.writeConf v).acc0 = s.acc0 := rfl
@[simp] theorem State.writeConf_acc1 (s : State) (v : Num) : (s.writeConf v).acc1 = s.acc1 := rfl
@[simp] theorem State.writeConf_conf (s : State) (v : Num) : (s.writeConf v).conf = s.conf.write 0 v := rfl
@[simp] theorem State.writeConf_ph (s : State) (v : Num) : (s.writeConf v).ph = s.ph := rfl
@[simp] theorem State.writeConf_phref (s : State) (v : Num) : (s.writeConf v).phref = s.phref := rfl
@[simp] theorem State.writeConf_resets (s : State) (v : Num) : (s.writeConf v).resets = s.resets := rfl
@[simp] theorem State.writeConf_synEpoch (s : State) (v : Num) : (s.writeConf v).synEpoch = s.synEpoch := rfl
@[simp] theorem State.writeConf_input (s : State) (v : Num) : (s.writeConf v).input = s.input := rfl

/-! `State.withFetchWord` -/

@[simp] theorem State.withFetchWord_cfg (s : State) (n w : Nat) : (s.withFetchWord n w).cfg = s.cfg := rfl
@[simp] theorem State.withFetchWord_x (s : State) (n w : Nat) : (s.withFetchWord n w).x = s.x := rfl
@[simp] theorem State.withFetchWord_fault (s : State) (n w : Nat) : (s.withFetchWord n w).fault = s.fault := rfl
@[simp] theorem State.withFetchWord_rserr (s : State) (n w : Nat) : (s.withFetchWord n w).rserr = s.rserr := rfl
@[simp] theorem State.withFetchWord_found (s : State) (n w : Nat) : (s.withFetchWord n w).found = s.found := rfl
@[simp] theorem State.withFetchWord_cause (s : State) (n w : Nat) : (s.withFetchWord n w).cause = s.cause := rfl
@[simp] theorem State.withFetchWord_finfo (s : State) (n w : Nat) : (s.withFetchWord n w).finfo = s.finfo := rfl
@[simp] theorem State.withFetchWord_rngSeed (s : State) (n w : Nat) : (s.withFetchWord n w).rngSeed = s.rngSeed := rfl
@[simp] theorem State.withFetchWord_rsNsym (s : State) (n w : Nat) : (s.withFetchWord n w).rsNsym = s.rsNsym := rfl
@[simp] theorem State.withFetchWord_permN (s : State) (n w : Nat) : (s.withFetchWord n w).permN = s.permN := rfl
@[simp] theorem State.withFetchWord_imgW (s : State) (n w : Nat) : (s.withFetchWord n w).imgW = s.imgW := rfl
@[simp] theorem State.withFetchWord_imgH (s : State) (n w : Nat) : (s.withFetchWord n w).imgH = s.imgH := rfl
@[simp] theorem State.withFetchWord_strength (s : State) (n w : Nat) : (s.withFetchWord n w).strength = s.strength := rfl
@[simp] theorem State.withFetchWord_pix (s : State) (n w : Nat) : (s.withFetchWord n w).pix = s.pix := rfl
@[simp] theorem State.withFetchWord_sym (s : State) (n w : Nat) : (s.withFetchWord n w).sym = s.sym := rfl
@[simp] theorem State.withFetchWord_bit (s : State) (n w : Nat) : (s.withFetchWord n w).bit = s.bit := rfl
@[simp] theorem State.withFetchWord_msg (s : State) (n w : Nat) : (s.withFetchWord n w).msg = s.msg := rfl
@[simp] theorem State.withFetchWord_perm (s : State) (n w : Nat) : (s.withFetchWord n w).perm = s.perm := rfl
@[simp] theorem State.withFetchWord_gen (s : State) (n w : Nat) : (s.withFetchWord n w).gen = s.gen := rfl
@[simp] theorem State.withFetchWord_syn (s : State) (n w : Nat) : (s.withFetchWord n w).syn = s.syn := rfl
@[simp] theorem State.withFetchWord_blks (s : State) (n w : Nat) : (s.withFetchWord n w).blks = s.blks := rfl
@[simp] theorem State.withFetchWord_blkf (s : State) (n w : Nat) : (s.withFetchWord n w).blkf = s.blkf := rfl
@[simp] theorem State.withFetchWord_blkr (s : State) (n w : Nat) : (s.withFetchWord n w).blkr = s.blkr := rfl
@[simp] theorem State.withFetchWord_acc0 (s : State) (n w : Nat) : (s.withFetchWord n w).acc0 = s.acc0 := rfl
@[simp] theorem State.withFetchWord_acc1 (s : State) (n w : Nat) : (s.withFetchWord n w).acc1 = s.acc1 := rfl
@[simp] theorem State.withFetchWord_conf (s : State) (n w : Nat) : (s.withFetchWord n w).conf = s.conf := rfl
@[simp] theorem State.withFetchWord_ph (s : State) (n w : Nat) : (s.withFetchWord n w).ph = s.ph := rfl
@[simp] theorem State.withFetchWord_phref (s : State) (n w : Nat) : (s.withFetchWord n w).phref = s.phref := rfl
@[simp] theorem State.withFetchWord_resets (s : State) (n w : Nat) : (s.withFetchWord n w).resets = s.resets := rfl
@[simp] theorem State.withFetchWord_synEpoch (s : State) (n w : Nat) : (s.withFetchWord n w).synEpoch = s.synEpoch := rfl
@[simp] theorem State.withFetchWord_input (s : State) (n w : Nat) : (s.withFetchWord n w).input = HostAct.command (BitVec.ofNat 32 w) :: s.input := rfl

end Sys2Proof.Machine
end

