-- ==== Sys2Proof/Laws/Ops.lean ====
section
/-! SUPPORT. The shared operations, each said once: registers, faults, performing a command, the
elements of the spaces after a write, the access primitives. -/

namespace Sys2Proof.Machine

/-! ### The parameter table (R8) -/

/-- `XLEN` and `NREG` are those of the scalar registers and of the register fields (R21, R91). -/
theorem shape_registers :
    Word = BitVec Config.shape.xlen ∧ Vector Word 16 = Vector Word Config.shape.nreg ∧
      Config.shape.nreg = 2 ^ 4 := ⟨rfl, rfl, rfl⟩

/-- The sizes R40 writes as numbers. -/
theorem spaceSize_of_standard {p : Params} (h : p.Standard) :
    (∀ sp ∈ ([.dctc, .blks, .blkf, .blkr] : List Space), spaceSize p sp = 64) ∧
      ∀ sp ∈ ([.ph, .phref] : List Space), spaceSize p sp = 63 := by
  constructor <;> intro sp hs <;> simp only [List.mem_cons, List.not_mem_nil, or_false] at hs <;>
    rcases hs with rfl | rfl | rfl | rfl <;> simp only [spaceSize, h.2] <;> rfl

/-- An allowed parameter table has the values of R8's rows with only one. -/
theorem Params.standard_of_wellFormed {p : Params} (h : p.wellFormed = true) : p.Standard := by
  simp only [Params.wellFormed, Params.rplOk, Params.shapeOk, Bool.and_eq_true, decide_eq_true_eq] at h
  exact ⟨h.1.2, h.2⟩

/-! ### Registers -/

theorem State.getX_setX (s : State) (r q : RegNum) (v : Word) :
    (s.setX r v).getX q = if q = r then v else s.getX q := by
  simp only [State.getX, State.setX]
  by_cases h : q = r
  · subst h; simp
  · rw [if_neg h]
    have : r.toNat ≠ q.toNat := fun e => h (BitVec.eq_of_toNat_eq e.symm)
    simp [this]

@[simp] theorem State.getX_setX_same (s : State) (r : RegNum) (v : Word) :
    (s.setX r v).getX r = v := by simp [State.getX_setX]

theorem State.getX_setX_other (s : State) {r q : RegNum} (v : Word) (h : q ≠ r) :
    (s.setX r v).getX q = s.getX q := by simp [State.getX_setX, h]

/-- Two updates with the same registers give the same reads. -/
theorem State.getX_congr {s t : State} (h : t.x = s.x) (r : RegNum) : t.getX r = s.getX r := by
  simp only [State.getX, h]

/-! ### Performing a command and taking a fault -/

@[simp] theorem State.settle_ok (s t : State) : s.settle (.ok t) = t := rfl

@[simp] theorem State.settle_error (s : State) (k : FaultKind) (v : Nat) :
    s.settle (.error (k, v)) = s.raise k v := rfl

/-- All that performing a command can do: nothing while a fault is pending, else the command's effect
or the fault it raises. -/
theorem State.perform_cases {s t : State} {c : Cmd} (h : s.perform c = .next t) :
    (s.fault = true ∧ t = s) ∨ (s.fault = false ∧ c = .ok t) ∨
      (s.fault = false ∧ ∃ k v, c = .error (k, v) ∧ t = s.raise k v) := by
  simp only [State.perform, Host.Outcome.next.injEq] at h
  cases hf : s.fault with
  | true => exact .inl ⟨rfl, by simpa [hf] using h.symm⟩
  | false =>
    rw [hf] at h
    cases c with
    | ok u => exact .inr (.inl ⟨rfl, by rw [← h]; rfl⟩)
    | error e => exact .inr (.inr ⟨rfl, e.1, e.2, rfl, by rw [← h]; rfl⟩)

/-- A command without a pending fault. -/
theorem State.perform_running {s : State} (h : s.fault = false) (c : Cmd) :
    s.perform c = .next (s.settle c) := by simp [State.perform, h]

/-- A command while a fault is pending (R314). -/
theorem State.perform_pending {s : State} (h : s.fault = true) (c : Cmd) :
    s.perform c = .next s := by simp [State.perform, h]

theorem FaultKind.code_range (k : FaultKind) : 1 ≤ k.code.toNat ∧ k.code.toNat ≤ 9 := by
  cases k <;> decide

/-! ### Reads that an update does not reach -/

@[simp] theorem State.element_setX (s : State) (r : RegNum) (v : Word) (sp : Space) (i : Nat) :
    (s.setX r v).element sp i = s.element sp i := by cases sp <;> rfl

@[simp] theorem State.element_raise (s : State) (k : FaultKind) (v : Nat) (sp : Space) (i : Nat) :
    (s.raise k v).element sp i = s.element sp i := by cases sp <;> rfl

@[simp] theorem State.element_acknowledge (s : State) (sp : Space) (i : Nat) :
    (s.acknowledge).element sp i = s.element sp i := by cases sp <;> rfl

@[simp] theorem State.element_setRserr (s : State) (b : Bool) (sp : Space) (i : Nat) :
    (s.setRserr b).element sp i = s.element sp i := by cases sp <;> rfl

@[simp] theorem State.element_setFound (s : State) (b : Bool) (sp : Space) (i : Nat) :
    (s.setFound b).element sp i = s.element sp i := by cases sp <;> rfl

@[simp] theorem State.element_setSeed (s : State) (v : BitVec 31) (sp : Space) (i : Nat) :
    (s.setSeed v).element sp i = s.element sp i := by cases sp <;> rfl

@[simp] theorem State.getX_raise (s : State) (k : FaultKind) (v : Nat) (r : RegNum) :
    (s.raise k v).getX r = s.getX r := rfl

@[simp] theorem State.getX_acknowledge (s : State) (r : RegNum) :
    (s.acknowledge).getX r = s.getX r := rfl

@[simp] theorem State.getX_setRserr (s : State) (b : Bool) (r : RegNum) :
    (s.setRserr b).getX r = s.getX r := rfl

@[simp] theorem State.getX_setFound (s : State) (b : Bool) (r : RegNum) :
    (s.setFound b).getX r = s.getX r := rfl

@[simp] theorem State.getX_setSeed (s : State) (v : BitVec 31) (r : RegNum) :
    (s.setSeed v).getX r = s.getX r := rfl

/-! ### Elements after a write: the first cell with that index, else the old element -/

theorem State.pixAt_writePix (s : State) (c : List (Nat × Byte)) (i : Nat) :
    (s.writePix c).pixAt i = (Mem.get? c i).getD (s.pixAt i) := by
  simp only [State.pixAt, State.writePix, Mem.readOr, Mem.get?_writeAll]
  cases Mem.get? c i <;> rfl

theorem State.element_writePix (s : State) (c : List (Nat × Byte)) {sp : Space} (h : sp ≠ .pix)
    (i : Nat) : (s.writePix c).element sp i = s.element sp i := by
  cases sp <;> first | rfl | exact absurd rfl h

@[simp] theorem State.getX_writePix (s : State) (c : List (Nat × Byte)) (r : RegNum) :
    (s.writePix c).getX r = s.getX r := rfl

theorem State.SpacesOk.writePix {s : State} (h : s.SpacesOk) {c : List (Nat × Byte)}
    (hc : ∀ a ∈ c, a.1 < s.cfg.pixSize) : (s.writePix c).SpacesOk :=
  { h with pix := Mem.wf_writeAll hc h.pix }

theorem State.symAt_writeSym (s : State) (c : List (Nat × Byte)) (i : Nat) :
    (s.writeSym c).symAt i = (Mem.get? c i).getD (s.symAt i) := by
  simp only [State.symAt, State.writeSym, Mem.readOr, Mem.get?_writeAll]
  cases Mem.get? c i <;> rfl

theorem State.element_writeSym (s : State) (c : List (Nat × Byte)) {sp : Space} (h : sp ≠ .sym)
    (i : Nat) : (s.writeSym c).element sp i = s.element sp i := by
  cases sp <;> first | rfl | exact absurd rfl h

@[simp] theorem State.getX_writeSym (s : State) (c : List (Nat × Byte)) (r : RegNum) :
    (s.writeSym c).getX r = s.getX r := rfl

theorem State.SpacesOk.writeSym {s : State} (h : s.SpacesOk) {c : List (Nat × Byte)}
    (hc : ∀ a ∈ c, a.1 < s.cfg.symSize) : (s.writeSym c).SpacesOk :=
  { h with sym := Mem.wf_writeAll hc h.sym }

theorem State.bitAt_writeBit (s : State) (c : List (Nat × Bit)) (i : Nat) :
    (s.writeBit c).bitAt i = (Mem.get? c i).getD (s.bitAt i) := by
  simp only [State.bitAt, State.writeBit, Mem.readOr, Mem.get?_writeAll]
  cases Mem.get? c i <;> rfl

theorem State.element_writeBit (s : State) (c : List (Nat × Bit)) {sp : Space} (h : sp ≠ .bit)
    (i : Nat) : (s.writeBit c).element sp i = s.element sp i := by
  cases sp <;> first | rfl | exact absurd rfl h

@[simp] theorem State.getX_writeBit (s : State) (c : List (Nat × Bit)) (r : RegNum) :
    (s.writeBit c).getX r = s.getX r := rfl

theorem State.SpacesOk.writeBit {s : State} (h : s.SpacesOk) {c : List (Nat × Bit)}
    (hc : ∀ a ∈ c, a.1 < s.cfg.bitSize) : (s.writeBit c).SpacesOk :=
  { h with bit := Mem.wf_writeAll hc h.bit }

theorem State.msgAt_writeMsg (s : State) (c : List (Nat × Half)) (i : Nat) :
    (s.writeMsg c).msgAt i = (Mem.get? c i).getD (s.msgAt i) := by
  simp only [State.msgAt, State.writeMsg, Mem.readOr, Mem.get?_writeAll]
  cases Mem.get? c i <;> rfl

theorem State.element_writeMsg (s : State) (c : List (Nat × Half)) {sp : Space} (h : sp ≠ .msg)
    (i : Nat) : (s.writeMsg c).element sp i = s.element sp i := by
  cases sp <;> first | rfl | exact absurd rfl h

@[simp] theorem State.getX_writeMsg (s : State) (c : List (Nat × Half)) (r : RegNum) :
    (s.writeMsg c).getX r = s.getX r := rfl

theorem State.SpacesOk.writeMsg {s : State} (h : s.SpacesOk) {c : List (Nat × Half)}
    (hc : ∀ a ∈ c, a.1 < s.cfg.msgSize) : (s.writeMsg c).SpacesOk :=
  { h with msg := Mem.wf_writeAll hc h.msg }

theorem State.permAt_writePerm (s : State) (c : List (Nat × Word)) (i : Nat) :
    (s.writePerm c).permAt i = (Mem.get? c i).getD (s.permAt i) := by
  simp only [State.permAt, State.writePerm, Mem.readOr, Mem.get?_writeAll]
  cases Mem.get? c i <;> rfl

theorem State.element_writePerm (s : State) (c : List (Nat × Word)) {sp : Space} (h : sp ≠ .perm)
    (i : Nat) : (s.writePerm c).element sp i = s.element sp i := by
  cases sp <;> first | rfl | exact absurd rfl h

@[simp] theorem State.getX_writePerm (s : State) (c : List (Nat × Word)) (r : RegNum) :
    (s.writePerm c).getX r = s.getX r := rfl

theorem State.SpacesOk.writePerm {s : State} (h : s.SpacesOk) {c : List (Nat × Word)}
    (hc : ∀ a ∈ c, a.1 < s.cfg.permSize) : (s.writePerm c).SpacesOk :=
  { h with perm := Mem.wf_writeAll hc h.perm }

theorem State.genAt_writeGen (s : State) (c : List (Nat × Byte)) (i : Nat) :
    (s.writeGen c).genAt i = (Mem.get? c i).getD (s.genAt i) := by
  simp only [State.genAt, State.writeGen, Mem.readOr, Mem.get?_writeAll]
  cases Mem.get? c i <;> rfl

theorem State.element_writeGen (s : State) (c : List (Nat × Byte)) {sp : Space} (h : sp ≠ .gen)
    (i : Nat) : (s.writeGen c).element sp i = s.element sp i := by
  cases sp <;> first | rfl | exact absurd rfl h

@[simp] theorem State.getX_writeGen (s : State) (c : List (Nat × Byte)) (r : RegNum) :
    (s.writeGen c).getX r = s.getX r := rfl

theorem State.SpacesOk.writeGen {s : State} (h : s.SpacesOk) {c : List (Nat × Byte)}
    (hc : ∀ a ∈ c, a.1 < s.cfg.nsymMax + 1) : (s.writeGen c).SpacesOk :=
  { h with gen := Mem.wf_writeAll hc h.gen }

theorem State.synAt_writeSyn (s : State) (c : List (Nat × Byte)) (i : Nat) :
    (s.writeSyn c).synAt i = (Mem.get? c i).getD (s.synAt i) := by
  simp only [State.synAt, State.writeSyn, Mem.readOr, Mem.get?_writeAll]
  cases Mem.get? c i <;> rfl

theorem State.element_writeSyn (s : State) (c : List (Nat × Byte)) {sp : Space} (h : sp ≠ .syn)
    (i : Nat) : (s.writeSyn c).element sp i = s.element sp i := by
  cases sp <;> first | rfl | exact absurd rfl h

@[simp] theorem State.getX_writeSyn (s : State) (c : List (Nat × Byte)) (r : RegNum) :
    (s.writeSyn c).getX r = s.getX r := rfl

theorem State.SpacesOk.writeSyn {s : State} (h : s.SpacesOk) {c : List (Nat × Byte)}
    (hc : ∀ a ∈ c, a.1 < s.cfg.nsymMax) : (s.writeSyn c).SpacesOk :=
  { h with syn := Mem.wf_writeAll hc h.syn }

theorem State.blksAt_writeBlks (s : State) (c : List (Nat × Num)) (i : Nat) :
    (s.writeBlks c).blksAt i = (Mem.get? c i).getD (s.blksAt i) := by
  simp only [State.blksAt, State.writeBlks, Mem.readOr, Mem.get?_writeAll]
  cases Mem.get? c i <;> rfl

theorem State.element_writeBlks (s : State) (c : List (Nat × Num)) {sp : Space} (h : sp ≠ .blks)
    (i : Nat) : (s.writeBlks c).element sp i = s.element sp i := by
  cases sp <;> first | rfl | exact absurd rfl h

@[simp] theorem State.getX_writeBlks (s : State) (c : List (Nat × Num)) (r : RegNum) :
    (s.writeBlks c).getX r = s.getX r := rfl

theorem State.SpacesOk.writeBlks {s : State} (h : s.SpacesOk) {c : List (Nat × Num)}
    (hc : ∀ a ∈ c, a.1 < s.cfg.shape.block * s.cfg.shape.block) : (s.writeBlks c).SpacesOk :=
  { h with blks := Mem.wf_writeAll hc h.blks }

theorem State.blkfAt_writeBlkf (s : State) (c : List (Nat × Num)) (i : Nat) :
    (s.writeBlkf c).blkfAt i = (Mem.get? c i).getD (s.blkfAt i) := by
  simp only [State.blkfAt, State.writeBlkf, Mem.readOr, Mem.get?_writeAll]
  cases Mem.get? c i <;> rfl

theorem State.element_writeBlkf (s : State) (c : List (Nat × Num)) {sp : Space} (h : sp ≠ .blkf)
    (i : Nat) : (s.writeBlkf c).element sp i = s.element sp i := by
  cases sp <;> first | rfl | exact absurd rfl h

@[simp] theorem State.getX_writeBlkf (s : State) (c : List (Nat × Num)) (r : RegNum) :
    (s.writeBlkf c).getX r = s.getX r := rfl

theorem State.SpacesOk.writeBlkf {s : State} (h : s.SpacesOk) {c : List (Nat × Num)}
    (hc : ∀ a ∈ c, a.1 < s.cfg.shape.block * s.cfg.shape.block) : (s.writeBlkf c).SpacesOk :=
  { h with blkf := Mem.wf_writeAll hc h.blkf }

theorem State.blkrAt_writeBlkr (s : State) (c : List (Nat × Num)) (i : Nat) :
    (s.writeBlkr c).blkrAt i = (Mem.get? c i).getD (s.blkrAt i) := by
  simp only [State.blkrAt, State.writeBlkr, Mem.readOr, Mem.get?_writeAll]
  cases Mem.get? c i <;> rfl

theorem State.element_writeBlkr (s : State) (c : List (Nat × Num)) {sp : Space} (h : sp ≠ .blkr)
    (i : Nat) : (s.writeBlkr c).element sp i = s.element sp i := by
  cases sp <;> first | rfl | exact absurd rfl h

@[simp] theorem State.getX_writeBlkr (s : State) (c : List (Nat × Num)) (r : RegNum) :
    (s.writeBlkr c).getX r = s.getX r := rfl

theorem State.SpacesOk.writeBlkr {s : State} (h : s.SpacesOk) {c : List (Nat × Num)}
    (hc : ∀ a ∈ c, a.1 < s.cfg.shape.block * s.cfg.shape.block) : (s.writeBlkr c).SpacesOk :=
  { h with blkr := Mem.wf_writeAll hc h.blkr }

theorem State.acc0At_writeAcc0 (s : State) (c : List (Nat × Num)) (i : Nat) :
    (s.writeAcc0 c).acc0At i = (Mem.get? c i).getD (s.acc0At i) := by
  simp only [State.acc0At, State.writeAcc0, Mem.readOr, Mem.get?_writeAll]
  cases Mem.get? c i <;> rfl

theorem State.element_writeAcc0 (s : State) (c : List (Nat × Num)) {sp : Space} (h : sp ≠ .acc0)
    (i : Nat) : (s.writeAcc0 c).element sp i = s.element sp i := by
  cases sp <;> first | rfl | exact absurd rfl h

@[simp] theorem State.getX_writeAcc0 (s : State) (c : List (Nat × Num)) (r : RegNum) :
    (s.writeAcc0 c).getX r = s.getX r := rfl

theorem State.SpacesOk.writeAcc0 {s : State} (h : s.SpacesOk) {c : List (Nat × Num)}
    (hc : ∀ a ∈ c, a.1 < s.cfg.bitSize) : (s.writeAcc0 c).SpacesOk :=
  { h with acc0 := Mem.wf_writeAll hc h.acc0 }

theorem State.acc1At_writeAcc1 (s : State) (c : List (Nat × Num)) (i : Nat) :
    (s.writeAcc1 c).acc1At i = (Mem.get? c i).getD (s.acc1At i) := by
  simp only [State.acc1At, State.writeAcc1, Mem.readOr, Mem.get?_writeAll]
  cases Mem.get? c i <;> rfl

theorem State.element_writeAcc1 (s : State) (c : List (Nat × Num)) {sp : Space} (h : sp ≠ .acc1)
    (i : Nat) : (s.writeAcc1 c).element sp i = s.element sp i := by
  cases sp <;> first | rfl | exact absurd rfl h

@[simp] theorem State.getX_writeAcc1 (s : State) (c : List (Nat × Num)) (r : RegNum) :
    (s.writeAcc1 c).getX r = s.getX r := rfl

theorem State.SpacesOk.writeAcc1 {s : State} (h : s.SpacesOk) {c : List (Nat × Num)}
    (hc : ∀ a ∈ c, a.1 < s.cfg.bitSize) : (s.writeAcc1 c).SpacesOk :=
  { h with acc1 := Mem.wf_writeAll hc h.acc1 }

theorem State.phAt_writePh (s : State) (c : List (Nat × Bit)) (i : Nat) :
    (s.writePh c).phAt i = (Mem.get? c i).getD (s.phAt i) := by
  simp only [State.phAt, State.writePh, Mem.readOr, Mem.get?_writeAll]
  cases Mem.get? c i <;> rfl

theorem State.element_writePh (s : State) (c : List (Nat × Bit)) {sp : Space} (h : sp ≠ .ph)
    (i : Nat) : (s.writePh c).element sp i = s.element sp i := by
  cases sp <;> first | rfl | exact absurd rfl h

@[simp] theorem State.getX_writePh (s : State) (c : List (Nat × Bit)) (r : RegNum) :
    (s.writePh c).getX r = s.getX r := rfl

theorem State.SpacesOk.writePh {s : State} (h : s.SpacesOk) {c : List (Nat × Bit)}
    (hc : ∀ a ∈ c, a.1 < s.cfg.shape.phBits) : (s.writePh c).SpacesOk :=
  { h with ph := Mem.wf_writeAll hc h.ph }

theorem State.phrefAt_writePhref (s : State) (c : List (Nat × Bit)) (i : Nat) :
    (s.writePhref c).phrefAt i = (Mem.get? c i).getD (s.phrefAt i) := by
  simp only [State.phrefAt, State.writePhref, Mem.readOr, Mem.get?_writeAll]
  cases Mem.get? c i <;> rfl

theorem State.element_writePhref (s : State) (c : List (Nat × Bit)) {sp : Space} (h : sp ≠ .phref)
    (i : Nat) : (s.writePhref c).element sp i = s.element sp i := by
  cases sp <;> first | rfl | exact absurd rfl h

@[simp] theorem State.getX_writePhref (s : State) (c : List (Nat × Bit)) (r : RegNum) :
    (s.writePhref c).getX r = s.getX r := rfl

theorem State.SpacesOk.writePhref {s : State} (h : s.SpacesOk) {c : List (Nat × Bit)}
    (hc : ∀ a ∈ c, a.1 < s.cfg.shape.phBits) : (s.writePhref c).SpacesOk :=
  { h with phref := Mem.wf_writeAll hc h.phref }

@[simp] theorem State.confVal_writeConf (s : State) (v : Num) : (s.writeConf v).confVal = v := by
  simp [State.confVal, State.writeConf, Mem.readOr]

theorem State.element_writeConf (s : State) (v : Num) {sp : Space} (h : sp ≠ .conf) (i : Nat) :
    (s.writeConf v).element sp i = s.element sp i := by
  cases sp <;> first | rfl | exact absurd rfl h

@[simp] theorem State.getX_writeConf (s : State) (v : Num) (r : RegNum) :
    (s.writeConf v).getX r = s.getX r := rfl

theorem State.SpacesOk.writeConf {s : State} (h : s.SpacesOk) (v : Num) : (s.writeConf v).SpacesOk :=
  { h with conf := Mem.wf_write _ (by decide) h.conf }

/-! ### The canonical form under the other updates, at reset, and under every store -/

theorem State.SpacesOk.setX {s : State} (h : s.SpacesOk) (r : RegNum) (v : Word) :
    (s.setX r v).SpacesOk := { h with }

theorem State.SpacesOk.raise {s : State} (h : s.SpacesOk) (k : FaultKind) (v : Nat) :
    (s.raise k v).SpacesOk := { h with }

theorem State.SpacesOk.acknowledge {s : State} (h : s.SpacesOk) : s.acknowledge.SpacesOk :=
  { h with }

theorem State.SpacesOk.setRserr {s : State} (h : s.SpacesOk) (b : Bool) :
    (s.setRserr b).SpacesOk := { h with }

theorem State.SpacesOk.setFound {s : State} (h : s.SpacesOk) (b : Bool) :
    (s.setFound b).SpacesOk := { h with }

theorem State.SpacesOk.setSeed {s : State} (h : s.SpacesOk) (v : BitVec 31) :
    (s.setSeed v).SpacesOk := { h with }

theorem State.afterReset_spacesOk (p : Params) (a b : Nat) (input : List HostAct) :
    (State.afterReset p a b input).SpacesOk := by
  constructor <;> simp [State.afterReset, Mem.wf]

theorem State.reset_spacesOk : State.reset.SpacesOk := State.afterReset_spacesOk _ _ _ _

theorem State.lt_size_of_inBounds {s : State} {sp : Space} {i : Nat} (h : s.inBounds sp i = true) :
    i < spaceSize s.cfg sp := by
  rw [State.inBounds, Bool.and_eq_true, decide_eq_true_iff] at h
  exact h.1

theorem State.SpacesOk.storeInt {s : State} (h : s.SpacesOk) {sp : Space} {i : Nat}
    (hi : i < spaceSize s.cfg sp) (v : Nat) : (s.storeInt sp i v).SpacesOk := by
  cases sp <;> first
    | exact h
    | exact h.writePix (List.forall_mem_singleton.2 hi)
    | exact h.writeSym (List.forall_mem_singleton.2 hi)
    | exact h.writeBit (List.forall_mem_singleton.2 hi)
    | exact h.writeMsg (List.forall_mem_singleton.2 hi)
    | exact h.writePerm (List.forall_mem_singleton.2 hi)
    | exact h.writePhref (List.forall_mem_singleton.2 hi)

theorem State.SpacesOk.storeNum {s : State} (h : s.SpacesOk) {sp : Space} {i : Nat}
    (hi : i < spaceSize s.cfg sp) (v : Num) : (s.storeNum sp i v).SpacesOk := by
  cases sp <;> first
    | exact h
    | exact h.writeBlks (List.forall_mem_singleton.2 hi)
    | exact h.writeBlkf (List.forall_mem_singleton.2 hi)
    | exact h.writeBlkr (List.forall_mem_singleton.2 hi)
    | exact h.writeAcc0 (List.forall_mem_singleton.2 hi)
    | exact h.writeAcc1 (List.forall_mem_singleton.2 hi)
    | exact h.writeConf v

/-! ### The access primitives -/

/-- All that `MemRead` can answer (R60). -/
theorem State.memRead_cases (s : State) (word : Word) (sel : Sel) (i : Nat) :
    (spaceOfSel sel = none ∧ s.memRead word sel i = .error (.illegalCommand, word.toNat)) ∨
      ∃ sp, spaceOfSel sel = some sp ∧
        ((s.inBounds sp i = true ∧ s.memRead word sel i = elementWord (s.element sp i)) ∨
          (s.inBounds sp i = false ∧ sp = .gflog ∧ i = 0 ∧
            s.memRead word sel i = .error (.gfLogOfZero, 0)) ∨
          (s.inBounds sp i = false ∧ ¬ (sp = .gflog ∧ i = 0) ∧
            s.memRead word sel i = .error (.bufferBounds, i))) := by
  simp only [State.memRead]
  cases hsp : spaceOfSel sel with
  | none => exact .inl ⟨rfl, rfl⟩
  | some sp =>
    refine .inr ⟨sp, rfl, ?_⟩
    cases hb : s.inBounds sp i with
    | true => exact .inl ⟨rfl, by simp [hb]⟩
    | false =>
      by_cases hz : sp = .gflog ∧ i = 0
      · exact .inr (.inl ⟨rfl, hz.1, hz.2, by obtain ⟨rfl, rfl⟩ := hz; simp [hb]⟩)
      · exact .inr (.inr ⟨rfl, hz, by simp [hz, hb]⟩)

/-- A write that `MemWrite` accepts (R61). -/
theorem State.memWrite_ok {s t : State} {word : Word} {sel : Sel} {i : Nat} {v : Word}
    (h : s.memWrite word sel i v = .ok t) :
    ∃ sp, spaceOfSel sel = some sp ∧ spaceWritable sp = true ∧ s.inBounds sp i = true ∧
      ((spaceWidth sp = none ∧
          t = s.storeNum sp i (s.approx .sts (storeInputs sel i v) 0 (Num.ofInt v.toInt))) ∨
        ∃ w, spaceWidth sp = some w ∧ v.toNat < 2 ^ w ∧ t = s.storeInt sp i v.toNat) := by
  simp only [State.memWrite] at h
  cases hsp : spaceOfSel sel with
  | none => rw [hsp] at h; simp at h
  | some sp =>
    rw [hsp] at h
    simp only at h
    refine ⟨sp, rfl, ?_⟩
    cases hw : spaceWritable sp with
    | false => simp [hw] at h
    | true =>
      cases hb : s.inBounds sp i with
      | false => simp [hw, hb] at h
      | true =>
        refine ⟨rfl, rfl, ?_⟩
        cases hd : spaceWidth sp with
        | none => exact .inl ⟨rfl, by simpa [hw, hb, hd] using h.symm⟩
        | some w =>
          by_cases hv : 2 ^ w ≤ v.toNat
          · simp [hw, hb, hd, hv] at h
          · exact .inr ⟨w, rfl, by omega, by simpa [hw, hb, hd, hv] using h.symm⟩

/-- A store by `STS` keeps the canonical form. -/
theorem State.SpacesOk.memWrite {s t : State} (h : s.SpacesOk) {word : Word} {sel : Sel} {i : Nat}
    {v : Word} (hw : s.memWrite word sel i v = .ok t) : t.SpacesOk := by
  obtain ⟨sp, -, -, hb, ⟨-, rfl⟩ | ⟨w, -, -, rfl⟩⟩ := State.memWrite_ok hw
  · exact h.storeNum (State.lt_size_of_inBounds hb) _
  · exact h.storeInt (State.lt_size_of_inBounds hb) _

/-- A store by the host keeps the canonical form. -/
theorem State.SpacesOk.hostWriteSpace {s t : State} (h : s.SpacesOk) {sp : Space} {i : Nat} {e : Elem}
    (hw : s.hostWriteSpace sp i e = .next t) : t.SpacesOk := by
  simp only [State.hostWriteSpace] at hw
  split_ifs at hw with hok
  simp only [State.hostWriteOk, Bool.and_eq_true] at hok
  have hi := State.lt_size_of_inBounds hok.1.2
  cases e with
  | int v => cases hw; exact h.storeInt hi v
  | num v => cases hw; exact h.storeNum hi v

end Sys2Proof.Machine
end

