-- ==== Sys2Proof/Laws/PerInstr.lean ====
section
/-! SUPPORT. One statement for each command, about its word. -/

namespace Sys2Proof.Laws

/-- The `mask` column of `spec/opcode_table.json`: every opcode bit and every bit that must be 0. -/
def tableMask : Instr → Word
  | .nop => 0xFFFFFFFF#32
  | .li _ _ => 0x0000F0FF#32
  | .lih _ _ => 0x0000F0FF#32
  | .lds _ _ _ => 0xF00F00FF#32
  | .sts _ _ _ => 0xF0000FFF#32
  | .clrf => 0xFFFFFFFF#32
  | .csrr _ _ => 0xF00FF0FF#32
  | .csrw _ _ => 0xF00F0FFF#32
  | .gfmul _ _ _ => 0xFFF000FF#32
  | .gfpow _ _ _ => 0xFFF000FF#32
  | .gfdiv _ _ _ => 0xFFF000FF#32
  | .gfinv _ _ => 0xFFFF00FF#32
  | .rscfg _ => 0xFFFF0FFF#32
  | .rsenc _ => 0xFFFF0FFF#32
  | .rssyn _ _ => 0xFFFF00FF#32
  | .rsdec _ _ => 0xFFFF00FF#32
  | .seed _ => 0xFFFF0FFF#32
  | .next _ => 0xFFFFF0FF#32
  | .nexti _ _ _ => 0xFFF000FF#32
  | .pinit _ => 0xFFFF0FFF#32
  | .shuf => 0xFFFFFFFF#32
  | .sprd _ => 0xFFFFF0FF#32
  | .dct => 0xFFFFFFFF#32
  | .idct => 0xFFFFFFFF#32
  | .blkget _ => 0xFFFF0FFF#32
  | .blkput _ => 0xFFFF0FFF#32
  | .qemb _ _ _ => 0xFFF000FF#32
  | .qext _ _ _ => 0xFFF000FF#32
  | .vclr _ => 0xFFFF0FFF#32
  | .vacc _ _ => 0xFFF00FFF#32
  | .vote _ _ => 0xFFFF00FF#32
  | .magcmp _ => 0xFFFFF0FF#32
  | .phash => 0xFFFFFFFF#32
  | .phcmp _ => 0xFFFFF0FF#32
  | .phver _ _ _ => 0xFFF000FF#32
  | .lsbenc _ => 0xFFFF0FFF#32
  | .lsbdec _ => 0xFFFFF0FF#32
  | .lsbhas _ => 0xFFFFF0FF#32

/-- The `match` column of `spec/opcode_table.json`. -/
def tableMatch : Instr → Word
  | .nop => 0x00000000#32
  | .li _ _ => 0x00000001#32
  | .lih _ _ => 0x00000002#32
  | .lds _ _ _ => 0x00000003#32
  | .sts _ _ _ => 0x00000004#32
  | .clrf => 0x00000005#32
  | .csrr _ _ => 0x00000006#32
  | .csrw _ _ => 0x00000007#32
  | .gfmul _ _ _ => 0x00000010#32
  | .gfpow _ _ _ => 0x00000011#32
  | .gfdiv _ _ _ => 0x00000012#32
  | .gfinv _ _ => 0x00000013#32
  | .rscfg _ => 0x00000020#32
  | .rsenc _ => 0x00000021#32
  | .rssyn _ _ => 0x00000022#32
  | .rsdec _ _ => 0x00000023#32
  | .seed _ => 0x00000030#32
  | .next _ => 0x00000031#32
  | .nexti _ _ _ => 0x00000032#32
  | .pinit _ => 0x00000033#32
  | .shuf => 0x00000034#32
  | .sprd _ => 0x00000035#32
  | .dct => 0x00000040#32
  | .idct => 0x00000041#32
  | .blkget _ => 0x00000050#32
  | .blkput _ => 0x00000051#32
  | .qemb _ _ _ => 0x00000052#32
  | .qext _ _ _ => 0x00000053#32
  | .vclr _ => 0x00000054#32
  | .vacc _ _ => 0x00000055#32
  | .vote _ _ => 0x00000056#32
  | .magcmp _ => 0x00000057#32
  | .phash => 0x00000060#32
  | .phcmp _ => 0x00000061#32
  | .phver _ _ _ => 0x00000062#32
  | .lsbenc _ => 0x00000070#32
  | .lsbdec _ => 0x00000071#32
  | .lsbhas _ => 0x00000072#32

/-- Two words that agree in every bit are equal. -/
theorem word_ext {v w : Word} (h : ∀ i < 32, v.getLsbD i = w.getLsbD i) : v = w :=
  BitVec.eq_of_getLsbD_eq fun i hi => h i hi

/-! ### The bits of each format (R92) -/

theorem getLsbD_formatR (op : BitVec 8) (rd rs1 rs2 : RegNum) (i : Nat) :
    (formatR op rd rs1 rs2).getLsbD i =
      if i < 8 then op.getLsbD i else if i - 8 < 4 then rd.getLsbD (i - 8)
      else if i - 8 - 4 < 4 then rs1.getLsbD (i - 8 - 4)
      else if i - 8 - 4 - 4 < 4 then rs2.getLsbD (i - 8 - 4 - 4) else false := by
  have h1 := BitVec.getLsbD_append (x := 0#12 ++ rs2 ++ rs1 ++ rd) (y := op) (i := i)
  have h2 := BitVec.getLsbD_append (x := 0#12 ++ rs2 ++ rs1) (y := rd) (i := i - 8)
  have h3 := BitVec.getLsbD_append (x := 0#12 ++ rs2) (y := rs1) (i := i - 8 - 4)
  have h4 := BitVec.getLsbD_append (x := 0#12) (y := rs2) (i := i - 8 - 4 - 4)
  rw [BitVec.getLsbD_zero] at h4
  rw [h2, h3, h4] at h1
  refine h1.trans ?_
  split_ifs <;> simp_all

theorem getLsbD_formatI (op : BitVec 8) (rd : RegNum) (imm : BitVec 16) (i : Nat) :
    (formatI op rd imm).getLsbD i =
      if i < 8 then op.getLsbD i else if i - 8 < 4 then rd.getLsbD (i - 8)
      else if i - 8 - 4 < 4 then false else imm.getLsbD (i - 8 - 4 - 4) := by
  have h1 := BitVec.getLsbD_append (x := imm ++ 0#4 ++ rd) (y := op) (i := i)
  have h2 := BitVec.getLsbD_append (x := imm ++ 0#4) (y := rd) (i := i - 8)
  have h3 := BitVec.getLsbD_append (x := imm) (y := 0#4) (i := i - 8 - 4)
  rw [BitVec.getLsbD_zero] at h3
  rw [h2, h3] at h1
  refine h1.trans ?_
  split_ifs <;> simp_all

theorem getLsbD_formatS (op : BitVec 8) (rd rs1 rs2 : RegNum) (sel : Sel) (i : Nat) :
    (formatS op rd rs1 rs2 sel).getLsbD i =
      if i < 8 then op.getLsbD i else if i - 8 < 4 then rd.getLsbD (i - 8)
      else if i - 8 - 4 < 4 then rs1.getLsbD (i - 8 - 4)
      else if i - 8 - 4 - 4 < 4 then rs2.getLsbD (i - 8 - 4 - 4)
      else if i - 8 - 4 - 4 - 4 < 8 then sel.getLsbD (i - 8 - 4 - 4 - 4) else false := by
  have h1 := BitVec.getLsbD_append (x := 0#4 ++ sel ++ rs2 ++ rs1 ++ rd) (y := op) (i := i)
  have h2 := BitVec.getLsbD_append (x := 0#4 ++ sel ++ rs2 ++ rs1) (y := rd) (i := i - 8)
  have h3 := BitVec.getLsbD_append (x := 0#4 ++ sel ++ rs2) (y := rs1) (i := i - 8 - 4)
  have h4 := BitVec.getLsbD_append (x := 0#4 ++ sel) (y := rs2) (i := i - 8 - 4 - 4)
  have h5 := BitVec.getLsbD_append (x := 0#4) (y := sel) (i := i - 8 - 4 - 4 - 4)
  rw [BitVec.getLsbD_zero] at h5
  rw [h2, h3, h4, h5] at h1
  refine h1.trans ?_
  split_ifs <;> simp_all

namespace WordMatchesTable

/-- The word of a command has the fixed bits of its row of the opcode table (R97). -/
def Statement (i : Instr) : Prop := encode i &&& tableMask i = tableMatch i

theorem nop : Statement (.nop) := by
  show encode .nop &&& _ = _
  decide

theorem li (rd : RegNum) (imm : BitVec 16) : Statement (.li rd imm) := by
  refine word_ext fun i hi => ?_
  rw [BitVec.getLsbD_and]
  simp only [encode, tableMask, tableMatch, getLsbD_formatI]
  interval_cases i <;> simp

theorem lih (rd : RegNum) (imm : BitVec 16) : Statement (.lih rd imm) := by
  refine word_ext fun i hi => ?_
  rw [BitVec.getLsbD_and]
  simp only [encode, tableMask, tableMatch, getLsbD_formatI]
  interval_cases i <;> simp

theorem lds (rd : RegNum) (sel : Sel) (rs1 : RegNum) : Statement (.lds rd sel rs1) := by
  refine word_ext fun i hi => ?_
  rw [BitVec.getLsbD_and]
  simp only [encode, tableMask, tableMatch, getLsbD_formatS]
  interval_cases i <;> simp

theorem sts (sel : Sel) (rs1 rs2 : RegNum) : Statement (.sts sel rs1 rs2) := by
  refine word_ext fun i hi => ?_
  rw [BitVec.getLsbD_and]
  simp only [encode, tableMask, tableMatch, getLsbD_formatS]
  interval_cases i <;> simp

theorem clrf : Statement (.clrf) := by
  show encode .clrf &&& _ = _
  decide

theorem csrr (rd : RegNum) (sel : Sel) : Statement (.csrr rd sel) := by
  refine word_ext fun i hi => ?_
  rw [BitVec.getLsbD_and]
  simp only [encode, tableMask, tableMatch, getLsbD_formatS]
  interval_cases i <;> simp

theorem csrw (sel : Sel) (rs1 : RegNum) : Statement (.csrw sel rs1) := by
  refine word_ext fun i hi => ?_
  rw [BitVec.getLsbD_and]
  simp only [encode, tableMask, tableMatch, getLsbD_formatS]
  interval_cases i <;> simp

theorem gfmul (rd rs1 rs2 : RegNum) : Statement (.gfmul rd rs1 rs2) := by
  refine word_ext fun i hi => ?_
  rw [BitVec.getLsbD_and]
  simp only [encode, tableMask, tableMatch, getLsbD_formatR]
  interval_cases i <;> simp

theorem gfpow (rd rs1 rs2 : RegNum) : Statement (.gfpow rd rs1 rs2) := by
  refine word_ext fun i hi => ?_
  rw [BitVec.getLsbD_and]
  simp only [encode, tableMask, tableMatch, getLsbD_formatR]
  interval_cases i <;> simp

theorem gfdiv (rd rs1 rs2 : RegNum) : Statement (.gfdiv rd rs1 rs2) := by
  refine word_ext fun i hi => ?_
  rw [BitVec.getLsbD_and]
  simp only [encode, tableMask, tableMatch, getLsbD_formatR]
  interval_cases i <;> simp

theorem gfinv (rd rs1 : RegNum) : Statement (.gfinv rd rs1) := by
  refine word_ext fun i hi => ?_
  rw [BitVec.getLsbD_and]
  simp only [encode, tableMask, tableMatch, getLsbD_formatR]
  interval_cases i <;> simp

theorem rscfg (rs1 : RegNum) : Statement (.rscfg rs1) := by
  refine word_ext fun i hi => ?_
  rw [BitVec.getLsbD_and]
  simp only [encode, tableMask, tableMatch, getLsbD_formatR]
  interval_cases i <;> simp

theorem rsenc (rs1 : RegNum) : Statement (.rsenc rs1) := by
  refine word_ext fun i hi => ?_
  rw [BitVec.getLsbD_and]
  simp only [encode, tableMask, tableMatch, getLsbD_formatR]
  interval_cases i <;> simp

theorem rssyn (rd rs1 : RegNum) : Statement (.rssyn rd rs1) := by
  refine word_ext fun i hi => ?_
  rw [BitVec.getLsbD_and]
  simp only [encode, tableMask, tableMatch, getLsbD_formatR]
  interval_cases i <;> simp

theorem rsdec (rd rs1 : RegNum) : Statement (.rsdec rd rs1) := by
  refine word_ext fun i hi => ?_
  rw [BitVec.getLsbD_and]
  simp only [encode, tableMask, tableMatch, getLsbD_formatR]
  interval_cases i <;> simp

theorem seed (rs1 : RegNum) : Statement (.seed rs1) := by
  refine word_ext fun i hi => ?_
  rw [BitVec.getLsbD_and]
  simp only [encode, tableMask, tableMatch, getLsbD_formatR]
  interval_cases i <;> simp

theorem next (rd : RegNum) : Statement (.next rd) := by
  refine word_ext fun i hi => ?_
  rw [BitVec.getLsbD_and]
  simp only [encode, tableMask, tableMatch, getLsbD_formatR]
  interval_cases i <;> simp

theorem nexti (rd rs1 rs2 : RegNum) : Statement (.nexti rd rs1 rs2) := by
  refine word_ext fun i hi => ?_
  rw [BitVec.getLsbD_and]
  simp only [encode, tableMask, tableMatch, getLsbD_formatR]
  interval_cases i <;> simp

theorem pinit (rs1 : RegNum) : Statement (.pinit rs1) := by
  refine word_ext fun i hi => ?_
  rw [BitVec.getLsbD_and]
  simp only [encode, tableMask, tableMatch, getLsbD_formatR]
  interval_cases i <;> simp

theorem shuf : Statement (.shuf) := by
  show encode .shuf &&& _ = _
  decide

theorem sprd (rd : RegNum) : Statement (.sprd rd) := by
  refine word_ext fun i hi => ?_
  rw [BitVec.getLsbD_and]
  simp only [encode, tableMask, tableMatch, getLsbD_formatR]
  interval_cases i <;> simp

theorem dct : Statement (.dct) := by
  show encode .dct &&& _ = _
  decide

theorem idct : Statement (.idct) := by
  show encode .idct &&& _ = _
  decide

theorem blkget (rs1 : RegNum) : Statement (.blkget rs1) := by
  refine word_ext fun i hi => ?_
  rw [BitVec.getLsbD_and]
  simp only [encode, tableMask, tableMatch, getLsbD_formatR]
  interval_cases i <;> simp

theorem blkput (rs1 : RegNum) : Statement (.blkput rs1) := by
  refine word_ext fun i hi => ?_
  rw [BitVec.getLsbD_and]
  simp only [encode, tableMask, tableMatch, getLsbD_formatR]
  interval_cases i <;> simp

theorem qemb (rd rs1 rs2 : RegNum) : Statement (.qemb rd rs1 rs2) := by
  refine word_ext fun i hi => ?_
  rw [BitVec.getLsbD_and]
  simp only [encode, tableMask, tableMatch, getLsbD_formatR]
  interval_cases i <;> simp

theorem qext (rd rs1 rs2 : RegNum) : Statement (.qext rd rs1 rs2) := by
  refine word_ext fun i hi => ?_
  rw [BitVec.getLsbD_and]
  simp only [encode, tableMask, tableMatch, getLsbD_formatR]
  interval_cases i <;> simp

theorem vclr (rs1 : RegNum) : Statement (.vclr rs1) := by
  refine word_ext fun i hi => ?_
  rw [BitVec.getLsbD_and]
  simp only [encode, tableMask, tableMatch, getLsbD_formatR]
  interval_cases i <;> simp

theorem vacc (rs1 rs2 : RegNum) : Statement (.vacc rs1 rs2) := by
  refine word_ext fun i hi => ?_
  rw [BitVec.getLsbD_and]
  simp only [encode, tableMask, tableMatch, getLsbD_formatR]
  interval_cases i <;> simp

theorem vote (rd rs1 : RegNum) : Statement (.vote rd rs1) := by
  refine word_ext fun i hi => ?_
  rw [BitVec.getLsbD_and]
  simp only [encode, tableMask, tableMatch, getLsbD_formatR]
  interval_cases i <;> simp

theorem magcmp (rd : RegNum) : Statement (.magcmp rd) := by
  refine word_ext fun i hi => ?_
  rw [BitVec.getLsbD_and]
  simp only [encode, tableMask, tableMatch, getLsbD_formatR]
  interval_cases i <;> simp

theorem phash : Statement (.phash) := by
  show encode .phash &&& _ = _
  decide

theorem phcmp (rd : RegNum) : Statement (.phcmp rd) := by
  refine word_ext fun i hi => ?_
  rw [BitVec.getLsbD_and]
  simp only [encode, tableMask, tableMatch, getLsbD_formatR]
  interval_cases i <;> simp

theorem phver (rd rs1 rs2 : RegNum) : Statement (.phver rd rs1 rs2) := by
  refine word_ext fun i hi => ?_
  rw [BitVec.getLsbD_and]
  simp only [encode, tableMask, tableMatch, getLsbD_formatR]
  interval_cases i <;> simp

theorem lsbenc (rs1 : RegNum) : Statement (.lsbenc rs1) := by
  refine word_ext fun i hi => ?_
  rw [BitVec.getLsbD_and]
  simp only [encode, tableMask, tableMatch, getLsbD_formatR]
  interval_cases i <;> simp

theorem lsbdec (rd : RegNum) : Statement (.lsbdec rd) := by
  refine word_ext fun i hi => ?_
  rw [BitVec.getLsbD_and]
  simp only [encode, tableMask, tableMatch, getLsbD_formatR]
  interval_cases i <;> simp

theorem lsbhas (rd : RegNum) : Statement (.lsbhas rd) := by
  refine word_ext fun i hi => ?_
  rw [BitVec.getLsbD_and]
  simp only [encode, tableMask, tableMatch, getLsbD_formatR]
  interval_cases i <;> simp

end WordMatchesTable

end Sys2Proof.Laws
end

