-- ==== Sys2Proof/Machine/Assembler.lean ====
section
/-! DEFINITION. The spec's assembler syntax (R98) and its one pseudo-instruction (R99). -/

namespace Sys2Proof.Machine

/-- The name of a space (R40, R98). -/
def spaceName : Space → String
  | .pix => "PIX"
  | .sym => "SYM"
  | .bit => "BIT"
  | .msg => "MSG"
  | .perm => "PERM"
  | .gen => "GEN"
  | .syn => "SYN"
  | .gfexp => "GFEXP"
  | .gflog => "GFLOG"
  | .dctc => "DCTC"
  | .blks => "BLKS"
  | .blkf => "BLKF"
  | .blkr => "BLKR"
  | .acc0 => "ACC0"
  | .acc1 => "ACC1"
  | .conf => "CONF"
  | .ph => "PH"
  | .phref => "PHREF"

/-- The name of a control register (R30, R98). -/
def csrName : Csr → String
  | .status => "STATUS"
  | .cause => "CAUSE"
  | .finfo => "FINFO"
  | .rngSeed => "RNG_SEED"
  | .rsNsym => "RS_NSYM"
  | .permN => "PERM_N"
  | .imgW => "IMG_W"
  | .imgH => "IMG_H"
  | .strength => "STRENGTH"
  | .magic => "MAGIC"
  | .lsbMagic => "LSBMAGIC"
  | .id => "ID"

/-- The name of a scalar register (R21). -/
def regName (r : RegNum) : String := "x" ++ toString r.toNat

/-- A line of a mnemonic and its operands. -/
def asmLine (mnemonic : String) : List String → String
  | [] => mnemonic
  | ops => mnemonic ++ " " ++ ", ".intercalate ops

/-- The line of a command; none where `sel` names nothing, which the syntax cannot write (R98). -/
def assembly : Instr → Option String
  | .nop => some (asmLine "NOP" [])
  | .li rd imm => some (asmLine "LI" [regName rd, toString imm.toNat])
  | .lih rd imm => some (asmLine "LIH" [regName rd, toString imm.toNat])
  | .lds rd sel rs1 =>
    (spaceOfSel sel).map fun sp => asmLine "LDS" [regName rd, spaceName sp, regName rs1]
  | .sts sel rs1 rs2 =>
    (spaceOfSel sel).map fun sp => asmLine "STS" [spaceName sp, regName rs1, regName rs2]
  | .clrf => some (asmLine "CLRF" [])
  | .csrr rd sel => (csrOfSel sel).map fun c => asmLine "CSRR" [regName rd, csrName c]
  | .csrw sel rs1 => (csrOfSel sel).map fun c => asmLine "CSRW" [csrName c, regName rs1]
  | .gfmul rd rs1 rs2 => some (asmLine "GFMUL" [regName rd, regName rs1, regName rs2])
  | .gfpow rd rs1 rs2 => some (asmLine "GFPOW" [regName rd, regName rs1, regName rs2])
  | .gfdiv rd rs1 rs2 => some (asmLine "GFDIV" [regName rd, regName rs1, regName rs2])
  | .gfinv rd rs1 => some (asmLine "GFINV" [regName rd, regName rs1])
  | .rscfg rs1 => some (asmLine "RSCFG" [regName rs1])
  | .rsenc rs1 => some (asmLine "RSENC" [regName rs1])
  | .rssyn rd rs1 => some (asmLine "RSSYN" [regName rd, regName rs1])
  | .rsdec rd rs1 => some (asmLine "RSDEC" [regName rd, regName rs1])
  | .seed rs1 => some (asmLine "SEED" [regName rs1])
  | .next rd => some (asmLine "NEXT" [regName rd])
  | .nexti rd rs1 rs2 => some (asmLine "NEXTI" [regName rd, regName rs1, regName rs2])
  | .pinit rs1 => some (asmLine "PINIT" [regName rs1])
  | .shuf => some (asmLine "SHUF" [])
  | .sprd rd => some (asmLine "SPRD" [regName rd])
  | .dct => some (asmLine "DCT" [])
  | .idct => some (asmLine "IDCT" [])
  | .blkget rs1 => some (asmLine "BLKGET" [regName rs1])
  | .blkput rs1 => some (asmLine "BLKPUT" [regName rs1])
  | .qemb rd rs1 rs2 => some (asmLine "QEMB" [regName rd, regName rs1, regName rs2])
  | .qext rd rs1 rs2 => some (asmLine "QEXT" [regName rd, regName rs1, regName rs2])
  | .vclr rs1 => some (asmLine "VCLR" [regName rs1])
  | .vacc rs1 rs2 => some (asmLine "VACC" [regName rs1, regName rs2])
  | .vote rd rs1 => some (asmLine "VOTE" [regName rd, regName rs1])
  | .magcmp rd => some (asmLine "MAGCMP" [regName rd])
  | .phash => some (asmLine "PHASH" [])
  | .phcmp rd => some (asmLine "PHCMP" [regName rd])
  | .phver rd rs1 rs2 => some (asmLine "PHVER" [regName rd, regName rs1, regName rs2])
  | .lsbenc rs1 => some (asmLine "LSBENC" [regName rs1])
  | .lsbdec rd => some (asmLine "LSBDEC" [regName rd])
  | .lsbhas rd => some (asmLine "LSBHAS" [regName rd])

/-- `LI32 rd, imm32`: one `LI` where that is enough, else `LI` and `LIH` (R99). -/
def li32 (rd : RegNum) (imm : Word) : List Instr :=
  if imm.toNat < 65536 then [.li rd (imm.extractLsb' 0 16)]
  else [.li rd (imm.extractLsb' 0 16), .lih rd (imm.extractLsb' 16 16)]

end Sys2Proof.Machine
end

