-- ==== Sys2Proof/Machine/Sequences.lean ====
section
/-! DEFINITION. The host's side: the data formats and the command sequences of the calls
(`48_sequences.md`).  None of it is part of the block: a call is what a host does with `State.act`,
and `step` does not use it. -/

namespace Sys2Proof.Machine

/-! ### Formats (R287 to R290) -/

/-- The two bytes of a 16-bit integer, the high one first (R64). -/
def halfBytes (v : BitVec 16) : List Byte := [v.extractLsb' 8 8, v.extractLsb' 0 8]

/-- The Frame of a message: magic, 16-bit length, units (R287). -/
def frame (magic : BitVec 16) (msg : List Half) : List Byte :=
  halfBytes magic ++ halfBytes (BitVec.ofNat 16 msg.length) ++ msg.flatMap halfBytes

/-- `byteLen = 4 + 2*L`, the length of the Frame of `L` units (R287). -/
def frameLength (n : Nat) : Nat := 4 + 2 * n

/-- `nsym = ceil(byteLen * ECC_LEVEL)` (R288). -/
def parityCount (eccLevel : Rat) (byteLen : Nat) : Nat := (eccLevel * (byteLen : Rat)).ceil.toNat

/-- The bits of a byte sequence, most significant first (R289). -/
def unpackBits (l : List Byte) : List Bit := l.flatMap fun b => bitsMsb 8 b.toNat

/-- `n` bytes from a bit sequence, read backwards from `unpackBits` (R289). -/
def packBytes (bits : List Bit) : (n : Nat) → List Byte
  | 0 => []
  | n + 1 => BitVec.ofNat 8 (ofBitsMsb (bits.take 8)) :: packBytes (bits.drop 8) n

/-- `T = min(R * nbits, 15 * NB)`, the count of embedded bits, 15 being `NPOS` (R290). -/
def slotCount (npos redundancy nbits nb : Nat) : Nat := min (redundancy * nbits) (npos * nb)

/-- `nbits = 8*(3*L + 6)`, the layout decode takes for `L` units (R293). -/
def decodeBits (n : Nat) : Nat := 8 * (3 * n + 6)

/-- The units of a payload whose length field is in bytes 2 and 3, at most those it holds (R295). -/
def payloadUnits (payload : List Byte) : List Half :=
  let byteAt (i : Nat) : Byte := payload.getD i 0#8
  let len := min (byteAt 2 ++ byteAt 3).toNat ((payload.length - 4) / 2)
  (List.range len).map fun i => byteAt (4 + 2 * i) ++ byteAt (5 + 2 * i)

/-- A fingerprint carried as a 63-bit integer: bit `62 - k` is element `k` (R234). -/
def fingerprintWord (bits : List Bit) : BitVec 63 := BitVec.ofNat 63 (ofBitsMsb bits)

/-! ### What a host does -/

/-- Why a call does not return its result. -/
inductive CallStop where
  /-- A command faulted; the state has the fault pending (R353). -/
  | fault (s : State)
  /-- The call, or a host access it needs, is outside the spec (R70, R287, U11, U14), or a value does
  not fit the register it goes to (log entry 20). -/
  | refused
  deriving DecidableEq, Repr

/-- A host procedure: it acts on the block and may stop. -/
abbrev HostProc (α : Type) := StateT State (Except CallStop) α

/-- One action of the host, which stops on a fault that is pending afterwards. -/
def hostAct (a : HostAct) : HostProc Unit := fun s =>
  match s.act a with
  | .next t => if t.fault then .error (.fault t) else .ok ((), t)
  | .fault f => nomatch f
  | .refused _ => .error .refused

/-- Issue a command. -/
def hostCommand (i : Instr) : HostProc Unit := hostAct (.command (encode i))

/-- Put a value into a scalar register (R70).  A value that does not fit 32 bits stops the call:
R285 to R298 give it no meaning, and the model does not reduce it (DESIGN CHOICE, log entry 20). -/
def hostReg (r : RegNum) (v : Nat) : HostProc Unit := do
  if 2 ^ (← get).cfg.shape.xlen ≤ v then throw .refused
  hostAct (.writeReg r (BitVec.ofNat 32 v))

/-- Read a scalar register (R70). -/
def hostX (r : RegNum) : HostProc Word := do return (← get).getX r

/-- Write consecutive elements of an integer space from index 0 on (R70). -/
def hostLoad (sp : Space) (values : List Nat) : HostProc Unit :=
  (values.zipIdx).forM fun vi => hostAct (.writeSpace sp vi.2 (.int vi.1))

/-- An image: RGBA bytes, width and height (R43). -/
structure Image where
  bytes : List Byte
  width : Word
  height : Word
  deriving DecidableEq, Repr

/-- Load an image: `PIX[0..4*W*H-1]`, `IMG_W`, `IMG_H` (R342).  A buffer of another length is no image
(R16) and stops the call (DESIGN CHOICE, log entry 20). -/
def loadImage (img : Image) : HostProc Unit := do
  if img.bytes.length ≠ 4 * (img.width.toNat * img.height.toNat) then throw .refused
  hostLoad .pix (img.bytes.map BitVec.toNat)
  hostReg 1 img.width.toNat
  hostCommand (.csrw 6 1)
  hostReg 1 img.height.toNat
  hostCommand (.csrw 7 1)

/-- `SEED`, `PINIT NB`, `SHUF` (R291, R292). -/
def startShuffle (seed : BitVec 31) : HostProc Unit := do
  hostReg 1 seed.toNat
  hostCommand (.seed 1)
  hostReg 1 (← get).blocks
  hostCommand (.pinit 1)
  hostCommand .shuf

/-- The options of `encode`, with R285's types.  R285 gives no effect to a negative option: the call is
refused (DESIGN CHOICE, log entry 20).  A strength above 65535 is put into the register and `CSRW`
faults (R34), so the call stops with that fault. -/
structure EncodeOptions where
  strength : Int
  eccLevel : Rat
  redundancy : Int
  deriving DecidableEq, Repr

/-- The default options: `STRENGTH`, `ECC_LEVEL` and `REDUNDANCY` of the parameter table (R8, R285). -/
def defaultOptions (p : RplValues) : EncodeOptions where
  strength := p.strengthReset.toNat
  eccLevel := p.eccLevel
  redundancy := p.redundancy

/-- The result of `encode` (R291).  An image without a pixel has no fingerprint (log entry 22). -/
structure EncodeResult where
  image : List Byte
  perceptualHash : Option (List Bit)
  bitsEmbedded : Nat
  deriving DecidableEq, Repr

/-- Slot `g` of the embedding loop, of `slots` (R291). -/
def embedSlot (nbits slots g : Nat) : HostProc Unit := do
  let s ← get
  let npos := s.cfg.shape.npos
  hostReg 1 (s.permAt (g / npos)).toNat
  if g % npos = 0 then
    hostCommand (.blkget 1)
    hostCommand .dct
  hostCommand (.sprd 4)
  hostReg 2 (g % npos)
  hostReg 3 (s.bitAt (g % nbits)).toNat
  hostCommand (.qemb 2 3 4)
  if g % npos = npos - 1 ∨ g = slots - 1 then
    hostCommand .idct
    hostCommand (.blkput 1)

/-- `PHASH` and the fingerprint it leaves in `PH` (R291).  Where a dimension is 0 the command would
fault (R235), and R296 has the call return the image unchanged: the host then leaves the command out
and there is no fingerprint (DESIGN CHOICE, log entry 22). -/
def imageFingerprint (img : Image) : HostProc (Option (List Bit)) := do
  if img.width = 0#32 ∨ img.height = 0#32 then return none
  hostCommand .phash
  let s ← get
  return some ((List.range s.cfg.shape.phBits).map s.phAt)

/-- `encode(image, message, key, options)` (R291); a message of more than `MSG_LEN_MAX` units is
refused (R287, U14), and so is a negative option (log entry 20). -/
def encodeCall (keyHash : List Half → BitVec 31) (img : Image) (msg key : List Half)
    (o : EncodeOptions) : HostProc EncodeResult := do
  if msg.length > (← get).cfg.rpl.msgLenMax then throw .refused
  if o.strength < 0 ∨ o.eccLevel < 0 ∨ o.redundancy < 0 then throw .refused
  loadImage img
  hostReg 1 o.strength.toNat
  hostCommand (.csrw 8 1)
  let fr := frame (← get).cfg.magic msg
  let byteLen := fr.length
  let nsym := parityCount o.eccLevel byteLen
  hostLoad .sym (fr.map BitVec.toNat)
  hostReg 1 nsym
  hostCommand (.rscfg 1)
  hostReg 1 byteLen
  hostCommand (.rsenc 1)
  let bits := unpackBits ((← get).symPrefix (byteLen + nsym))
  hostLoad .bit (bits.map BitVec.toNat)
  startShuffle (keyHash key)
  let slots := slotCount (← get).cfg.shape.npos o.redundancy.toNat bits.length (← get).blocks
  (List.range slots).forM (embedSlot bits.length slots)
  let fingerprint ← imageFingerprint img
  return { image := (List.range img.bytes.length).map (← get).pixAt
           perceptualHash := fingerprint
           bitsEmbedded := slots }

/-- The result of `decode` (R292 to R296). -/
structure DecodeResult where
  found : Bool
  confidence : Rat
  message : Option (List Half)
  deriving DecidableEq, Repr

/-- The raw estimate of slot `g` (R292): `x[5]` has the bit, `CONF` the confidence. -/
def extractSlot (g : Nat) : HostProc Nat := do
  let s ← get
  let npos := s.cfg.shape.npos
  if g % npos = 0 then
    hostReg 1 (s.permAt (g / npos)).toNat
    hostCommand (.blkget 1)
    hostCommand .dct
  hostCommand (.sprd 4)
  hostReg 2 (g % npos)
  hostCommand (.qext 5 2 4)
  return (← hostX 5).toNat

/-- Slot `g` of the extraction loop with its vote (R292). -/
def voteSlot (nbits g : Nat) : HostProc Unit := do
  let b ← extractSlot g
  hostReg 6 (g % nbits)
  hostReg 7 b
  hostCommand (.vacc 6 7)

/-- The verdict without a watermark: how many of the estimates agree with `MAGIC` (R293). -/
def noWatermark (magic : BitVec 16) (raw : List Nat) : DecodeResult where
  found := false
  confidence :=
    ((((raw.take 16).zipIdx.countP fun bi => bi.1 == (magic.getLsbD (15 - bi.2)).toNat) : Nat) : Rat) / 16
  message := none

/-- `decode(image, key)` (R292 to R296). -/
def decodeCall (keyHash : List Half → BitVec 31) (img : Image) (key : List Half) :
    HostProc DecodeResult := do
  loadImage img
  let nb := (← get).blocks
  let rpl := (← get).cfg.rpl
  let npos := (← get).cfg.shape.npos
  if nb = 0 then
    return { found := false, confidence := 0, message := none }
  startShuffle (keyHash key)
  let raw ← (List.range (min 32 (npos * nb))).mapM extractSlot
  let units := ofBitsMsb ((raw.drop 16).map (BitVec.ofNat 1))
  let magic := (← get).cfg.magic
  if npos * nb < 32 ∨ units > rpl.msgLenMax then
    return noWatermark magic raw
  let nbits := decodeBits units
  startShuffle (keyHash key)
  let slots := slotCount npos rpl.redundancy nbits nb
  hostReg 1 nbits
  hostCommand (.vclr 1)
  (List.range slots).forM (voteSlot nbits)
  (List.range (min nbits slots)).forM fun i => do
    hostReg 6 i
    hostCommand (.vote 5 6)
  ((List.range nbits).drop slots).forM fun i => hostAct (.writeSpace .bit i (.int 0))
  hostCommand (.magcmp 5)
  let confidence : Rat := ((← hostX 5).toNat : Rat) / 16
  if !(← get).found then
    return { found := false, confidence := confidence, message := none }
  let n := nbits / 8
  let nsym := parityCount rpl.eccLevel (frameLength units)
  let s ← get
  hostLoad .sym ((packBytes ((List.range nbits).map s.bitAt) n).map BitVec.toNat)
  hostReg 1 nsym
  hostCommand (.rscfg 1)
  hostReg 1 n
  hostCommand (.rsdec 5 1)
  let len := (← hostX 5).toNat
  return { found := true, confidence := confidence
           message := some (payloadUnits ((← get).symPrefix len)) }

/-- `encode` with the instance's `KEYHASH` (R8, R286). -/
def instanceEncode (img : Image) (msg key : List Half) (o : EncodeOptions) : HostProc EncodeResult := do
  encodeCall (Config.keyHash (← get).cfg.keyHash) img msg key o

/-- `decode` with the instance's `KEYHASH` (R8, R286). -/
def instanceDecode (img : Image) (key : List Half) : HostProc DecodeResult := do
  decodeCall (Config.keyHash (← get).cfg.keyHash) img key

/-- The result of `verifyPerceptualHash` (R297). -/
structure VerifyResult where
  isMatch : Bool
  similarity : Rat
  deriving DecidableEq, Repr

/-- `verifyPerceptualHash(image, storedHash, threshold)`, the threshold as a fraction of two integers
that fit a scalar register (R297, log entry 20).  A stored hash of another length than `PH_BITS` is no
fingerprint and is refused (DESIGN CHOICE, log entry 20). -/
def verifyCall (img : Image) (stored : List Bit) (thresholdNum thresholdDen : Nat) :
    HostProc VerifyResult := do
  let bits := (← get).cfg.shape.phBits
  if stored.length ≠ bits then throw .refused
  loadImage img
  hostLoad .phref (stored.map BitVec.toNat)
  hostCommand .phash
  hostCommand (.phcmp 5)
  let cnt := (← hostX 5).toNat
  hostReg 1 thresholdNum
  hostReg 2 thresholdDen
  hostCommand (.phver 6 1 2)
  return { isMatch := (← hostX 6) == 1#32, similarity := (cnt : Rat) / bits }

/-- The same with the default threshold, `PH_THRESHOLD` (R8, R297). -/
def verifyDefaultCall (img : Image) (stored : List Bit) : HostProc VerifyResult := do
  let rpl := (← get).cfg.rpl
  verifyCall img stored rpl.phThresholdNum rpl.phThresholdDen

/-- The LSB call `encode(image, message)`: the new bytes, none for "fails with capacity error", which
the host acknowledges (R298). -/
def lsbEncodeCall (img : Image) (msg : List Half) : HostProc (Option (List Byte)) := do
  loadImage img
  hostLoad .msg (msg.map BitVec.toNat)
  hostReg 1 msg.length
  let s ← get
  match s.act (.command (encode (.lsbenc 1))) with
  | .next t =>
    if t.fault then
      if t.cause = FaultKind.capacity.code then
        set t
        hostCommand .clrf
        return none
      else throw (.fault t)
    else
      set t
      return some ((List.range img.bytes.length).map t.pixAt)
  | .fault f => nomatch f
  | .refused _ => throw .refused

/-- The LSB call `decode(image)`: the message, none for `null` (R298). -/
def lsbDecodeCall (img : Image) : HostProc (Option (List Half)) := do
  loadImage img
  hostCommand (.lsbdec 5)
  let r := (← hostX 5).toNat
  if r = 0 then return none else return some ((← get).msgList r)

/-- The LSB call `hasHiddenData(image)` (R298). -/
def lsbHasCall (img : Image) : HostProc Bool := do
  loadImage img
  hostCommand (.lsbhas 5)
  return (← hostX 5) == 1#32

end Sys2Proof.Machine
end

