-- ==== Sys2Proof/Tests/Slice0.lean ====
section
/-! SUPPORT. The model's own tests: words written out from the spec's encoding, the checks of
well-formedness, one step of each command on a small state, and a state for the hypotheses of each
statement.  Expected values are those of `95_test_vectors.md` or of a rule's example unless a comment
says otherwise. -/

open Sys2Proof Sys2Proof.Machine

namespace Sys2Proof.Tests

set_option Elab.async false

/-- The state after reset of an instance with the illustrative parameters. -/
def base : State := State.afterReset illustrativeParams 0 0 []

/-- The same with values in scalar registers. -/
def withX (l : List (RegNum × Word)) (s : State) : State :=
  l.foldl (fun s c => s.setX c.1 c.2) s

/-- The state after a command. -/
def after (i : Instr) (s : State) : State :=
  match exec i s with
  | .next t => t
  | .fault f => nomatch f
  | .refused _ => s

/-- The state after the host's next action. -/
def afterStep (s : State) : State :=
  match step s with
  | .next t => t
  | .fault f => nomatch f
  | .refused _ => s

/-! ### Decoding: a word for each command, from the bit pattern of its row in the opcode table -/

theorem test_decode_nop :
    decode 0x00000000#32 = .ok .nop ∧ encode .nop = 0x00000000#32 := by decide

theorem test_decode_li :
    decode 0xC3A50D01#32 = .ok (.li 0xd 0xc3a5) ∧ encode (.li 0xd 0xc3a5) = 0xC3A50D01#32 := by decide

theorem test_decode_lih :
    decode 0xC3A50D02#32 = .ok (.lih 0xd 0xc3a5) ∧ encode (.lih 0xd 0xc3a5) = 0xC3A50D02#32 := by decide

theorem test_decode_lds :
    decode 0x0910AD03#32 = .ok (.lds 0xd 0x91 0xa) ∧ encode (.lds 0xd 0x91 0xa) = 0x0910AD03#32 := by decide

theorem test_decode_sts :
    decode 0x0916A004#32 = .ok (.sts 0x91 0xa 0x6) ∧ encode (.sts 0x91 0xa 0x6) = 0x0916A004#32 := by decide

theorem test_decode_clrf :
    decode 0x00000005#32 = .ok .clrf ∧ encode .clrf = 0x00000005#32 := by decide

theorem test_decode_csrr :
    decode 0x09100D06#32 = .ok (.csrr 0xd 0x91) ∧ encode (.csrr 0xd 0x91) = 0x09100D06#32 := by decide

theorem test_decode_csrw :
    decode 0x0910A007#32 = .ok (.csrw 0x91 0xa) ∧ encode (.csrw 0x91 0xa) = 0x0910A007#32 := by decide

theorem test_decode_gfmul :
    decode 0x0006AD10#32 = .ok (.gfmul 0xd 0xa 0x6) ∧ encode (.gfmul 0xd 0xa 0x6) = 0x0006AD10#32 := by decide

theorem test_decode_gfpow :
    decode 0x0006AD11#32 = .ok (.gfpow 0xd 0xa 0x6) ∧ encode (.gfpow 0xd 0xa 0x6) = 0x0006AD11#32 := by decide

theorem test_decode_gfdiv :
    decode 0x0006AD12#32 = .ok (.gfdiv 0xd 0xa 0x6) ∧ encode (.gfdiv 0xd 0xa 0x6) = 0x0006AD12#32 := by decide

theorem test_decode_gfinv :
    decode 0x0000AD13#32 = .ok (.gfinv 0xd 0xa) ∧ encode (.gfinv 0xd 0xa) = 0x0000AD13#32 := by decide

theorem test_decode_rscfg :
    decode 0x0000A020#32 = .ok (.rscfg 0xa) ∧ encode (.rscfg 0xa) = 0x0000A020#32 := by decide

theorem test_decode_rsenc :
    decode 0x0000A021#32 = .ok (.rsenc 0xa) ∧ encode (.rsenc 0xa) = 0x0000A021#32 := by decide

theorem test_decode_rssyn :
    decode 0x0000AD22#32 = .ok (.rssyn 0xd 0xa) ∧ encode (.rssyn 0xd 0xa) = 0x0000AD22#32 := by decide

theorem test_decode_rsdec :
    decode 0x0000AD23#32 = .ok (.rsdec 0xd 0xa) ∧ encode (.rsdec 0xd 0xa) = 0x0000AD23#32 := by decide

theorem test_decode_seed :
    decode 0x0000A030#32 = .ok (.seed 0xa) ∧ encode (.seed 0xa) = 0x0000A030#32 := by decide

theorem test_decode_next :
    decode 0x00000D31#32 = .ok (.next 0xd) ∧ encode (.next 0xd) = 0x00000D31#32 := by decide

theorem test_decode_nexti :
    decode 0x0006AD32#32 = .ok (.nexti 0xd 0xa 0x6) ∧ encode (.nexti 0xd 0xa 0x6) = 0x0006AD32#32 := by decide

theorem test_decode_pinit :
    decode 0x0000A033#32 = .ok (.pinit 0xa) ∧ encode (.pinit 0xa) = 0x0000A033#32 := by decide

theorem test_decode_shuf :
    decode 0x00000034#32 = .ok .shuf ∧ encode .shuf = 0x00000034#32 := by decide

theorem test_decode_sprd :
    decode 0x00000D35#32 = .ok (.sprd 0xd) ∧ encode (.sprd 0xd) = 0x00000D35#32 := by decide

theorem test_decode_dct :
    decode 0x00000040#32 = .ok .dct ∧ encode .dct = 0x00000040#32 := by decide

theorem test_decode_idct :
    decode 0x00000041#32 = .ok .idct ∧ encode .idct = 0x00000041#32 := by decide

theorem test_decode_blkget :
    decode 0x0000A050#32 = .ok (.blkget 0xa) ∧ encode (.blkget 0xa) = 0x0000A050#32 := by decide

theorem test_decode_blkput :
    decode 0x0000A051#32 = .ok (.blkput 0xa) ∧ encode (.blkput 0xa) = 0x0000A051#32 := by decide

theorem test_decode_qemb :
    decode 0x0006AD52#32 = .ok (.qemb 0xd 0xa 0x6) ∧ encode (.qemb 0xd 0xa 0x6) = 0x0006AD52#32 := by decide

theorem test_decode_qext :
    decode 0x0006AD53#32 = .ok (.qext 0xd 0xa 0x6) ∧ encode (.qext 0xd 0xa 0x6) = 0x0006AD53#32 := by decide

theorem test_decode_vclr :
    decode 0x0000A054#32 = .ok (.vclr 0xa) ∧ encode (.vclr 0xa) = 0x0000A054#32 := by decide

theorem test_decode_vacc :
    decode 0x0006A055#32 = .ok (.vacc 0xa 0x6) ∧ encode (.vacc 0xa 0x6) = 0x0006A055#32 := by decide

theorem test_decode_vote :
    decode 0x0000AD56#32 = .ok (.vote 0xd 0xa) ∧ encode (.vote 0xd 0xa) = 0x0000AD56#32 := by decide

theorem test_decode_magcmp :
    decode 0x00000D57#32 = .ok (.magcmp 0xd) ∧ encode (.magcmp 0xd) = 0x00000D57#32 := by decide

theorem test_decode_phash :
    decode 0x00000060#32 = .ok .phash ∧ encode .phash = 0x00000060#32 := by decide

theorem test_decode_phcmp :
    decode 0x00000D61#32 = .ok (.phcmp 0xd) ∧ encode (.phcmp 0xd) = 0x00000D61#32 := by decide

theorem test_decode_phver :
    decode 0x0006AD62#32 = .ok (.phver 0xd 0xa 0x6) ∧ encode (.phver 0xd 0xa 0x6) = 0x0006AD62#32 := by decide

theorem test_decode_lsbenc :
    decode 0x0000A070#32 = .ok (.lsbenc 0xa) ∧ encode (.lsbenc 0xa) = 0x0000A070#32 := by decide

theorem test_decode_lsbdec :
    decode 0x00000D71#32 = .ok (.lsbdec 0xd) ∧ encode (.lsbdec 0xd) = 0x00000D71#32 := by decide

theorem test_decode_lsbhas :
    decode 0x00000D72#32 = .ok (.lsbhas 0xd) ∧ encode (.lsbhas 0xd) = 0x00000D72#32 := by decide

/-! ### Decoding: illegal words (R100, section 3.8) -/

theorem test_decode_illegal :
    decode 0x00100034#32 = .error .nonzeroUnused ∧ decode 0x00000008#32 = .error .unassignedOpcode ∧
      decode 0x00010013#32 = .error .nonzeroUnused ∧ decode 0x73#32 = .error .unassignedOpcode := by
  decide

theorem test_decodeTableWord :
    decodeTableWord 32 0x00021310 = some (.gfmul 3 1 2) ∧ decodeTableWord 32 0x00100034 = none := by
  decide

/-! ### Well-formedness: each check refuses an ill-formed term -/

theorem test_wf_lds : Instr.wellFormed (.lds 1 17 2) = true ∧ Instr.wellFormed (.lds 1 18 2) = false := by
  decide

theorem test_wf_sts : Instr.wellFormed (.sts 0 1 2) = true ∧ Instr.wellFormed (.sts 255 1 2) = false := by
  decide

theorem test_wf_csrr : Instr.wellFormed (.csrr 1 11) = true ∧ Instr.wellFormed (.csrr 1 12) = false := by
  decide

theorem test_wf_csrw : Instr.wellFormed (.csrw 8 1) = true ∧ Instr.wellFormed (.csrw 12 1) = false := by
  decide

theorem test_wf_params : illustrativeParams.wellFormed = true := by decide +kernel

/-- 0x11B is irreducible and 2 is not primitive for it (item G5). -/
theorem test_wf_polynomial :
    runsThroughField (gfDouble { illustrativeParams with primPoly := 0x11B#9 }) = false := by
  decide +kernel

/-- So it is refused with any `ALPHA`, 3 too, which is a primitive element of that field. -/
theorem test_wf_primitive (alpha : Byte) :
    { illustrativeParams with primPoly := 0x11B#9, alpha := alpha }.primitive = false := by
  have h : runsThroughField
      (gfDouble { illustrativeParams with primPoly := 0x11B#9, alpha := alpha }) = false :=
    test_wf_polynomial
  rw [Params.primitive, h, Bool.and_false, Bool.false_and]

/-- 1 has one power. -/
theorem test_wf_alpha :
    runsThroughField (gfStep { illustrativeParams with alpha := 1#8 }) = false := by decide +kernel

theorem test_wf_positions :
    { illustrativeParams with embedPos := (0, 3) :: defaultEmbedPos.drop 2 }.positionsOk = false ∧
      { illustrativeParams with embedPos := List.replicate 15 (0, 3) }.positionsOk = false := by
  decide

theorem test_wf_sizes :
    { illustrativeParams with pixSize := 6 }.sizesOk = false ∧
      { illustrativeParams with symSize := 3005 }.sizesOk = false ∧
      { illustrativeParams with bitSize := 24047 }.sizesOk = false ∧
      { illustrativeParams with msgSize := 99999 }.sizesOk = false := by decide

theorem test_wf_nsym : { illustrativeParams with nsymMax := 2048 }.nsymOk = false := by decide

/-- A numeric system with this `NUM.eps` and this scale of every command. -/
def numeric (eps scale : Rat) : Params :=
  { illustrativeParams with
    num := .approx { format := 0, eps, scale := ⟨scale, scale, scale, scale, scale, scale, scale, scale, scale⟩ } }

theorem test_wf_num :
    (numeric 0 0).numOk = true ∧ (numeric (-1) 0).numOk = false ∧ (numeric 0 (-1)).numOk = false := by
  decide +kernel

theorem test_wf_rpl :
    { illustrativeParams with rpl := { Config.rplValues with lcgA := 5 } }.rplOk = false ∧
      { illustrativeParams with rpl := { Config.rplValues with lumaG := 1 } }.rplOk = false := by
  decide +kernel

theorem test_wf_shape :
    { illustrativeParams with shape := { Config.shape with nreg := 8 } }.shapeOk = false := by decide

/-! ### One step of each command -/

theorem test_nop : exec .nop base = .next base := rfl

theorem test_li : (after (.li 1 0x53) base).getX 1 = 0x53#32 := by decide

theorem test_lih : (after (.lih 1 0x41C6) (withX [(1, 0x7EA6#32)] base)).getX 1 = 0x41C67EA6#32 := by
  decide

/-- `BLKF[3] = -14.6` loads as -15 (R268). -/
theorem test_lds_num :
    (after (.lds 4 11 5) { withX [(5, 3#32)] base with blkf := [(3, Num.ofRat (-146 / 10))] }).getX 4
      = 0xFFFFFFF1#32 := by decide +kernel

theorem test_lds_gflog_zero : after (.lds 1 8 0) base = base.raise .gfLogOfZero 0 := by decide +kernel

theorem test_sts : (after (.sts 1 5 6) (withX [(6, 0x12#32)] base)).sym = [(0, 0x12#8)] := by decide

theorem test_sts_wide :
    (after (.sts 1 5 6) (withX [(6, 0x112#32)] base)).finfo = 0x112#32 ∧
      (after (.sts 7 1 2) base).cause = 7#8 := by decide

/-- With `RSERR` set before the fault it is still set after `CLRF` (section 3.9). -/
theorem test_clrf :
    (after .clrf ((base.setRserr true).raise .divisionByZero 0x53)).statusWord = 2#3 ∧
      (after .clrf (base.raise .divisionByZero 0x53)).cause = 0#8 := by decide

theorem test_csrr :
    (after (.csrr 7 8) base).getX 7 = 15#32 ∧ (after (.csrr 15 11) base).getX 15 = 0x52504C31#32 := by
  decide

theorem test_csrw :
    (after (.csrw 6 2) (withX [(2, 64#32)] base)).imgW = 64#32 ∧
      (after (.csrw 9 1) base).finfo = 9#32 := by decide

theorem test_gfmul : (after (.gfmul 3 1 2) (withX [(1, 0x53#32), (2, 0xCA#32)] base)).getX 3 = 0x8F#32 := by
  decide +kernel

theorem test_gfmul_wide :
    (after (.gfmul 3 1 2) (withX [(1, 1#32), (2, 0xFFFFFFFF#32)] base)).finfo = 0xFFFFFFFF#32 := by
  decide

theorem test_gfpow : (after (.gfpow 3 1 2) (withX [(1, 3#32), (2, 7#32)] base)).getX 3 = 0xFF#32 := by
  decide +kernel

theorem test_gfpow_zero : (after (.gfpow 3 1 2) (withX [(2, 5#32)] base)).finfo = 5#32 := by decide

theorem test_gfdiv : (after (.gfdiv 3 1 2) (withX [(1, 0x12#32), (2, 0x34#32)] base)).getX 3 = 0xC7#32 := by
  decide +kernel

theorem test_gfdiv_zero : (after (.gfdiv 3 1 2) (withX [(1, 0x53#32)] base)).cause = 4#8 := by decide

theorem test_gfinv : (after (.gfinv 3 1) (withX [(1, 0x53#32)] base)).getX 3 = 0x8C#32 := by
  decide +kernel

theorem test_rscfg : (after (.rscfg 1) (withX [(1, 2#32)] base)).gen = [(0, 1#8), (1, 3#8), (2, 2#8)] := by
  decide +kernel

theorem test_rscfg_large : (after (.rscfg 1) (withX [(1, 1025#32)] base)).finfo = 1025#32 := by decide

/-- A state configured with `nsym = 2`. -/
def rs2 (k : Word) (l : List Byte) : State :=
  { withX [(1, k)] base with
    rsNsym := 2#11, gen := [(0, 1#8), (1, 3#8), (2, 2#8)], sym := Mem.cellsFrom 0 l }

theorem test_rsenc : (after (.rsenc 1) (rs2 1 [1#8])).sym = [(0, 1#8), (1, 3#8), (2, 2#8)] := by
  decide +kernel

theorem test_rsenc_bounds : (after (.rsenc 1) (rs2 3005 [])).finfo = 3007#32 := by decide

/-- The codeword of `test_rsenc`, damaged in its last byte by 1: both syndromes are 1 (R146). -/
theorem test_rssyn :
    (after (.rssyn 6 1) (rs2 3 [1#8, 3#8, 3#8])).syn = [(0, 1#8), (1, 1#8)] := by decide +kernel

theorem test_rsdec :
    (after (.rsdec 6 1) (rs2 3 [1#8, 3#8, 2#8])).getX 6 = 1#32 ∧
      (after (.rsdec 6 1) (rs2 1 [])).finfo = 1#32 := by decide +kernel

theorem test_seed :
    (after (.seed 1) (withX [(1, 12345#32)] base)).rngSeed = 12345#31 ∧
      (after (.seed 1) (withX [(1, 0x80000000#32)] base)).finfo = 0x80000000#32 := by decide

/-- A state with the generator at this point. -/
def seeded (v : BitVec 31) : State := base.setSeed v

theorem test_next : (after (.next 1) (seeded 1)).getX 1 = 1103527590#32 := by decide

theorem test_nexti :
    (after (.nexti 3 1 2) (withX [(2, 9#32)] (seeded 1))).getX 3 = 5#32 ∧
      (after (.nexti 3 1 2) (withX [(2, 0xFFFFFFFF#32)] (seeded 0))).getX 3 = 24690#32 := by decide

/-- The draw 0x7FFFFFFF is out of range, and wraps (section 3.3). -/
theorem test_nexti_out_of_range :
    (after (.nexti 3 1 2) (withX [(2, 9#32)] (seeded 230538014))).getX 3 = 10#32 ∧
      (after (.nexti 3 1 2) (withX [(2, 0xFFFFFFFF#32)] (seeded 230538014))).getX 3 = 0#32 := by decide

theorem test_pinit :
    (after (.pinit 1) (withX [(1, 4#32)] base)).perm = [(0, 0#32), (1, 1#32), (2, 2#32), (3, 3#32)] := by
  decide

/-- The identity order of `n` blocks, the generator at `v`. -/
def ordered (n : Nat) (v : BitVec 31) : State :=
  { seeded v with
    permN := BitVec.ofNat 32 n, perm := Mem.cellsFrom 0 ((List.range n).map (BitVec.ofNat 32)) }

theorem test_shuf :
    (after .shuf (ordered 8 12345)).perm.map Prod.snd = [7#32, 3#32, 1#32, 6#32, 0#32, 4#32, 2#32, 5#32] ∧
      (after .shuf (ordered 8 12345)).rngSeed = 1293799192#31 := by decide +kernel

theorem test_shuf_fault :
    after .shuf (ordered 2 230538014) = (ordered 2 230538014).raise .rngRange 1 := by decide +kernel

theorem test_sprd :
    (after (.sprd 3) (seeded 1)).getX 3 = 1#32 ∧ (after (.sprd 3) (seeded 1103527590)).getX 3 = 0#32 := by
  decide

/-- `BLKS[0] = 64`, others 0. -/
def oneSample : State :=
  { base with blks := Mem.cellsFrom 0 (Num.ofRat 64 :: List.replicate 63 (Num.ofRat 0)) }

theorem test_dct : (after .dct oneSample).blkfAt 0 = Num.ofRat 8 := by decide +kernel

/-- A single coefficient `F[0][0] = 1024` gives the constant block 128. -/
def oneCoefficient : State :=
  { base with blkf := Mem.cellsFrom 0 (Num.ofRat 1024 :: List.replicate 63 (Num.ofRat 0)) }

theorem test_idct : (after .idct oneCoefficient).blkrAt 63 = Num.ofRat 128 := by decide +kernel

/-- The basis entry `C[1][1]` is about 0.415735 (section 2.4). -/
theorem test_basis :
    Num.lt (Num.ofRat (415734 / 1000000)) (Num.ofCos (basis 1 1)) = true ∧
      Num.lt (Num.ofCos (basis 1 1)) (Num.ofRat (415736 / 1000000)) = true := by decide +kernel

/-- An 8 by 8 image whose pixels are (128, 128, 128, 255). -/
def gray : State :=
  { base with
    imgW := 8#32, imgH := 8#32,
    pix := (List.range 256).map fun i => (i, if i % 4 = 3 then 255#8 else 128#8) }

theorem test_blkget : (after (.blkget 1) gray).blksAt 9 = Num.ofRat 128 := by decide +kernel

theorem test_blkget_bounds : (after (.blkget 1) (withX [(1, 1#32)] gray)).finfo = 1#32 := by
  decide +kernel

/-- A luma change of -2.6007 at sample 2 (section 3.5). -/
theorem test_blkput :
    let s := { gray with
      blks := Mem.cellsFrom 0 (List.replicate 64 (Num.ofRat 0))
      blkr := Mem.cellsFrom 0 (List.replicate 64 (Num.ofRat (-26007 / 10000))) }
    ((after (.blkput 1) s).pixAt 8, (after (.blkput 1) s).pixAt 9, (after (.blkput 1) s).pixAt 10,
      (after (.blkput 1) s).pixAt 11) = (127#8, 126#8, 128#8, 255#8) := by decide +kernel

/-- Clamping (section 3.5). -/
theorem test_writeBack :
    writeBack 254#8 Config.rplValues.lumaR (Num.ofRat 10) = 255#8 ∧
      writeBack 0#8 Config.rplValues.lumaG (Num.ofRat (-10)) = 0#8 := by decide +kernel

/-- A coefficient in `BLKF[3]`, position number 0. -/
def coefficient (c : Rat) : State := { base with blkf := [(3, Num.ofRat c)] }

theorem test_qemb :
    (after (.qemb 1 2 3) (withX [(3, 1#32)] (coefficient (472 / 10)))).blkfAt 3 = Num.ofRat 45 := by
  decide +kernel

/-- Half way between two multiples rounds up (section 3.5). -/
theorem test_qim_tie :
    qim (Num.ofRat 15) 1 1 15 = 45 ∧ qim (Num.ofRat (-15)) 1 1 15 = 15 ∧
      qim (Num.ofRat (-1501 / 100)) 1 1 15 = -15 ∧ qim (Num.ofRat (-1 / 2)) 0 1 1 = -1 := by
  decide +kernel

theorem test_qext :
    (after (.qext 5 1 2) (withX [(2, 1#32)] (coefficient 15))).getX 5 = 1#32 ∧
      (after (.qext 5 1 2) (coefficient 15)).getX 5 = 0#32 ∧
      (after (.qext 5 1 2) (coefficient 15)).confVal = Num.ofRat 15 := by decide +kernel

theorem test_vclr :
    (after (.vclr 1) (withX [(1, 2#32)] base)).acc1 = [(0, Num.ofRat 0), (1, Num.ofRat 0)] := by
  decide +kernel

/-- `CONF = 15`, `ACC1[3] = 15`, `ACC0[3] = 12.5`. -/
def voter : State :=
  { withX [(1, 3#32), (2, 1#32)] base with
    conf := [(0, Num.ofRat 15)], acc1 := [(3, Num.ofRat 15)], acc0 := [(3, Num.ofRat (25 / 2))] }

theorem test_vacc : (after (.vacc 1 2) voter).acc1 = [(3, Num.ofRat 30)] := by decide +kernel

/-- A `CONF` outside the field, `r(7)`: the sum keeps it, and taking it away gives 15 again. -/
theorem test_vacc_real :
    let r : Num := ⟨[], [(7, [1])]⟩
    let t := after (.vacc 1 2) { voter with conf := [(0, r)] }
    t.acc1 = [(3, ⟨[15], [(7, [1])]⟩)] ∧
      (after (.vacc 1 2) { t with conf := [(0, Num.neg r)] }).acc1 = [(3, Num.ofRat 15)] := by
  decide +kernel

theorem test_vote :
    (after (.vote 5 1) voter).bit = [(3, 1#1)] ∧
      (after (.vote 5 1) { voter with acc0 := [(3, Num.ofRat 15)] }).getX 5 = 0#32 := by decide +kernel

/-- Voted bits, against the illustrative `MAGIC` 0xA53C. -/
def voted (v : Nat) : State := { base with bit := Mem.cellsFrom 0 (bitsMsb 16 v) }

theorem test_magcmp :
    (after (.magcmp 1) (voted 0xA533)).getX 1 = 12#32 ∧ (after (.magcmp 1) (voted 0xA533)).found = true ∧
      (after (.magcmp 1) (voted 0xA523)).getX 1 = 11#32 ∧
      (after (.magcmp 1) (voted 0xA523)).found = false := by decide +kernel

theorem test_phash_zero : (after .phash base).cause = 2#8 := by decide

/-- Fingerprints that differ in 13 elements (R239, R240). -/
def prints (n : Nat) : State :=
  { withX [(1, 4#32), (2, 5#32)] base with
    ph := Mem.cellsFrom 0 (List.replicate 63 0#1),
    phref := Mem.cellsFrom 0 (List.replicate n 1#1 ++ List.replicate (63 - n) 0#1) }

theorem test_phcmp : (after (.phcmp 3) (prints 13)).getX 3 = 50#32 := by decide +kernel

theorem test_phver :
    (after (.phver 3 1 2) (prints 13)).getX 3 = 0#32 ∧ (after (.phver 3 1 2) (prints 12)).getX 3 = 1#32 ∧
      (after (.phver 3 1 0) (prints 12)).cause = 2#8 := by decide +kernel

/-- A black image of 16 by 1 pixels, which has room for the header alone. -/
def strip : State :=
  { base with imgW := 16#32, imgH := 1#32, pix := Mem.cellsFrom 0 (List.replicate 64 0#8) }

/-- The first bits of the illustrative magic 0x5A3C, 0101: the red byte of pixel 1 is stream bit 3. -/
theorem test_lsbenc :
    ((after (.lsbenc 0) strip).pix.take 5).map Prod.snd = [0#8, 1#8, 0#8, 0#8, 1#8] ∧
      (after (.lsbenc 1) (withX [(1, 1#32)] strip)).cause = 6#8 := by decide +kernel

/-- The empty message is hidden but not found (R252). -/
theorem test_lsbdec : (after (.lsbdec 2) (after (.lsbenc 0) strip)).getX 2 = 0#32 := by decide +kernel

theorem test_lsbhas :
    (after (.lsbhas 2) (after (.lsbenc 0) strip)).getX 2 = 1#32 ∧
      (after (.lsbhas 2) strip).getX 2 = 0#32 := by decide +kernel

/-! ### Steps -/

/-- The host issues one word. -/
def issuing (w : Word) (s : State) : State := { s with input := [.command w] }

theorem test_step : (afterStep (issuing 0x00530101#32 base)).getX 1 = 0x53#32 := by decide

theorem test_step_illegal :
    (afterStep (issuing 0x00100034#32 base)).finfo = 0x00100034#32 ∧
      (afterStep (issuing 0x01205003#32 base)).finfo = 0x01205003#32 := by decide

/-- A discarded word leaves the pending fault as it is (section 3.9). -/
theorem test_step_discard :
    (afterStep (issuing 0x00770101#32 (base.raise .divisionByZero 0x53))).getX 1 = 0#32 ∧
      (afterStep (issuing 0x00000008#32 (base.raise .divisionByZero 0x53))).cause = 4#8 := by decide

theorem test_withFetchWord : (afterStep (base.withFetchWord 32 0x00530101)).getX 1 = 0x53#32 := by decide

/-! ### The host's formats -/

/-- The Frame of "hi" and its parity count (section 5). -/
theorem test_frame :
    frame 0xA53C#16 [0x68#16, 0x69#16] = [0xA5#8, 0x3C#8, 0x00#8, 0x02#8, 0x00#8, 0x68#8, 0x00#8, 0x69#8] ∧
      parityCount Config.rplValues.eccLevel 8 = 4 ∧ decodeBits 2 = 96 ∧ slotCount 15 4 96 64 = 384 := by
  decide +kernel

/-- An image of no pixels comes back unchanged with no bits embedded (R291, R296). -/
theorem test_encode_degenerate :
    ((encodeCall (fun _ => 0#31) ⟨[], 0#32, 0#32⟩ [] [] (defaultOptions Config.rplValues)).run base).toOption.map
      Prod.fst = some ⟨[], none, 0⟩ := by decide +kernel

/-- How a call on an image without pixels ends: its fault, 0 for no fault, or none where it is refused. -/
def encodeStop (o : EncodeOptions) : Option (BitVec 8 × Word) :=
  match (encodeCall (fun _ => 0#31) ⟨[], 0#32, 0#32⟩ [] [] o).run base with
  | .error (.fault s) => some (s.cause, s.finfo)
  | .error .refused => none
  | .ok _ => some (0#8, 0#32)

/-- A strength of 65536 reaches the fault of `CSRW` (R34); a negative option does not start the call. -/
theorem test_encode_options :
    let o := defaultOptions Config.rplValues
    encodeStop o = some (0#8, 0#32) ∧ encodeStop { o with strength := 65536 } = some (2#8, 65536#32) ∧
      encodeStop { o with redundancy := -1 } = none := by decide +kernel

/-- A value of 33 bits is not reduced (log entry 20). -/
theorem test_hostReg :
    ((hostReg 1 (2 ^ 32)).run base).toOption = none ∧
      (((hostReg 1 (2 ^ 32 - 1)).run base).toOption.map fun r => r.2.getX 1) = some 0xFFFFFFFF#32 := by
  decide +kernel

/-- A port address that `HOSTMAP` gives to `x[3]` (R68). -/
theorem test_portWrite :
    let s := { base with cfg := { illustrativeParams with hostMap := [(16, .reg 3)] } }
    s.portWrite 16 (.int 5) = some (.writeReg 3 5#32) ∧ s.portWrite 17 (.int 5) = none ∧
      s.portRead 16 = some (.int 0) := by decide

theorem test_pack : packBytes (unpackBits [0xA5#8, 0x01#8]) 2 = [0xA5#8, 0x01#8] := by decide

theorem test_payload :
    payloadUnits [0xA5#8, 0x3C#8, 0x00#8, 0x02#8, 0x00#8, 0x68#8, 0x00#8, 0x69#8] = [0x68#16, 0x69#16] := by
  decide

theorem test_assembly :
    assembly (.qemb 1 2 3) = some "QEMB x1, x2, x3" ∧ assembly (.csrr 7 8) = some "CSRR x7, STRENGTH" ∧
      assembly (.lds 0 18 5) = none := by decide

theorem test_li32 :
    li32 1 12345#32 = [.li 1 0x3039] ∧ li32 1 0x41C67EA6#32 = [.li 1 0x7EA6, .lih 1 0x41C6] := by decide

/-! ### A state and operands that meet the hypotheses of each statement, at the edges of its clauses -/

/-- Every command ends in a next state. -/
theorem exec_after (i : Instr) (s : State) : exec i s = .next (after i s) := by cases i <;> rfl

theorem witness_DecodeAgreesWithTable :
    (∃ r ∈ opcodeRows, 0x0FFFF004#32 &&& r.1 = r.2) ∧ decode 0x0FFFF004#32 = .ok (.sts 255 15 15) := by
  decide

theorem witness_IllegalCommandFaults :
    base.fault = false ∧ (∀ r ∈ opcodeRows, 0x00100034#32 &&& r.1 ≠ r.2) ∧
      (∀ r ∈ opcodeRows, 0xFFFFFFFF#32 &&& r.1 ≠ r.2) ∧
      (decode 0x01205003#32 = .ok (.lds 0 18 5) ∧ 18 ≤ (18 : Sel).toNat) ∧
      (decode 0x0FF05004#32 = .ok (.sts 255 5 0) ∧ 18 ≤ (255 : Sel).toNat) ∧
      (decode 0x00C00106#32 = .ok (.csrr 1 12) ∧ 12 ≤ (12 : Sel).toNat) ∧
      decode 0x00C01007#32 = .ok (.csrw 12 1) ∧ 12 ≤ (12 : Sel).toNat := by
  have h0 : (opcodeRows.all fun r => 0x00100034#32 &&& r.1 != r.2) = true := by decide +kernel
  have h1 : (opcodeRows.all fun r => 0xFFFFFFFF#32 &&& r.1 != r.2) = true := by decide +kernel
  refine ⟨rfl, by simpa using h0, by simpa using h1, by decide, by decide, by decide, by decide⟩

theorem witness_StepRunsDecodedCommand :
    (issuing 0x00530101#32 base).input = .command 0x00530101#32 :: [] ∧
      (issuing 0x00530101#32 base).fault = false ∧ decode 0x00530101#32 = .ok (.li 1 0x53) ∧
      (issuing 5#32 (base.raise .divisionByZero 1)).fault = true ∧ decode 5#32 = .ok .clrf := by decide

/-- 0x105 is not `CLRF`: it is discarded, not illegal. -/
theorem witness_PendingFaultDiscards :
    let s := base.raise .divisionByZero 0x53
    s.fault = true ∧ (issuing 0x105#32 s).input = .command 0x105#32 :: [] ∧
      (issuing 5#32 s).input = .command 5#32 :: [] ∧ (0x105#32 : Word) ≠ 5#32 := by decide

/-- What the host is about to do. -/
def hosting (a : HostAct) : State := { base with input := [a] }

theorem witness_HostAccesses :
    base.input = [] ∧ (hosting (.writeReg 15 0xFFFFFFFF#32)).input = .writeReg 15 0xFFFFFFFF#32 :: [] ∧
      (hosting (.writeCsr .imgH (2 ^ 32 - 1))).input = .writeCsr .imgH (2 ^ 32 - 1) :: [] ∧
      (2 ^ 16 - 1 < 2 ^ 16) ∧
      (spaceWritable .sym = true ∧ base.inBounds .sym 3005 = true ∧ spaceWidth .sym = some 8 ∧
        255 < 2 ^ 8) ∧
      (spaceWritable .conf = true ∧ base.inBounds .conf 0 = true ∧ spaceWidth .conf = none) ∧
      spaceWritable .gen = false ∧ base.inBounds .sym 3006 = false := by decide +kernel

/-- The illustrative parameters have the values of R8's rows with only one. -/
theorem base_standard : illustrativeParams.Standard := ⟨rfl, rfl⟩

theorem witness_IndexInBoundsIffLive : base.cfg.Standard := base_standard

theorem witness_ResetState : (hosting .reset).input = .reset :: [] ∧ (hosting .reset).cfg.Standard :=
  ⟨rfl, base_standard⟩

theorem base_spacesOk : base.SpacesOk := by constructor <;> decide

/-- The invariant with the illustrative parameters. -/
theorem base_inv : base.Inv where
  params := test_wf_params
  spaces := base_spacesOk
  nsym := by decide
  gen := by intro i hi; obtain rfl : i = 0 := by simpa [base, State.afterReset] using hi
            rfl
  permN := by decide
  perm := by intro i hi; simp [base, State.afterReset] at hi
  quiet := by decide
  pending := by decide

theorem witness_StepKeepsInvariant : base.Inv ∧ step base = .next base := ⟨base_inv, rfl⟩

theorem witness_CommandsEndPrecisely :
    base.fault = false ∧ ∃ t, exec (.gfinv 1 2) base = .next t ∧ t.fault = true :=
  ⟨rfl, _, exec_after _ _, by decide⟩

theorem witness_DrawCounts :
    (ordered 8 12345).cfg.Standard ∧ (ordered 0 0).cfg.Standard ∧
      base.cfg.Standard ∧ (∃ t, exec .shuf (ordered 8 12345) = .next t ∧ t.fault = false) ∧
      (∃ t, exec .shuf (ordered 0 0) = .next t ∧ t.fault = false) ∧
      (∃ t, exec (.next 1) base = .next t ∧ t.fault = false) ∧
      (∃ t, exec (.nexti 1 2 3) base = .next t ∧ t.fault = false) ∧
      (∃ t, exec (.sprd 1) base = .next t ∧ t.fault = false) ∧
      ∃ t, exec (.magcmp 1) base = .next t := by
  refine ⟨base_standard, base_standard, base_standard, ⟨_, exec_after _ _, ?_⟩, ⟨_, exec_after _ _, ?_⟩, ⟨_, exec_after _ _, ?_⟩,
    ⟨_, exec_after _ _, ?_⟩, ⟨_, exec_after _ _, ?_⟩, _, exec_after _ _⟩ <;> decide +kernel

theorem witness_RegistersWrittenBy :
    (after .shuf (ordered 8 12345)).rngSeed ≠ (ordered 8 12345).rngSeed ∧
      (after (.next 1) base).rngSeed ≠ base.rngSeed ∧ (after (.sprd 1) base).rngSeed ≠ base.rngSeed ∧
      (after (.nexti 1 2 3) base).rngSeed ≠ base.rngSeed ∧
      (let s := withX [(1, 1#32)] base;
        (after (.seed 1) s).rngSeed ≠ s.rngSeed ∧ (after (.pinit 1) s).permN ≠ s.permN ∧
          (after (.rscfg 1) s).rsNsym ≠ s.rsNsym ∧ (after (.csrw 6 1) s).imgW ≠ s.imgW ∧
          (after (.csrw 7 1) s).imgH ≠ s.imgH ∧ (after (.csrw 8 1) s).strength ≠ s.strength) ∧
      (after (.rssyn 6 1) (rs2 3 [1#8, 3#8, 3#8])).rserr ≠ (rs2 3 [1#8, 3#8, 3#8]).rserr ∧
      (after (.rsdec 6 1) (rs2 3 [1#8, 3#8, 3#8])).rserr ≠ (rs2 3 [1#8, 3#8, 3#8]).rserr ∧
      (after (.magcmp 1) (voted 0xA533)).found ≠ (voted 0xA533).found ∧
      (after (.gfinv 1 2) base).cause ≠ base.cause ∧
      (after .clrf (base.raise .capacity 7)).finfo ≠ (base.raise .capacity 7).finfo := by
  decide +kernel

/-- A state whose spaces hold 1 as their first element, with `x1 = 1` and a 16 by 1 image. -/
def filled : State :=
  { withX [(1, 1#32)] base with
    imgW := 16#32, imgH := 1#32, pix := (0, 1#8) :: Mem.cellsFrom 1 (List.replicate 63 0#8)
    sym := [(0, 1#8)], bit := [(0, 1#1)], msg := [(0, 1#16)], blks := [(0, Num.ofRat 1)],
    blkf := [(0, Num.ofRat 1)], blkr := [(0, Num.ofRat 1)], acc0 := [(0, Num.ofRat 1)],
    acc1 := [(0, Num.ofRat 1)], conf := [(0, Num.ofRat 1)], phref := [(0, 1#1)] }

theorem witness_SpacesWrittenBy_sts :
    (after (.sts 0 0 0) filled).element .pix 0 ≠ filled.element .pix 0 ∧
      (after (.sts 1 0 0) filled).element .sym 0 ≠ filled.element .sym 0 ∧
      (after (.sts 2 0 0) filled).element .bit 0 ≠ filled.element .bit 0 ∧
      (after (.sts 3 0 0) filled).element .msg 0 ≠ filled.element .msg 0 ∧
      (after (.sts 4 0 1) (withX [(1, 7#32)] (ordered 8 1))).element .perm 0 ≠
        (ordered 8 1).element .perm 0 ∧
      (after (.sts 10 0 0) filled).element .blks 0 ≠ filled.element .blks 0 ∧
      (after (.sts 11 0 0) filled).element .blkf 0 ≠ filled.element .blkf 0 ∧
      (after (.sts 12 0 0) filled).element .blkr 0 ≠ filled.element .blkr 0 ∧
      (after (.sts 13 0 0) filled).element .acc0 0 ≠ filled.element .acc0 0 ∧
      (after (.sts 14 0 0) filled).element .acc1 0 ≠ filled.element .acc1 0 ∧
      (after (.sts 15 0 0) filled).element .conf 0 ≠ filled.element .conf 0 ∧
      (after (.sts 17 0 0) filled).element .phref 0 ≠ filled.element .phref 0 := by decide +kernel

/-- The hash does not look at `PH`, so with one of the two values of `PH[0]` it changes it. -/
theorem witness_SpacesWrittenBy_ph :
    ∃ s : State, (after .phash s).element .ph 0 ≠ s.element .ph 0 := by
  by_contra h
  simp only [not_exists, not_not] at h
  have h0 := h { filled with ph := [(0, 0#1)] }
  have h1 := h { filled with ph := [(0, 1#1)] }
  have e : (after .phash { filled with ph := [(0, 0#1)] }).element .ph 0 =
      (after .phash { filled with ph := [(0, 1#1)] }).element .ph 0 := rfl
  rw [h0, h1] at e
  revert e
  decide

theorem witness_SpacesWrittenBy :
    (after (.lsbenc 0) filled).element .pix 0 ≠ filled.element .pix 0 ∧
      (after .shuf (ordered 8 12345)).element .perm 0 ≠ (ordered 8 12345).element .perm 0 ∧
      (let s := withX [(1, 8#32)] (after .shuf (ordered 8 12345));
        (after (.pinit 1) s).element .perm 0 ≠ s.element .perm 0) ∧
      (let s := rs2 1 [1#8, 0#8, 0#8];
        (after (.rsenc 1) s).element .sym 1 ≠ s.element .sym 1) ∧
      (let s := withX [(2, 1#32)] (rs2 3 [1#8, 3#8, 3#8]);
        (after (.rscfg 2) s).element .gen 1 ≠ s.element .gen 1) ∧
      (let s := { rs2 3 [1#8, 3#8, 3#8] with syn := [(0, 0#8), (1, 0#8)] };
        (after (.rssyn 6 1) s).element .syn 0 ≠ s.element .syn 0 ∧
          (after (.rsdec 6 1) s).element .syn 1 ≠ s.element .syn 1) ∧
      (after (.vclr 1) filled).element .acc0 0 ≠ filled.element .acc0 0 ∧
      (after (.vacc 0 1) filled).element .acc1 0 ≠ filled.element .acc1 0 ∧
      (let s := { filled with acc1 := [(0, Num.ofRat 0)] };
        (after (.vote 2 0) s).element .bit 0 ≠ s.element .bit 0) ∧
      (let s := { coefficient 20 with conf := [(0, Num.ofRat 1)] };
        (after (.qext 1 0 0) s).element .conf 0 ≠ s.element .conf 0 ∧
          (after (.qemb 0 0 0) s).element .blkf 3 ≠ s.element .blkf 3) := by
  decide +kernel

theorem witness_NopLiLihEffects : base.fault = false := rfl

theorem floor_ofRat (q : Rat) : ⌊(Num.ofRat q).toReal + 1 / 2⌋ = (Num.ofRat q).roundHalfUp :=
  (Num.roundHalfUp_eq _).symm

/-- The last value that loads and the first that does not, on both sides. -/
theorem witness_LdsLoadsElementOrFaults :
    (base.fault = false ∧ base.natX 1 = 0 ∧ spaceOfSel 1 = some .sym ∧ spaceOfSel 11 = some .blkf ∧
      base.inBounds .blkf 0 = true ∧ { base with sym := [(0, 255#8)] }.element .sym 0 = .int 255 ∧
      { base with blkf := [(0, Num.ofRat 1)] }.element .blkf 0 = .num (Num.ofRat 1)) ∧
      (∀ q ∈ ([2147483647 + 49 / 100, -2147483648 - 1 / 2] : List Rat),
        -(2 ^ 31) ≤ ⌊(Num.ofRat q).toReal + 1 / 2⌋ ∧ ⌊(Num.ofRat q).toReal + 1 / 2⌋ ≤ 2 ^ 31 - 1) ∧
      2 ^ 31 - 1 < ⌊(Num.ofRat (2147483647 + 1 / 2)).toReal + 1 / 2⌋ ∧
      ⌊(Num.ofRat (-2147483648 - 51 / 100)).toReal + 1 / 2⌋ < -(2 ^ 31) ∧
      (18 ≤ (18 : Sel).toNat ∧ spaceOfSel 8 = some .gflog ∧ base.inBounds .gflog 0 = false) ∧
      (withX [(1, 256#32)] base).inBounds .gflog ((withX [(1, 256#32)] base).natX 1) = false ∧
      spaceOfSel 5 = some .gen ∧ (withX [(1, 1#32)] base).inBounds .gen 1 = false := by
  simp only [floor_ofRat]
  decide +kernel

theorem witness_StsStoresElementOrFaults :
    let s := withX [(1, 62#32), (2, 1#32), (3, 63#32), (4, 2#32), (5, 0xFFFFFFFF#32)] base
    s.fault = false ∧
      (spaceOfSel 17 = some .phref ∧ spaceWritable .phref = true ∧
        s.inBounds .phref (s.natX 1) = true ∧ spaceWidth .phref = some 1 ∧ s.natX 2 < 2 ^ 1 ∧
        2 ^ 1 ≤ s.natX 4) ∧
      (spaceOfSel 15 = some .conf ∧ spaceWritable .conf = true ∧ s.inBounds .conf (s.natX 0) = true ∧
        spaceWidth .conf = none ∧ (s.getX 5).toInt = -1) ∧
      18 ≤ (18 : Sel).toNat ∧ (16 : Sel) ∈ ([5, 6, 7, 8, 9, 16] : List Sel) ∧
      s.inBounds .phref (s.natX 3) = false := by decide +kernel

theorem witness_ClrfClearsFault : base.Inv ∧ base.fault = false := ⟨base_inv, rfl⟩

theorem witness_CsrrReadsRegisterOrFaults : base.fault = false ∧ (11 : Sel).toNat < 12 ∧ 12 ≤ (12 : Sel).toNat := by
  decide

theorem witness_CsrwWritesRegisterOrFaults :
    let s := withX [(1, 65535#32), (2, 65536#32)] base
    s.fault = false ∧ s.natX 1 ≤ 65535 ∧ 65535 < s.natX 2 ∧ 12 ≤ (255 : Sel).toNat ∧
      (11 : Sel) ∈ ([0, 1, 2, 3, 4, 5, 9, 10, 11] : List Sel) := by decide +kernel

/-- Field operands at the edges: 0, 1, 255 and 256. -/
def fielded : State := withX [(1, 1#32), (2, 255#32), (3, 256#32)] base

theorem witness_GfmulResultAndFaults :
    fielded.fault = false ∧ fielded.natX 0 = 0 ∧ fielded.natX 2 ≤ 255 ∧ 255 < fielded.natX 3 := by decide

theorem witness_GfpowResultAndFaults :
    fielded.fault = false ∧ 0 < fielded.natX 1 ∧ fielded.natX 2 ≤ 255 ∧ 255 < fielded.natX 3 ∧
      fielded.natX 0 = 0 := by decide

theorem witness_GfdivResultAndFaults :
    fielded.fault = false ∧ fielded.natX 2 ≤ 255 ∧ 0 < fielded.natX 1 ∧ 255 < fielded.natX 3 ∧
      fielded.natX 0 = 0 := by decide

theorem witness_GfinvResultAndFaults :
    fielded.fault = false ∧ fielded.cfg.wellFormed = true ∧ 0 < fielded.natX 1 ∧
      fielded.natX 2 ≤ 255 ∧ 255 < fielded.natX 3 ∧ fielded.natX 0 = 0 :=
  ⟨by decide, test_wf_params, by decide⟩

theorem witness_GaloisTables :
    illustrativeParams.wellFormed = true ∧ illustrativeParams.alpha = 2#8 ∧ (1 : Byte) ≠ 0#8 :=
  ⟨test_wf_params, by decide⟩

theorem witness_GaloisFieldLaws : illustrativeParams.wellFormed = true ∧ (255 : Byte) ≠ 0#8 :=
  ⟨test_wf_params, by decide⟩

theorem witness_GfmulIsPolynomialProduct : illustrativeParams.wellFormed = true := test_wf_params

theorem witness_RscfgSetsGenerator :
    let s := withX [(1, 1024#32), (2, 1025#32)] base
    s.fault = false ∧ s.cfg.wellFormed = true ∧ s.natX 1 ≤ s.cfg.nsymMax ∧ s.cfg.nsymMax < s.natX 2 :=
  ⟨by decide, test_wf_params, by decide⟩

theorem witness_RsencWritesParity :
    let s := withX [(2, 3004#32), (3, 3005#32)] (rs2 1 [1#8])
    s.fault = false ∧ s.natX 2 + s.rsNsym.toNat ≤ s.cfg.symSize ∧
      s.cfg.symSize < s.natX 3 + s.rsNsym.toNat := by decide

theorem witness_RssynWritesSyndromes :
    let s := withX [(2, 3006#32), (3, 3007#32)] (rs2 1 [1#8])
    s.fault = false ∧ s.natX 2 ≤ s.cfg.symSize ∧ s.cfg.symSize < s.natX 3 := by decide

theorem witness_RsdecChecksAndCounts :
    let s := withX [(2, 2#32), (3, 3007#32)] (rs2 1 [1#8])
    s.fault = false ∧ s.natX 2 ≤ s.cfg.symSize ∧ s.rsNsym.toNat ≤ s.natX 2 ∧
      s.cfg.symSize < s.natX 3 ∧ s.natX 1 < s.rsNsym.toNat := by decide

theorem rs2_inv : (withX [(2, 3#32)] (rs2 1 [1#8])).Inv where
  params := test_wf_params
  spaces := by constructor <;> decide
  nsym := by decide
  gen := by decide +kernel
  permN := by decide
  perm := by intro i hi; exact absurd hi (Nat.not_lt_zero i)
  quiet := by decide
  pending := by decide

theorem witness_CleanCodeword :
    let s := withX [(2, 3#32)] (rs2 1 [1#8])
    s.Inv ∧ s.fault = false ∧ s.natX 1 + s.rsNsym.toNat ≤ s.cfg.symSize ∧
      ∃ t, exec (.rsenc 1) s = .next t ∧ t.natX 2 = s.natX 1 + s.rsNsym.toNat :=
  ⟨rs2_inv, by decide, by decide, _, exec_after _ _, by decide +kernel⟩

theorem witness_SeedNextSprdResults :
    let s := withX [(1, 0x7FFFFFFF#32), (2, 0x80000000#32)] base
    s.fault = false ∧ s.cfg.Standard ∧ s.natX 1 < 2 ^ 31 ∧ 2 ^ 31 ≤ s.natX 2 := by decide +kernel

theorem witness_NextiResultAndFaults :
    let s := withX [(1, 5#32), (2, 5#32), (3, 4#32)] base
    s.fault = false ∧ s.cfg.Standard ∧ s.natX 1 ≤ s.natX 2 ∧ s.natX 3 < s.natX 1 := by decide +kernel

theorem witness_NextiRange :
    (let s := withX [(2, 0xFFFFFFFF#32)] (seeded 230538014);
      s.fault = false ∧ s.cfg.Standard ∧ s.natX 1 ≤ s.natX 2 ∧ lcgNat s.rngSeed.toNat = 0x7FFFFFFF ∧
        exec (.nexti 3 1 2) s = .next (after (.nexti 3 1 2) s)) ∧
      (let s := withX [(2, 0xFFFFFFFF#32)] (seeded 1);
        s.fault = false ∧ s.cfg.Standard ∧ s.natX 1 ≤ s.natX 2 ∧ lcgNat s.rngSeed.toNat ≠ 0x7FFFFFFF) :=
  ⟨⟨rfl, base_standard, by decide, by decide, exec_after _ _⟩, by decide +kernel⟩

theorem witness_PinitWritesIdentityOrder :
    let s := withX [(1, 4096#32), (2, 4097#32)] base
    s.fault = false ∧ s.natX 1 ≤ s.cfg.permSize ∧ s.cfg.permSize < s.natX 2 ∧ s.natX 0 = 0 := by decide

theorem ok_of_toOption {α : Type} {e : Except Nat (α × Nat)} (h : e.toOption.isSome = true) :
    ∃ p v, e = .ok (p, v) := by
  match e, h with
  | .ok (p, v), _ => exact ⟨p, v, rfl⟩

theorem error_of_match {α : Type} {e : Except Nat α} {i : Nat}
    (h : (match e with | .error j => some j | .ok _ => none) = some i) : e = .error i := by
  match e, h with
  | .error j, h => cases h; rfl

/-- Three passes: one that swaps, one over no block, and one whose draw is out of range. -/
theorem witness_ShufFollowsLoop :
    (ordered 2 1).fault = false ∧ (ordered 2 1).cfg.Standard ∧
      base.cfg.Standard ∧ (ordered 2 230538014).cfg.Standard ∧
      (∃ p v, shuffleRule ((ordered 2 1).permN.toNat - 1) (ordered 2 1).rngSeed.toNat
        (ordered 2 1).permAt = .ok (p, v)) ∧
      (∃ p v, shuffleRule (base.permN.toNat - 1) base.rngSeed.toNat base.permAt = .ok (p, v)) ∧
      shuffleRule ((ordered 2 230538014).permN.toNat - 1) (ordered 2 230538014).rngSeed.toNat
        (ordered 2 230538014).permAt = .error 1 :=
  ⟨rfl, base_standard, base_standard, base_standard, ok_of_toOption (by decide +kernel), ok_of_toOption (by decide +kernel),
    error_of_match (by decide +kernel)⟩

theorem witness_ShufPermutes :
    (ordered 8 12345).cfg.Standard ∧
      (ordered 2 230538014).cfg.Standard ∧
      (∃ t, exec .shuf (ordered 8 12345) = .next t ∧ t.fault = false) ∧
      (∃ t, exec .shuf (ordered 2 230538014) = .next t ∧ t.fault = true) ∧
      lcgNat^[1] (ordered 2 230538014).rngSeed.toNat = 0x7FFFFFFF :=
  ⟨base_standard, base_standard, ⟨_, exec_after _ _, by decide +kernel⟩, ⟨_, exec_after _ _, by decide +kernel⟩, by decide⟩

theorem witness_DctWritesTransform : base.fault = false ∧ base.cfg.Standard := ⟨rfl, base_standard⟩

theorem witness_IdctWritesInverse : base.fault = false ∧ base.cfg.Standard := ⟨rfl, base_standard⟩

theorem witness_IdctInvertsDct : base.fault = false ∧ base.cfg.Standard ∧ base.cfg.num = .exact :=
  ⟨rfl, base_standard, rfl⟩

/-- An image one row taller than `PIX` holds. -/
def tall : State := { base with imgW := 64#32, imgH := 65#32 }

theorem witness_BlkgetWritesLuma :
    let s := withX [(1, 1#32)] gray
    s.fault = false ∧ s.cfg.Standard ∧ 4 * s.imgW.toNat * s.imgH.toNat ≤ s.cfg.pixSize ∧
      s.natX 0 < s.imgW.toNat / 8 * (s.imgH.toNat / 8) ∧
      s.imgW.toNat / 8 * (s.imgH.toNat / 8) ≤ s.natX 1 ∧
      tall.fault = false ∧ tall.cfg.Standard ∧
      tall.cfg.pixSize < 4 * tall.imgW.toNat * tall.imgH.toNat := by decide +kernel

/-- The last block of an image that fills `PIX`. -/
theorem witness_BlkputWritesBytes :
    let s := { withX [(1, 63#32), (2, 64#32)] base with imgW := 64#32, imgH := 64#32 }
    s.fault = false ∧ s.cfg.Standard ∧ 4 * s.imgW.toNat * s.imgH.toNat ≤ s.cfg.pixSize ∧
      s.natX 1 < s.imgW.toNat / 8 * (s.imgH.toNat / 8) ∧
      s.imgW.toNat / 8 * (s.imgH.toNat / 8) ≤ s.natX 2 ∧
      tall.fault = false ∧ tall.cfg.Standard ∧
      tall.cfg.pixSize < 4 * tall.imgW.toNat * tall.imgH.toNat := by decide +kernel

theorem witness_QembQuantizes :
    let s := withX [(1, 14#32), (2, 15#32), (3, 1#32), (4, 2#32)] base
    s.fault = false ∧ s.cfg.Standard ∧ s.natX 1 ≤ 14 ∧ 14 < s.natX 2 ∧ s.natX 3 ≤ 1 ∧ 1 < s.natX 4 ∧
      1 ≤ s.strength.toNat ∧ { s with strength := 0#16 }.strength.toNat = 0 := by decide +kernel

theorem toReal_coefficient (c : Rat) : ((coefficient c).blkfAt 3).toReal = c := by
  have h : (coefficient c).blkfAt 3 = Num.ofRat c := rfl
  rw [h, Num.toReal_ofRat]

theorem witness_QextEstimates :
    let s := withX [(1, 14#32), (2, 15#32), (3, 1#32), (4, 2#32)] base
    (s.fault = false ∧ s.cfg.Standard ∧ s.natX 1 ≤ 14 ∧ 14 < s.natX 2 ∧ s.natX 3 ≤ 1 ∧ 1 < s.natX 4) ∧
      (0 : ℝ) < ((coefficient 1).blkfAt 3).toReal * 1 ∧ ((coefficient 0).blkfAt 3).toReal * 1 ≤ (0 : ℝ) := by
  simp only [toReal_coefficient]
  refine ⟨by decide +kernel, by norm_num, by norm_num⟩

/-- The edges of the three ranges of R209, with `STRENGTH = 15` and position 0. -/
theorem witness_QextRecoversQemb :
    (∀ c ∈ ([-15, 149 / 10, -16, 15] : List Rat), (coefficient c).fault = false ∧
      (coefficient c).cfg.Standard ∧ (coefficient c).cfg.num = .exact ∧
      (coefficient c).natX 0 = 0 ∧ (coefficient c).strength.toNat = 15 ∧
      ∃ t, exec (.qemb 0 0 0) (coefficient c) = .next t ∧ t.natX 0 = (coefficient c).natX 0) ∧
      -(15 : ℝ) ≤ ((coefficient (-15)).blkfAt 3).toReal ∧
      ((coefficient (149 / 10)).blkfAt 3).toReal < (15 : ℝ) ∧
      ((coefficient (-16)).blkfAt 3).toReal < -(15 : ℝ) ∧
      (15 : ℝ) ≤ ((coefficient 15).blkfAt 3).toReal := by
  simp only [toReal_coefficient]
  refine ⟨fun c hc => ⟨rfl, base_standard, rfl, rfl, rfl, _, exec_after _ _, ?_⟩, ?_, ?_, ?_, ?_⟩
  · simp only [List.mem_cons, List.not_mem_nil, or_false] at hc
    rcases hc with rfl | rfl | rfl | rfl <;> decide +kernel
  all_goals norm_num

theorem witness_VclrClearsSums :
    let s := withX [(1, 24048#32), (2, 24049#32)] base
    s.fault = false ∧ s.natX 1 ≤ s.cfg.bitSize ∧ s.cfg.bitSize < s.natX 2 := by decide

theorem witness_VaccAddsConfidence :
    let s := withX [(1, 24047#32), (2, 24048#32), (3, 1#32), (4, 2#32)] base
    s.fault = false ∧ s.natX 1 < s.cfg.bitSize ∧ s.natX 3 = 1 ∧ s.natX 0 = 0 ∧ 1 < s.natX 4 ∧
      s.cfg.bitSize ≤ s.natX 2 := by decide

/-- A greater second sum, and a tie. -/
theorem witness_VoteComparesSums :
    let s := withX [(2, 24048#32)] voter
    (s.fault = false ∧ s.natX 1 < s.cfg.bitSize ∧ s.cfg.bitSize ≤ s.natX 2) ∧
      (s.acc0At (s.natX 1)).toReal < (s.acc1At (s.natX 1)).toReal ∧
      ({ s with acc0 := s.acc1 }.acc1At 3).toReal ≤ ({ s with acc0 := s.acc1 }.acc0At 3).toReal := by
  refine ⟨by decide, ?_, le_refl _⟩
  rw [← Num.lt_iff]
  decide +kernel

theorem witness_MagcmpCountsMatches : (voted 0xA533).fault = false ∧ (voted 0xA533).cfg.Standard :=
  ⟨rfl, base_standard⟩

/-- An image of a white pixel above a black one. -/
def half : State :=
  { base with
    imgW := 1#32, imgH := 2#32, pix := Mem.cellsFrom 0 [255#8, 255#8, 255#8, 255#8, 0#8, 0#8, 0#8, 255#8] }

theorem half_box (i j : Nat) (hi : i < 32) (hj : j < 32) :
    half.boxReal i j = if i < 16 then 255 else 0 := by
  have hp : ∀ n : Nat, half.lumaReal n = 0.299 * ((half.pixAt (4 * n)).toNat : ℝ) +
      0.587 * ((half.pixAt (4 * n + 1)).toNat : ℝ) + 0.114 * ((half.pixAt (4 * n + 2)).toNat : ℝ) :=
    fun _ => rfl
  have h0 : half.lumaReal 0 = 255 := by
    rw [hp, show half.pixAt (4 * 0) = 255#8 from rfl, show half.pixAt (4 * 0 + 1) = 255#8 from rfl,
      show half.pixAt (4 * 0 + 2) = 255#8 from rfl]
    norm_num
  have h1 : half.lumaReal 1 = 0 := by
    rw [hp, show half.pixAt (4 * 1) = 0#8 from rfl, show half.pixAt (4 * 1 + 1) = 0#8 from rfl,
      show half.pixAt (4 * 1 + 2) = 0#8 from rfl]
    norm_num
  simp only [State.boxReal, show half.imgW.toNat = 1 from rfl, show half.imgH.toNat = 2 from rfl,
    show max ((i + 1) * 2 / 32) (i * 2 / 32 + 1) = i * 2 / 32 + 1 by omega,
    show j * 1 / 32 = 0 by omega, show max ((j + 1) * 1 / 32) (0 + 1) = 1 by omega,
    show i * 2 / 32 + 1 - i * 2 / 32 = 1 by omega, Nat.Ico_succ_singleton, Finset.sum_singleton]
  split_ifs with h
  · simp [show i * 2 / 32 = 0 by omega, h0]
  · simp [show i * 2 / 32 = 1 by omega, h1]

theorem sum_cos_zero :
    ∑ j ∈ Finset.range 32, Real.cos ((2 * (j : ℝ) + 1) * (1 : ℕ) * Real.pi / 64) = 0 := by
  have h := Finset.sum_range_reflect
    (fun j : ℕ => Real.cos ((2 * (j : ℝ) + 1) * (1 : ℕ) * Real.pi / 64)) 32
  have e : ∀ j ∈ Finset.range 32,
      Real.cos ((2 * ((32 - 1 - j : ℕ) : ℝ) + 1) * (1 : ℕ) * Real.pi / 64) =
        -Real.cos ((2 * (j : ℝ) + 1) * (1 : ℕ) * Real.pi / 64) := by
    intro j hj
    rw [Finset.mem_range] at hj
    rw [← Real.cos_pi_sub]
    congr 1
    rw [show 32 - 1 - j = 31 - j by omega, Nat.cast_sub (by omega)]
    push_cast
    ring
  rw [Finset.sum_congr rfl e, Finset.sum_neg_distrib] at h
  linarith

theorem half_hash_0 : half.hashRealAt 0 = 0 := by
  have e : ∀ i ∈ Finset.range 32, ∑ j ∈ Finset.range 32,
      half.boxReal i j * Real.cos ((2 * i + 1) * (0 : ℕ) * Real.pi / 64) *
        Real.cos ((2 * j + 1) * (1 : ℕ) * Real.pi / 64) = 0 := by
    intro i hi
    rw [Finset.sum_congr rfl fun j hj => by
      rw [half_box i j (Finset.mem_range.1 hi) (Finset.mem_range.1 hj)], ← Finset.mul_sum, sum_cos_zero,
      mul_zero]
  show half.hashReal 0 1 = 0
  rw [State.hashReal, Finset.sum_congr rfl e, Finset.sum_const_zero, mul_zero]

theorem half_hash_7 : 0 < half.hashRealAt 7 := by
  show 0 < half.hashReal 1 0
  have hw : (0 : ℝ) < hashWeight 1 * hashWeight 0 := by simp [hashWeight]
  refine mul_pos hw (Finset.sum_pos' (fun i hi => Finset.sum_nonneg fun j hj => ?_) ⟨0, by simp, ?_⟩)
  · rw [half_box i j (Finset.mem_range.1 hi) (Finset.mem_range.1 hj)]
    split_ifs with h
    · have : 0 ≤ Real.cos ((2 * (i : ℝ) + 1) * (1 : ℕ) * Real.pi / 64) := by
        have hi' : (i : ℝ) ≤ 15 := by exact_mod_cast (by omega : i ≤ 15)
        have hp := Real.pi_pos
        apply Real.cos_nonneg_of_neg_pi_div_two_le_of_le <;> push_cast <;> nlinarith [Nat.cast_nonneg (α := ℝ) i]
      simp only [Nat.cast_zero, mul_zero, zero_mul, zero_div, Real.cos_zero, mul_one]
      positivity
    · simp
  · refine Finset.sum_pos (fun j hj => ?_) ⟨0, by simp⟩
    rw [half_box 0 j (by norm_num) (Finset.mem_range.1 hj)]
    have : 0 < Real.cos ((2 * ((0 : ℕ) : ℝ) + 1) * (1 : ℕ) * Real.pi / 64) := by
      have hp := Real.pi_pos
      apply Real.cos_pos_of_mem_Ioo
      constructor <;> push_cast <;> linarith
    simp only [Nat.cast_zero, mul_zero, zero_mul, zero_div, Real.cos_zero, mul_one]
    rw [if_pos (by norm_num)]
    simpa using this

/-- A coefficient above the mean and one not above it, an image that is empty and one too large. -/
theorem witness_PhashWritesFingerprint :
    (half.fault = false ∧ half.cfg.Standard ∧ half.cfg.num = .exact ∧ 1 ≤ half.imgW.toNat ∧ 1 ≤ half.imgH.toNat ∧
      4 * half.imgW.toNat * half.imgH.toNat ≤ half.cfg.pixSize) ∧
      (∃ k < 63, half.hashMeanReal < half.hashRealAt k) ∧
      (∃ k < 63, half.hashRealAt k ≤ half.hashMeanReal) ∧
      (base.imgW.toNat = 0) ∧ tall.cfg.pixSize < 4 * tall.imgW.toNat * tall.imgH.toNat := by
  have hm : ∑ k ∈ Finset.range 63, half.hashRealAt k = ∑ _k ∈ Finset.range 63, half.hashMeanReal := by
    rw [Finset.sum_const, State.hashMeanReal, Finset.card_range, nsmul_eq_mul]
    push_cast
    ring
  refine ⟨⟨rfl, base_standard, by decide⟩, ?_, ?_, rfl, by decide⟩
  · by_contra h
    push Not at h
    have e := (Finset.sum_eq_sum_iff_of_le fun k hk => h k (Finset.mem_range.1 hk)).1 hm
    have h7 := half_hash_7
    rw [e 7 (by simp), ← e 0 (by simp), half_hash_0] at h7
    exact lt_irrefl _ h7
  · obtain ⟨k, hk, h⟩ := Finset.exists_le_of_sum_le ⟨0, by simp⟩ hm.le
    exact ⟨k, Finset.mem_range.1 hk, h⟩

theorem witness_UniformImageHash :
    let s := { half with imgH := 1#32 }
    s.fault = false ∧ s.cfg.Standard ∧ s.cfg.num = .exact ∧ 1 ≤ s.imgW.toNat ∧ 1 ≤ s.imgH.toNat ∧
      4 * s.imgW.toNat * s.imgH.toNat ≤ s.cfg.pixSize ∧
      ∀ n < s.imgW.toNat * s.imgH.toNat,
        s.pixAt (4 * n) = 255#8 ∧ s.pixAt (4 * n + 1) = 255#8 ∧ s.pixAt (4 * n + 2) = 255#8 := by
  exact ⟨rfl, base_standard, by decide⟩

theorem witness_PhcmpPhverCompare :
    (prints 12).fault = false ∧ (prints 12).cfg.Standard ∧ (prints 12).natX 2 ≠ 0 ∧
      (prints 12).natX 0 = 0 := ⟨rfl, base_standard, by decide⟩

/-- Images with room for exactly 0 and 1 units, and one pixel less. -/
theorem witness_LsbencWritesStream :
    (let s := { withX [(1, 1#32), (2, 100001#32)] base with imgW := 22#32, imgH := 1#32 };
      s.fault = false ∧ 4 * s.imgW.toNat * s.imgH.toNat ≤ s.cfg.pixSize ∧ s.natX 1 ≤ s.cfg.msgSize ∧
        Nat.ceil (((48 + 16 * s.natX 1 : Nat) : ℚ) / 3) ≤ s.imgW.toNat * s.imgH.toNat ∧
        s.cfg.msgSize < s.natX 2) ∧
      (let s := { withX [(1, 1#32)] base with imgW := 21#32, imgH := 1#32 };
        s.natX 1 ≤ s.cfg.msgSize ∧
          s.imgW.toNat * s.imgH.toNat < Nat.ceil (((48 + 16 * s.natX 1 : Nat) : ℚ) / 3)) ∧
      Nat.ceil (((48 + 16 * strip.natX 0 : Nat) : ℚ) / 3) ≤ strip.imgW.toNat * strip.imgH.toNat ∧
      tall.cfg.pixSize < 4 * tall.imgW.toNat * tall.imgH.toNat := by decide +kernel

theorem witness_LsbdecFindsMessage :
    strip.fault = false ∧ strip.cfg.Standard ∧ 4 * strip.imgW.toNat * strip.imgH.toNat ≤ strip.cfg.pixSize ∧
      tall.fault = false ∧ tall.cfg.Standard ∧ tall.cfg.pixSize < 4 * tall.imgW.toNat * tall.imgH.toNat := by decide +kernel

theorem witness_LsbhasTestsMagic :
    strip.fault = false ∧ 4 * strip.imgW.toNat * strip.imgH.toNat ≤ strip.cfg.pixSize ∧
      tall.fault = false ∧ tall.cfg.pixSize < 4 * tall.imgW.toNat * tall.imgH.toNat := by decide

/-- A large instance and image, and the longest message `LSBDEC` finds, one unit more, and none. -/
def large (n : Word) : State :=
  { withX [(1, n)] base with
    cfg := { illustrativeParams with pixSize := 4000000, msgSize := 200000 }
    imgW := 1000#32, imgH := 1000#32 }

theorem witness_LsbRoundTrip :
    ((large 100000#32).natX 1 = 100000 ∧ (large 100001#32).natX 1 = 100001 ∧ (large 0#32).natX 1 = 0) ∧
      ∀ n ∈ ([0#32, 1#32, 100000#32, 100001#32] : List Word), (large n).fault = false ∧
        (large n).cfg.Standard ∧
        ∃ t, exec (.lsbenc 1) (large n) = .next t ∧ t.fault = false := by
  refine ⟨by decide, fun n hn => ⟨rfl, base_standard, _, exec_after _ _, ?_⟩⟩
  simp only [List.mem_cons, List.not_mem_nil, or_false] at hn
  rcases hn with rfl | rfl | rfl | rfl <;> decide +kernel

end Sys2Proof.Tests
end

/-! The Galois field unit over the polynomials it stands for (R120, R123): a byte is read in the residue
ring of `PRIM_POLY`, where a doubling is the product with `z`, the table fill takes powers of `ALPHA`, and
`gfmul` is therefore the product. -/

namespace Sys2Proof.Machine

open Polynomial

/-! ### Bytes as polynomials -/

@[simp] theorem bytePoly_zero : bytePoly 0#8 = 0 := by simp [bytePoly]

@[simp] theorem bytePoly_one : bytePoly 1#8 = 1 := by simp [bytePoly]

@[simp] theorem bytePoly_two : bytePoly 2#8 = X := by
  simp [bytePoly, Finset.sum_range_succ]

/-- The sum of the field is `^` (R128): coefficients over GF(2) add as bits. -/
@[simp] theorem bytePoly_xor (a b : Byte) : bytePoly (a ^^^ b) = bytePoly a + bytePoly b := by
  simp only [bytePoly, ← Finset.sum_add_distrib]
  refine Finset.sum_congr rfl fun i _ => ?_
  cases ha : a.getLsbD i <;> cases hb : b.getLsbD i <;> simp [ha, hb, CharTwo.add_self_eq_zero]

/-- A shift by one is the product with `z`, except for the term that leaves the byte. -/
theorem X_mul_bytePoly (v : Byte) :
    X * bytePoly v = bytePoly (v <<< 1) + if v.msb then X ^ 8 else 0 := by
  have htop : bytePoly v =
      (∑ i ∈ Finset.range 7, if v.getLsbD i then X ^ i else 0) + if v.msb then X ^ 7 else 0 := by
    rw [bytePoly, Finset.sum_range_succ, BitVec.msb_eq_getLsbD_last]
  have hshift : bytePoly (v <<< 1) =
      ∑ i ∈ Finset.range 7, if v.getLsbD i then X ^ (i + 1) else 0 := by
    have hlow : (v <<< 1).getLsbD 0 = false := by simp
    rw [bytePoly, Finset.sum_range_succ', hlow, if_neg Bool.false_ne_true, add_zero]
    refine Finset.sum_congr rfl fun i hi => ?_
    have hi' : i + 1 < 8 := Nat.succ_lt_succ (Finset.mem_range.1 hi)
    simp [-BitVec.getLsbD_eq_getElem, BitVec.getLsbD_shiftLeft, hi']
  rw [htop, hshift, mul_add, Finset.mul_sum]
  simp only [mul_ite, mul_zero, ← pow_succ']

/-- `PRIM_POLY` with bit 8 set is `z^8` and the byte that `gfDouble` adds (R120). -/
theorem primPolynomial_eq (p : Params) (hp : p.primPoly.msb = true) :
    primPolynomial p = bytePoly (p.primPoly.setWidth 8) + X ^ 8 := by
  rw [BitVec.msb_eq_getLsbD_last] at hp
  rw [primPolynomial, bytePoly, Finset.sum_range_succ _ 8, if_pos hp]
  congr 1
  refine Finset.sum_congr rfl fun i hi => ?_
  rw [BitVec.getLsbD_setWidth, decide_eq_true (Finset.mem_range.1 hi), Bool.true_and]

/-! ### Residues modulo `PRIM_POLY` -/

/-- The residue of a byte's polynomial modulo `PRIM_POLY`. -/
noncomputable def residue (p : Params) (v : Byte) : AdjoinRoot (primPolynomial p) :=
  AdjoinRoot.mk (primPolynomial p) (bytePoly v)

theorem residue_mul_eq_iff (p : Params) (a b c : Byte) :
    residue p a * residue p b = residue p c ↔
      primPolynomial p ∣ bytePoly a * bytePoly b - bytePoly c := by
  rw [residue, residue, ← map_mul, residue, AdjoinRoot.mk_eq_mk]

@[simp] theorem residue_zero (p : Params) : residue p 0#8 = 0 := by simp [residue]

@[simp] theorem residue_one (p : Params) : residue p 1#8 = 1 := by simp [residue]

@[simp] theorem residue_two (p : Params) : residue p 2#8 = AdjoinRoot.root (primPolynomial p) := by
  simp [residue]

@[simp] theorem residue_xor (p : Params) (a b : Byte) :
    residue p (a ^^^ b) = residue p a + residue p b := by simp [residue]

/-- The reduction of `gfDouble` adds `PRIM_POLY` in place of the term `z^8` that left the byte. -/
theorem residue_gfDouble (p : Params) (hp : p.primPoly.msb = true) (v : Byte) :
    residue p (gfDouble p v) = AdjoinRoot.root (primPolynomial p) * residue p v := by
  have hshift := congrArg (AdjoinRoot.mk (primPolynomial p)) (X_mul_bytePoly v)
  rw [map_mul, AdjoinRoot.mk_X] at hshift
  rw [gfDouble, residue, residue, hshift]
  split_ifs with hmsb
  · rw [bytePoly_xor, AdjoinRoot.mk_eq_mk, add_sub_add_left_eq_sub,
      CharTwo.sub_eq_add, ← primPolynomial_eq p hp]
  · rw [add_zero]

/-- The polynomial of the `n` bits of `a` from bit `i` on. -/
noncomputable def bitsFrom (a : Byte) (n i : Nat) : (ZMod 2)[X] :=
  ∑ j ∈ Finset.range n, if a.getLsbD (i + j) then X ^ j else 0

theorem bitsFrom_succ (a : Byte) (n i : Nat) :
    bitsFrom a (n + 1) i = X * bitsFrom a n (i + 1) + if a.getLsbD i then 1 else 0 := by
  rw [bitsFrom, bitsFrom, Finset.sum_range_succ', Finset.mul_sum]
  congr 1
  refine Finset.sum_congr rfl fun j _ => ?_
  rw [show i + (j + 1) = i + 1 + j by omega, mul_ite, mul_zero, pow_succ']

theorem bitsFrom_all (a : Byte) : bitsFrom a 8 0 = bytePoly a := by simp [bitsFrom, bytePoly]

/-- Shift and add, from any bit on: the accumulator and the product of `v` with the bits that are left. -/
theorem residue_gfShiftAdd (p : Params) (hp : p.primPoly.msb = true) (a : Byte) (n i : Nat)
    (v acc : Byte) :
    residue p (gfShiftAdd p a n i v acc) =
      residue p acc + AdjoinRoot.mk (primPolynomial p) (bitsFrom a n i) * residue p v := by
  induction n generalizing i v acc with
  | zero => simp [gfShiftAdd, bitsFrom]
  | succ n ih =>
    rw [gfShiftAdd, ih, residue_gfDouble p hp, bitsFrom_succ, map_add, map_mul, AdjoinRoot.mk_X]
    split_ifs with hbit
    · rw [residue_xor, map_one]; ring
    · rw [map_zero]; ring

/-- A step of the table fill is the product with `ALPHA` (R120, log entry 14). -/
theorem residue_gfStep (p : Params) (hp : p.primPoly.msb = true) (v : Byte) :
    residue p (gfStep p v) = residue p p.alpha * residue p v := by
  rw [gfStep]
  split_ifs with halpha
  · rw [residue_gfDouble p hp, halpha, residue_two]
  · rw [residue_gfShiftAdd p hp, residue_zero, zero_add, bitsFrom_all]
    rfl

theorem residue_gfStep_iterate (p : Params) (hp : p.primPoly.msb = true) (i : Nat) :
    residue p ((gfStep p)^[i] 1#8) = residue p p.alpha ^ i := by
  induction i with
  | zero => simp
  | succ i ih => rw [Function.iterate_succ_apply', residue_gfStep p hp, ih, pow_succ']

/-! ### The powers of `ALPHA` -/

@[simp] theorem length_gfIterate (step : Byte → Byte) (n : Nat) (v : Byte) :
    (gfIterate step n v).length = n := by
  induction n generalizing v with
  | zero => rfl
  | succ n ih => simp [gfIterate, ih]

theorem gfIterate_getElem? (step : Byte → Byte) (n : Nat) (v : Byte) (i : Nat) (hi : i < n) :
    (gfIterate step n v)[i]? = some (step^[i] v) := by
  induction n generalizing v i with
  | zero => omega
  | succ n ih =>
    cases i with
    | zero => rfl
    | succ i => exact ih (step v) i (by omega)

theorem runsThroughField_iff (step : Byte → Byte) :
    runsThroughField step = true ↔
      (gfIterate step 255 1#8).Nodup ∧ 0#8 ∉ gfIterate step 255 1#8 ∧ step^[255] 1#8 = 1#8 := by
  rw [runsThroughField, gfIterate_getElem? step 256 1#8 255 (by omega)]
  simp only [Bool.and_eq_true, Bool.not_eq_true', decide_eq_true_eq, decide_eq_false_iff_not,
    List.contains_eq_mem, Option.some_inj, and_assoc]

theorem primitive_iff (p : Params) :
    p.primitive = true ↔ p.primPoly.msb = true ∧ runsThroughField (gfDouble p) = true ∧
      (p.alpha = 2#8 ∨ runsThroughField (gfStep p) = true) := by
  simp [Params.primitive, and_assoc]

theorem primitive_of_wellFormed {p : Params} (hp : p.wellFormed = true) :
    p.primitive = true := by
  simp only [Params.wellFormed, Bool.and_eq_true] at hp
  obtain ⟨⟨⟨⟨⟨⟨hprim, -⟩, -⟩, -⟩, -⟩, -⟩, -⟩ := hp
  exact hprim

theorem primPoly_msb_of_primitive {p : Params} (hp : p.primitive = true) :
    p.primPoly.msb = true :=
  ((primitive_iff p).1 hp).1

/-- The fill of an allowed table runs through the field, for `ALPHA = 2` because it doubles. -/
theorem runsThroughField_gfStep {p : Params} (hp : p.primitive = true) :
    runsThroughField (gfStep p) = true := by
  obtain ⟨-, hdouble, halpha | hstep⟩ := (primitive_iff p).1 hp
  · have hfill : gfStep p = gfDouble p := funext fun v => by rw [gfStep, if_pos halpha]
    rw [hfill]
    exact hdouble
  · exact hstep

/-- The 255 powers are distinct and non-zero, so they are all the non-zero bytes (R120). -/
theorem mem_gfPowers {p : Params} (hp : p.primitive = true) {v : Byte} (hv : v ≠ 0#8) :
    v ∈ gfPowers p := by
  obtain ⟨hnodup, hzero, -⟩ := (runsThroughField_iff _).1 (runsThroughField_gfStep hp)
  have hsub : (gfPowers p).toFinset ⊆ Finset.univ.erase 0#8 := by
    intro w hw
    refine Finset.mem_erase.2 ⟨fun h => hzero ?_, Finset.mem_univ w⟩
    rw [← h]
    exact List.mem_toFinset.1 hw
  have hcard : (Finset.univ.erase (0#8 : Byte)).card ≤ (gfPowers p).toFinset.card := by
    rw [gfPowers, List.toFinset_card_of_nodup hnodup, length_gfIterate,
      Finset.card_erase_of_mem (Finset.mem_univ _), Finset.card_univ,
      ← FinEnum.card_eq_fintypeCard, FinEnum.card_bitVec]
    norm_num
  rw [← List.mem_toFinset, Finset.eq_of_subset_of_card_le hsub hcard]
  exact Finset.mem_erase.2 ⟨hv, Finset.mem_univ v⟩

theorem residue_alpha_pow_255 {p : Params} (hp : p.primitive = true) :
    residue p p.alpha ^ 255 = 1 := by
  obtain ⟨-, -, hback⟩ := (runsThroughField_iff _).1 (runsThroughField_gfStep hp)
  rw [← residue_gfStep_iterate p (primPoly_msb_of_primitive hp), hback, residue_one]

/-! ### The tables `GFEXP` and `GFLOG` -/

theorem gfExp_gfTable (p : Params) (i : Nat) :
    gfExp (gfTable p) i = (gfStep p)^[i % 255] 1#8 := by
  have hget : (gfPowers p)[i % 255]? = some ((gfStep p)^[i % 255] 1#8) :=
    gfIterate_getElem? _ _ _ _ (Nat.mod_lt i (by omega))
  simp [gfExp, gfTable, hget]

theorem lastIndex_of_notMem {v : Byte} {l : List Byte} (hv : v ∉ l) (i found : Nat) :
    lastIndex v l i found = found := by
  induction l generalizing i found with
  | nil => rfl
  | cons w l ih =>
    obtain ⟨hne, hl⟩ := not_or.1 (List.mem_cons.not.1 hv)
    rw [lastIndex, ih hl, if_neg (Ne.symm hne)]

/-- Where the list has `v`, its last index there is a place of `v`. -/
theorem lastIndex_of_mem {v : Byte} {l : List Byte} (hv : v ∈ l) (i found : Nat) :
    ∃ k, lastIndex v l i found = i + k ∧ l[k]? = some v := by
  induction l generalizing i found with
  | nil => simp at hv
  | cons w l ih =>
    by_cases hl : v ∈ l
    · obtain ⟨k, hk, hget⟩ := ih hl (i + 1) (if w = v then i else found)
      exact ⟨k + 1, by rw [lastIndex, hk]; omega, hget⟩
    · have hw : w = v := ((List.mem_cons.1 hv).resolve_right hl).symm
      exact ⟨0, by rw [lastIndex, lastIndex_of_notMem hl, if_pos hw, Nat.add_zero], by simp [hw]⟩

theorem gfLog_gfTable (p : Params) {v : Byte} (hv : v ≠ 0#8) :
    gfLog (gfTable p) v = lastIndex v (gfPowers p) 0 0 := by
  have hpos : 0 < v.toNat := Nat.pos_of_ne_zero fun h => hv (BitVec.eq_of_toNat_eq h)
  have hentry : (v - 1#8).toNat = v.toNat - 1 := by bv_omega
  have hlt : v.toNat - 1 < 255 := by have := v.isLt; omega
  simp [gfLog, gfTable, hentry, hlt, Nat.sub_add_cancel hpos]

/-- `GFLOG` gives every non-zero element an exponent that `GFEXP` takes back to it (R121). -/
theorem gfExp_gfLog {p : Params} (hp : p.primitive = true) {v : Byte} (hv : v ≠ 0#8) :
    gfExp (gfTable p) (gfLog (gfTable p) v) = v := by
  obtain ⟨k, hk, hget⟩ := lastIndex_of_mem (mem_gfPowers hp hv) 0 0
  have hlt : k < 255 := by
    simpa [gfPowers] using (List.getElem?_eq_some_iff.1 hget).1
  rw [gfPowers, gfIterate_getElem? _ _ _ _ hlt, Option.some_inj] at hget
  rw [gfExp_gfTable, gfLog_gfTable p hv, hk, Nat.zero_add, Nat.mod_eq_of_lt hlt, hget]

/-- Every entry of `GFEXP` is the power of `ALPHA` with its index as exponent: the period 255 is its
order. -/
theorem residue_gfExp {p : Params} (hp : p.primitive = true) (i : Nat) :
    residue p (gfExp (gfTable p) i) = residue p p.alpha ^ i := by
  rw [gfExp_gfTable, residue_gfStep_iterate p (primPoly_msb_of_primitive hp),
    ← pow_eq_pow_mod i (residue_alpha_pow_255 hp)]

/-! ### The product -/

/-- Adding logarithms multiplies residues (R123). -/
theorem residue_gfmul {p : Params} (hp : p.primitive = true) (a b : Byte) :
    residue p (gfmul (gfTable p) a b) = residue p a * residue p b := by
  rw [gfmul]
  split_ifs with hzero
  · obtain rfl | rfl := hzero
    · rw [residue_zero, zero_mul]
    · rw [residue_zero, mul_zero]
  · obtain ⟨ha, hb⟩ := not_or.1 hzero
    calc residue p (gfExp (gfTable p) (gfLog (gfTable p) a + gfLog (gfTable p) b))
        = residue p p.alpha ^ gfLog (gfTable p) a * residue p p.alpha ^ gfLog (gfTable p) b := by
          rw [residue_gfExp hp, pow_add]
      _ = residue p (gfExp (gfTable p) (gfLog (gfTable p) a)) *
            residue p (gfExp (gfTable p) (gfLog (gfTable p) b)) := by
          rw [residue_gfExp hp, residue_gfExp hp]
      _ = residue p a * residue p b := by rw [gfExp_gfLog hp ha, gfExp_gfLog hp hb]

/-- Settles O28: in the residue ring of `PRIM_POLY`, `gfmul` adds exponents of `ALPHA`. -/
theorem gfmulIsPolynomialProduct : Obligations.GfmulIsPolynomialProduct := by
  intro p hp a b
  have hprod := residue_gfmul (primitive_of_wellFormed hp) a b
  exact (residue_mul_eq_iff p a b _).1 hprod.symm

end Sys2Proof.Machine

/-! What a command can do to the state, said once (`State.Effect`), and what follows from it for every
command: the invariant (R32, R37, R38, R42, R62) and the columns "written by" of R30 and R40.  Then the
steps that are no commands, and reset. -/

namespace Sys2Proof

theorem Mem.lt_of_mem_cellsFrom {α : Type} {base size : Nat} {l : List α}
    (hl : base + l.length ≤ size) : ∀ a ∈ Mem.cellsFrom base l, a.1 < size :=
  fun _ ha => lt_of_lt_of_le (Mem.mem_cellsFrom ha).2 hl

/-- Cells written from index 0 on stay below the length. -/
theorem Mem.lt_of_mem_cellsFrom_zero {α : Type} {size : Nat} {l : List α} (hl : l.length ≤ size) :
    ∀ a ∈ Mem.cellsFrom 0 l, a.1 < size :=
  Mem.lt_of_mem_cellsFrom (by omega)

theorem Mem.isSome_get?_writeAll {α : Type} (cells : List (Nat × α)) {m : Mem α} {k : Nat}
    (h : (m.get? k).isSome = true) : ((m.writeAll cells).get? k).isSome = true := by
  rw [Mem.get?_writeAll]
  cases Mem.get? cells k <;> simp [h]

end Sys2Proof

namespace Sys2Proof.Machine

/-! ### The lengths of what the units write -/

@[simp] theorem length_rsTimesRoot (t : GfTable) (g : List Byte) (r : Byte) :
    (rsTimesRoot t g r).length = g.length + 1 := by simp [rsTimesRoot]

/-- A generator polynomial of degree `nsym` has `nsym + 1` coefficients (R142). -/
@[simp] theorem length_rsGenerator (t : GfTable) (fcr nsym : Nat) :
    (rsGenerator t fcr nsym).length = nsym + 1 := by
  induction nsym with
  | zero => rfl
  | succ n ih => rw [rsGenerator, length_rsTimesRoot, ih]

@[simp] theorem length_xorPrefix (bs cs : List Byte) : (xorPrefix bs cs).length = bs.length := by
  induction bs generalizing cs with
  | nil => rfl
  | cons b bs ih => cases cs <;> simp [xorPrefix, ih]

/-- Each step of the division takes one byte off the buffer (R143). -/
@[simp] theorem length_rsDivide (t : GfTable) (tail : List Byte) (k : Nat) (buf : List Byte) :
    (rsDivide t tail k buf).length = buf.length - k := by
  induction k generalizing buf with
  | zero => rfl
  | succ k ih =>
    cases buf with
    | nil => simp [rsDivide]
    | cons coef buf => rw [rsDivide, ih]; split_ifs <;> simp

@[simp] theorem length_rsParity (t : GfTable) (tail data : List Byte) :
    (rsParity t tail data).length = tail.length := by simp [rsParity]

@[simp] theorem State.length_genTail (s : State) : s.genTail.length = s.rsNsym.toNat := by
  simp [State.genTail]

@[simp] theorem State.length_syndromes (s : State) (n : Nat) :
    (s.syndromes n).length = s.rsNsym.toNat := by simp [State.syndromes, rsSyndromes]

@[simp] theorem length_swapAt (l : List Word) (i j : Nat) : (swapAt l i j).length = l.length := by
  simp [swapAt]

/-- A shuffle that draws in range keeps the length (R167). -/
theorem length_of_shuffleFrom {c : RplValues} {i : Nat} {v w : BitVec 31} {p q : List Word}
    (h : shuffleFrom c i v p = .ok (q, w)) : q.length = p.length := by
  induction i generalizing v p with
  | zero => cases h; rfl
  | succ i ih =>
    simp only [shuffleFrom] at h
    split_ifs at h
    rw [ih h, length_swapAt]

@[simp] theorem State.length_approxAll (s : State) (site : NumSite) (inputs l : List Num) :
    (s.approxAll site inputs l).length = l.length := by simp [State.approxAll]

@[simp] theorem length_dct2d (n : Nat) (b : Nat → Nat → Num) : (dct2d n b).length = n * n := by
  simp [dct2d, matSums]

@[simp] theorem length_idct2d (n : Nat) (f : Nat → Nat → Num) : (idct2d n f).length = n * n := by
  simp [idct2d, matSums]

@[simp] theorem State.length_hashBits (s : State) : s.hashBits.length = s.cfg.shape.phBits := by
  simp [State.hashBits, hashCoeffs]

@[simp] theorem length_bitsMsb (w v : Nat) : (bitsMsb w v).length = w := by simp [bitsMsb]

/-- `T(L)` is the length of the stream (R246). -/
@[simp] theorem length_lsbStream (magic : BitVec 16) (msg : List Half) :
    (lsbStream magic msg).length = lsbBits msg.length := by
  simp only [lsbStream, lsbBits, List.length_append, List.length_flatMap, length_bitsMsb,
    List.map_const', List.sum_replicate, smul_eq_mul]
  omega

/-! ### Where in `PIX` and `BLKF` the units write -/

/-- An image that fits `PIX` takes four bytes for each pixel of it (R35). -/
theorem State.pixels_le_of_imageFits {s : State} (h : s.imageFits = true) :
    4 * s.pixels ≤ s.cfg.pixSize := by
  simpa [State.imageFits, State.imageBytes, State.pixels, Nat.mul_assoc] using h

/-- The checks of `BLKGET` and `BLKPUT` (R199, R200). -/
theorem State.blockFault_eq_none {s : State} {b : Nat} (h : s.blockFault b = none) :
    s.imageFits = true ∧ b < s.blocks := by
  simp only [State.blockFault] at h
  split_ifs at h with hfit hb
  exact ⟨by simpa using hfit, by omega⟩

/-- A sample of an image block is a pixel of the image (R197). -/
theorem State.blockPixel_lt_pixels {s : State} {b r c : Nat} (hb : b < s.blocks)
    (hr : r < s.cfg.shape.block) (hc : c < s.cfg.shape.block) : s.blockPixel b r c < s.pixels := by
  have hcols : 0 < s.blockCols := Nat.pos_of_mul_pos_right (lt_of_le_of_lt (Nat.zero_le b) hb)
  have hrow : s.cfg.shape.block * (b / s.blockCols) + r < s.height := by
    have hq : b / s.blockCols < s.blockRows := Nat.div_lt_of_lt_mul hb
    calc s.cfg.shape.block * (b / s.blockCols) + r
        < s.cfg.shape.block * (b / s.blockCols + 1) := by rw [Nat.mul_succ]; omega
      _ ≤ s.cfg.shape.block * s.blockRows := Nat.mul_le_mul_left _ hq
      _ ≤ s.height := Nat.mul_div_le _ _
  have hcol : s.cfg.shape.block * (b % s.blockCols) + c < s.width := by
    have hq : b % s.blockCols < s.blockCols := Nat.mod_lt b hcols
    calc s.cfg.shape.block * (b % s.blockCols) + c
        < s.cfg.shape.block * (b % s.blockCols + 1) := by rw [Nat.mul_succ]; omega
      _ ≤ s.cfg.shape.block * s.blockCols := Nat.mul_le_mul_left _ hq
      _ ≤ s.width := Nat.mul_div_le _ _
  calc s.blockPixel b r c
      < (s.cfg.shape.block * (b / s.blockCols) + r + 1) * s.width := by
        rw [State.blockPixel, Nat.succ_mul]; omega
    _ ≤ s.height * s.width := Nat.mul_le_mul_right _ hrow
    _ = s.pixels := Nat.mul_comm _ _

/-- `BLKPUT` writes inside `PIX` (R200). -/
theorem State.blkputCells_lt {s : State} {b : Nat} (h : s.blockFault b = none) :
    ∀ a ∈ s.blockSamples.flatMap (s.blkputCells b), a.1 < s.cfg.pixSize := by
  obtain ⟨hfit, hb⟩ := State.blockFault_eq_none h
  intro a ha
  obtain ⟨k, hk, ha⟩ := List.mem_flatMap.1 ha
  have hk : k < s.cfg.shape.block * s.cfg.shape.block := List.mem_range.1 hk
  have hpixel : s.samplePixelNumber b k < s.pixels :=
    State.blockPixel_lt_pixels hb (Nat.div_lt_of_lt_mul hk)
      (Nat.mod_lt k (Nat.pos_of_mul_pos_right (lt_of_le_of_lt (Nat.zero_le k) hk)))
  have hbytes := State.pixels_le_of_imageFits hfit
  simp only [State.blkputCells, List.mem_cons, List.not_mem_nil, or_false] at ha
  obtain rfl | rfl | rfl := ha <;> dsimp only <;> omega

/-- A stream that fits the image lies inside `PIX` (R247, R249). -/
theorem State.lsbCells_lt {s : State} {stream : List Bit} (hfit : s.imageFits = true)
    (hroom : (stream.length + 2) / 3 ≤ s.pixels) (put : Bit × Nat → Byte) :
    ∀ a ∈ stream.zipIdx.map fun bt => (lsbPos bt.2, put bt), a.1 < s.cfg.pixSize := by
  intro a ha
  obtain ⟨bt, hbt, rfl⟩ := List.mem_map.1 ha
  have ht : bt.2 < stream.length := List.snd_lt_of_mem_zipIdx hbt
  have hbytes := State.pixels_le_of_imageFits hfit
  simp only [lsbPos]
  omega

/-- An embedding position is a coefficient of the block (R196). -/
theorem posIndex_lt {p : Params} (hp : p.positionsOk = true) {k : Nat} (hk : k < p.shape.npos) :
    posIndex p k < p.shape.block * p.shape.block := by
  simp only [Params.positionsOk, Bool.and_eq_true, decide_eq_true_eq, List.all_eq_true] at hp
  obtain ⟨⟨hlen, -⟩, hall⟩ := hp
  rw [← hlen] at hk
  obtain ⟨hu, hv⟩ := hall _ (List.getElem_mem hk)
  rw [posIndex, List.getD_eq_getElem _ _ hk]
  calc p.shape.block * p.embedPos[k].1 + p.embedPos[k].2
      < p.shape.block * (p.embedPos[k].1 + 1) := by rw [Nat.mul_succ]; omega
    _ ≤ p.shape.block * p.shape.block := Nat.mul_le_mul_left _ hu

/-- A hidden message is at most `LSB_LEN_MAX` units (R251). -/
theorem State.lsbLength_le (s : State) : s.lsbLength ≤ s.cfg.rpl.lsbLenMax := by
  simp only [State.lsbLength]
  split_ifs <;> omega

/-! ### What a command can do -/

/-- All that a command can do to the state: the operations it writes with and the bounds of what it writes.
The values that no invariant speaks of are left open. -/
inductive State.Effect (s : State) : Instr → State → Prop
  /-- `NOP`, and every command but `CLRF` while a fault is pending (R265, R314). -/
  | unchanged (i : Instr) : s.Effect i s
  | raise (i : Instr) (k : FaultKind) (v : Nat) : s.Effect i (s.raise k v)
  | acknowledge : s.Effect .clrf s.acknowledge
  /-- The commands with no result but a scalar register. -/
  | setX (i : Instr) (rd : RegNum) (v : Word) : s.Effect i (s.setX rd v)
  | storeInt {sel : Sel} {sp : Space} {n : Nat} (rs1 rs2 : RegNum) (v : Nat)
      (hsel : spaceOfSel sel = some sp) (hw : spaceWritable sp = true) (hb : s.inBounds sp n = true) :
      s.Effect (.sts sel rs1 rs2) (s.storeInt sp n v)
  | storeNum {sel : Sel} {sp : Space} {n : Nat} (rs1 rs2 : RegNum) (v : Num)
      (hsel : spaceOfSel sel = some sp) (hw : spaceWritable sp = true) (hb : s.inBounds sp n = true) :
      s.Effect (.sts sel rs1 rs2) (s.storeNum sp n v)
  | writeCsr {sel : Sel} {c : Csr} (rs1 : RegNum) (v : Nat)
      (hsel : csrOfSel sel = some c) (hw : csrWritable c = true) :
      s.Effect (.csrw sel rs1) (s.writeCsr c v)
  | rscfg (rs1 : RegNum) {n : Nat} (hn : n ≤ s.cfg.nsymMax) :
      s.Effect (.rscfg rs1)
        { s.writeGen (Mem.cellsFrom 0 (rsGenerator (gfTable s.cfg) s.cfg.fcr n)) with
          rsNsym := BitVec.ofNat 11 n, syn := [], synEpoch := s.synEpoch + 1 }
  | rsenc (rs1 : RegNum) {c : List (Nat × Byte)} (hc : ∀ a ∈ c, a.1 < s.cfg.symSize) :
      s.Effect (.rsenc rs1) (s.writeSym c)
  | rssyn (rd rs1 : RegNum) {c : List (Nat × Byte)} (hc : ∀ a ∈ c, a.1 < s.rsNsym.toNat)
      (v : Word) (b : Bool) : s.Effect (.rssyn rd rs1) (((s.writeSyn c).setX rd v).setRserr b)
  | rsdec (rd rs1 : RegNum) {c : List (Nat × Byte)} (hc : ∀ a ∈ c, a.1 < s.rsNsym.toNat)
      (v : Word) (b : Bool) : s.Effect (.rsdec rd rs1) (((s.writeSyn c).setRserr b).setX rd v)
  | seed (rs1 : RegNum) (v : BitVec 31) : s.Effect (.seed rs1) (s.setSeed v)
  | next (rd : RegNum) (v : BitVec 31) (w : Word) : s.Effect (.next rd) ((s.setSeed v).setX rd w)
  | nexti (rd rs1 rs2 : RegNum) (v : BitVec 31) (w : Word) :
      s.Effect (.nexti rd rs1 rs2) ((s.setSeed v).setX rd w)
  | sprd (rd : RegNum) (v : BitVec 31) (w : Word) : s.Effect (.sprd rd) ((s.setSeed v).setX rd w)
  | pinit (rs1 : RegNum) {l : List Word} (hl : l.length ≤ s.cfg.permSize) (hw : l.length < 2 ^ 32) :
      s.Effect (.pinit rs1)
        { s.writePerm (Mem.cellsFrom 0 l) with permN := BitVec.ofNat 32 l.length }
  | shuf {c : List (Nat × Word)} (hc : ∀ a ∈ c, a.1 < s.permN.toNat) (v : BitVec 31) :
      s.Effect .shuf ((s.writePerm c).setSeed v)
  | dct {c : List (Nat × Num)} (hc : ∀ a ∈ c, a.1 < s.cfg.shape.block * s.cfg.shape.block) :
      s.Effect .dct (s.writeBlkf c)
  | idct {c : List (Nat × Num)} (hc : ∀ a ∈ c, a.1 < s.cfg.shape.block * s.cfg.shape.block) :
      s.Effect .idct (s.writeBlkr c)
  | blkget (rs1 : RegNum) {c : List (Nat × Num)}
      (hc : ∀ a ∈ c, a.1 < s.cfg.shape.block * s.cfg.shape.block) :
      s.Effect (.blkget rs1) (s.writeBlks c)
  | blkput (rs1 : RegNum) {c : List (Nat × Byte)} (hc : ∀ a ∈ c, a.1 < s.cfg.pixSize) :
      s.Effect (.blkput rs1) (s.writePix c)
  | qemb (rd rs1 rs2 : RegNum) {k : Nat} (hk : k < s.cfg.shape.npos) (v : Num) :
      s.Effect (.qemb rd rs1 rs2) (s.writeBlkf [(posIndex s.cfg k, v)])
  | qext (rd rs1 rs2 : RegNum) (v : Word) (w : Num) :
      s.Effect (.qext rd rs1 rs2) ((s.setX rd v).writeConf w)
  | vclr (rs1 : RegNum) {c d : List (Nat × Num)} (hc : ∀ a ∈ c, a.1 < s.cfg.bitSize)
      (hd : ∀ a ∈ d, a.1 < s.cfg.bitSize) :
      s.Effect (.vclr rs1) ((s.writeAcc0 c).writeAcc1 d)
  | vaccZero (rs1 rs2 : RegNum) {n : Nat} (hn : n < s.cfg.bitSize) (v : Num) :
      s.Effect (.vacc rs1 rs2) (s.writeAcc0 [(n, v)])
  | vaccOne (rs1 rs2 : RegNum) {n : Nat} (hn : n < s.cfg.bitSize) (v : Num) :
      s.Effect (.vacc rs1 rs2) (s.writeAcc1 [(n, v)])
  | vote (rd rs1 : RegNum) {n : Nat} (hn : n < s.cfg.bitSize) (v : Word) (b : Bit) :
      s.Effect (.vote rd rs1) ((s.setX rd v).writeBit [(n, b)])
  | magcmp (rd : RegNum) (v : Word) (b : Bool) : s.Effect (.magcmp rd) ((s.setX rd v).setFound b)
  | phash {c : List (Nat × Bit)} (hc : ∀ a ∈ c, a.1 < s.cfg.shape.phBits) :
      s.Effect .phash (s.writePh c)
  | lsbenc (rs1 : RegNum) {c : List (Nat × Byte)} (hc : ∀ a ∈ c, a.1 < s.cfg.pixSize) :
      s.Effect (.lsbenc rs1) (s.writePix c)
  | lsbdec (rd : RegNum) {c : List (Nat × Half)} (hc : ∀ a ∈ c, a.1 < s.cfg.rpl.lsbLenMax) (v : Word) :
      s.Effect (.lsbdec rd) ((s.writeMsg c).setX rd v)

/-- A check of a rule: the command goes on only where the check finds no fault. -/
theorem ite_error_eq_ok {p : Prop} [Decidable p] {e : FaultKind × Nat} {c : Cmd} {u : State} :
    (if p then .error e else c) = .ok u ↔ ¬ p ∧ c = .ok u := by
  split_ifs with hp <;> simp [hp]

/-- It is enough to look at the state that a command's rule gives. -/
theorem State.Effect.of_perform {i : Instr} {s t : State} {c : Cmd} (h : s.perform c = .next t)
    (hok : ∀ u, c = .ok u → s.Effect i u) : s.Effect i t := by
  obtain ⟨-, rfl⟩ | ⟨-, hc⟩ | ⟨-, k, v, -, rfl⟩ := State.perform_cases h
  · exact .unchanged i
  · exact hok t hc
  · exact .raise i k v

variable {s t : State}

/-! ### System and data movement -/

theorem execLds_effect {rd : RegNum} {sel : Sel} {rs1 : RegNum} (h : execLds rd sel rs1 s = .next t) :
    s.Effect (.lds rd sel rs1) t := by
  refine .of_perform h fun u hu => ?_
  split at hu <;> cases hu
  exact .setX _ rd _

theorem execSts_effect {sel : Sel} {rs1 rs2 : RegNum} (h : execSts sel rs1 rs2 s = .next t) :
    s.Effect (.sts sel rs1 rs2) t := by
  refine .of_perform h fun u hu => ?_
  obtain ⟨sp, hsel, hw, hb, ⟨-, rfl⟩ | ⟨w, -, -, rfl⟩⟩ := State.memWrite_ok hu
  · exact .storeNum rs1 rs2 _ hsel hw hb
  · exact .storeInt rs1 rs2 _ hsel hw hb

theorem execClrf_effect (h : execClrf s = .next t) : s.Effect .clrf t := by
  cases h
  exact .acknowledge

theorem execCsrr_effect {rd : RegNum} {sel : Sel} (h : execCsrr rd sel s = .next t) :
    s.Effect (.csrr rd sel) t := by
  refine .of_perform h fun u hu => ?_
  split at hu <;> cases hu
  exact .setX _ rd _

theorem execCsrw_effect {sel : Sel} {rs1 : RegNum} (h : execCsrw sel rs1 s = .next t) :
    s.Effect (.csrw sel rs1) t := by
  refine .of_perform h fun u hu => ?_
  split at hu
  case h_1 => cases hu
  case h_2 c hsel =>
    simp only [ite_error_eq_ok] at hu
    obtain ⟨hw, -, ⟨⟩⟩ := hu
    exact .writeCsr rs1 _ hsel (by simpa using hw)

/-! ### Galois field and Reed-Solomon -/

theorem execGfmul_effect {rd rs1 rs2 : RegNum} (h : execGfmul rd rs1 rs2 s = .next t) :
    s.Effect (.gfmul rd rs1 rs2) t := by
  refine .of_perform h fun u hu => ?_
  simp only [ite_error_eq_ok] at hu
  obtain ⟨-, -, ⟨⟩⟩ := hu
  exact .setX _ rd _

theorem execGfpow_effect {rd rs1 rs2 : RegNum} (h : execGfpow rd rs1 rs2 s = .next t) :
    s.Effect (.gfpow rd rs1 rs2) t := by
  refine .of_perform h fun u hu => ?_
  simp only [ite_error_eq_ok] at hu
  obtain ⟨-, -, ⟨⟩⟩ := hu
  exact .setX _ rd _

theorem execGfdiv_effect {rd rs1 rs2 : RegNum} (h : execGfdiv rd rs1 rs2 s = .next t) :
    s.Effect (.gfdiv rd rs1 rs2) t := by
  refine .of_perform h fun u hu => ?_
  simp only [ite_error_eq_ok] at hu
  obtain ⟨-, -, -, ⟨⟩⟩ := hu
  exact .setX _ rd _

theorem execGfinv_effect {rd rs1 : RegNum} (h : execGfinv rd rs1 s = .next t) :
    s.Effect (.gfinv rd rs1) t := by
  refine .of_perform h fun u hu => ?_
  simp only [ite_error_eq_ok] at hu
  obtain ⟨-, -, ⟨⟩⟩ := hu
  exact .setX _ rd _

theorem execRscfg_effect {rs1 : RegNum} (h : execRscfg rs1 s = .next t) :
    s.Effect (.rscfg rs1) t := by
  refine .of_perform h fun u hu => ?_
  simp only [ite_error_eq_ok, not_lt] at hu
  obtain ⟨hn, ⟨⟩⟩ := hu
  exact .rscfg rs1 hn

theorem execRsenc_effect {rs1 : RegNum} (h : execRsenc rs1 s = .next t) :
    s.Effect (.rsenc rs1) t := by
  refine .of_perform h fun u hu => ?_
  simp only [ite_error_eq_ok, not_lt] at hu
  obtain ⟨hn, ⟨⟩⟩ := hu
  exact .rsenc rs1 (Mem.lt_of_mem_cellsFrom (by simpa using hn))

theorem execRssyn_effect {rd rs1 : RegNum} (h : execRssyn rd rs1 s = .next t) :
    s.Effect (.rssyn rd rs1) t := by
  refine .of_perform h fun u hu => ?_
  simp only [ite_error_eq_ok] at hu
  obtain ⟨-, ⟨⟩⟩ := hu
  exact .rssyn rd rs1 (Mem.lt_of_mem_cellsFrom_zero (State.length_syndromes s _).le) _ _

theorem execRsdec_effect {rd rs1 : RegNum} (h : execRsdec rd rs1 s = .next t) :
    s.Effect (.rsdec rd rs1) t := by
  refine .of_perform h fun u hu => ?_
  simp only [ite_error_eq_ok] at hu
  obtain ⟨-, -, ⟨⟩⟩ := hu
  exact .rsdec rd rs1 (Mem.lt_of_mem_cellsFrom_zero (State.length_syndromes s _).le) _ _

/-! ### Generator and permuter -/

theorem execSeed_effect {rs1 : RegNum} (h : execSeed rs1 s = .next t) : s.Effect (.seed rs1) t := by
  refine .of_perform h fun u hu => ?_
  simp only [ite_error_eq_ok] at hu
  obtain ⟨-, ⟨⟩⟩ := hu
  exact .seed rs1 _

theorem execNexti_effect {rd rs1 rs2 : RegNum} (h : execNexti rd rs1 rs2 s = .next t) :
    s.Effect (.nexti rd rs1 rs2) t := by
  refine .of_perform h fun u hu => ?_
  simp only [ite_error_eq_ok] at hu
  obtain ⟨-, ⟨⟩⟩ := hu
  exact .nexti rd rs1 rs2 _ _

theorem execPinit_effect {rs1 : RegNum} (h : execPinit rs1 s = .next t) :
    s.Effect (.pinit rs1) t := by
  refine .of_perform h fun u hu => ?_
  simp only [ite_error_eq_ok, not_lt] at hu
  obtain ⟨hn, ⟨⟩⟩ := hu
  have hlen : ((List.range (s.natX rs1)).map (BitVec.ofNat 32)).length = s.natX rs1 := by simp
  have hpinit := State.Effect.pinit rs1 (hlen.trans_le hn) (hlen.trans_lt (s.getX rs1).isLt)
  rwa [hlen] at hpinit

theorem execShuf_effect (h : execShuf s = .next t) : s.Effect .shuf t := by
  refine .of_perform h fun u hu => ?_
  split at hu <;> cases hu
  next p v hshuf =>
    have hlen : p.length = s.permN.toNat := by
      rw [length_of_shuffleFrom hshuf, State.permList, List.length_map, List.length_range]
    exact .shuf (Mem.lt_of_mem_cellsFrom_zero hlen.le) v

/-! ### Transforms, embedding and extraction -/

theorem execDct_effect (h : execDct s = .next t) : s.Effect .dct t := by
  refine .of_perform h fun u hu => ?_
  cases hu
  exact .dct (Mem.lt_of_mem_cellsFrom_zero (by simp))

theorem execIdct_effect (h : execIdct s = .next t) : s.Effect .idct t := by
  refine .of_perform h fun u hu => ?_
  cases hu
  exact .idct (Mem.lt_of_mem_cellsFrom_zero (by simp))

theorem execBlkget_effect {rs1 : RegNum} (h : execBlkget rs1 s = .next t) :
    s.Effect (.blkget rs1) t := by
  refine .of_perform h fun u hu => ?_
  dsimp only at hu
  split at hu <;> cases hu
  exact .blkget rs1 (Mem.lt_of_mem_cellsFrom_zero (by simp [State.blockSamples]))

theorem execBlkput_effect {rs1 : RegNum} (h : execBlkput rs1 s = .next t) :
    s.Effect (.blkput rs1) t := by
  refine .of_perform h fun u hu => ?_
  dsimp only at hu
  split at hu <;> cases hu
  next hfault => exact .blkput rs1 (State.blkputCells_lt hfault)

theorem execQemb_effect {rd rs1 rs2 : RegNum} (h : execQemb rd rs1 rs2 s = .next t) :
    s.Effect (.qemb rd rs1 rs2) t := by
  refine .of_perform h fun u hu => ?_
  simp only [ite_error_eq_ok, not_le] at hu
  obtain ⟨hk, -, -, -, ⟨⟩⟩ := hu
  exact .qemb rd rs1 rs2 hk _

theorem execQext_effect {rd rs1 rs2 : RegNum} (h : execQext rd rs1 rs2 s = .next t) :
    s.Effect (.qext rd rs1 rs2) t := by
  refine .of_perform h fun u hu => ?_
  simp only [ite_error_eq_ok] at hu
  obtain ⟨-, -, ⟨⟩⟩ := hu
  exact .qext rd rs1 rs2 _ _

theorem execVclr_effect {rs1 : RegNum} (h : execVclr rs1 s = .next t) : s.Effect (.vclr rs1) t := by
  refine .of_perform h fun u hu => ?_
  simp only [ite_error_eq_ok, not_lt] at hu
  obtain ⟨hn, ⟨⟩⟩ := hu
  exact .vclr rs1 (Mem.lt_of_mem_cellsFrom_zero (by simpa using hn))
    (Mem.lt_of_mem_cellsFrom_zero (by simpa using hn))

theorem execVacc_effect {rs1 rs2 : RegNum} (h : execVacc rs1 rs2 s = .next t) :
    s.Effect (.vacc rs1 rs2) t := by
  refine .of_perform h fun u hu => ?_
  simp only [ite_error_eq_ok, not_le] at hu
  obtain ⟨hn, -, hu⟩ := hu
  split_ifs at hu <;> cases hu
  · exact .vaccOne rs1 rs2 hn _
  · exact .vaccZero rs1 rs2 hn _

theorem execVote_effect {rd rs1 : RegNum} (h : execVote rd rs1 s = .next t) :
    s.Effect (.vote rd rs1) t := by
  refine .of_perform h fun u hu => ?_
  simp only [ite_error_eq_ok, not_le] at hu
  obtain ⟨hn, ⟨⟩⟩ := hu
  exact .vote rd rs1 hn _ _

/-! ### Perceptual hash and LSB codec -/

theorem execPhash_effect (h : execPhash s = .next t) : s.Effect .phash t := by
  refine .of_perform h fun u hu => ?_
  simp only [ite_error_eq_ok] at hu
  obtain ⟨-, -, ⟨⟩⟩ := hu
  exact .phash (Mem.lt_of_mem_cellsFrom_zero (State.length_hashBits s).le)

theorem execPhver_effect {rd rs1 rs2 : RegNum} (h : execPhver rd rs1 rs2 s = .next t) :
    s.Effect (.phver rd rs1 rs2) t := by
  refine .of_perform h fun u hu => ?_
  simp only [ite_error_eq_ok] at hu
  obtain ⟨-, ⟨⟩⟩ := hu
  exact .setX _ rd _

theorem execLsbenc_effect {rs1 : RegNum} (h : execLsbenc rs1 s = .next t) :
    s.Effect (.lsbenc rs1) t := by
  refine .of_perform h fun u hu => ?_
  simp only [ite_error_eq_ok, not_lt] at hu
  obtain ⟨hfit, -, hroom, ⟨⟩⟩ := hu
  exact .lsbenc rs1 (State.lsbCells_lt (by simpa using hfit) (by simpa [State.msgList] using hroom) _)

theorem execLsbdec_effect {rd : RegNum} (h : execLsbdec rd s = .next t) :
    s.Effect (.lsbdec rd) t := by
  refine .of_perform h fun u hu => ?_
  simp only [ite_error_eq_ok] at hu
  obtain ⟨-, ⟨⟩⟩ := hu
  exact .lsbdec rd (Mem.lt_of_mem_cellsFrom_zero (by simpa using s.lsbLength_le)) _

theorem execLsbhas_effect {rd : RegNum} (h : execLsbhas rd s = .next t) :
    s.Effect (.lsbhas rd) t := by
  refine .of_perform h fun u hu => ?_
  simp only [ite_error_eq_ok] at hu
  obtain ⟨-, hu⟩ := hu
  split_ifs at hu <;> cases hu <;> exact .setX _ rd _

/-- A command without a check ends in the state that its rule gives. -/
theorem State.Effect.of_perform_ok {i : Instr} {u : State} (h : s.perform (.ok u) = .next t)
    (hu : s.Effect i u) : s.Effect i t :=
  .of_perform h fun _ e => Except.ok.inj e ▸ hu

/-- What a command does is one of its effects. -/
theorem exec_effect {i : Instr} (h : exec i s = .next t) : s.Effect i t := by
  cases i with
  | nop => exact .of_perform_ok h (.unchanged _)
  | li rd imm => exact .of_perform_ok h (.setX _ rd _)
  | lih rd imm => exact .of_perform_ok h (.setX _ rd _)
  | lds rd sel rs1 => exact execLds_effect h
  | sts sel rs1 rs2 => exact execSts_effect h
  | clrf => exact execClrf_effect h
  | csrr rd sel => exact execCsrr_effect h
  | csrw sel rs1 => exact execCsrw_effect h
  | gfmul rd rs1 rs2 => exact execGfmul_effect h
  | gfpow rd rs1 rs2 => exact execGfpow_effect h
  | gfdiv rd rs1 rs2 => exact execGfdiv_effect h
  | gfinv rd rs1 => exact execGfinv_effect h
  | rscfg rs1 => exact execRscfg_effect h
  | rsenc rs1 => exact execRsenc_effect h
  | rssyn rd rs1 => exact execRssyn_effect h
  | rsdec rd rs1 => exact execRsdec_effect h
  | seed rs1 => exact execSeed_effect h
  | next rd => exact .of_perform_ok h (.next rd _ _)
  | nexti rd rs1 rs2 => exact execNexti_effect h
  | pinit rs1 => exact execPinit_effect h
  | shuf => exact execShuf_effect h
  | sprd rd => exact .of_perform_ok h (.sprd rd _ _)
  | dct => exact execDct_effect h
  | idct => exact execIdct_effect h
  | blkget rs1 => exact execBlkget_effect h
  | blkput rs1 => exact execBlkput_effect h
  | qemb rd rs1 rs2 => exact execQemb_effect h
  | qext rd rs1 rs2 => exact execQext_effect h
  | vclr rs1 => exact execVclr_effect h
  | vacc rs1 rs2 => exact execVacc_effect h
  | vote rd rs1 => exact execVote_effect h
  | magcmp rd => exact .of_perform_ok h (.magcmp rd _ _)
  | phash => exact execPhash_effect h
  | phcmp rd => exact .of_perform_ok h (.setX _ rd _)
  | phver rd rs1 rs2 => exact execPhver_effect h
  | lsbenc rs1 => exact execLsbenc_effect h
  | lsbdec rd => exact execLsbdec_effect h
  | lsbhas rd => exact execLsbhas_effect h

/-! ### The invariant, command by command -/

/-- What an allowed parameter table says of the sizes and positions that the commands rely on (R8). -/
theorem bounds_of_wellFormed {p : Params} (hp : p.wellFormed = true) :
    p.positionsOk = true ∧ p.rpl.lsbLenMax ≤ p.msgSize ∧ p.nsymMax < 2048 := by
  simp only [Params.wellFormed, Params.sizesOk, Params.nsymOk, Bool.and_eq_true,
    decide_eq_true_eq] at hp
  obtain ⟨⟨⟨⟨⟨⟨-, hpos⟩, -, hmsg⟩, hnsym⟩, -⟩, -⟩, -⟩ := hp
  exact ⟨hpos, hmsg, hnsym⟩

namespace State.Inv

/-- Taking a fault (R311, R312). -/
theorem raise (h : s.Inv) (k : FaultKind) (v : Nat) : (s.raise k v).Inv :=
  { h with
    spaces := h.spaces.raise k v
    quiet := nofun
    pending := fun _ => k.code_range }

/-- The return from a fault (R270). -/
theorem acknowledge (h : s.Inv) : s.acknowledge.Inv :=
  { h with
    spaces := h.spaces.acknowledge
    quiet := fun _ => ⟨rfl, rfl⟩
    pending := nofun }

/-- A store of an element: no live element of `PERM` becomes unwritten. -/
theorem storeInt (h : s.Inv) {sp : Space} {n : Nat} (hb : s.inBounds sp n = true) (v : Nat) :
    (s.storeInt sp n v).Inv := by
  have hspaces := h.spaces.storeInt (State.lt_size_of_inBounds hb) v
  cases sp with
  | perm =>
    exact { h with
      spaces := hspaces, perm := fun i hi => Mem.isSome_get?_writeAll _ (h.perm i hi) }
  | _ => exact { h with spaces := hspaces }

theorem storeNum (h : s.Inv) {sp : Space} {n : Nat} (hb : s.inBounds sp n = true) (v : Num) :
    (s.storeNum sp n v).Inv := by
  have hspaces := h.spaces.storeNum (State.lt_size_of_inBounds hb) v
  cases sp <;> exact { h with spaces := hspaces }

theorem setX (h : s.Inv) (r : RegNum) (v : Word) : (s.setX r v).Inv :=
  { h with spaces := h.spaces.setX r v }

theorem writeCsr (h : s.Inv) (c : Csr) (v : Nat) : (s.writeCsr c v).Inv := by
  cases c <;> exact { h with spaces := { h.spaces with } }

/-- `RSCFG` writes every live element of `GEN`, and no element of `SYN` remains (R42, R141). -/
theorem rscfg (h : s.Inv) {n : Nat} (hn : n ≤ s.cfg.nsymMax) :
    State.Inv { s.writeGen (Mem.cellsFrom 0 (rsGenerator (gfTable s.cfg) s.cfg.fcr n)) with
      rsNsym := BitVec.ofNat 11 n, syn := [], synEpoch := s.synEpoch + 1 } := by
  obtain ⟨-, -, hmax⟩ := bounds_of_wellFormed h.params
  have hnsym : (BitVec.ofNat 11 n).toNat = n := Nat.mod_eq_of_lt (by omega)
  have hgen := h.spaces.writeGen (Mem.lt_of_mem_cellsFrom_zero
    (l := rsGenerator (gfTable s.cfg) s.cfg.fcr n) (by simpa using hn))
  refine { h with
    spaces := { hgen with syn := rfl }, nsym := hnsym.trans_le hn, gen := fun i hi => ?_ }
  dsimp only at hi ⊢
  rw [hnsym] at hi ⊢
  rw [State.writeGen_gen, Mem.get?_writeAll_cellsFrom, length_rsGenerator, if_pos (by omega)]
  rfl

/-- `PINIT` writes every live element of `PERM` (R166). -/
theorem pinit (h : s.Inv) {l : List Word} (hl : l.length ≤ s.cfg.permSize) (hw : l.length < 2 ^ 32) :
    State.Inv { s.writePerm (Mem.cellsFrom 0 l) with permN := BitVec.ofNat 32 l.length } := by
  have hpermN : (BitVec.ofNat 32 l.length).toNat = l.length := Nat.mod_eq_of_lt hw
  have hperm := h.spaces.writePerm (Mem.lt_of_mem_cellsFrom_zero hl)
  refine { h with spaces := { hperm with }, permN := hpermN.trans_le hl, perm := fun i hi => ?_ }
  have hi : i < l.length := hpermN ▸ hi
  dsimp only
  rw [State.writePerm_perm, Mem.get?_writeAll_cellsFrom, if_pos (by omega)]
  simpa using hi

/-- `SHUF` writes below `PERM_N` only, so inside `PERM` (R38, R167). -/
theorem shuf (h : s.Inv) {c : List (Nat × Word)} (hc : ∀ a ∈ c, a.1 < s.permN.toNat)
    (v : BitVec 31) : ((s.writePerm c).setSeed v).Inv :=
  { h with
    spaces := (h.spaces.writePerm fun a ha => (hc a ha).trans_le h.permN).setSeed v
    perm := fun i hi => Mem.isSome_get?_writeAll c (h.perm i hi) }

/-- Every command keeps the invariant. -/
theorem of_effect {i : Instr} (h : s.Inv) (he : s.Effect i t) : t.Inv := by
  obtain ⟨hpos, hmsg, -⟩ := bounds_of_wellFormed h.params
  cases he with
  | unchanged => exact h
  | raise _ k v => exact h.raise k v
  | acknowledge => exact h.acknowledge
  | setX _ rd v => exact h.setX rd v
  | storeInt _ _ v _ _ hb => exact h.storeInt hb v
  | storeNum _ _ v _ _ hb => exact h.storeNum hb v
  | writeCsr _ v => exact h.writeCsr _ v
  | rscfg _ hn => exact h.rscfg hn
  | rsenc _ hc => exact { h with spaces := h.spaces.writeSym hc }
  | rssyn rd _ hc v b =>
    have hsyn := h.spaces.writeSyn fun a ha => (hc a ha).trans_le h.nsym
    exact { h with spaces := (hsyn.setX rd v).setRserr b }
  | rsdec rd _ hc v b =>
    have hsyn := h.spaces.writeSyn fun a ha => (hc a ha).trans_le h.nsym
    exact { h with spaces := (hsyn.setRserr b).setX rd v }
  | seed _ v => exact { h with spaces := h.spaces.setSeed v }
  | next rd v w => exact { h with spaces := (h.spaces.setSeed v).setX rd w }
  | nexti rd _ _ v w => exact { h with spaces := (h.spaces.setSeed v).setX rd w }
  | sprd rd v w => exact { h with spaces := (h.spaces.setSeed v).setX rd w }
  | pinit _ hl hw => exact h.pinit hl hw
  | shuf hc v => exact h.shuf hc v
  | dct hc => exact { h with spaces := h.spaces.writeBlkf hc }
  | idct hc => exact { h with spaces := h.spaces.writeBlkr hc }
  | blkget _ hc => exact { h with spaces := h.spaces.writeBlks hc }
  | blkput _ hc => exact { h with spaces := h.spaces.writePix hc }
  | qemb _ _ _ hk v =>
    exact { h with
      spaces := h.spaces.writeBlkf (List.forall_mem_singleton.2 (posIndex_lt hpos hk)) }
  | qext rd _ _ v w => exact { h with spaces := (h.spaces.setX rd v).writeConf w }
  | vclr _ hc hd => exact { h with spaces := (h.spaces.writeAcc0 hc).writeAcc1 hd }
  | vaccZero _ _ hn v =>
    exact { h with spaces := h.spaces.writeAcc0 (List.forall_mem_singleton.2 hn) }
  | vaccOne _ _ hn v =>
    exact { h with spaces := h.spaces.writeAcc1 (List.forall_mem_singleton.2 hn) }
  | vote rd _ hn v b =>
    exact { h with spaces := (h.spaces.setX rd v).writeBit (List.forall_mem_singleton.2 hn) }
  | magcmp rd v b => exact { h with spaces := (h.spaces.setX rd v).setFound b }
  | phash hc => exact { h with spaces := h.spaces.writePh hc }
  | lsbenc _ hc => exact { h with spaces := h.spaces.writePix hc }
  | lsbdec rd hc v =>
    have hunits := h.spaces.writeMsg fun a ha => (hc a ha).trans_le hmsg
    exact { h with spaces := hunits.setX rd v }

/-- Reset gives an allowed table the invariant (R37, R42, R48). -/
theorem afterReset {p : Params} (hp : p.wellFormed = true) (a b : Nat) (input : List HostAct) :
    (State.afterReset p a b input).Inv where
  params := hp
  spaces := State.afterReset_spacesOk p a b input
  nsym := Nat.zero_le _
  gen i hi := by obtain rfl : i = 0 := Nat.le_zero.1 hi; rfl
  permN := Nat.zero_le _
  perm i hi := absurd hi (Nat.not_lt_zero i)
  quiet _ := ⟨rfl, rfl⟩
  pending := nofun

/-- The host's actions are no part of the invariant. -/
theorem withInput (h : s.Inv) (input : List HostAct) : State.Inv { s with input := input } :=
  { h with spaces := { h.spaces with } }

/-! ### The invariant, host action by host action -/

theorem issue (h : s.Inv) {w : Word} (hs : s.issue w = .next t) : t.Inv := by
  simp only [State.issue] at hs
  split_ifs at hs
  · cases hs
    exact h
  · split at hs
    · exact h.of_effect (exec_effect hs)
    · cases hs
      exact h.raise _ _

theorem hostWriteSpace (h : s.Inv) {sp : Space} {n : Nat} {e : Elem}
    (hs : s.hostWriteSpace sp n e = .next t) : t.Inv := by
  simp only [State.hostWriteSpace] at hs
  split_ifs at hs with hok
  simp only [State.hostWriteOk, Bool.and_eq_true] at hok
  obtain ⟨⟨-, hb⟩, -⟩ := hok
  cases e with
  | int v => cases hs; exact h.storeInt hb v
  | num v => cases hs; exact h.storeNum hb v

theorem hostWriteCsr (h : s.Inv) {c : Csr} {v : Nat} (hs : s.hostWriteCsr c v = .next t) : t.Inv := by
  simp only [State.hostWriteCsr] at hs
  split_ifs at hs <;> cases hs <;> exact h.writeCsr c v

theorem act (h : s.Inv) {a : HostAct} (hs : s.act a = .next t) : t.Inv := by
  cases a with
  | command w => exact h.issue hs
  | writeSpace sp n e => exact h.hostWriteSpace hs
  | writeReg r v => cases hs; exact h.setX r v
  | writeCsr c v => exact h.hostWriteCsr hs
  | reset => cases hs; exact afterReset h.params _ _ _

end State.Inv

/-- A step with an action pending performs it on the state without it (R23). -/
theorem step_of_input {a : HostAct} {rest : List HostAct} (h : s.input = a :: rest) :
    step s = State.act { s with input := rest } a := by
  rw [step, h]

/-- Settles O10: a step waits or performs one action of the host, and each kind of action keeps the
invariant; a command does because each of its effects does. -/
theorem stepKeepsInvariant : Obligations.StepKeepsInvariant := by
  intro s t h hs
  cases hin : s.input with
  | nil =>
    rw [step, hin] at hs
    cases hs
    exact h
  | cons a rest =>
    rw [step_of_input hin] at hs
    exact (h.withInput rest).act hs

/-! ### The columns "written by" -/

/-- Which commands write elements of a space: the column "written by" of R40, and `RSCFG` for `SYN`
(R42). -/
inductive WritesSpace : Instr → Space → Prop
  | sts {sel : Sel} {sp : Space} (hsel : sel = BitVec.ofNat 8 (selOfSpace sp))
      (hw : spaceWritable sp = true) (rs1 rs2 : RegNum) : WritesSpace (.sts sel rs1 rs2) sp
  | blkput (rs1 : RegNum) : WritesSpace (.blkput rs1) .pix
  | lsbenc (rs1 : RegNum) : WritesSpace (.lsbenc rs1) .pix
  | rsenc (rs1 : RegNum) : WritesSpace (.rsenc rs1) .sym
  | vote (rd rs1 : RegNum) : WritesSpace (.vote rd rs1) .bit
  | lsbdec (rd : RegNum) : WritesSpace (.lsbdec rd) .msg
  | pinit (rs1 : RegNum) : WritesSpace (.pinit rs1) .perm
  | shuf : WritesSpace .shuf .perm
  | rscfgGen (rs1 : RegNum) : WritesSpace (.rscfg rs1) .gen
  | rscfgSyn (rs1 : RegNum) : WritesSpace (.rscfg rs1) .syn
  | rssyn (rd rs1 : RegNum) : WritesSpace (.rssyn rd rs1) .syn
  | rsdec (rd rs1 : RegNum) : WritesSpace (.rsdec rd rs1) .syn
  | blkget (rs1 : RegNum) : WritesSpace (.blkget rs1) .blks
  | dct : WritesSpace .dct .blkf
  | qemb (rd rs1 rs2 : RegNum) : WritesSpace (.qemb rd rs1 rs2) .blkf
  | idct : WritesSpace .idct .blkr
  | vclrZero (rs1 : RegNum) : WritesSpace (.vclr rs1) .acc0
  | vclrOne (rs1 : RegNum) : WritesSpace (.vclr rs1) .acc1
  | vaccZero (rs1 rs2 : RegNum) : WritesSpace (.vacc rs1 rs2) .acc0
  | vaccOne (rs1 rs2 : RegNum) : WritesSpace (.vacc rs1 rs2) .acc1
  | qext (rd rs1 rs2 : RegNum) : WritesSpace (.qext rd rs1 rs2) .conf
  | phash : WritesSpace .phash .ph

/-- The numbers of R40 are the spaces' own. -/
theorem spaceOfSel_eq_some {sel : Sel} {sp : Space} (h : spaceOfSel sel = some sp) :
    sel = BitVec.ofNat 8 (selOfSpace sp) := by
  have hnum : sel.toNat = selOfSpace sp := by
    unfold spaceOfSel at h
    split at h <;> cases h <;> assumption
  rw [← hnum, BitVec.ofNat_toNat, BitVec.setWidth_eq]

/-- The numbers of R30 are the control registers' own. -/
theorem csrOfSel_eq_some {sel : Sel} {c : Csr} (h : csrOfSel sel = some c) (hw : csrWritable c = true) :
    c = .imgW ∧ sel = 6 ∨ c = .imgH ∧ sel = 7 ∨ c = .strength ∧ sel = 8 := by
  unfold csrOfSel at h
  split at h <;> cases h <;> simp only [csrWritable, Bool.false_eq_true] at hw
  · exact .inl ⟨rfl, BitVec.eq_of_toNat_eq ‹_›⟩
  · exact .inr (.inl ⟨rfl, BitVec.eq_of_toNat_eq ‹_›⟩)
  · exact .inr (.inr ⟨rfl, BitVec.eq_of_toNat_eq ‹_›⟩)

theorem State.element_storeInt (s : State) {sp sp' : Space} (h : sp' ≠ sp) (n v i : Nat) :
    (s.storeInt sp n v).element sp' i = s.element sp' i := by
  cases sp with
  | pix => exact s.element_writePix _ h i
  | sym => exact s.element_writeSym _ h i
  | bit => exact s.element_writeBit _ h i
  | msg => exact s.element_writeMsg _ h i
  | perm => exact s.element_writePerm _ h i
  | phref => exact s.element_writePhref _ h i
  | _ => rfl

theorem State.element_storeNum (s : State) {sp sp' : Space} (h : sp' ≠ sp) (n : Nat) (v : Num)
    (i : Nat) : (s.storeNum sp n v).element sp' i = s.element sp' i := by
  cases sp with
  | blks => exact s.element_writeBlks _ h i
  | blkf => exact s.element_writeBlkf _ h i
  | blkr => exact s.element_writeBlkr _ h i
  | acc0 => exact s.element_writeAcc0 _ h i
  | acc1 => exact s.element_writeAcc1 _ h i
  | conf => exact s.element_writeConf _ h i
  | _ => rfl

theorem State.element_writeCsr (s : State) (c : Csr) (v : Nat) (sp : Space) (i : Nat) :
    (s.writeCsr c v).element sp i = s.element sp i := by
  cases c <;> cases sp <;> rfl

/-- A command that does not write a space leaves its elements as they are. -/
theorem element_of_effect {i : Instr} {sp : Space} (he : s.Effect i t) (hsp : ¬ WritesSpace i sp)
    (n : Nat) : t.element sp n = s.element sp n := by
  have hne {sp' : Space} (hwrites : WritesSpace i sp') : sp ≠ sp' := by
    rintro rfl
    exact hsp hwrites
  cases he with
  | unchanged => rfl
  | raise _ k v => exact s.element_raise k v sp n
  | acknowledge => exact s.element_acknowledge sp n
  | setX _ rd v => exact s.element_setX rd v sp n
  | storeInt rs1 rs2 v hsel hw =>
    exact s.element_storeInt (hne (.sts (spaceOfSel_eq_some hsel) hw rs1 rs2)) _ v n
  | storeNum rs1 rs2 v hsel hw =>
    exact s.element_storeNum (hne (.sts (spaceOfSel_eq_some hsel) hw rs1 rs2)) _ v n
  | writeCsr _ v => exact s.element_writeCsr _ v sp n
  | rscfg rs1 =>
    have hgen := hne (.rscfgGen rs1)
    have hsyn := hne (.rscfgSyn rs1)
    cases sp with
    | gen => exact absurd rfl hgen
    | syn => exact absurd rfl hsyn
    | _ => rfl
  | rsenc rs1 => exact s.element_writeSym _ (hne (.rsenc rs1)) n
  | rssyn rd rs1 =>
    rw [State.element_setRserr, State.element_setX, s.element_writeSyn _ (hne (.rssyn rd rs1))]
  | rsdec rd rs1 =>
    rw [State.element_setX, State.element_setRserr, s.element_writeSyn _ (hne (.rsdec rd rs1))]
  | seed _ v => exact s.element_setSeed v sp n
  | next => rw [State.element_setX, State.element_setSeed]
  | nexti => rw [State.element_setX, State.element_setSeed]
  | sprd => rw [State.element_setX, State.element_setSeed]
  | pinit rs1 =>
    have hperm := hne (.pinit rs1)
    cases sp with
    | perm => exact absurd rfl hperm
    | _ => rfl
  | shuf => rw [State.element_setSeed, s.element_writePerm _ (hne .shuf)]
  | dct => exact s.element_writeBlkf _ (hne .dct) n
  | idct => exact s.element_writeBlkr _ (hne .idct) n
  | blkget rs1 => exact s.element_writeBlks _ (hne (.blkget rs1)) n
  | blkput rs1 => exact s.element_writePix _ (hne (.blkput rs1)) n
  | qemb rd rs1 rs2 => exact s.element_writeBlkf _ (hne (.qemb rd rs1 rs2)) n
  | qext rd rs1 rs2 =>
    rw [State.element_writeConf _ _ (hne (.qext rd rs1 rs2)), State.element_setX]
  | vclr rs1 =>
    rw [State.element_writeAcc1 _ _ (hne (.vclrOne rs1)), s.element_writeAcc0 _ (hne (.vclrZero rs1))]
  | vaccZero rs1 rs2 => exact s.element_writeAcc0 _ (hne (.vaccZero rs1 rs2)) n
  | vaccOne rs1 rs2 => exact s.element_writeAcc1 _ (hne (.vaccOne rs1 rs2)) n
  | vote rd rs1 => rw [State.element_writeBit _ _ (hne (.vote rd rs1)), State.element_setX]
  | magcmp => rw [State.element_setFound, State.element_setX]
  | phash => exact s.element_writePh _ (hne .phash) n
  | lsbenc rs1 => exact s.element_writePix _ (hne (.lsbenc rs1)) n
  | lsbdec rd => rw [State.element_setX, s.element_writeMsg _ (hne (.lsbdec rd))]

/-- Settles O14: a command that changes an element of a space writes that space, and each space has only
the writers of its row. -/
theorem spacesWrittenBy : Obligations.SpacesWrittenBy := by
  intro i s t n h
  have writer (sp : Space) (hne : t.element sp n ≠ s.element sp n) : WritesSpace i sp :=
    not_imp_comm.1 (fun hsp => element_of_effect (exec_effect h) hsp n) hne
  have constant (sp : Space) (hsp : ¬ WritesSpace i sp) : t.element sp n = s.element sp n :=
    element_of_effect (exec_effect h) hsp n
  refine ⟨fun hne => ?pix, fun hne => ?sym, fun hne => ?bit, fun hne => ?msg, fun hne => ?perm,
    fun hne => ?gen, fun hne => ?syn, constant .gfexp nofun, constant .gflog nofun,
    constant .dctc nofun, fun hne => ?blks, fun hne => ?blkf, fun hne => ?blkr, fun hne => ?acc0,
    fun hne => ?acc1, fun hne => ?conf, fun hne => ?ph, fun hne => ?phref⟩
  all_goals cases writer _ hne
  -- `STS` with the space's own number where the space is `RW`, or one of the unit's commands
  all_goals obtain ⟨rfl, ⟨⟩⟩ | _ := writer _ hne <;> simp [selOfSpace]

/-- A store of an element changes nothing but a space. -/
theorem State.storeInt_registers (s : State) (sp : Space) (n v : Nat) :
    ∃ pix sym bit msg perm phref, s.storeInt sp n v =
      { s with pix := pix, sym := sym, bit := bit, msg := msg, perm := perm, phref := phref } := by
  cases sp <;> exact ⟨_, _, _, _, _, _, rfl⟩

theorem State.storeNum_registers (s : State) (sp : Space) (n : Nat) (v : Num) :
    ∃ blks blkf blkr acc0 acc1 conf, s.storeNum sp n v =
      { s with blks := blks, blkf := blkf, blkr := blkr, acc0 := acc0, acc1 := acc1, conf := conf } := by
  cases sp <;> exact ⟨_, _, _, _, _, _, rfl⟩

/-- Settles O13: the effects of each command name the control registers it writes. -/
theorem registersWrittenBy : Obligations.RegistersWrittenBy := by
  intro i s t h
  cases exec_effect h with
  | @storeInt _ sp n rs1 rs2 v =>
    obtain ⟨_, _, _, _, _, _, heq⟩ := s.storeInt_registers sp n v
    simp [heq, State.readCsr]
  | @storeNum _ sp n rs1 rs2 v =>
    obtain ⟨_, _, _, _, _, _, heq⟩ := s.storeNum_registers sp n v
    simp [heq, State.readCsr]
  | writeCsr rs1 v hsel hw =>
    obtain ⟨rfl, rfl⟩ | ⟨rfl, rfl⟩ | ⟨rfl, rfl⟩ := csrOfSel_eq_some hsel hw <;>
      simp [State.writeCsr, State.readCsr]
  | _ => simp [State.readCsr]

/-! ### Reset, the bounds of the spaces, and a step of a command -/

/-- The table that reset brings up is one R8 allows, whatever its open parameters are. -/
theorem instanceParams_wellFormed : instanceParams.wellFormed = true := by
  have hprim : instanceParams.primitive = true := by decide +kernel
  have hpos : instanceParams.positionsOk = true := by decide
  have hsizes : instanceParams.sizesOk = true := by
    simp [Params.sizesOk, instanceParams, Config.rplValues]
  have hnsym : instanceParams.nsymOk = true := by decide
  have hrpl : instanceParams.rplOk = true := decide_eq_true rfl
  have hshape : instanceParams.shapeOk = true := decide_eq_true rfl
  rw [Params.wellFormed, hprim, hpos, hsizes, hnsym, hrpl, hshape]
  rfl

/-- Settles O9: the table at the start is allowed, and `GEN` is the polynomial 1. -/
theorem resetHasInvariant : Obligations.ResetHasInvariant :=
  State.Inv.afterReset instanceParams_wellFormed 0 0 []

/-- A reset of a block with R8's fixed values gives the table of R48. -/
theorem afterReset_justReset {p : Params} (hp : p.Standard) (a b : Nat) (input : List HostAct) :
    (State.afterReset p a b input).JustReset := by
  obtain ⟨hrpl, hshape⟩ := hp
  exact
    { x := fun r => by simp [State.getX, State.afterReset]
      status := ⟨rfl, rfl, rfl⟩
      faultInfo := ⟨rfl, rfl⟩
      rngSeed := rfl
      rsNsym := rfl
      permN := rfl
      geometry := ⟨rfl, rfl⟩
      strength := by simp [State.afterReset, hrpl, Config.rplValues]
      constants := ⟨rfl, rfl, rfl⟩
      gen := rfl
      tables :=
        ⟨fun _ _ => rfl, fun v _ => by simp [State.element, State.afterReset],
          fun i _ => by simp [State.element, dctcAt, State.afterReset, hshape, Config.shape]⟩
      live := fun i => by
        simp +contextual [State.inBounds, State.live, spaceSize, State.afterReset]
      unwritten := ⟨rfl, rfl, rfl, rfl, rfl, rfl, rfl, rfl, rfl, rfl, rfl, rfl, rfl⟩ }

/-- Settles O8: the start and a reset action are both `State.afterReset` of a table with R8's values. -/
theorem resetState : Obligations.ResetState := by
  refine ⟨afterReset_justReset ⟨rfl, rfl⟩ 0 0 [], fun s rest hin hp => ?_⟩
  exact ⟨_, step_of_input hin, afterReset_justReset hp _ _ rest, rfl, rfl⟩

/-- An index is in bounds where it is inside the size and the live range (R62). -/
theorem State.inBounds_iff (s : State) (sp : Space) (i : Nat) :
    s.inBounds sp i = true ↔ i < spaceSize s.cfg sp ∧ s.live sp i = true := by
  rw [State.inBounds, Bool.and_eq_true, decide_eq_true_eq]

/-- Settles O18: sizes by R40, of which R8 fixes those of the transforms and the fingerprints. -/
theorem indexInBoundsIffLive : Obligations.IndexInBoundsIffLive := by
  intro s i hp
  obtain ⟨hblock, hph⟩ := spaceSize_of_standard hp
  simp only [State.inBounds_iff]
  refine ⟨?pix, ?sym, ?bit, ?msg, ?perm, ?gen, ?syn, ?gfexp, ?gflog, ?block, ?acc, ?conf, ?ph⟩
  case block =>
    intro sp hsp
    rw [hblock sp hsp]
    simp only [List.mem_cons, List.not_mem_nil, or_false] at hsp
    obtain rfl | rfl | rfl | rfl := hsp <;> simp [State.live]
  case ph =>
    intro sp hsp
    rw [hph sp hsp]
    simp only [List.mem_cons, List.not_mem_nil, or_false] at hsp
    obtain rfl | rfl := hsp <;> simp [State.live]
  case gflog => simp [spaceSize, State.live, and_comm]
  all_goals simp [spaceSize, State.live]

/-- Settles O5: the word is not discarded, and decoding gives the command. -/
theorem stepRunsDecodedCommand : Obligations.StepRunsDecodedCommand := by
  intro s w rest i hin hrun hdecode
  have hissued : (s.fault && w != clrfWord) = false := by
    obtain hfault | rfl := hrun
    · rw [hfault, Bool.false_and]
    · simp [clrfWord]
  rw [step_of_input hin]
  simp only [State.act, State.issue, hissued, hdecode, Bool.false_eq_true, if_false]

end Sys2Proof.Machine

/-! The host's own writes between commands (R61, R70): what each changes and leaves as it is, and which of
them the checks of R61 refuse. -/

namespace Sys2Proof.Machine

/-! ### One register written -/

theorem State.sameBut_setX (s : State) (r : RegNum) (v : Word) :
    s.SameBut (s.setX r v) [r] [] false false noCells where
  regs q hq := s.getX_setX_other v (by simpa using hq)
  csrs c _ _ := by cases c <;> rfl
  fault := rfl
  rserr _ := rfl
  found _ := rfl
  cells sp i _ := s.element_setX r v sp i
  cfg := rfl
  input := rfl

theorem State.readCsr_writeCsr_other (s : State) {c d : Csr} (h : d ≠ c) (v : Nat) :
    (s.writeCsr c v).readCsr d = s.readCsr d := by
  cases c with
  | imgW => cases d with
    | imgW => exact absurd rfl h
    | _ => rfl
  | imgH => cases d with
    | imgH => exact absurd rfl h
    | _ => rfl
  | strength => cases d with
    | strength => exact absurd rfl h
    | _ => rfl
  | _ => rfl

/-- Only control registers change: their fields are no other part of the state. -/
theorem State.writeCsr_registers (s : State) (c : Csr) (v : Nat) :
    ∃ imgW imgH strength,
      s.writeCsr c v = { s with imgW := imgW, imgH := imgH, strength := strength } := by
  cases c <;> exact ⟨_, _, _, rfl⟩

theorem State.sameBut_writeCsr (s : State) (c : Csr) (v : Nat) :
    s.SameBut (s.writeCsr c v) [] [c] false false noCells := by
  obtain ⟨_, _, _, heq⟩ := s.writeCsr_registers c v
  exact
    { regs := fun r _ => by rw [heq]; rfl
      csrs := fun d _ hd => s.readCsr_writeCsr_other (by simpa using hd) v
      fault := by rw [heq]
      rserr := fun _ => by rw [heq]
      found := fun _ => by rw [heq]
      cells := fun sp i _ => s.element_writeCsr c v sp i
      cfg := by rw [heq]
      input := by rw [heq] }

/-- The three registers that the host may write, and the values that fit them (R30, R34, R35). -/
def csrAccepts (c : Csr) (v : Nat) : Prop :=
  c = .imgW ∧ v < 2 ^ 32 ∨ c = .imgH ∧ v < 2 ^ 32 ∨ c = .strength ∧ v < 2 ^ 16

theorem State.readCsr_writeCsr_same (s : State) {c : Csr} {v : Nat} (h : csrAccepts c v) :
    ((s.writeCsr c v).readCsr c).toNat = v := by
  obtain ⟨rfl, hv⟩ | ⟨rfl, hv⟩ | ⟨rfl, hv⟩ := h
  · exact Nat.mod_eq_of_lt hv
  · exact Nat.mod_eq_of_lt hv
  · simp only [State.writeCsr, State.readCsr, BitVec.toNat_setWidth, BitVec.toNat_ofNat]
    omega

theorem State.hostWriteCsr_eq_next (s : State) {c : Csr} {v : Nat} (h : csrAccepts c v) :
    s.hostWriteCsr c v = .next (s.writeCsr c v) := by
  obtain ⟨rfl, hv⟩ | ⟨rfl, hv⟩ | ⟨rfl, hv⟩ := h <;>
    exact if_pos (by simpa [csrWritable] using hv)

/-! ### One element of a space written -/

/-- The elements of the space a store of an integer goes to: the one at its index is new. -/
theorem State.element_storeInt_self (s : State) {sp : Space} {w : Nat} (hrw : spaceWritable sp = true)
    (hwidth : spaceWidth sp = some w) (n v i : Nat) :
    (s.storeInt sp n v).element sp i =
      if i = n then .int (v % 2 ^ w) else s.element sp i := by
  cases sp <;> cases hrw <;> cases hwidth
  -- the writable integer spaces are left: one read after one cell
  all_goals
    by_cases hi : i = n <;>
      simp [hi, State.storeInt, State.element, Mem.get?_cons, State.pixAt_writePix,
        State.symAt_writeSym, State.bitAt_writeBit, State.msgAt_writeMsg, State.permAt_writePerm,
        State.phrefAt_writePhref]

/-- The elements of the space a store of a real goes to; `CONF` is its one element under every index. -/
theorem State.element_storeNum_self (s : State) {sp : Space} (hrw : spaceWritable sp = true)
    (hwidth : spaceWidth sp = none) (n : Nat) (v : Num) (i : Nat) :
    (s.storeNum sp n v).element sp i =
      if i = n ∨ sp = .conf then .num v else s.element sp i := by
  cases sp <;> cases hrw <;> cases hwidth
  case conf => simp [State.storeNum, State.element]
  -- the other writable spaces of reals: one read after one cell
  all_goals
    by_cases hi : i = n <;>
      simp [hi, State.storeNum, State.element, Mem.get?_cons, State.blksAt_writeBlks,
        State.blkfAt_writeBlkf, State.blkrAt_writeBlkr, State.acc0At_writeAcc0,
        State.acc1At_writeAcc1]

/-- `s` with the spaces of `t`. -/
def State.withSpacesOf (s t : State) : State :=
  { s with
    pix := t.pix, sym := t.sym, bit := t.bit, msg := t.msg, perm := t.perm, gen := t.gen
    syn := t.syn, blks := t.blks, blkf := t.blkf, blkr := t.blkr, acc0 := t.acc0, acc1 := t.acc1
    conf := t.conf, ph := t.ph, phref := t.phref }

/-- The frame of an update that reaches the spaces only, and of these one, at the indices `p`. -/
theorem State.sameBut_of_spaces {s t : State} {sp : Space} {p : Nat → Prop}
    (hrest : t = s.withSpacesOf t)
    (hother : ∀ sp' i, sp' ≠ sp → t.element sp' i = s.element sp' i)
    (hself : ∀ i, ¬ p i → t.element sp i = s.element sp i) :
    s.SameBut t [] [] false false fun sp' i => sp' = sp ∧ p i where
  regs r _ := State.getX_congr (congrArg State.x hrest) r
  csrs c _ _ := (congrArg (State.readCsr · c) hrest).trans (by cases c <;> rfl)
  fault := (congrArg State.fault hrest :)
  rserr _ := (congrArg State.rserr hrest :)
  found _ := (congrArg State.found hrest :)
  cells sp' i hcell := by
    by_cases hsp : sp' = sp
    · subst hsp
      exact hself i fun hi => hcell ⟨rfl, hi⟩
    · exact hother sp' i hsp
  cfg := (congrArg State.cfg hrest :)
  input := (congrArg State.input hrest :)

theorem State.sameBut_storeInt (s : State) {sp : Space} {w : Nat} (hrw : spaceWritable sp = true)
    (hwidth : spaceWidth sp = some w) (n v : Nat) :
    s.SameBut (s.storeInt sp n v) [] [] false false fun sp' i => sp' = sp ∧ i = n := by
  refine State.sameBut_of_spaces (by cases sp <;> rfl)
    (fun _ i hsp => s.element_storeInt hsp n v i) fun i hi => ?_
  rw [s.element_storeInt_self hrw hwidth, if_neg hi]

theorem State.sameBut_storeNum (s : State) {sp : Space} (hrw : spaceWritable sp = true)
    (hwidth : spaceWidth sp = none) (n : Nat) (v : Num) :
    s.SameBut (s.storeNum sp n v) [] [] false false
      fun sp' i => sp' = sp ∧ (i = n ∨ sp = .conf) := by
  refine State.sameBut_of_spaces (by cases sp <;> rfl)
    (fun _ i hsp => s.element_storeNum hsp n v i) fun i hi => ?_
  rw [s.element_storeNum_self hrw hwidth, if_neg hi]

/-! ### The host's accesses -/

theorem State.hostWriteSpace_int (s : State) {sp : Space} {n v w : Nat}
    (hrw : spaceWritable sp = true) (hb : s.inBounds sp n = true) (hwidth : spaceWidth sp = some w)
    (hv : v < 2 ^ w) : s.hostWriteSpace sp n (.int v) = .next (s.storeInt sp n v) := by
  simp [State.hostWriteSpace, State.hostWriteOk, hrw, hb, hwidth, hv]

theorem State.hostWriteSpace_num (s : State) {sp : Space} {n : Nat} (v : Num)
    (hrw : spaceWritable sp = true) (hb : s.inBounds sp n = true) (hwidth : spaceWidth sp = none) :
    s.hostWriteSpace sp n (.num v) = .next (s.storeNum sp n v) := by
  simp [State.hostWriteSpace, State.hostWriteOk, hrw, hb, hwidth]

theorem State.hostWriteSpace_refused (s : State) {sp : Space} {n : Nat} (e : Elem)
    (h : spaceWritable sp = false ∨ s.inBounds sp n = false) :
    s.hostWriteSpace sp n e = .refused .hostWrite := by
  have hok : s.hostWriteOk sp n e = false := by
    obtain h | h := h <;> simp [State.hostWriteOk, h]
  simp only [State.hostWriteSpace, hok, Bool.false_eq_true, if_false]

/-- Settles O7: a step performs the pending write on the state without it, and each kind of write has its
value and its frame. -/
theorem hostAccesses : Obligations.HostAccesses := by
  intro s rest
  refine ⟨fun hin => ?wait, fun r v hin => ?reg, fun c v hin hc => ?csr,
    fun sp i v w hin hrw hb hwidth hv => ?int, fun sp i v hin hrw hb hwidth => ?num,
    fun sp i e hin h => ?refused⟩
  case wait => rw [step, hin]
  case reg =>
    exact ⟨_, step_of_input hin, State.getX_setX_same _ r v, State.sameBut_setX _ r v⟩
  case csr =>
    exact ⟨_, (step_of_input hin).trans (State.hostWriteCsr_eq_next _ hc),
      State.readCsr_writeCsr_same _ hc, State.sameBut_writeCsr _ c v⟩
  case int =>
    refine ⟨_, (step_of_input hin).trans (State.hostWriteSpace_int _ hrw hb hwidth hv), ?_,
      State.sameBut_storeInt _ hrw hwidth i v⟩
    rw [State.element_storeInt_self _ hrw hwidth, if_pos rfl, Nat.mod_eq_of_lt hv]
  case num =>
    refine ⟨_, (step_of_input hin).trans (State.hostWriteSpace_num _ v hrw hb hwidth), ?_,
      State.sameBut_storeNum _ hrw hwidth i v⟩
    rw [State.element_storeNum_self _ hrw hwidth, if_pos (.inl rfl)]
  case refused => exact (step_of_input hin).trans (State.hostWriteSpace_refused _ e h)

end Sys2Proof.Machine

/-! Decoding and encoding against the opcode table (R91 to R97).  A word matches the row of a command
exactly when it has the row's opcode and zeros where the row names no operand; such a word is the word of
the row's command with the operands read from the word's fields. -/

namespace Sys2Proof

open Laws

/-! ### The words of the four formats as numbers (R92) -/

theorem toNat_append_eq_add {m n : Nat} (x : BitVec m) (y : BitVec n) :
    (x ++ y).toNat = x.toNat * 2 ^ n + y.toNat := by
  rw [BitVec.toNat_append, ← Nat.shiftLeft_add_eq_or_of_lt y.isLt, Nat.shiftLeft_eq]

theorem toNat_formatZ (op : BitVec 8) : (formatZ op).toNat = op.toNat :=
  (toNat_append_eq_add (0#24) op).trans (by simp)

theorem toNat_formatR (op : BitVec 8) (rd rs1 rs2 : RegNum) :
    (formatR op rd rs1 rs2).toNat =
      op.toNat + 0x100 * rd.toNat + 0x1000 * rs1.toNat + 0x10000 * rs2.toNat :=
  (toNat_append_eq_add (0#12 ++ rs2 ++ rs1 ++ rd) op).trans (by
    simp only [toNat_append_eq_add, BitVec.toNat_ofNat]; omega)

theorem toNat_formatI (op : BitVec 8) (rd : RegNum) (imm : BitVec 16) :
    (formatI op rd imm).toNat = op.toNat + 0x100 * rd.toNat + 0x10000 * imm.toNat :=
  (toNat_append_eq_add (imm ++ 0#4 ++ rd) op).trans (by
    simp only [toNat_append_eq_add, BitVec.toNat_ofNat]; omega)

theorem toNat_formatS (op : BitVec 8) (rd rs1 rs2 : RegNum) (sel : Sel) :
    (formatS op rd rs1 rs2 sel).toNat =
      op.toNat + 0x100 * rd.toNat + 0x1000 * rs1.toNat + 0x10000 * rs2.toNat +
        0x100000 * sel.toNat :=
  (toNat_append_eq_add (0#4 ++ sel ++ rs2 ++ rs1 ++ rd) op).trans (by
    simp only [toNat_append_eq_add, BitVec.toNat_ofNat]; omega)

theorem toNat_extractLsb' (w : Word) (start len : Nat) :
    (w.extractLsb' start len).toNat = w.toNat / 2 ^ start % 2 ^ len := by
  rw [BitVec.extractLsb'_toNat, Nat.shiftRight_eq_div_pow]

/-! ### The operand fields of a word in each format (R91, R92) -/

@[simp] theorem rdField_formatR (op : BitVec 8) (rd rs1 rs2 : RegNum) :
    rdField (formatR op rd rs1 rs2) = rd :=
  BitVec.eq_of_toNat_eq <| by rw [rdField, toNat_extractLsb', toNat_formatR]; omega

@[simp] theorem rs1Field_formatR (op : BitVec 8) (rd rs1 rs2 : RegNum) :
    rs1Field (formatR op rd rs1 rs2) = rs1 :=
  BitVec.eq_of_toNat_eq <| by rw [rs1Field, toNat_extractLsb', toNat_formatR]; omega

@[simp] theorem rs2Field_formatR (op : BitVec 8) (rd rs1 rs2 : RegNum) :
    rs2Field (formatR op rd rs1 rs2) = rs2 :=
  BitVec.eq_of_toNat_eq <| by rw [rs2Field, toNat_extractLsb', toNat_formatR]; omega

@[simp] theorem rdField_formatI (op : BitVec 8) (rd : RegNum) (imm : BitVec 16) :
    rdField (formatI op rd imm) = rd :=
  BitVec.eq_of_toNat_eq <| by rw [rdField, toNat_extractLsb', toNat_formatI]; omega

@[simp] theorem immField_formatI (op : BitVec 8) (rd : RegNum) (imm : BitVec 16) :
    immField (formatI op rd imm) = imm :=
  BitVec.eq_of_toNat_eq <| by rw [immField, toNat_extractLsb', toNat_formatI]; omega

@[simp] theorem rdField_formatS (op : BitVec 8) (rd rs1 rs2 : RegNum) (sel : Sel) :
    rdField (formatS op rd rs1 rs2 sel) = rd :=
  BitVec.eq_of_toNat_eq <| by rw [rdField, toNat_extractLsb', toNat_formatS]; omega

@[simp] theorem rs1Field_formatS (op : BitVec 8) (rd rs1 rs2 : RegNum) (sel : Sel) :
    rs1Field (formatS op rd rs1 rs2 sel) = rs1 :=
  BitVec.eq_of_toNat_eq <| by rw [rs1Field, toNat_extractLsb', toNat_formatS]; omega

@[simp] theorem rs2Field_formatS (op : BitVec 8) (rd rs1 rs2 : RegNum) (sel : Sel) :
    rs2Field (formatS op rd rs1 rs2 sel) = rs2 :=
  BitVec.eq_of_toNat_eq <| by rw [rs2Field, toNat_extractLsb', toNat_formatS]; omega

@[simp] theorem selField_formatS (op : BitVec 8) (rd rs1 rs2 : RegNum) (sel : Sel) :
    selField (formatS op rd rs1 rs2 sel) = sel :=
  BitVec.eq_of_toNat_eq <| by rw [selField, toNat_extractLsb', toNat_formatS]; omega

/-! ### A word put together again from its fields (R92) -/

section FromFields

variable {w : Word} {op : BitVec 8} {rd rs1 rs2 : RegNum}

theorem formatZ_of_fields (hop : opField w = op) (hrest : w.extractLsb' 8 24 = 0#24) :
    formatZ op = w := by
  subst hop
  have hzero := congrArg BitVec.toNat hrest
  refine BitVec.eq_of_toNat_eq ?_
  simp only [toNat_formatZ, opField, toNat_extractLsb', BitVec.toNat_ofNat] at hzero ⊢
  omega

theorem formatI_of_fields (hop : opField w = op) (hrest : w.extractLsb' 12 4 = 0#4) :
    formatI op (rdField w) (immField w) = w := by
  subst hop
  have hzero := congrArg BitVec.toNat hrest
  refine BitVec.eq_of_toNat_eq ?_
  simp only [toNat_formatI, opField, rdField, immField, toNat_extractLsb', BitVec.toNat_ofNat]
    at hzero ⊢
  omega

theorem formatR_of_fields (hop : opField w = op) (hrd : rdField w = rd) (hrs1 : rs1Field w = rs1)
    (hrs2 : rs2Field w = rs2) (hrest : w.extractLsb' 20 12 = 0#12) :
    formatR op rd rs1 rs2 = w := by
  subst hop hrd hrs1 hrs2
  have hzero := congrArg BitVec.toNat hrest
  refine BitVec.eq_of_toNat_eq ?_
  simp only [toNat_formatR, opField, rdField, rs1Field, rs2Field, toNat_extractLsb',
    BitVec.toNat_ofNat] at hzero ⊢
  omega

theorem formatS_of_fields (hop : opField w = op) (hrd : rdField w = rd) (hrs1 : rs1Field w = rs1)
    (hrs2 : rs2Field w = rs2) (hrest : w.extractLsb' 28 4 = 0#4) :
    formatS op rd rs1 rs2 (selField w) = w := by
  subst hop hrd hrs1 hrs2
  have hzero := congrArg BitVec.toNat hrest
  refine BitVec.eq_of_toNat_eq ?_
  simp only [toNat_formatS, opField, rdField, rs1Field, rs2Field, selField, toNat_extractLsb',
    BitVec.toNat_ofNat] at hzero ⊢
  omega

/-- A field all of whose bits must be zero is zero. -/
theorem extractLsb'_eq_zero {m : Word} {start len : Nat} (h : w &&& m = 0#32)
    (hm : m.extractLsb' start len = BitVec.allOnes len) : w.extractLsb' start len = 0#len := by
  have hand := BitVec.extractLsb'_and (x := w) (y := m) (start := start) (len := len)
  rwa [h, hm, BitVec.and_allOnes, BitVec.extractLsb'_zero, eq_comm] at hand

theorem formatR_rd_rs1 (hop : opField w = op) (h : w &&& 0xFFFF0000#32 = 0#32) :
    formatR op (rdField w) (rs1Field w) 0 = w :=
  formatR_of_fields hop rfl rfl (extractLsb'_eq_zero h (by decide))
    (extractLsb'_eq_zero h (by decide))

theorem formatR_rs1_rs2 (hop : opField w = op) (h : w &&& 0xFFF00F00#32 = 0#32) :
    formatR op 0 (rs1Field w) (rs2Field w) = w :=
  formatR_of_fields hop (extractLsb'_eq_zero h (by decide)) rfl rfl
    (extractLsb'_eq_zero h (by decide))

theorem formatR_rd (hop : opField w = op) (h : w &&& 0xFFFFF000#32 = 0#32) :
    formatR op (rdField w) 0 0 = w :=
  formatR_of_fields hop rfl (extractLsb'_eq_zero h (by decide)) (extractLsb'_eq_zero h (by decide))
    (extractLsb'_eq_zero h (by decide))

theorem formatR_rs1 (hop : opField w = op) (h : w &&& 0xFFFF0F00#32 = 0#32) :
    formatR op 0 (rs1Field w) 0 = w :=
  formatR_of_fields hop (extractLsb'_eq_zero h (by decide)) rfl (extractLsb'_eq_zero h (by decide))
    (extractLsb'_eq_zero h (by decide))

end FromFields

/-! ### The rows of the opcode table (R95, R97) -/

/-- The word has the fixed bits of the command's row of the opcode table (R97). -/
def MatchesRow (w : Word) (i : Instr) : Prop := w &&& tableMask i = tableMatch i

/-- The bits of a word that the "uses" column of the command's row leaves without a name (R95). -/
def mustBeZero : Instr → Word
  | .nop | .clrf | .shuf | .dct | .idct | .phash => 0xFFFFFF00#32
  | .li _ _ | .lih _ _ => 0x0000F000#32
  | .lds _ _ _ => 0xF00F0000#32
  | .sts _ _ _ => 0xF0000F00#32
  | .csrr _ _ => 0xF00FF000#32
  | .csrw _ _ => 0xF00F0F00#32
  | .gfmul _ _ _ | .gfpow _ _ _ | .gfdiv _ _ _ | .nexti _ _ _ | .qemb _ _ _ | .qext _ _ _
  | .phver _ _ _ => 0xFFF00000#32
  | .gfinv _ _ | .rssyn _ _ | .rsdec _ _ | .vote _ _ => 0xFFFF0000#32
  | .vacc _ _ => 0xFFF00F00#32
  | .next _ | .sprd _ | .magcmp _ | .phcmp _ | .lsbdec _ | .lsbhas _ => 0xFFFFF000#32
  | .rscfg _ | .rsenc _ | .seed _ | .pinit _ | .blkget _ | .blkput _ | .vclr _ | .lsbenc _ =>
    0xFFFF0F00#32

/-- The same command with the operands that a word's fields hold. -/
def Instr.withOperands (i : Instr) (w : Word) : Instr :=
  match i with
  | .nop => .nop
  | .li _ _ => .li (rdField w) (immField w)
  | .lih _ _ => .lih (rdField w) (immField w)
  | .lds _ _ _ => .lds (rdField w) (selField w) (rs1Field w)
  | .sts _ _ _ => .sts (selField w) (rs1Field w) (rs2Field w)
  | .clrf => .clrf
  | .csrr _ _ => .csrr (rdField w) (selField w)
  | .csrw _ _ => .csrw (selField w) (rs1Field w)
  | .gfmul _ _ _ => .gfmul (rdField w) (rs1Field w) (rs2Field w)
  | .gfpow _ _ _ => .gfpow (rdField w) (rs1Field w) (rs2Field w)
  | .gfdiv _ _ _ => .gfdiv (rdField w) (rs1Field w) (rs2Field w)
  | .gfinv _ _ => .gfinv (rdField w) (rs1Field w)
  | .rscfg _ => .rscfg (rs1Field w)
  | .rsenc _ => .rsenc (rs1Field w)
  | .rssyn _ _ => .rssyn (rdField w) (rs1Field w)
  | .rsdec _ _ => .rsdec (rdField w) (rs1Field w)
  | .seed _ => .seed (rs1Field w)
  | .next _ => .next (rdField w)
  | .nexti _ _ _ => .nexti (rdField w) (rs1Field w) (rs2Field w)
  | .pinit _ => .pinit (rs1Field w)
  | .shuf => .shuf
  | .sprd _ => .sprd (rdField w)
  | .dct => .dct
  | .idct => .idct
  | .blkget _ => .blkget (rs1Field w)
  | .blkput _ => .blkput (rs1Field w)
  | .qemb _ _ _ => .qemb (rdField w) (rs1Field w) (rs2Field w)
  | .qext _ _ _ => .qext (rdField w) (rs1Field w) (rs2Field w)
  | .vclr _ => .vclr (rs1Field w)
  | .vacc _ _ => .vacc (rs1Field w) (rs2Field w)
  | .vote _ _ => .vote (rdField w) (rs1Field w)
  | .magcmp _ => .magcmp (rdField w)
  | .phash => .phash
  | .phcmp _ => .phcmp (rdField w)
  | .phver _ _ _ => .phver (rdField w) (rs1Field w) (rs2Field w)
  | .lsbenc _ => .lsbenc (rs1Field w)
  | .lsbdec _ => .lsbdec (rdField w)
  | .lsbhas _ => .lsbhas (rdField w)

/-- The commands of one row have that row's mask. -/
@[simp] theorem tableMask_withOperands (i : Instr) (w : Word) :
    tableMask (i.withOperands w) = tableMask i := by cases i <;> rfl

/-- The commands of one row have that row's match. -/
@[simp] theorem tableMatch_withOperands (i : Instr) (w : Word) :
    tableMatch (i.withOperands w) = tableMatch i := by cases i <;> rfl

/-- A row fixes the opcode bits and the bits without a name. -/
theorem tableMask_eq (i : Instr) : tableMask i = 0xFF#32 ||| mustBeZero i := by
  cases i <;> rw [tableMask, mustBeZero] <;> decide

/-- The bits without a name are above the opcode. -/
theorem opcodeBits_and_mustBeZero (i : Instr) : 0xFF#32 &&& mustBeZero i = 0#32 := by
  cases i <;> rw [mustBeZero] <;> decide

/-- The match of a row is an opcode. -/
theorem tableMatch_and_opcodeBits (i : Instr) : tableMatch i &&& 0xFF#32 = tableMatch i := by
  cases i <;> rw [tableMatch] <;> decide

theorem toNat_and_opcodeBits (w : Word) : (w &&& 0xFF#32).toNat = (opField w).toNat := by
  rw [opField, toNat_extractLsb', Nat.pow_zero, Nat.div_one, ← Nat.and_two_pow_sub_one_eq_mod,
    BitVec.toNat_and]
  rfl

/-- A mask in two disjoint parts, the first of which covers the bits asked for. -/
theorem and_or_eq_iff {w a b c : Word} (hc : c &&& a = c) (hab : a &&& b = 0#32) :
    w &&& (a ||| b) = c ↔ w &&& a = c ∧ w &&& b = 0#32 := by
  constructor
  · intro h
    have ha : (a ||| b) &&& a = a := by
      rw [BitVec.and_or_distrib_right, BitVec.and_self, BitVec.and_comm b, hab, BitVec.or_zero]
    have hb : (a ||| b) &&& b = b := by
      rw [BitVec.and_or_distrib_right, BitVec.and_self, hab, BitVec.zero_or]
    constructor
    · rw [← ha, ← BitVec.and_assoc, h, hc]
    · rw [← hb, ← BitVec.and_assoc, h, ← hc, BitVec.and_assoc, hab, BitVec.and_zero]
  · rintro ⟨rfl, hb⟩
    rw [BitVec.and_or_distrib_left, hb, BitVec.or_zero]

/-- A word matches a row exactly when it has the row's opcode and zeros in the bits without a name. -/
theorem matchesRow_iff {w : Word} {i : Instr} :
    MatchesRow w i ↔ (opField w).toNat = (tableMatch i).toNat ∧ w &&& mustBeZero i = 0#32 := by
  rw [MatchesRow, tableMask_eq,
    and_or_eq_iff (tableMatch_and_opcodeBits i) (opcodeBits_and_mustBeZero i),
    ← BitVec.toNat_inj, toNat_and_opcodeBits]

/-- The word of a command matches the command's row (R97). -/
theorem matchesRow_encode (i : Instr) : MatchesRow (encode i) i := by
  cases i with
  | nop => exact WordMatchesTable.nop
  | li => exact WordMatchesTable.li ..
  | lih => exact WordMatchesTable.lih ..
  | lds => exact WordMatchesTable.lds ..
  | sts => exact WordMatchesTable.sts ..
  | clrf => exact WordMatchesTable.clrf
  | csrr => exact WordMatchesTable.csrr ..
  | csrw => exact WordMatchesTable.csrw ..
  | gfmul => exact WordMatchesTable.gfmul ..
  | gfpow => exact WordMatchesTable.gfpow ..
  | gfdiv => exact WordMatchesTable.gfdiv ..
  | gfinv => exact WordMatchesTable.gfinv ..
  | rscfg => exact WordMatchesTable.rscfg ..
  | rsenc => exact WordMatchesTable.rsenc ..
  | rssyn => exact WordMatchesTable.rssyn ..
  | rsdec => exact WordMatchesTable.rsdec ..
  | seed => exact WordMatchesTable.seed ..
  | next => exact WordMatchesTable.next ..
  | nexti => exact WordMatchesTable.nexti ..
  | pinit => exact WordMatchesTable.pinit ..
  | shuf => exact WordMatchesTable.shuf
  | sprd => exact WordMatchesTable.sprd ..
  | dct => exact WordMatchesTable.dct
  | idct => exact WordMatchesTable.idct
  | blkget => exact WordMatchesTable.blkget ..
  | blkput => exact WordMatchesTable.blkput ..
  | qemb => exact WordMatchesTable.qemb ..
  | qext => exact WordMatchesTable.qext ..
  | vclr => exact WordMatchesTable.vclr ..
  | vacc => exact WordMatchesTable.vacc ..
  | vote => exact WordMatchesTable.vote ..
  | magcmp => exact WordMatchesTable.magcmp ..
  | phash => exact WordMatchesTable.phash
  | phcmp => exact WordMatchesTable.phcmp ..
  | phver => exact WordMatchesTable.phver ..
  | lsbenc => exact WordMatchesTable.lsbenc ..
  | lsbdec => exact WordMatchesTable.lsbdec ..
  | lsbhas => exact WordMatchesTable.lsbhas ..

/-! ### Decoding -/

theorem decodeUsing_eq_ok {w m : Word} {i j : Instr} (h : decodeUsing w m i = .ok j) :
    i = j ∧ w &&& m = 0#32 := by
  unfold decodeUsing at h
  split at h
  next hzero => cases h; exact ⟨rfl, hzero⟩
  next => cases h

/-- The decoder's arm for an opcode is that of the opcode's row. -/
theorem decode_of_opcode {w : Word} {i : Instr} (h : (opField w).toNat = (tableMatch i).toNat) :
    decode w = decodeUsing w (mustBeZero i) (i.withOperands w) := by
  rw [decode, h]
  cases i <;> rfl

theorem decode_of_matchesRow {w : Word} {i : Instr} (h : MatchesRow w i) :
    decode w = .ok (i.withOperands w) := by
  obtain ⟨hop, hzero⟩ := matchesRow_iff.1 h
  rw [decode_of_opcode hop, decodeUsing, if_pos hzero]

theorem matchesRow_of_decode {w : Word} {i : Instr} (h : decode w = .ok i) : MatchesRow w i := by
  unfold decode at h
  split at h
  case h_39 => cases h
  all_goals
    obtain ⟨rfl, hzero⟩ := decodeUsing_eq_ok h
    exact matchesRow_iff.2 ⟨‹_›, hzero⟩

theorem withOperands_of_decode {w : Word} {i : Instr} (h : decode w = .ok i) :
    i.withOperands w = i :=
  Except.ok.inj ((decode_of_matchesRow (matchesRow_of_decode h)).symm.trans h)

/-- The fields of a command's word hold the command's operands (R92). -/
theorem withOperands_encode (i : Instr) : i.withOperands (encode i) = i := by
  cases i with
  | nop | clrf | shuf | dct | idct | phash => rfl
  | li | lih => simp only [encode, Instr.withOperands, rdField_formatI, immField_formatI]
  | lds | sts | csrr | csrw =>
    simp only [encode, Instr.withOperands, rdField_formatS, rs1Field_formatS, rs2Field_formatS,
      selField_formatS]
  | _ =>
    simp only [encode, Instr.withOperands, rdField_formatR, rs1Field_formatR, rs2Field_formatR]

/-- A word that matches a row is the word of the row's command with the operands its fields hold. -/
theorem encode_withOperands {w : Word} {i : Instr} (h : MatchesRow w i) :
    encode (i.withOperands w) = w := by
  obtain ⟨hop, hzero⟩ := matchesRow_iff.1 h
  cases i with
  | nop | clrf | shuf | dct | idct | phash =>
    exact formatZ_of_fields (BitVec.eq_of_toNat_eq hop) (extractLsb'_eq_zero hzero (by decide))
  | li | lih =>
    rw [mustBeZero] at hzero
    exact formatI_of_fields (BitVec.eq_of_toNat_eq hop) (extractLsb'_eq_zero hzero (by decide))
  | lds =>
    rw [mustBeZero] at hzero
    exact formatS_of_fields (BitVec.eq_of_toNat_eq hop) rfl rfl
      (extractLsb'_eq_zero hzero (by decide)) (extractLsb'_eq_zero hzero (by decide))
  | sts =>
    rw [mustBeZero] at hzero
    exact formatS_of_fields (BitVec.eq_of_toNat_eq hop) (extractLsb'_eq_zero hzero (by decide)) rfl rfl
      (extractLsb'_eq_zero hzero (by decide))
  | csrr =>
    rw [mustBeZero] at hzero
    exact formatS_of_fields (BitVec.eq_of_toNat_eq hop) rfl (extractLsb'_eq_zero hzero (by decide))
      (extractLsb'_eq_zero hzero (by decide)) (extractLsb'_eq_zero hzero (by decide))
  | csrw =>
    rw [mustBeZero] at hzero
    exact formatS_of_fields (BitVec.eq_of_toNat_eq hop) (extractLsb'_eq_zero hzero (by decide)) rfl
      (extractLsb'_eq_zero hzero (by decide)) (extractLsb'_eq_zero hzero (by decide))
  | gfmul | gfpow | gfdiv | nexti | qemb | qext | phver =>
    rw [mustBeZero] at hzero
    exact formatR_of_fields (BitVec.eq_of_toNat_eq hop) rfl rfl rfl
      (extractLsb'_eq_zero hzero (by decide))
  | gfinv | rssyn | rsdec | vote => exact formatR_rd_rs1 (BitVec.eq_of_toNat_eq hop) hzero
  | vacc => exact formatR_rs1_rs2 (BitVec.eq_of_toNat_eq hop) hzero
  | next | sprd | magcmp | phcmp | lsbdec | lsbhas =>
    exact formatR_rd (BitVec.eq_of_toNat_eq hop) hzero
  | rscfg | rsenc | seed | pinit | blkget | blkput | vclr | lsbenc =>
    exact formatR_rs1 (BitVec.eq_of_toNat_eq hop) hzero

/-- A word that decodes is the word of its command (R97). -/
theorem encode_of_decode {w : Word} {i : Instr} (h : decode w = .ok i) : encode i = w := by
  rw [← withOperands_of_decode h]
  exact encode_withOperands (matchesRow_of_decode h)

/-- Settles O1: the word of a command matches the command's row, and its fields hold the operands. -/
theorem decodeInvertsEncode : Obligations.DecodeInvertsEncode := by
  intro i
  rw [decode_of_matchesRow (matchesRow_encode i), withOperands_encode]

/-! ### The list of rows (R97) -/

/-- One command of each row, in the order of the table. -/
def commandOfEachRow : List Instr :=
  [.nop, .li 0 0, .lih 0 0, .lds 0 0 0, .sts 0 0 0, .clrf, .csrr 0 0, .csrw 0 0, .gfmul 0 0 0,
    .gfpow 0 0 0, .gfdiv 0 0 0, .gfinv 0 0, .rscfg 0, .rsenc 0, .rssyn 0 0, .rsdec 0 0, .seed 0,
    .next 0, .nexti 0 0 0, .pinit 0, .shuf, .sprd 0, .dct, .idct, .blkget 0, .blkput 0,
    .qemb 0 0 0, .qext 0 0 0, .vclr 0, .vacc 0 0, .vote 0 0, .magcmp 0, .phash, .phcmp 0,
    .phver 0 0 0, .lsbenc 0, .lsbdec 0, .lsbhas 0]

theorem opcodeRows_eq_map :
    Machine.opcodeRows = commandOfEachRow.map fun i => (tableMask i, tableMatch i) := rfl

theorem mem_opcodeRows_iff {r : Word × Word} :
    r ∈ Machine.opcodeRows ↔ ∃ i, r = (tableMask i, tableMatch i) := by
  constructor
  · rw [opcodeRows_eq_map, List.mem_map]
    rintro ⟨i, -, rfl⟩
    exact ⟨i, rfl⟩
  · rintro ⟨i, rfl⟩
    cases i <;> rw [tableMask, tableMatch] <;> decide

/-- A word is a command exactly when it matches a row (R96, R97). -/
theorem decodes_iff_matches (w : Word) :
    (∃ i, decode w = .ok i) ↔ ∃ r ∈ Machine.opcodeRows, w &&& r.1 = r.2 := by
  constructor
  · rintro ⟨i, hi⟩
    exact ⟨_, mem_opcodeRows_iff.2 ⟨i, rfl⟩, matchesRow_of_decode hi⟩
  · rintro ⟨r, hr, hw⟩
    obtain ⟨i, rfl⟩ := mem_opcodeRows_iff.1 hr
    exact ⟨_, decode_of_matchesRow hw⟩

/-- The row of a word is that of the command it decodes to. -/
theorem row_unique {w : Word} {i j : Instr} (hi : MatchesRow w i) (hj : MatchesRow w j) :
    (tableMask i, tableMatch i) = (tableMask j, tableMatch j) := by
  have hij : i.withOperands w = j.withOperands w :=
    Except.ok.inj ((decode_of_matchesRow hi).symm.trans (decode_of_matchesRow hj))
  rw [← tableMask_withOperands i w, ← tableMatch_withOperands i w, hij, tableMask_withOperands,
    tableMatch_withOperands]

/-- Settles O2: rows are rows of commands, and a word decodes by the one row it matches. -/
theorem decodeAgreesWithTable : Obligations.DecodeAgreesWithTable := by
  refine ⟨decodes_iff_matches, fun w r hr r' hr' hw hw' => ?_, fun w i => encode_of_decode⟩
  obtain ⟨i, rfl⟩ := mem_opcodeRows_iff.1 hr
  obtain ⟨j, rfl⟩ := mem_opcodeRows_iff.1 hr'
  exact row_unique hw hw'

/-- Settles O3: the twelve words are literals, which the decoder computes on. -/
theorem wordsDecode : Obligations.WordsDecode := by
  unfold Obligations.WordsDecode
  decide

end Sys2Proof

namespace Sys2Proof.Machine

/-! ### Illegal words (R96) -/

/-- No space has a number from 18 on (R40). -/
theorem spaceOfSel_eq_none {sel : Sel} (h : 18 ≤ sel.toNat) : spaceOfSel sel = none := by
  unfold spaceOfSel
  split
  case h_19 => rfl
  all_goals omega

/-- No control register has a number from 12 on (R30). -/
theorem csrOfSel_eq_none {sel : Sel} (h : 12 ≤ sel.toNat) : csrOfSel sel = none := by
  unfold csrOfSel
  split
  case h_13 => rfl
  all_goals omega

variable {s : State} {w : Word}

theorem State.issue_of_error {e : DecodeError} (hs : s.fault = false) (h : decode w = .error e) :
    s.issue w = .next (s.faulted 1 w.toNat) := by
  rw [State.issue, hs, h]
  rfl

/-- A command whose rule answers `IllegalCommand` with the command's own word. -/
theorem State.issue_of_illegal {i : Instr} (hs : s.fault = false) (h : decode w = .ok i)
    (hexec : exec i s = s.perform (.error (.illegalCommand, (encode i).toNat))) :
    s.issue w = .next (s.faulted 1 w.toNat) := by
  rw [encode_of_decode h, State.perform_running hs] at hexec
  rw [State.issue, hs, h]
  exact hexec

theorem exec_lds_of_illegal {rd rs1 : RegNum} {sel : Sel} (h : 18 ≤ sel.toNat) :
    exec (.lds rd sel rs1) s =
      s.perform (.error (.illegalCommand, (encode (.lds rd sel rs1)).toNat)) := by
  rw [exec, execLds, State.memRead, spaceOfSel_eq_none h]

theorem exec_sts_of_illegal {rs1 rs2 : RegNum} {sel : Sel} (h : 18 ≤ sel.toNat) :
    exec (.sts sel rs1 rs2) s =
      s.perform (.error (.illegalCommand, (encode (.sts sel rs1 rs2)).toNat)) := by
  rw [exec, execSts, State.memWrite, spaceOfSel_eq_none h]

theorem exec_csrr_of_illegal {rd : RegNum} {sel : Sel} (h : 12 ≤ sel.toNat) :
    exec (.csrr rd sel) s =
      s.perform (.error (.illegalCommand, (encode (.csrr rd sel)).toNat)) := by
  rw [exec, execCsrr, csrOfSel_eq_none h]

theorem exec_csrw_of_illegal {rs1 : RegNum} {sel : Sel} (h : 12 ≤ sel.toNat) :
    exec (.csrw sel rs1) s =
      s.perform (.error (.illegalCommand, (encode (.csrw sel rs1)).toNat)) := by
  rw [exec, execCsrw, csrOfSel_eq_none h]

/-- Settles O4: a word without a row does not decode, and a `sel` without a name is refused by the
command's own rule, which gives back the word that decoded to it. -/
theorem illegalCommandFaults : Obligations.IllegalCommandFaults := by
  intro s w hs
  refine ⟨fun hrows => ?illegal, fun rd sel rs1 hw hsel => ?lds, fun sel rs1 rs2 hw hsel => ?sts,
    fun rd sel hw hsel => ?csrr, fun sel rs1 hw hsel => ?csrw⟩
  case illegal =>
    cases hw : decode w with
    | error e => exact State.issue_of_error hs hw
    | ok i =>
      obtain ⟨r, hr, hmatch⟩ := (decodes_iff_matches w).1 ⟨i, hw⟩
      exact absurd hmatch (hrows r hr)
  case lds => exact State.issue_of_illegal hs hw (exec_lds_of_illegal hsel)
  case sts => exact State.issue_of_illegal hs hw (exec_sts_of_illegal hsel)
  case csrr => exact State.issue_of_illegal hs hw (exec_csrr_of_illegal hsel)
  case csrw => exact State.issue_of_illegal hs hw (exec_csrw_of_illegal hsel)

end Sys2Proof.Machine

/-! The Galois field commands (R122 to R128): a field is what the tables make of the bytes, because a byte
is the only one with its residue modulo `PRIM_POLY`; the commands then write what the tables give. -/

namespace Sys2Proof.Machine

open Polynomial

/-! ### A byte is determined by its residue -/

theorem coeff_bytePoly (v : Byte) {i : Nat} (hi : i < 8) :
    (bytePoly v).coeff i = if v.getLsbD i then 1 else 0 := by
  rw [bytePoly, finsetSum_coeff, Finset.sum_eq_single_of_mem i (Finset.mem_range.2 hi)]
  · split_ifs <;> simp
  · intro j _ hne
    split_ifs
    · rw [coeff_X_pow, if_neg hne.symm]
    · exact coeff_zero i

theorem degree_bytePoly_lt (v : Byte) : (bytePoly v).degree < (8 : Nat) := by
  refine mem_degreeLT.1 (Submodule.sum_mem _ fun i hi => mem_degreeLT.2 ?_)
  split_ifs
  · rw [degree_X_pow]
    exact_mod_cast Finset.mem_range.1 hi
  · rw [degree_zero]
    exact WithBot.bot_lt_coe 8

/-- The degree of `PRIM_POLY` is 8 (R120). -/
theorem degree_primPolynomial {p : Params} (hp : p.primPoly.msb = true) :
    (primPolynomial p).degree = (8 : Nat) := by
  rw [primPolynomial_eq p hp, degree_add_eq_right_of_degree_lt] <;> rw [degree_X_pow]
  exact degree_bytePoly_lt _

/-- A polynomial of degree below 8 that `PRIM_POLY` divides is 0, so only the byte 0 has residue 0. -/
theorem eq_zero_of_residue_eq_zero {p : Params} (hp : p.primPoly.msb = true) {v : Byte}
    (h : residue p v = 0) : v = 0#8 := by
  have hpoly : bytePoly v = 0 := by
    refine eq_zero_of_dvd_of_degree_lt (AdjoinRoot.mk_eq_zero.1 h) ?_
    rw [degree_primPolynomial hp]
    exact degree_bytePoly_lt v
  refine BitVec.eq_of_getLsbD_eq fun i hi => ?_
  have hcoeff := coeff_bytePoly v hi
  rw [hpoly, coeff_zero] at hcoeff
  cases hbit : v.getLsbD i with
  | false => exact BitVec.getLsbD_zero.symm
  | true => simp [hbit] at hcoeff

theorem residue_injective {p : Params} (hp : p.primPoly.msb = true) :
    Function.Injective (residue p) := by
  intro a b hab
  refine BitVec.xor_eq_zero_iff.1 (eq_zero_of_residue_eq_zero hp ?_)
  rw [residue_xor, hab, ← residue_xor, BitVec.xor_self, residue_zero]

/-! ### `GFEXP` and `GFLOG` invert each other (R121) -/

theorem gfExp_zero (p : Params) : gfExp (gfTable p) 0 = 1#8 := gfExp_gfTable p 0

theorem gfExp_mod (t : GfTable) (i : Nat) : gfExp t (i % 255) = gfExp t i := by
  rw [gfExp, gfExp, Nat.mod_mod]

/-- `GFEXP` repeats with period 255 (R120). -/
theorem gfExp_add_255 (t : GfTable) (i : Nat) : gfExp t (i + 255) = gfExp t i := by
  rw [gfExp, gfExp, Nat.add_mod_right]

theorem gfPowers_getElem? (p : Params) {i : Nat} (hi : i < 255) :
    (gfPowers p)[i]? = some (gfExp (gfTable p) i) := by
  rw [gfExp_gfTable, Nat.mod_eq_of_lt hi]
  exact gfIterate_getElem? _ _ _ _ hi

theorem gfExp_mem_gfPowers (p : Params) (i : Nat) : gfExp (gfTable p) i ∈ gfPowers p := by
  rw [← gfExp_mod]
  exact List.mem_of_getElem? (gfPowers_getElem? p (Nat.mod_lt i (by omega)))

theorem gfExp_ne_zero {p : Params} (hp : p.primitive = true) (i : Nat) :
    gfExp (gfTable p) i ≠ 0#8 := by
  obtain ⟨-, hzero, -⟩ := (runsThroughField_iff _).1 (runsThroughField_gfStep hp)
  exact fun h => hzero (h ▸ gfExp_mem_gfPowers p i)

/-- The logarithm is a place in the list of powers. -/
theorem gfLog_lt {p : Params} (hp : p.primitive = true) {v : Byte} (hv : v ≠ 0#8) :
    gfLog (gfTable p) v < 255 := by
  obtain ⟨k, hk, hget⟩ := lastIndex_of_mem (mem_gfPowers hp hv) 0 0
  rw [gfLog_gfTable p hv, hk, Nat.zero_add]
  simpa [gfPowers] using (List.getElem?_eq_some_iff.1 hget).1

/-- The 255 powers are distinct (R120). -/
theorem gfExp_inj {p : Params} (hp : p.primitive = true) {i j : Nat} (hi : i < 255) (hj : j < 255)
    (h : gfExp (gfTable p) i = gfExp (gfTable p) j) : i = j := by
  obtain ⟨hnodup, -, -⟩ := (runsThroughField_iff _).1 (runsThroughField_gfStep hp)
  have hlen : i < (gfPowers p).length := by rwa [gfPowers, length_gfIterate]
  refine (List.getElem?_inj hlen hnodup).1 ?_
  rw [gfPowers_getElem? p hi, gfPowers_getElem? p hj, h]

theorem gfLog_gfExp {p : Params} (hp : p.primitive = true) {i : Nat} (hi : i < 255) :
    gfLog (gfTable p) (gfExp (gfTable p) i) = i :=
  have hne := gfExp_ne_zero hp i
  gfExp_inj hp (gfLog_lt hp hne) hi (gfExp_gfLog hp hne)

theorem gfLog_one {p : Params} (hp : p.primitive = true) : gfLog (gfTable p) 1#8 = 0 := by
  rw [← gfExp_zero p]
  exact gfLog_gfExp hp (by omega)

theorem gfExp_succ (p : Params) {i : Nat} (hi : i < 254) :
    gfExp (gfTable p) (i + 1) = gfStep p (gfExp (gfTable p) i) := by
  rw [gfExp_gfTable, gfExp_gfTable, Nat.mod_eq_of_lt (by omega), Nat.mod_eq_of_lt (by omega),
    Function.iterate_succ_apply']

/-- The reduction on integers, where bit 8 of the doubled byte and of `PRIM_POLY` cancel, is the one on
bytes, which never sees that bit (R120). -/
theorem toNat_gfDouble (p : Params) (hp : p.primPoly.msb = true) (v : Byte) :
    (gfDouble p v).toNat = tableDouble p v.toNat := by
  have hmsb : v.msb = true ↔ 256 ≤ 2 * v.toNat := by
    rw [BitVec.msb_eq_decide, decide_eq_true_eq]; omega
  have hshift : (v <<< 1).toNat = 2 * v.toNat % 2 ^ 8 := by
    rw [BitVec.toNat_shiftLeft, Nat.shiftLeft_eq, pow_one, Nat.mul_comm]
  rw [gfDouble, tableDouble]
  by_cases htop : v.msb = true
  · rw [if_pos htop, if_pos (hmsb.1 htop), BitVec.toNat_xor, hshift, BitVec.toNat_setWidth,
      ← Nat.xor_mod_two_pow]
    refine Nat.mod_eq_of_lt (Nat.lt_of_div_eq_zero (by omega) ?_)
    have hdouble : 2 * v.toNat / 2 ^ 8 = 1 := by
      have := v.isLt; have := hmsb.1 htop; omega
    have hprim : p.primPoly.toNat / 2 ^ 8 = 1 := by
      rw [BitVec.msb_eq_decide, decide_eq_true_eq] at hp
      have := p.primPoly.isLt; omega
    rw [Nat.xor_div_two_pow, hdouble, hprim, Nat.xor_self]
  · rw [if_neg htop, if_neg (hmsb.not.1 htop), hshift]
    exact Nat.mod_eq_of_lt (by have := hmsb.not.1 htop; omega)

/-- Settles O26: the list of powers is distinct and complete, so a place in it is a logarithm. -/
theorem galoisTables : Obligations.GaloisTables := by
  intro p hwf halpha
  have hp := primitive_of_wellFormed hwf
  refine ⟨gfExp_zero p, fun i hi => ?_, fun i hi => gfLog_gfExp hp hi,
    fun v hv => ⟨gfLog_lt hp hv, gfExp_gfLog hp hv⟩, fun i _ => gfExp_add_255 _ i⟩
  rw [gfExp_succ p hi, gfStep, if_pos halpha, toNat_gfDouble p (primPoly_msb_of_primitive hp)]

/-! ### The quotient and the power -/

/-- A non-zero byte has the residue of a power of `ALPHA`, the exponent its logarithm. -/
theorem residue_eq_pow_gfLog {p : Params} (hp : p.primitive = true) {v : Byte} (hv : v ≠ 0#8) :
    residue p v = residue p p.alpha ^ gfLog (gfTable p) v := by
  rw [← residue_gfExp hp, gfExp_gfLog hp hv]

/-- Subtracting logarithms divides residues (R126). -/
theorem residue_gfdiv_mul {p : Params} (hp : p.primitive = true) (a : Byte) {b : Byte}
    (hb : b ≠ 0#8) : residue p (gfdiv (gfTable p) a b) * residue p b = residue p a := by
  rw [gfdiv]
  split_ifs with ha
  · rw [ha, residue_zero, zero_mul]
  · have hlog := gfLog_lt hp hb
    calc residue p (gfExp (gfTable p) (gfLog (gfTable p) a + 255 - gfLog (gfTable p) b)) *
          residue p b
        = residue p p.alpha ^ (gfLog (gfTable p) a + 255) := by
          rw [residue_gfExp hp, residue_eq_pow_gfLog hp hb, ← pow_add,
            Nat.sub_add_cancel (by omega)]
      _ = residue p a := by
          rw [pow_add, residue_alpha_pow_255 hp, mul_one, residue_eq_pow_gfLog hp ha]

/-- Multiplying the logarithm takes the power of the residue (R124). -/
theorem residue_gfpow {p : Params} (hp : p.primitive = true) {a : Byte} (ha : a ≠ 0#8) (n : Nat) :
    residue p (gfpow (gfTable p) a n) = residue p a ^ n := by
  rw [gfpow, gfExp_mod, residue_gfExp hp, pow_mul, ← residue_eq_pow_gfLog hp ha]

theorem gfmul_gfinv {p : Params} (hp : p.primitive = true) {b : Byte} (hb : b ≠ 0#8) :
    gfmul (gfTable p) b (gfinv (gfTable p) b) = 1#8 := by
  refine residue_injective (primPoly_msb_of_primitive hp) ?_
  rw [residue_gfmul hp, mul_comm, gfinv, residue_gfdiv_mul hp _ hb]

/-- A non-zero residue is a unit: its inverse is that of `GFINV` (R127). -/
theorem isUnit_residue {p : Params} (hp : p.primitive = true) {b : Byte} (hb : b ≠ 0#8) :
    IsUnit (residue p b) :=
  IsUnit.of_mul_eq_one_right _ ((residue_gfdiv_mul hp 1#8 hb).trans (residue_one p))

/-- Settles O27: each law holds of the residues, which determine the bytes. -/
theorem galoisFieldLaws : Obligations.GaloisFieldLaws := by
  intro p hwf m
  have hp := primitive_of_wellFormed hwf
  have hinj := residue_injective (primPoly_msb_of_primitive hp)
  have hmul : ∀ a b, residue p (m a b) = residue p a * residue p b := residue_gfmul hp
  refine ⟨fun a b => hinj ?comm, fun a b c => hinj ?assoc, fun a b c => hinj ?distrib,
    fun a => hinj ?one, fun a => hinj ?zero, fun b hb => ?inverse,
    fun a b hb => ⟨hinj ?mulDiv, hinj ?divMul⟩,
    fun a ha => ⟨hinj ?powZero, fun n => hinj ?powSucc, hinj ?powOrder⟩⟩
  case comm => rw [hmul, hmul, mul_comm]
  case assoc => rw [hmul, hmul, hmul, hmul, mul_assoc]
  case distrib => rw [hmul, residue_xor, residue_xor, hmul, hmul, mul_add]
  case one => rw [hmul, residue_one, one_mul]
  case zero => rw [hmul, residue_zero, mul_zero]
  case inverse =>
    refine ⟨gfinv (gfTable p) b, gfmul_gfinv hp hb, fun c hc => hinj ?_⟩
    refine (isUnit_residue hp hb).mul_left_cancel ?_
    rw [← hmul, ← hmul, hc]
    exact congrArg (residue p) (gfmul_gfinv hp hb).symm
  case mulDiv =>
    refine (isUnit_residue hp hb).mul_right_cancel ?_
    rw [residue_gfdiv_mul hp _ hb, hmul]
  case divMul => rw [hmul, residue_gfdiv_mul hp _ hb]
  case powZero => rw [residue_gfpow hp ha, pow_zero, residue_one]
  case powSucc => rw [hmul, residue_gfpow hp ha, residue_gfpow hp ha, pow_succ]
  case powOrder =>
    rw [residue_gfpow hp ha, residue_eq_pow_gfLog hp ha, pow_right_comm, residue_alpha_pow_255 hp,
      one_pow, residue_one]

/-! ### The commands -/

variable {s : State} {rd rs1 rs2 : RegNum}

/-- A command whose rule raises a fault (R312). -/
theorem State.perform_error (hs : s.fault = false) (k : FaultKind) (v : Nat) :
    s.perform (.error (k, v)) = .next (s.faulted k.code v) := State.perform_running hs _

/-- A command whose rule writes a byte to `rd` and nothing else. -/
theorem State.perform_putX_byte (hs : s.fault = false) (rd : RegNum) (v : Byte) :
    ∃ t, s.perform (.ok (s.putX rd v.toNat)) = .next t ∧
      s.SameBut t [rd] [] false false noCells ∧ (t.getX rd).toNat = v.toNat := by
  refine ⟨_, State.perform_running hs _, s.sameBut_setX rd _, ?_⟩
  rw [State.settle_ok, State.putX, State.getX_setX_same, BitVec.toNat_ofNat]
  exact Nat.mod_eq_of_lt (by have := v.isLt; omega)

/-- An operand in the range of the field keeps its value as an element (R122). -/
theorem fieldElem_eq_zero_iff {v : Nat} (hv : v ≤ 255) : fieldElem v = 0#8 ↔ v = 0 := by
  rw [fieldElem, ← BitVec.toNat_inj, BitVec.toNat_ofNat, Nat.mod_eq_of_lt (by omega),
    BitVec.toNat_ofNat, Nat.zero_mod]

theorem fieldElem_ne_zero {v : Nat} (hpos : 0 < v) (hv : v ≤ 255) : fieldElem v ≠ 0#8 :=
  (fieldElem_eq_zero_iff hv).not.2 hpos.ne'

/-! `GFMUL` (R123) -/

theorem exec_gfmul_of_le (ha : s.natX rs1 ≤ 255) (hb : s.natX rs2 ≤ 255) :
    exec (.gfmul rd rs1 rs2) s = s.perform (.ok (s.putX rd
      (gfmul (gfTable s.cfg) (fieldElem (s.natX rs1)) (fieldElem (s.natX rs2))).toNat)) := by
  simp only [exec, execGfmul, if_neg ha.not_gt, if_neg hb.not_gt]

theorem exec_gfmul_of_left_gt (ha : 255 < s.natX rs1) :
    exec (.gfmul rd rs1 rs2) s = s.perform (.error (.operandRange, s.natX rs1)) := by
  simp only [exec, execGfmul, if_pos ha]

theorem exec_gfmul_of_right_gt (ha : s.natX rs1 ≤ 255) (hb : 255 < s.natX rs2) :
    exec (.gfmul rd rs1 rs2) s = s.perform (.error (.operandRange, s.natX rs2)) := by
  simp only [exec, execGfmul, if_neg ha.not_gt, if_pos hb]

theorem toNat_gfmul_fieldElem (t : GfTable) {a b : Nat} (ha : a ≤ 255) (hb : b ≤ 255) :
    (gfmul t (fieldElem a) (fieldElem b)).toNat =
      if a = 0 ∨ b = 0 then 0
      else (gfExp t (gfLog t (fieldElem a) + gfLog t (fieldElem b))).toNat := by
  simp only [gfmul, fieldElem_eq_zero_iff ha, fieldElem_eq_zero_iff hb, apply_ite BitVec.toNat,
    BitVec.toNat_zero]

/-- Settles O22: both operands in range write the product, and the first out of range faults. -/
theorem gfmulResultAndFaults : Obligations.GfmulResultAndFaults := by
  intro s rd rs1 rs2 hs a b tab
  refine ⟨fun ha hb => ?product, fun ha => ?left, fun ha hb => ?right⟩
  case product =>
    rw [exec_gfmul_of_le ha hb]
    obtain ⟨t, hnext, hframe, hval⟩ := State.perform_putX_byte hs rd (gfmul tab _ _)
    exact ⟨t, hnext, hframe, hval.trans (toNat_gfmul_fieldElem tab ha hb)⟩
  case left => rw [exec_gfmul_of_left_gt ha]; exact State.perform_error hs _ _
  case right => rw [exec_gfmul_of_right_gt ha hb]; exact State.perform_error hs _ _

/-! `GFPOW` (R124) -/

theorem exec_gfpow_of_le (hpos : 0 < s.natX rs1) (hx : s.natX rs1 ≤ 255) :
    exec (.gfpow rd rs1 rs2) s = s.perform (.ok (s.putX rd
      (gfpow (gfTable s.cfg) (fieldElem (s.natX rs1)) (s.natX rs2)).toNat)) := by
  simp only [exec, execGfpow, if_neg hx.not_gt, if_neg hpos.ne']

theorem exec_gfpow_of_gt (hx : 255 < s.natX rs1) :
    exec (.gfpow rd rs1 rs2) s = s.perform (.error (.operandRange, s.natX rs1)) := by
  simp only [exec, execGfpow, if_pos hx]

theorem exec_gfpow_of_zero (hx : s.natX rs1 = 0) :
    exec (.gfpow rd rs1 rs2) s = s.perform (.error (.gfLogOfZero, s.natX rs2)) := by
  simp only [exec, execGfpow, hx, if_neg (Nat.not_lt_zero 255), if_true]

/-- Settles O23: a base in range writes the power, and 0 has no logarithm. -/
theorem gfpowResultAndFaults : Obligations.GfpowResultAndFaults := by
  intro s rd rs1 rs2 hs x n tab
  refine ⟨fun hpos hx => ?power, fun hx => ?range, fun hx => ?zero⟩
  case power =>
    rw [exec_gfpow_of_le hpos hx]
    exact State.perform_putX_byte hs rd (gfpow tab _ n)
  case range => rw [exec_gfpow_of_gt hx]; exact State.perform_error hs _ _
  case zero => rw [exec_gfpow_of_zero hx]; exact State.perform_error hs _ _

/-! `GFDIV` (R126) -/

theorem exec_gfdiv_of_le (ha : s.natX rs1 ≤ 255) (hpos : 0 < s.natX rs2) (hb : s.natX rs2 ≤ 255) :
    exec (.gfdiv rd rs1 rs2) s = s.perform (.ok (s.putX rd
      (gfdiv (gfTable s.cfg) (fieldElem (s.natX rs1)) (fieldElem (s.natX rs2))).toNat)) := by
  simp only [exec, execGfdiv, if_neg ha.not_gt, if_neg hb.not_gt, if_neg hpos.ne']

theorem exec_gfdiv_of_left_gt (ha : 255 < s.natX rs1) :
    exec (.gfdiv rd rs1 rs2) s = s.perform (.error (.operandRange, s.natX rs1)) := by
  simp only [exec, execGfdiv, if_pos ha]

theorem exec_gfdiv_of_right_gt (ha : s.natX rs1 ≤ 255) (hb : 255 < s.natX rs2) :
    exec (.gfdiv rd rs1 rs2) s = s.perform (.error (.operandRange, s.natX rs2)) := by
  simp only [exec, execGfdiv, if_neg ha.not_gt, if_pos hb]

theorem exec_gfdiv_of_zero (ha : s.natX rs1 ≤ 255) (hb : s.natX rs2 = 0) :
    exec (.gfdiv rd rs1 rs2) s = s.perform (.error (.divisionByZero, s.natX rs1)) := by
  simp only [exec, execGfdiv, if_neg ha.not_gt, hb, if_neg (Nat.not_lt_zero 255), if_true]

theorem toNat_gfdiv_fieldElem (t : GfTable) {a : Nat} (ha : a ≤ 255) (b : Byte) :
    (gfdiv t (fieldElem a) b).toNat =
      if a = 0 then 0 else (gfExp t (gfLog t (fieldElem a) + 255 - gfLog t b)).toNat := by
  simp only [gfdiv, fieldElem_eq_zero_iff ha, apply_ite BitVec.toNat, BitVec.toNat_zero]

/-- Settles O24: a divisor in range writes the quotient, and the check of the divisor comes before the
case of a zero dividend. -/
theorem gfdivResultAndFaults : Obligations.GfdivResultAndFaults := by
  intro s rd rs1 rs2 hs a b tab
  refine ⟨fun ha hpos hb => ?quotient, fun ha => ?left, fun ha hb => ?right, fun ha hb => ?zero⟩
  case quotient =>
    rw [exec_gfdiv_of_le ha hpos hb]
    obtain ⟨t, hnext, hframe, hval⟩ := State.perform_putX_byte hs rd (gfdiv tab _ _)
    exact ⟨t, hnext, hframe, hval.trans (toNat_gfdiv_fieldElem tab ha _)⟩
  case left => rw [exec_gfdiv_of_left_gt ha]; exact State.perform_error hs _ _
  case right => rw [exec_gfdiv_of_right_gt ha hb]; exact State.perform_error hs _ _
  case zero => rw [exec_gfdiv_of_zero ha hb]; exact State.perform_error hs _ _

/-! `GFINV` (R127) -/

theorem exec_gfinv_of_le (hpos : 0 < s.natX rs1) (hb : s.natX rs1 ≤ 255) :
    exec (.gfinv rd rs1) s = s.perform (.ok (s.putX rd
      (gfinv (gfTable s.cfg) (fieldElem (s.natX rs1))).toNat)) := by
  simp only [exec, execGfinv, if_neg hb.not_gt, if_neg hpos.ne']

theorem exec_gfinv_of_gt (hb : 255 < s.natX rs1) :
    exec (.gfinv rd rs1) s = s.perform (.error (.operandRange, s.natX rs1)) := by
  simp only [exec, execGfinv, if_pos hb]

theorem exec_gfinv_of_zero (hb : s.natX rs1 = 0) :
    exec (.gfinv rd rs1) s = s.perform (.error (.divisionByZero, 1)) := by
  simp only [exec, execGfinv, hb, if_neg (Nat.not_lt_zero 255), if_true]

/-- The logarithm of 1 is 0 (R127). -/
theorem gfinv_eq {p : Params} (hp : p.primitive = true) (b : Byte) :
    gfinv (gfTable p) b = gfExp (gfTable p) (255 - gfLog (gfTable p) b) := by
  rw [gfinv, gfdiv, if_neg (by decide), gfLog_one hp, Nat.zero_add]

/-- Settles O25: an operand in range writes its inverse, and 0 has none. -/
theorem gfinvResultAndFaults : Obligations.GfinvResultAndFaults := by
  intro s rd rs1 hs b tab
  refine ⟨fun hwf hpos hb => ?inverse, fun hb => ?range, fun hb => ?zero⟩
  case inverse =>
    have hp := primitive_of_wellFormed hwf
    rw [exec_gfinv_of_le hpos hb]
    obtain ⟨t, hnext, hframe, hval⟩ := State.perform_putX_byte hs rd (gfinv tab (fieldElem b))
    have hbyte : (t.getX rd).setWidth 8 = gfinv tab (fieldElem b) :=
      BitVec.eq_of_toNat_eq (by
        rw [BitVec.toNat_setWidth, hval, Nat.mod_eq_of_lt (gfinv tab (fieldElem b)).isLt])
    refine ⟨t, hnext, hframe, hval.trans (congrArg BitVec.toNat (gfinv_eq hp _)), ?_⟩
    rw [hbyte]
    exact gfmul_gfinv hp (fieldElem_ne_zero hpos hb)
  case range => rw [exec_gfinv_of_gt hb]; exact State.perform_error hs _ _
  case zero => rw [exec_gfinv_of_zero hb]; exact State.perform_error hs _ _

end Sys2Proof.Machine

/-! The Reed-Solomon commands (R140 to R151): the sequences that the units work on are the loops of the
rules, byte by byte; and read in the residue ring of `PRIM_POLY` a codeword is a multiple of the
generator polynomial, so it vanishes at the polynomial's roots. -/

namespace Sys2Proof

/-- What reads at an index after consecutive elements were written: one of them, or the old element. -/
theorem Mem.getD_get?_cellsFrom {α : Type} (base : Nat) (l : List α) (k : Nat) (old : α) :
    (Mem.get? (Mem.cellsFrom base l) k).getD old =
      if base ≤ k then l.getD (k - base) old else old := by
  rw [Mem.get?_cellsFrom, List.getD_eq_getElem?_getD]
  by_cases h : k < base
  · rw [if_pos h, if_neg h.not_ge]; rfl
  · rw [if_neg h, if_pos (not_lt.1 h)]

end Sys2Proof

namespace Sys2Proof.Machine

/-! ### Sequences of bytes, byte by byte: what lies past the end counts as 0 -/

theorem gfmul_zero_left (t : GfTable) (b : Byte) : gfmul t 0#8 b = 0#8 := if_pos (.inl rfl)

theorem getD_map_gfmul (t : GfTable) (c : Byte) (l : List Byte) (j : Nat) :
    (l.map fun g => gfmul t g c).getD j 0#8 = gfmul t (l.getD j 0#8) c := by
  conv_lhs => rw [← gfmul_zero_left t c]
  exact List.getD_map ..

theorem getD_xorPrefix {bs cs : List Byte} {j : Nat} (hj : j < bs.length) :
    (xorPrefix bs cs).getD j 0#8 = bs.getD j 0#8 ^^^ cs.getD j 0#8 := by
  induction bs generalizing cs j with
  | nil => simp at hj
  | cons b bs ih =>
    cases cs with
    | nil => simp [xorPrefix]
    | cons c cs =>
      cases j with
      | zero => rfl
      | succ j => exact ih (Nat.lt_of_succ_lt_succ hj)

theorem getD_zipWith_xor {bs cs : List Byte} (h : bs.length = cs.length) (j : Nat) :
    (List.zipWith (· ^^^ ·) bs cs).getD j 0#8 = bs.getD j 0#8 ^^^ cs.getD j 0#8 := by
  induction bs generalizing cs j with
  | nil =>
    obtain rfl := List.length_eq_zero_iff.1 h.symm
    simp
  | cons b bs ih =>
    cases cs with
    | nil => cases h
    | cons c cs =>
      cases j with
      | zero => rfl
      | succ j => exact ih (Nat.succ.inj h) j

/-! ### The generator polynomial (R142) -/

/-- A product with one factor has the coefficients of the sequence, and those of its multiple one place
further down. -/
theorem getD_rsTimesRoot (t : GfTable) (g : List Byte) (r : Byte) (j : Nat) :
    (rsTimesRoot t g r).getD j 0#8 =
      g.getD j 0#8 ^^^ if 1 ≤ j then gfmul t (g.getD (j - 1) 0#8) r else 0#8 := by
  have hpad : (g ++ [0#8]).getD j 0#8 = g.getD j 0#8 := by
    rw [List.getD_eq_getElem?_getD, List.getElem?_append]
    split_ifs with hj
    · exact (List.getD_eq_getElem?_getD ..).symm
    · rw [List.getD_eq_default _ _ (not_lt.1 hj), ← List.getD_eq_getElem?_getD]
      cases j - g.length <;> rfl
  rw [rsTimesRoot, getD_zipWith_xor (by simp), hpad]
  cases j with
  | zero => rfl
  | succ j => rw [List.getD_cons_succ, getD_map_gfmul, if_pos (by omega), Nat.add_sub_cancel]

/-- The generator polynomial is monic (R142). -/
theorem rsGenerator_eq_one_cons (t : GfTable) (fcr n : Nat) :
    rsGenerator t fcr n = 1#8 :: (rsGenerator t fcr n).tail := by
  induction n with
  | zero => rfl
  | succ n ih => rw [rsGenerator, ih]; simp [rsTimesRoot]

/-- Settles O29: each degree is one factor more, and the worked values are computed. -/
theorem generatorPolynomial : Obligations.GeneratorPolynomial := by
  refine ⟨fun t fcr => ⟨rfl, fun n => ⟨length_rsGenerator t fcr (n + 1), fun j _ => ?loop⟩⟩,
    by decide +kernel⟩
  case loop =>
    rw [rsGenerator, getD_rsTimesRoot]
    congr 1
    split_ifs with hj
    · rfl
    · exact List.getD_eq_default _ _ (by rw [length_rsGenerator]; omega)

/-! ### The commands and what they leave -/

variable {s : State} {rd rs1 : RegNum}

/-! `RSCFG` (R141) -/

/-- The state that `RSCFG` gives. -/
def State.configured (s : State) (n : Nat) : State :=
  { s.writeGen (Mem.cellsFrom 0 (rsGenerator (gfTable s.cfg) s.cfg.fcr n)) with
    rsNsym := BitVec.ofNat 11 n, syn := [], synEpoch := s.synEpoch + 1 }

theorem exec_rscfg_of_le (hn : s.natX rs1 ≤ s.cfg.nsymMax) :
    exec (.rscfg rs1) s = s.perform (.ok (s.configured (s.natX rs1))) := by
  simp only [exec, execRscfg, if_neg hn.not_gt, State.configured]

theorem exec_rscfg_of_gt (hn : s.cfg.nsymMax < s.natX rs1) :
    exec (.rscfg rs1) s = s.perform (.error (.operandRange, s.natX rs1)) := by
  simp only [exec, execRscfg, if_pos hn]

/-- `RSCFG` writes `GEN` from index 0 to the degree. -/
theorem State.genAt_configured (s : State) (n j : Nat) :
    (s.configured n).genAt j =
      (rsGenerator (gfTable s.cfg) s.cfg.fcr n).getD j (s.genAt j) := by
  refine (s.genAt_writeGen _ j).trans ?_
  rw [Mem.getD_get?_cellsFrom, if_pos (Nat.zero_le j), Nat.sub_zero]

theorem State.sameBut_configured (s : State) {n : Nat} (hn : n ≤ s.cfg.nsymMax) :
    s.SameBut (s.configured n) [] [.rsNsym] false false
      fun sp i => sp = .gen ∧ i ≤ n ∨ sp = .syn where
  regs _ _ := rfl
  csrs c _ hc := by
    cases c with
    | rsNsym => simp at hc
    | _ => rfl
  fault := rfl
  rserr _ := rfl
  found _ := rfl
  cells sp i hcell := by
    obtain ⟨hgen, hsyn⟩ := not_or.1 hcell
    by_cases hsp : sp = .gen
    · subst hsp
      have hi : n < i := not_le.1 fun h => hgen ⟨rfl, h⟩
      refine congrArg (fun b : Byte => Elem.int b.toNat) ((s.genAt_configured n i).trans ?_)
      exact List.getD_eq_default _ _ (by rw [length_rsGenerator]; omega)
    · refine element_of_effect (.rscfg 0 hn) (fun hwrites => ?_) i
      cases hwrites with
      | rscfgGen => exact hsp rfl
      | rscfgSyn => exact hsyn rfl
  cfg := rfl
  input := rfl

/-- Settles O30: a degree up to `NSYM_MAX` fits `RS_NSYM` and fills `GEN`, a larger one faults. -/
theorem rscfgSetsGenerator : Obligations.RscfgSetsGenerator := by
  intro s rs1 hs hwf nsym
  refine ⟨fun hn => ⟨s.configured nsym, ?next, ?nsym, fun j hj => ?gen, s.sameBut_configured hn⟩,
    fun hn => ?range⟩
  case next => rw [exec_rscfg_of_le hn, State.perform_running hs]; rfl
  case nsym =>
    obtain ⟨-, -, hmax⟩ := bounds_of_wellFormed hwf
    exact Nat.mod_eq_of_lt (by omega)
  case gen =>
    have hlen : j < (rsGenerator (gfTable s.cfg) s.cfg.fcr nsym).length := by
      rw [length_rsGenerator]; omega
    rw [s.genAt_configured, List.getD_eq_getElem _ _ hlen, List.getD_eq_getElem _ _ hlen]
  case range => rw [exec_rscfg_of_gt hn]; exact State.perform_error hs _ _

/-! `RSENC` (R143) -/

/-- One more pass of the division is a pass on what the earlier ones left. -/
theorem rsDivide_succ (t : GfTable) (tail : List Byte) (k : Nat) (buf : List Byte) :
    rsDivide t tail (k + 1) buf = rsDivide t tail 1 (rsDivide t tail k buf) := by
  induction k generalizing buf with
  | zero => rfl
  | succ k ih =>
    cases buf with
    | nil => rfl
    | cons coef buf => exact ih _

/-- One pass adds the front byte's multiple of the tail to the bytes behind it. -/
theorem getD_rsDivide_one (t : GfTable) (tail : List Byte) {buf : List Byte} {j : Nat}
    (hj : j + 1 < buf.length) :
    (rsDivide t tail 1 buf).getD j 0#8 =
      if buf.getD 0 0#8 ≠ 0#8 then
        buf.getD (j + 1) 0#8 ^^^ gfmul t (tail.getD j 0#8) (buf.getD 0 0#8)
      else buf.getD (j + 1) 0#8 := by
  cases buf with
  | nil => simp at hj
  | cons coef buf =>
    simp only [rsDivide, List.getD_cons_zero, List.getD_cons_succ, ite_not]
    split_ifs
    · rfl
    · rw [getD_xorPrefix (Nat.lt_of_succ_lt_succ hj), getD_map_gfmul]

/-- The division of the unit is the loop of R143: its buffer is the loop's from the place of the next
pass on. -/
theorem getD_rsDivide (t : GfTable) {gen : Nat → Byte} {nsym : Nat} {tail : List Byte}
    (htail : ∀ j, tail.getD j 0#8 = if j < nsym then gen (j + 1) else 0#8) (buf : List Byte)
    {k j : Nat} (hj : k + j < buf.length) :
    (rsDivide t tail k buf).getD j 0#8 =
      rsBuffer t gen nsym k (fun m => buf.getD m 0#8) (k + j) := by
  induction k generalizing j with
  | zero => simp [rsDivide, rsBuffer]
  | succ k ih =>
    have hfront := ih (j := 0) (by omega)
    have hbyte := ih (j := j + 1) (by omega)
    have hindex : k + 1 + j - k = j + 1 := by omega
    rw [rsDivide_succ, getD_rsDivide_one t tail (by rw [length_rsDivide]; omega), hfront, hbyte, htail,
      Nat.add_zero, show k + (j + 1) = k + 1 + j by omega]
    simp only [rsBuffer, hindex]
    by_cases hlt : j < nsym
    · rw [if_pos hlt]
      exact if_congr ⟨fun hne => ⟨hne, by omega, by omega⟩, And.left⟩ rfl rfl
    · rw [if_neg hlt, gfmul_zero_left, BitVec.xor_zero, ite_self, if_neg (by omega)]

theorem getD_map_range (f : Nat → Byte) (n j : Nat) :
    ((List.range n).map f).getD j 0#8 = if j < n then f j else 0#8 := by
  split_ifs with hj <;> simp [List.getD_eq_getElem?_getD, hj]

theorem State.length_symPrefix (s : State) (n : Nat) : (s.symPrefix n).length = n := by
  simp [State.symPrefix]

/-- `RSENC` starts from the data bytes and zeros behind them. -/
theorem getD_append_replicate_zero (l : List Byte) (n m : Nat) :
    (l ++ List.replicate n 0#8).getD m 0#8 = l.getD m 0#8 := by
  induction l generalizing m with
  | nil =>
    rw [List.nil_append, List.getD_eq_getElem?_getD, List.getElem?_replicate]
    split_ifs <;> rfl
  | cons b l ih =>
    cases m with
    | zero => rfl
    | succ m => exact ih m

/-- The parity bytes of `SYM[0..k-1]`. -/
def State.parity (s : State) (k : Nat) : List Byte :=
  rsParity (gfTable s.cfg) s.genTail (s.symPrefix k)

@[simp] theorem State.length_parity (s : State) (k : Nat) :
    (s.parity k).length = s.rsNsym.toNat := by simp [State.parity]

/-- The parity bytes are those that the loop of R143 leaves behind the data. -/
theorem State.getD_parity (s : State) (k : Nat) {j : Nat} (hj : j < s.rsNsym.toNat) :
    (s.parity k).getD j 0#8 =
      rsBuffer (gfTable s.cfg) s.genAt s.rsNsym.toNat k
        (fun m => if m < k then s.symAt m else 0#8) (k + j) := by
  have hbuf : (fun m => if m < k then s.symAt m else 0#8) =
      fun m => (s.symPrefix k ++ List.replicate s.genTail.length 0#8).getD m 0#8 :=
    funext fun m => by rw [getD_append_replicate_zero, State.symPrefix, getD_map_range]
  rw [hbuf, State.parity, rsParity, s.length_symPrefix]
  exact getD_rsDivide _ (getD_map_range _ _) _ (by simp [s.length_symPrefix, hj])

/-- The state that `RSENC` gives. -/
def State.encoded (s : State) (k : Nat) : State := s.writeSym (Mem.cellsFrom k (s.parity k))

theorem exec_rsenc_of_le (hk : s.natX rs1 + s.rsNsym.toNat ≤ s.cfg.symSize) :
    exec (.rsenc rs1) s = s.perform (.ok (s.encoded (s.natX rs1))) := by
  simp only [exec, execRsenc, if_neg hk.not_gt, State.encoded, State.parity]

theorem exec_rsenc_of_gt (hk : s.cfg.symSize < s.natX rs1 + s.rsNsym.toNat) :
    exec (.rsenc rs1) s =
      s.perform (.error (.bufferBounds, s.natX rs1 + s.rsNsym.toNat)) := by
  simp only [exec, execRsenc, if_pos hk]

theorem State.symAt_encoded (s : State) (k i : Nat) :
    (s.encoded k).symAt i = if k ≤ i then (s.parity k).getD (i - k) (s.symAt i) else s.symAt i := by
  rw [State.encoded, State.symAt_writeSym, Mem.getD_get?_cellsFrom]

theorem State.symAt_encoded_of_lt (s : State) {k i : Nat} (hi : i < k) :
    (s.encoded k).symAt i = s.symAt i := by
  rw [s.symAt_encoded, if_neg hi.not_ge]

theorem State.symAt_encoded_parity (s : State) (k : Nat) {j : Nat} (hj : j < s.rsNsym.toNat) :
    (s.encoded k).symAt (k + j) = (s.parity k).getD j 0#8 := by
  have hlen : j < (s.parity k).length := by rwa [State.length_parity]
  rw [s.symAt_encoded, if_pos (Nat.le_add_right k j), Nat.add_sub_cancel_left,
    List.getD_eq_getElem _ _ hlen, List.getD_eq_getElem _ _ hlen]

theorem State.sameBut_encoded (s : State) (k : Nat) :
    s.SameBut (s.encoded k) [] [] false false (cellRange .sym k (k + s.rsNsym.toNat)) := by
  refine State.sameBut_of_spaces rfl (fun sp i hsp => s.element_writeSym _ hsp i) fun i hi => ?_
  refine congrArg (fun b : Byte => Elem.int b.toNat) ((s.symAt_encoded k i).trans ?_)
  split_ifs with hk
  · exact List.getD_eq_default _ _ (by rw [State.length_parity]; omega)
  · rfl

/-- Settles O31: the unit's division is the loop of R143, and a codeword that does not fit faults. -/
theorem rsencWritesParity : Obligations.RsencWritesParity := by
  intro s rs1 hs k nsym
  refine ⟨fun hk => ⟨s.encoded k, ?next, fun j hj => ?parity, s.sameBut_encoded k⟩, fun hk => ?range⟩
  case next => rw [exec_rsenc_of_le hk, State.perform_running hs]; rfl
  case parity => rw [s.symAt_encoded_parity k hj, s.getD_parity k hj]
  case range => rw [exec_rsenc_of_gt hk]; exact State.perform_error hs _ _

/-! `RSSYN` and `RSDEC` (R147, R149) -/

/-- The fold over a sequence is Horner's rule of R146. -/
theorem rsHorner_map_range (t : GfTable) (a : Byte) (r : Nat → Byte) (n : Nat) :
    rsHorner t a ((List.range n).map r) = hornerValue t a r n := by
  induction n with
  | zero => rfl
  | succ n ih =>
    rw [rsHorner] at ih ⊢
    rw [List.range_succ, List.map_append, List.foldl_append, ih]
    rfl

/-- The syndromes of `SYM[0..n-1]` are the values of R146. -/
theorem State.getD_syndromes (s : State) (n : Nat) {j : Nat} (hj : j < s.rsNsym.toNat) :
    (s.syndromes n).getD j 0#8 =
      hornerValue (gfTable s.cfg) (gfExp (gfTable s.cfg) ((s.cfg.fcr + j) % 255)) s.symAt n := by
  rw [State.syndromes, rsSyndromes, getD_map_range, if_pos hj, State.symPrefix, rsHorner_map_range]
  rfl

/-- `RSERR` says that some byte of the sequence is not 0 (R147). -/
theorem syndromesBad_iff (l : List Byte) :
    syndromesBad l = true ↔ ∃ j < l.length, l.getD j 0#8 ≠ 0#8 := by
  simp only [syndromesBad, List.any_eq_true, bne_iff_ne, List.mem_iff_getElem]
  constructor
  · rintro ⟨-, ⟨j, hj, rfl⟩, hne⟩
    exact ⟨j, hj, by rwa [List.getD_eq_getElem _ _ hj]⟩
  · rintro ⟨j, hj, hne⟩
    exact ⟨l[j], ⟨j, hj, rfl⟩, by rwa [List.getD_eq_getElem _ _ hj] at hne⟩

/-- The state that `RSSYN` and `RSDEC` give: the syndromes and their verdict, and `v` in `rd`. -/
def State.checked (s : State) (n : Nat) (rd : RegNum) (v : Word) : State :=
  ((s.writeSyn (Mem.cellsFrom 0 (s.syndromes n))).setX rd v).setRserr (syndromesBad (s.syndromes n))

theorem State.synAt_checked (s : State) (n : Nat) (rd : RegNum) (v : Word) (j : Nat) :
    (s.checked n rd v).synAt j = (s.syndromes n).getD j (s.synAt j) := by
  refine (s.synAt_writeSyn _ j).trans ?_
  rw [Mem.getD_get?_cellsFrom, if_pos (Nat.zero_le j), Nat.sub_zero]

theorem State.synAt_checked_of_lt (s : State) (n : Nat) (rd : RegNum) (v : Word) {j : Nat}
    (hj : j < s.rsNsym.toNat) :
    (s.checked n rd v).synAt j =
      hornerValue (gfTable s.cfg) (gfExp (gfTable s.cfg) ((s.cfg.fcr + j) % 255)) s.symAt n := by
  have hlen : j < (s.syndromes n).length := by rwa [State.length_syndromes]
  rw [← s.getD_syndromes n hj, s.synAt_checked, List.getD_eq_getElem _ _ hlen,
    List.getD_eq_getElem _ _ hlen]

theorem State.rserr_checked_iff (s : State) (n : Nat) (rd : RegNum) (v : Word) :
    (s.checked n rd v).rserr = true ↔ ∃ j < s.rsNsym.toNat,
      hornerValue (gfTable s.cfg) (gfExp (gfTable s.cfg) ((s.cfg.fcr + j) % 255)) s.symAt n ≠ 0#8 := by
  refine (syndromesBad_iff (s.syndromes n)).trans ?_
  rw [State.length_syndromes]
  exact exists_congr fun j => and_congr_right fun hj => by rw [s.getD_syndromes n hj]

@[simp] theorem State.getX_checked (s : State) (n : Nat) (rd : RegNum) (v : Word) :
    (s.checked n rd v).getX rd = v := by
  rw [State.checked, State.getX_setRserr, State.getX_setX_same]

theorem State.sameBut_checked (s : State) (n : Nat) (rd : RegNum) (v : Word) :
    s.SameBut (s.checked n rd v) [rd] [] true false (cellRange .syn 0 s.rsNsym.toNat) where
  regs r hr := (s.writeSyn _).getX_setX_other v (by simpa using hr)
  csrs c hc _ := by
    cases c with
    | status => exact absurd rfl hc
    | _ => rfl
  fault := rfl
  rserr := nofun
  found _ := rfl
  cells sp i hcell := by
    rw [State.checked, State.element_setRserr, State.element_setX]
    by_cases hsp : sp = .syn
    · subst hsp
      have hi : s.rsNsym.toNat ≤ i := not_lt.1 fun h => hcell ⟨rfl, Nat.zero_le i, h⟩
      refine congrArg (fun b : Byte => Elem.int b.toNat) ((s.synAt_checked n rd v i).trans ?_)
      exact List.getD_eq_default _ _ (by rwa [State.length_syndromes])
    · exact s.element_writeSyn _ hsp i
  cfg := rfl
  input := rfl

theorem exec_rssyn_of_le (hn : s.natX rs1 ≤ s.cfg.symSize) :
    exec (.rssyn rd rs1) s = s.perform (.ok
      (s.checked (s.natX rs1) rd (boolWord (syndromesBad (s.syndromes (s.natX rs1)))))) := by
  simp only [exec, execRssyn, if_neg hn.not_gt, State.checked]

theorem exec_rssyn_of_gt (hn : s.cfg.symSize < s.natX rs1) :
    exec (.rssyn rd rs1) s = s.perform (.error (.bufferBounds, s.natX rs1)) := by
  simp only [exec, execRssyn, if_pos hn]

/-- Settles O32: `rd` and `RSERR` have the one verdict on the syndromes, and a sequence longer than
`SYM` faults. -/
theorem rssynWritesSyndromes : Obligations.RssynWritesSyndromes := by
  intro s rd rs1 hs n nsym S
  refine ⟨fun hn => ⟨s.checked n rd (boolWord (syndromesBad (s.syndromes n))), ?next,
    fun j hj => s.synAt_checked_of_lt n rd _ hj, s.rserr_checked_iff n rd _, s.getX_checked n rd _,
    s.sameBut_checked n rd _⟩, fun hn => ?range⟩
  case next => rw [exec_rssyn_of_le hn, State.perform_running hs]; rfl
  case range => rw [exec_rssyn_of_gt hn]; exact State.perform_error hs _ _

theorem exec_rsdec_of_le (hn : s.natX rs1 ≤ s.cfg.symSize) (hnsym : s.rsNsym.toNat ≤ s.natX rs1) :
    exec (.rsdec rd rs1) s = s.perform (.ok
      (s.checked (s.natX rs1) rd (BitVec.ofNat 32 (s.natX rs1 - s.rsNsym.toNat)))) := by
  simp only [exec, execRsdec, if_neg hn.not_gt, if_neg hnsym.not_gt]
  rfl

theorem exec_rsdec_of_gt (hn : s.cfg.symSize < s.natX rs1) :
    exec (.rsdec rd rs1) s = s.perform (.error (.bufferBounds, s.natX rs1)) := by
  simp only [exec, execRsdec, if_pos hn]

theorem exec_rsdec_of_lt_nsym (hn : s.natX rs1 ≤ s.cfg.symSize)
    (hnsym : s.natX rs1 < s.rsNsym.toNat) :
    exec (.rsdec rd rs1) s = s.perform (.error (.operandRange, s.natX rs1)) := by
  simp only [exec, execRsdec, if_neg hn.not_gt, if_pos hnsym]

/-- Settles O33: the length in `rd` is that of the operands alone, and the check against `SYM` comes
before the one against `RS_NSYM`. -/
theorem rsdecChecksAndCounts : Obligations.RsdecChecksAndCounts := by
  intro s rd rs1 hs n nsym S
  refine ⟨fun hn hnsym => ⟨s.checked n rd (BitVec.ofNat 32 (n - nsym)), ?next,
    fun j hj => s.synAt_checked_of_lt n rd _ hj, s.rserr_checked_iff n rd _, ?length,
    s.sameBut_checked n rd _⟩, fun hn => ?long, fun hn hnsym => ?short⟩
  case next => rw [exec_rsdec_of_le hn hnsym, State.perform_running hs]; rfl
  case length =>
    rw [State.getX_checked]
    exact Nat.mod_eq_of_lt ((Nat.sub_le n nsym).trans_lt (s.getX rs1).isLt)
  case long => rw [exec_rsdec_of_gt hn]; exact State.perform_error hs _ _
  case short => rw [exec_rsdec_of_lt_nsym hn hnsym]; exact State.perform_error hs _ _

/-! ### Codewords vanish at the roots of the generator polynomial (R144, R148) -/

/-- The value at `x` of the polynomial of a byte sequence, in the residue ring of `PRIM_POLY` (R140). -/
noncomputable def residueEval (p : Params) (x : AdjoinRoot (primPolynomial p)) :
    List Byte → AdjoinRoot (primPolynomial p)
  | [] => 0
  | b :: l => residue p b * x ^ l.length + residueEval p x l

section Eval

variable {p : Params} {x : AdjoinRoot (primPolynomial p)}

@[simp] theorem residueEval_nil : residueEval p x [] = 0 := rfl

@[simp] theorem residueEval_cons (b : Byte) (l : List Byte) :
    residueEval p x (b :: l) = residue p b * x ^ l.length + residueEval p x l := rfl

/-- The residues of bytes have characteristic 2 (R128). -/
theorem add_self_adjoinRoot (z : AdjoinRoot (primPolynomial p)) : z + z = 0 := by
  have hone : (1 : AdjoinRoot (primPolynomial p)) + 1 = 0 := by
    rw [← residue_one, ← residue_xor, BitVec.xor_self, residue_zero]
  calc z + z = (1 + 1) * z := by ring
    _ = 0 := by rw [hone, zero_mul]

theorem residueEval_append (l m : List Byte) :
    residueEval p x (l ++ m) = residueEval p x l * x ^ m.length + residueEval p x m := by
  induction l with
  | nil => simp
  | cons b l ih =>
    rw [List.cons_append, residueEval_cons, ih, residueEval_cons, List.length_append, pow_add]
    ring

theorem residueEval_replicate_zero (n : Nat) : residueEval p x (List.replicate n 0#8) = 0 := by
  induction n with
  | zero => rfl
  | succ n ih => simp [List.replicate_succ, ih]

theorem residueEval_map_gfmul (hp : p.primitive = true) (c : Byte) (l : List Byte) :
    residueEval p x (l.map fun g => gfmul (gfTable p) g c) = residueEval p x l * residue p c := by
  induction l with
  | nil => simp
  | cons b l ih =>
    rw [List.map_cons, residueEval_cons, residueEval_cons, ih, residue_gfmul hp, List.length_map]
    ring

theorem residueEval_zipWith_xor {bs cs : List Byte} (h : bs.length = cs.length) :
    residueEval p x (List.zipWith (· ^^^ ·) bs cs) = residueEval p x bs + residueEval p x cs := by
  induction bs generalizing cs with
  | nil =>
    obtain rfl := List.length_eq_zero_iff.1 h.symm
    simp
  | cons b bs ih =>
    cases cs with
    | nil => cases h
    | cons c cs =>
      have hlen : bs.length = cs.length := Nat.succ.inj h
      rw [List.zipWith_cons_cons, residueEval_cons, ih hlen, residueEval_cons, residueEval_cons,
        residue_xor, List.length_zipWith, hlen, min_self]
      ring

/-- The bytes that a pass adds stand as many places up as the buffer is longer. -/
theorem residueEval_xorPrefix {bs cs : List Byte} (h : cs.length ≤ bs.length) :
    residueEval p x (xorPrefix bs cs) =
      residueEval p x bs + residueEval p x cs * x ^ (bs.length - cs.length) := by
  induction bs generalizing cs with
  | nil =>
    obtain rfl := List.length_eq_zero_iff.1 (Nat.le_zero.1 h)
    simp [xorPrefix]
  | cons b bs ih =>
    cases cs with
    | nil => simp [xorPrefix]
    | cons c cs =>
      have hlen : cs.length ≤ bs.length := Nat.le_of_succ_le_succ h
      have hpow : x ^ bs.length = x ^ cs.length * x ^ (bs.length - cs.length) := by
        rw [← pow_add, Nat.add_sub_cancel' hlen]
      rw [xorPrefix, residueEval_cons, ih hlen, residueEval_cons, residueEval_cons, residue_xor,
        length_xorPrefix, List.length_cons, List.length_cons, Nat.add_sub_add_right, hpow]
      ring

/-- Horner's rule gives the value of the polynomial (R146). -/
theorem residue_rsHorner (hp : p.primitive = true) (a : Byte) (l : List Byte) :
    residue p (rsHorner (gfTable p) a l) = residueEval p (residue p a) l := by
  induction l using List.reverseRecOn with
  | nil => exact residue_zero p
  | append_singleton l b ih =>
    rw [rsHorner] at ih ⊢
    rw [List.foldl_append, List.foldl_cons, List.foldl_nil, residue_xor, residue_gfmul hp, ih,
      residueEval_append]
    simp

/-- A factor `x - r` is `x + r` in characteristic 2 (R142). -/
theorem residueEval_rsTimesRoot (hp : p.primitive = true) (g : List Byte) (r : Byte) :
    residueEval p x (rsTimesRoot (gfTable p) g r) = residueEval p x g * (x + residue p r) := by
  calc residueEval p x (rsTimesRoot (gfTable p) g r)
      = residueEval p x (g ++ [0#8]) +
          residueEval p x (0#8 :: g.map fun c => gfmul (gfTable p) c r) :=
        residueEval_zipWith_xor (by simp)
    _ = residueEval p x g * x + residueEval p x g * residue p r := by
        simp [residueEval_append, residueEval_map_gfmul hp]
    _ = residueEval p x g * (x + residue p r) := (mul_add ..).symm

/-- The generator polynomial vanishes at each of its roots (R142). -/
theorem residueEval_rsGenerator (hp : p.primitive = true) (fcr : Nat) {n j : Nat} (hj : j < n) :
    residueEval p (residue p (alphaPow (gfTable p) (fcr + j)))
      (rsGenerator (gfTable p) fcr n) = 0 := by
  induction n with
  | zero => omega
  | succ n ih =>
    rw [rsGenerator, residueEval_rsTimesRoot hp]
    obtain hlt | rfl := Nat.lt_succ_iff_lt_or_eq.1 hj
    · rw [ih hlt, zero_mul]
    · rw [add_self_adjoinRoot, mul_zero]

/-- A pass adds a multiple of the generator polynomial, so at a root of it the value stays (R143,
R144). -/
theorem residueEval_rsDivide (hp : p.primitive = true) {tail : List Byte}
    (hroot : residueEval p x (1#8 :: tail) = 0) {k : Nat} {buf : List Byte}
    (hlen : k + tail.length ≤ buf.length) :
    residueEval p x (rsDivide (gfTable p) tail k buf) = residueEval p x buf := by
  have htail : residueEval p x tail = x ^ tail.length := by
    rw [residueEval_cons, residue_one, one_mul] at hroot
    rw [eq_neg_of_add_eq_zero_right hroot, neg_eq_of_add_eq_zero_left (add_self_adjoinRoot _)]
  induction k generalizing buf with
  | zero => rfl
  | succ k ih =>
    cases buf with
    | nil => simp at hlen
    | cons coef buf =>
      have hbuf : k + tail.length ≤ buf.length := by
        rw [List.length_cons] at hlen; omega
      rw [rsDivide, ih (by split_ifs <;> simpa using hbuf)]
      split_ifs with hcoef
      · simp [hcoef]
      · have hpow : x ^ buf.length = x ^ tail.length * x ^ (buf.length - tail.length) := by
          rw [← pow_add, Nat.add_sub_cancel' (by omega)]
        rw [residueEval_xorPrefix (by rw [List.length_map]; omega), residueEval_map_gfmul hp, htail,
          List.length_map, residueEval_cons, hpow]
        ring

/-- A codeword vanishes at the roots of the generator polynomial: its parity bytes have there the value
of the shifted data (R144). -/
theorem residueEval_codeword (hp : p.primitive = true) {tail : List Byte}
    (hroot : residueEval p x (1#8 :: tail) = 0) (data : List Byte) :
    residueEval p x (data ++ rsParity (gfTable p) tail data) = 0 := by
  have hparity : residueEval p x (rsParity (gfTable p) tail data) =
      residueEval p x data * x ^ tail.length := by
    rw [rsParity, residueEval_rsDivide hp hroot (by simp), residueEval_append,
      residueEval_replicate_zero, List.length_replicate, add_zero]
  rw [residueEval_append, hparity, length_rsParity, add_self_adjoinRoot]

end Eval

/-- `GEN[0..RS_NSYM]` is 1 and the coefficients that `RSENC` uses (R37, R42). -/
theorem State.Inv.rsGenerator_eq (h : s.Inv) :
    rsGenerator (gfTable s.cfg) s.cfg.fcr s.rsNsym.toNat = 1#8 :: s.genTail := by
  have hlen : (rsGenerator (gfTable s.cfg) s.cfg.fcr s.rsNsym.toNat).tail.length =
      s.rsNsym.toNat := by simp
  rw [rsGenerator_eq_one_cons]
  refine congrArg _ (List.ext_getElem (by simp) fun j hj _ => ?_)
  have hcell := h.gen (j + 1) (by omega)
  rw [List.getElem?_eq_getElem (by simp; omega)] at hcell
  simp [State.genTail, State.genAt, Mem.readOr_of_get? hcell]

/-- What `RSENC` leaves in `SYM` is the data and its parity bytes. -/
theorem State.symPrefix_encoded (s : State) (k : Nat) :
    (s.encoded k).symPrefix (k + s.rsNsym.toNat) = s.symPrefix k ++ s.parity k := by
  rw [State.symPrefix, List.range_add, List.map_append]
  congr 1
  · exact List.map_congr_left fun i hi => s.symAt_encoded_of_lt (List.mem_range.1 hi)
  · refine List.ext_getElem (by simp) fun j _ hj => ?_
    simp only [List.getElem_map, List.getElem_range]
    rw [s.symAt_encoded_parity k (by rwa [State.length_parity] at hj), List.getD_eq_getElem _ _ hj]

/-- Every syndrome of a codeword is 0 (R148). -/
theorem State.Inv.hornerValue_encoded (h : s.Inv) (k : Nat) {j : Nat} (hj : j < s.rsNsym.toNat) :
    hornerValue (gfTable s.cfg) (gfExp (gfTable s.cfg) ((s.cfg.fcr + j) % 255)) (s.encoded k).symAt
      (k + s.rsNsym.toNat) = 0#8 := by
  have hp := primitive_of_wellFormed h.params
  have hroot := residueEval_rsGenerator hp s.cfg.fcr hj
  rw [h.rsGenerator_eq] at hroot
  refine eq_zero_of_residue_eq_zero (primPoly_msb_of_primitive hp) ?_
  rw [← rsHorner_map_range, residue_rsHorner hp]
  exact (congrArg _ (s.symPrefix_encoded k)).trans (residueEval_codeword hp hroot _)

/-- Settles O34: a codeword is a multiple of the generator polynomial, so every syndrome is 0. -/
theorem cleanCodeword : Obligations.CleanCodeword := by
  intro s t rs1 rd rn hinv hs hfit henc hn
  obtain rfl : s.encoded (s.natX rs1) = t := by
    rw [exec_rsenc_of_le hfit, State.perform_running hs] at henc
    exact Host.Outcome.next.inj henc
  obtain ⟨u, hu, hsyn, hverdict, hrd, -⟩ :=
    (rssynWritesSyndromes (s.encoded (s.natX rs1)) rd rn hs).1 (hn.trans_le hfit)
  rw [hn] at hsyn hverdict
  have hzero : ∀ j < s.rsNsym.toNat, u.synAt j = 0#8 := fun j hj =>
    (hsyn j hj).trans (hinv.hornerValue_encoded _ hj)
  have hrserr : u.rserr = false := Bool.eq_false_iff.2 fun hbad => by
    obtain ⟨j, hj, hne⟩ := hverdict.1 hbad
    exact hne (hinv.hornerValue_encoded _ hj)
  exact ⟨u, hu, hrserr, by rw [hrd, hrserr]; rfl, hzero⟩

end Sys2Proof.Machine

/-! The generator and the permuter (R160 to R169): the step is arithmetic mod 2^31 with a step back, one
draw alone leaves its range, and the pass of `SHUF` over a sequence is the loop of R167 over its
elements.  The counts, the faults and the permutation are then facts about that loop. -/

namespace Sys2Proof.Machine

/-! ### The step of the generator (R160) -/

theorem lcgMask_rplValues : Config.rplValues.lcgMask = 2 ^ 31 - 1 := rfl

/-- The mask of R160 is reduction mod 2^31. -/
@[simp] theorem toNat_lcg (v : BitVec 31) : (lcg Config.rplValues v).toNat = lcgNat v.toNat := by
  rw [lcg, lcgMask_rplValues, Nat.and_two_pow_sub_one_eq_mod, BitVec.toNat_ofNat, Nat.mod_mod,
    lcgNat, Config.rplValues]

theorem lcgNat_lt (v : Nat) : lcgNat v < 2 ^ 31 := Nat.mod_lt _ (by decide)

theorem iterate_lcgNat_lt {v : Nat} (hv : v < 2 ^ 31) (i : Nat) : lcgNat^[i] v < 2 ^ 31 := by
  cases i with
  | zero => exact hv
  | succ i => rw [Function.iterate_succ_apply']; exact lcgNat_lt _

theorem lcg_eq_mul_add (v : BitVec 31) :
    lcg Config.rplValues v = v * 1103515245#31 + 12345#31 := by
  refine BitVec.eq_of_toNat_eq ?_
  rw [toNat_lcg, BitVec.toNat_add, BitVec.toNat_mul, Nat.mod_add_mod, lcgNat, BitVec.toNat_ofNat,
    BitVec.toNat_ofNat]

/-- The step backwards: the multiplier is odd, and 1857678181 is its inverse mod 2^31. -/
def lcgBack (v : BitVec 31) : BitVec 31 := (v - 12345#31) * 1857678181#31

theorem lcgBack_lcg (v : BitVec 31) : lcgBack (lcg Config.rplValues v) = v := by
  have hinv : 1103515245#31 * 1857678181#31 = 1 := by decide
  rw [lcgBack, lcg_eq_mul_add, add_sub_cancel_right, mul_assoc, hinv, mul_one]

theorem lcg_lcgBack (v : BitVec 31) : lcg Config.rplValues (lcgBack v) = v := by
  have hinv : 1857678181#31 * 1103515245#31 = 1 := by decide
  rw [lcg_eq_mul_add, lcgBack, mul_assoc, hinv, mul_one, sub_add_cancel]

/-- Settles O38: the step has an inverse, and 0x0DBDBB1E is where 0x7FFFFFFF comes from. -/
theorem generatorBijection : Obligations.GeneratorBijection := by
  have hbij : Function.Bijective (lcg Config.rplValues) :=
    Function.bijective_iff_has_inverse.2 ⟨lcgBack, lcgBack_lcg, lcg_lcgBack⟩
  have hlast : lcg Config.rplValues 0x0DBDBB1E#31 = 0x7FFFFFFF#31 := by decide
  refine ⟨hbij, toNat_lcg, fun v => ?_⟩
  rw [← hlast, hbij.injective.eq_iff]

/-! ### A draw mapped to a range (R163 to R165) -/

/-- `floor(u(v) * k)` for the draw `v` (R164). -/
def scaleDraw (v k : Nat) : Nat := v * k / 0x7FFFFFFF

theorem drawBelow_rplValues (v : BitVec 31) (k : Nat) :
    drawBelow Config.rplValues v k = scaleDraw v.toNat k := rfl

/-- The draw 0x7FFFFFFF is the value 1 (R163). -/
theorem scaleDraw_last (k : Nat) : scaleDraw 0x7FFFFFFF k = k :=
  Nat.mul_div_cancel_left k (by decide)

/-- Every other draw stays below the count (R164). -/
theorem scaleDraw_lt {v k : Nat} (hv : v < 2 ^ 31) (hne : v ≠ 0x7FFFFFFF) (hk : 0 < k) :
    scaleDraw v k < k :=
  Nat.div_lt_of_lt_mul (Nat.mul_lt_mul_of_pos_right (by omega) hk)

/-- `nextInt(0, i)` is out of range for the draw 0x7FFFFFFF only (R167). -/
theorem lt_scaleDraw_succ_iff {v : Nat} (hv : v < 2 ^ 31) (i : Nat) :
    i < scaleDraw v (i + 1) ↔ v = 0x7FFFFFFF := by
  constructor
  · intro hi
    by_contra hne
    have hlt : scaleDraw v (i + 1) < i + 1 := scaleDraw_lt hv hne (Nat.succ_pos i)
    omega
  · rintro rfl
    rw [scaleDraw_last]
    exact Nat.lt_succ_self i

/-! ### What the commands write: one rule for each -/

variable {s t : State} {rd rs1 rs2 : RegNum}

/-- Write `PERM_N` (only `PINIT` does, R38). -/
def State.setPermN (s : State) (n : Nat) : State := { s with permN := BitVec.ofNat 32 n }

theorem State.element_setPermN (s : State) (n : Nat) (sp : Space) (i : Nat) :
    (s.setPermN n).element sp i = s.element sp i := by cases sp <;> rfl

theorem State.SameBut.refl (s : State) : s.SameBut s [] [] false false noCells where
  regs _ _ := rfl
  csrs _ _ _ := rfl
  fault := rfl
  rserr _ := rfl
  found _ := rfl
  cells _ _ _ := rfl
  cfg := rfl
  input := rfl

section Frame

variable {regs : List RegNum} {csrs : List Csr} {rserr found : Bool} {cells : Space → Nat → Prop}

theorem State.SameBut.setX (h : s.SameBut t regs csrs rserr found cells) (r : RegNum) (v : Word) :
    s.SameBut (t.setX r v) (r :: regs) csrs rserr found cells where
  regs q hq := by
    obtain ⟨hne, hmem⟩ := List.ne_and_not_mem_of_not_mem_cons hq
    rw [t.getX_setX_other v hne, h.regs q hmem]
  csrs c hc hmem := by rw [← h.csrs c hc hmem]; cases c <;> rfl
  fault := h.fault
  rserr := h.rserr
  found := h.found
  cells sp i hcell := by rw [t.element_setX, h.cells sp i hcell]
  cfg := h.cfg
  input := h.input

theorem State.SameBut.setSeed (h : s.SameBut t regs csrs rserr found cells) (v : BitVec 31) :
    s.SameBut (t.setSeed v) regs (.rngSeed :: csrs) rserr found cells where
  regs := h.regs
  csrs c hc hmem := by
    obtain ⟨hne, hmem⟩ := List.ne_and_not_mem_of_not_mem_cons hmem
    rw [← h.csrs c hc hmem]
    cases c with
    | rngSeed => exact absurd rfl hne
    | _ => rfl
  fault := h.fault
  rserr := h.rserr
  found := h.found
  cells sp i hcell := by rw [t.element_setSeed, h.cells sp i hcell]
  cfg := h.cfg
  input := h.input

theorem State.SameBut.setPermN (h : s.SameBut t regs csrs rserr found cells) (n : Nat) :
    s.SameBut (t.setPermN n) regs (.permN :: csrs) rserr found cells where
  regs := h.regs
  csrs c hc hmem := by
    obtain ⟨hne, hmem⟩ := List.ne_and_not_mem_of_not_mem_cons hmem
    rw [← h.csrs c hc hmem]
    cases c with
    | permN => exact absurd rfl hne
    | _ => rfl
  fault := h.fault
  rserr := h.rserr
  found := h.found
  cells sp i hcell := by rw [t.element_setPermN, h.cells sp i hcell]
  cfg := h.cfg
  input := h.input

end Frame

/-- `PERM[0..n-1] <- f(0), ..., f(n-1)`. -/
def State.fillPerm (s : State) (n : Nat) (f : Nat → Word) : State :=
  s.writePerm (Mem.cellsFrom 0 ((List.range n).map f))

theorem State.permAt_fillPerm (s : State) (n : Nat) (f : Nat → Word) (i : Nat) :
    (s.fillPerm n f).permAt i = if i < n then f i else s.permAt i := by
  rw [State.fillPerm, State.permAt_writePerm, Mem.getD_get?_cellsFrom, if_pos (Nat.zero_le i)]
  split_ifs with hi <;> simp [List.getD_eq_getElem?_getD, hi]

theorem State.sameBut_fillPerm (s : State) (n : Nat) (f : Nat → Word) :
    s.SameBut (s.fillPerm n f) [] [] false false (cellRange .perm 0 n) := by
  refine State.sameBut_of_spaces rfl (fun sp i hsp => s.element_writePerm _ hsp i) fun i hi => ?_
  have hout : ¬ i < n := fun hlt => hi ⟨Nat.zero_le i, hlt⟩
  refine congrArg (fun w : Word => Elem.int w.toNat) ((s.permAt_fillPerm n f i).trans ?_)
  rw [if_neg hout]

theorem State.toNat_rngSeed_setSeed (s : State) {n : Nat} (h : n < 2 ^ 31) :
    (s.setSeed (BitVec.ofNat 31 n)).rngSeed.toNat = n := by
  rw [State.setSeed_rngSeed, BitVec.toNat_ofNat, Nat.mod_eq_of_lt h]

theorem State.toNat_permN_setPermN (s : State) {n : Nat} (h : n < 2 ^ 32) :
    (s.setPermN n).permN.toNat = n := by
  rw [State.setPermN, BitVec.toNat_ofNat, Nat.mod_eq_of_lt h]

theorem State.toNat_getX_putX (s : State) (r : RegNum) (v : Nat) :
    ((s.putX r v).getX r).toNat = v % 2 ^ 32 := by
  rw [State.putX, State.getX_setX_same, BitVec.toNat_ofNat]

/-- A command that ends without a pending fault did what its rule gives. -/
theorem State.eq_ok_of_perform {c : Cmd} (h : s.perform c = .next t) (ht : t.fault = false) :
    c = .ok t := by
  obtain ⟨hs, rfl⟩ | ⟨-, hc⟩ | ⟨-, k, v, -, rfl⟩ := State.perform_cases h
  · rw [hs] at ht; cases ht
  · exact hc
  · cases ht

/-! ### `SEED`, `NEXT`, `SPRD` (R161, R162, R169) -/

/-- The state after one draw. -/
def State.drawn (s : State) : State := s.setSeed (lcg s.cfg.rpl s.rngSeed)

theorem State.toNat_rngSeed_drawn (hcfg : s.cfg.Standard) :
    s.drawn.rngSeed.toNat = lcgNat s.rngSeed.toNat := by
  obtain ⟨hrpl, -⟩ := hcfg
  rw [State.drawn, State.setSeed_rngSeed, hrpl, toNat_lcg]

/-- A draw and a result in `rd`. -/
theorem State.sameBut_drawn_setX (s : State) (rd : RegNum) (v : Word) :
    s.SameBut (s.drawn.setX rd v) [rd] [.rngSeed] false false noCells :=
  ((State.SameBut.refl s).setSeed _).setX rd v

theorem exec_seed_of_lt (h : s.natX rs1 < 2 ^ 31) :
    exec (.seed rs1) s = s.perform (.ok (s.setSeed (BitVec.ofNat 31 (s.natX rs1)))) := by
  simp only [exec, execSeed, ge_iff_le, if_neg h.not_ge]

theorem exec_seed_of_ge (h : 2 ^ 31 ≤ s.natX rs1) :
    exec (.seed rs1) s = s.perform (.error (.operandRange, s.natX rs1)) := by
  simp only [exec, execSeed, ge_iff_le, if_pos h]

theorem exec_next (rd : RegNum) (s : State) :
    exec (.next rd) s = s.perform (.ok (s.drawn.putX rd s.drawn.rngSeed.toNat)) := rfl

theorem exec_sprd (rd : RegNum) (s : State) :
    exec (.sprd rd) s = s.perform (.ok (s.drawn.setX rd
      (boolWord (decide (2 * s.drawn.rngSeed.toNat > s.cfg.rpl.lcgMask))))) := rfl

/-- Settles O35: `SEED` writes the value it is given and the two draws write one step of the generator;
their results are read off that step. -/
theorem seedNextSprdResults : Obligations.SeedNextSprdResults := by
  intro s rd hs hcfg v
  have hdraw : s.drawn.rngSeed.toNat = v := State.toNat_rngSeed_drawn hcfg
  obtain ⟨hrpl, -⟩ := hcfg
  refine ⟨fun hlt => ?seed, fun hge => ?range, ?next, ?sprd⟩
  case seed =>
    rw [exec_seed_of_lt hlt]
    exact ⟨_, State.perform_running hs _, s.toNat_rngSeed_setSeed hlt,
      (State.SameBut.refl s).setSeed _⟩
  case range => rw [exec_seed_of_ge hge]; exact State.perform_error hs _ _
  case next =>
    rw [exec_next, hdraw]
    refine ⟨_, State.perform_running hs _, hdraw, ?_, s.sameBut_drawn_setX rd _⟩
    have hv : v < 2 ^ 31 := lcgNat_lt _
    exact (State.toNat_getX_putX _ rd v).trans (Nat.mod_eq_of_lt (by omega))
  case sprd =>
    rw [exec_sprd, hdraw, hrpl]
    refine ⟨_, State.perform_running hs _, hdraw, ?_, s.sameBut_drawn_setX rd _⟩
    rw [State.settle_ok, State.getX_setX_same, boolWord]
    exact if_congr decide_eq_true_iff rfl rfl

/-! ### `NEXTI` (R164, R165) -/

theorem exec_nexti_of_le (h : s.natX rs1 ≤ s.natX rs2) :
    exec (.nexti rd rs1 rs2) s = s.perform (.ok (s.drawn.putX rd
      (drawBelow s.cfg.rpl s.drawn.rngSeed (s.natX rs2 - s.natX rs1 + 1) + s.natX rs1))) := by
  simp only [exec, execNexti, gt_iff_lt, if_neg h.not_gt]
  rfl

theorem exec_nexti_of_gt (h : s.natX rs2 < s.natX rs1) :
    exec (.nexti rd rs1 rs2) s = s.perform (.error (.operandRange, s.natX rs1)) := by
  simp only [exec, execNexti, gt_iff_lt, if_pos h]

/-- Settles O36: the draw is scaled to the count of the range, and an empty range faults. -/
theorem nextiResultAndFaults : Obligations.NextiResultAndFaults := by
  intro s rd rs1 rs2 hs hcfg lo hi v
  have hdraw : s.drawn.rngSeed.toNat = v := State.toNat_rngSeed_drawn hcfg
  obtain ⟨hrpl, -⟩ := hcfg
  refine ⟨fun hle => ?result, fun hlt => ?range⟩
  case result =>
    rw [exec_nexti_of_le hle, hrpl, drawBelow_rplValues, hdraw]
    exact ⟨_, State.perform_running hs _, hdraw, State.toNat_getX_putX _ rd _,
      s.sameBut_drawn_setX rd _⟩
  case range => rw [exec_nexti_of_gt hlt]; exact State.perform_error hs _ _

/-- Settles O37: a draw scaled to the count of the range is below it but for 0x7FFFFFFF, which gives the
count itself. -/
theorem nextiRange : Obligations.NextiRange := by
  intro s t rd rs1 rs2 hs hcfg hle h
  obtain ⟨u, hu, -, hval, -⟩ := (nextiResultAndFaults s rd rs1 rs2 hs hcfg).1 hle
  obtain rfl : t = u := Host.Outcome.next.inj (h.symm.trans hu)
  have hdraw : (t.getX rd).toNat = (scaleDraw (lcgNat s.rngSeed.toNat)
      (s.natX rs2 - s.natX rs1 + 1) + s.natX rs1) % 2 ^ 32 := hval
  rw [hdraw]
  constructor
  · intro hlast
    rw [hlast, scaleDraw_last, Nat.add_right_comm, Nat.sub_add_cancel hle]
  · intro hne
    have hbelow : scaleDraw (lcgNat s.rngSeed.toNat) (s.natX rs2 - s.natX rs1 + 1) <
        s.natX rs2 - s.natX rs1 + 1 := scaleDraw_lt (lcgNat_lt _) hne (Nat.succ_pos _)
    have hword : s.natX rs2 < 2 ^ 32 := (s.getX rs2).isLt
    rw [Nat.mod_eq_of_lt (by omega)]
    omega

/-! ### `PINIT` (R166) -/

theorem exec_pinit_of_le (h : s.natX rs1 ≤ s.cfg.permSize) :
    exec (.pinit rs1) s = s.perform (.ok
      ((s.fillPerm (s.natX rs1) (BitVec.ofNat 32)).setPermN (s.natX rs1))) := by
  simp only [exec, execPinit, gt_iff_lt, if_neg h.not_gt]
  rfl

theorem exec_pinit_of_gt (h : s.cfg.permSize < s.natX rs1) :
    exec (.pinit rs1) s = s.perform (.error (.bufferBounds, s.natX rs1)) := by
  simp only [exec, execPinit, gt_iff_lt, if_pos h]

/-- Settles O39: the indices written fit a word, and a count above `PERM_SIZE` faults. -/
theorem pinitWritesIdentityOrder : Obligations.PinitWritesIdentityOrder := by
  intro s rs1 hs n
  have hword : n < 2 ^ 32 := (s.getX rs1).isLt
  refine ⟨fun hle => ?order, fun hgt => ?range⟩
  case order =>
    rw [exec_pinit_of_le hle]
    refine ⟨_, State.perform_running hs _, State.toNat_permN_setPermN _ hword, fun i hi => ?_,
      (s.sameBut_fillPerm n _).setPermN n⟩
    have hcell := (s.permAt_fillPerm n (BitVec.ofNat 32) i).trans (if_pos hi)
    refine (congrArg BitVec.toNat hcell).trans ?_
    rw [BitVec.toNat_ofNat, Nat.mod_eq_of_lt (hi.trans hword)]
  case range => rw [exec_pinit_of_gt hgt]; exact State.perform_error hs _ _

/-! ### The loop of R167 -/

/-- `swap p[i] and p[j]`. -/
def swapped (p : Nat → Word) (i j : Nat) : Nat → Word :=
  fun k => if k = i then p j else if k = j then p i else p k

/-- One pass: a fault for the draw 0x7FFFFFFF, else a swap and the passes below. -/
theorem shuffleRule_succ (i v : Nat) (p : Nat → Word) :
    shuffleRule (i + 1) v p =
      if lcgNat v = 0x7FFFFFFF then .error (i + 1)
      else shuffleRule i (lcgNat v) (swapped p (i + 1) (scaleDraw (lcgNat v) (i + 2))) :=
  if_congr (lt_scaleDraw_succ_iff (lcgNat_lt v) (i + 1)) rfl rfl

/-- The same of the unit's pass over a sequence. -/
theorem shuffleFrom_succ (i : Nat) (v : BitVec 31) (p : List Word) :
    shuffleFrom Config.rplValues (i + 1) v p =
      if lcgNat v.toNat = 0x7FFFFFFF then .error (i + 1)
      else shuffleFrom Config.rplValues i (lcg Config.rplValues v)
        (swapAt p (i + 1) (scaleDraw (lcgNat v.toNat) (i + 2))) := by
  simp only [shuffleFrom, drawBelow_rplValues, toNat_lcg]
  exact if_congr (lt_scaleDraw_succ_iff (lcgNat_lt _) (i + 1)) rfl rfl

/-- A draw that is in range at index `i` names an element of the sequence. -/
theorem scaleDraw_lcgNat_lt {v i n : Nat} (hv : lcgNat v ≠ 0x7FFFFFFF) (hi : i + 1 < n) :
    scaleDraw (lcgNat v) (i + 2) < n :=
  (scaleDraw_lt (lcgNat_lt v) hv (Nat.succ_pos (i + 1))).trans_le hi

/-- A swap in a sequence is a swap of its elements. -/
theorem swapAt_map_range (p : Nat → Word) {n i j : Nat} (hi : i < n) (hj : j < n) :
    swapAt ((List.range n).map p) i j = (List.range n).map (swapped p i j) := by
  refine List.ext_getElem (by simp) fun k _ _ => ?_
  simp only [swapAt, List.getElem_set, List.getD_eq_getElem?_getD, List.getElem?_map,
    List.getElem?_range hi, List.getElem?_range hj, Option.map_some, Option.getD_some,
    List.getElem_map, List.getElem_range, swapped, eq_comm (b := k)]
  split_ifs <;> simp_all

theorem perm_swapAt {l : List Word} {i j : Nat} (hi : i < l.length) (hj : j < l.length) :
    (swapAt l i j).Perm l := by
  rw [swapAt, List.getD_eq_getElem _ _ hi, List.getD_eq_getElem _ _ hj]
  exact List.set_set_perm hi hj

/-- The pass over a sequence is the loop over its elements. -/
theorem shuffleFrom_map_range {i n : Nat} (hi : i ≤ n - 1) (v : BitVec 31) (p : Nat → Word) :
    shuffleFrom Config.rplValues i v ((List.range n).map p) =
      (shuffleRule i v.toNat p).map fun r => ((List.range n).map r.1, BitVec.ofNat 31 r.2) := by
  induction i generalizing v p with
  | zero => simp [shuffleFrom, shuffleRule, Except.map]
  | succ i ih =>
    rw [shuffleFrom_succ, shuffleRule_succ]
    split_ifs with hlast
    · rfl
    · rw [swapAt_map_range p (by omega) (scaleDraw_lcgNat_lt hlast (by omega)), ih (by omega),
        toNat_lcg]

/-- Each pass takes one draw (R168). -/
theorem eq_iterate_of_shuffleRule {i v w : Nat} {p q : Nat → Word}
    (h : shuffleRule i v p = .ok (q, w)) : w = lcgNat^[i] v := by
  induction i generalizing v p with
  | zero => cases h; rfl
  | succ i ih =>
    rw [shuffleRule_succ] at h
    split_ifs at h
    rw [Function.iterate_succ_apply, ← ih h]

/-- The loop only swaps. -/
theorem perm_of_shuffleRule {i n v w : Nat} {p q : Nat → Word} (hi : i ≤ n - 1)
    (h : shuffleRule i v p = .ok (q, w)) : ((List.range n).map q).Perm ((List.range n).map p) := by
  induction i generalizing v p with
  | zero => cases h; exact .rfl
  | succ i ih =>
    rw [shuffleRule_succ] at h
    split_ifs at h with hlast
    have hrow : i + 1 < n := by omega
    have hcol := scaleDraw_lcgNat_lt hlast hrow
    refine (ih (by omega) h).trans ?_
    rw [← swapAt_map_range p hrow hcol]
    exact perm_swapAt (by simpa using hrow) (by simpa using hcol)

/-- A value among the first `i + 1` iterates is the first of them or among the `i` after it. -/
theorem exists_iterate_succ_iff (f : Nat → Nat) (i v a : Nat) :
    (∃ k, 1 ≤ k ∧ k ≤ i + 1 ∧ f^[k] v = a) ↔
      f v = a ∨ ∃ k, 1 ≤ k ∧ k ≤ i ∧ f^[k] (f v) = a := by
  constructor
  · rintro ⟨_ | _ | k, hpos, hle, hk⟩
    · omega
    · exact .inl hk
    · exact .inr ⟨k + 1, Nat.succ_pos k, Nat.le_of_succ_le_succ hle, hk⟩
  · rintro (hk | ⟨k, -, hle, hk⟩)
    · exact ⟨1, le_rfl, Nat.succ_pos i, hk⟩
    · exact ⟨k + 1, Nat.succ_pos k, Nat.succ_le_succ hle, hk⟩

/-- The loop faults where it comes to a draw 0x7FFFFFFF. -/
theorem shuffleRule_eq_error_iff (i v : Nat) (p : Nat → Word) :
    (∃ e, shuffleRule i v p = .error e) ↔ ∃ k, 1 ≤ k ∧ k ≤ i ∧ lcgNat^[k] v = 0x7FFFFFFF := by
  induction i generalizing v p with
  | zero => exact ⟨nofun, by rintro ⟨k, hpos, hle, -⟩; omega⟩
  | succ i ih =>
    rw [shuffleRule_succ, exists_iterate_succ_iff]
    split_ifs with hlast
    · exact ⟨fun _ => .inl hlast, fun _ => ⟨i + 1, rfl⟩⟩
    · rw [ih, or_iff_right hlast]

/-! ### `SHUF` (R167, R168) -/

/-- The loop of R167 on the generator and the live elements of `PERM`. -/
def State.shuffleLoop (s : State) : Except Nat ((Nat → Word) × Nat) :=
  shuffleRule (s.permN.toNat - 1) s.rngSeed.toNat s.permAt

/-- The state that `SHUF` gives. -/
def State.shuffled (s : State) (p : Nat → Word) (v : Nat) : State :=
  (s.fillPerm s.permN.toNat p).setSeed (BitVec.ofNat 31 v)

theorem State.permAt_shuffled (s : State) (p : Nat → Word) (v : Nat) {i : Nat}
    (hi : i < s.permN.toNat) : (s.shuffled p v).permAt i = p i :=
  (s.permAt_fillPerm _ p i).trans (if_pos hi)

theorem State.sameBut_shuffled (s : State) (p : Nat → Word) (v : Nat) :
    s.SameBut (s.shuffled p v) [] [.rngSeed] false false (cellRange .perm 0 s.permN.toNat) :=
  (s.sameBut_fillPerm _ p).setSeed _

theorem State.toNat_rngSeed_shuffled {p : Nat → Word} {v : Nat} (h : s.shuffleLoop = .ok (p, v)) :
    (s.shuffled p v).rngSeed.toNat = v := by
  have hv : v < 2 ^ 31 := eq_iterate_of_shuffleRule h ▸ iterate_lcgNat_lt s.rngSeed.isLt _
  exact State.toNat_rngSeed_setSeed _ hv

theorem State.shuffleFrom_permList (hcfg : s.cfg.Standard) :
    shuffleFrom s.cfg.rpl (s.permN.toNat - 1) s.rngSeed s.permList =
      s.shuffleLoop.map fun r => ((List.range s.permN.toNat).map r.1, BitVec.ofNat 31 r.2) := by
  obtain ⟨hrpl, -⟩ := hcfg
  rw [hrpl]
  exact shuffleFrom_map_range le_rfl s.rngSeed s.permAt

theorem exec_shuf_of_ok (hcfg : s.cfg.Standard) {p : Nat → Word} {v : Nat}
    (h : s.shuffleLoop = .ok (p, v)) : exec .shuf s = s.perform (.ok (s.shuffled p v)) := by
  simp only [exec, execShuf, State.shuffleFrom_permList hcfg, h]
  rfl

theorem exec_shuf_of_error (hcfg : s.cfg.Standard) {i : Nat} (h : s.shuffleLoop = .error i) :
    exec .shuf s = s.perform (.error (.rngRange, i)) := by
  simp only [exec, execShuf, State.shuffleFrom_permList hcfg, h]
  rfl

/-- Settles O40: the pass of the unit is the loop of the rule. -/
theorem shufFollowsLoop : Obligations.ShufFollowsLoop := by
  intro s hs hcfg n
  refine ⟨fun p v hloop => ?shuffled, fun i hloop => ?fault⟩
  case shuffled =>
    rw [exec_shuf_of_ok hcfg hloop]
    exact ⟨_, State.perform_running hs _, fun i hi => s.permAt_shuffled p v hi,
      State.toNat_rngSeed_shuffled hloop, s.sameBut_shuffled p v⟩
  case fault => rw [exec_shuf_of_error hcfg hloop]; exact State.perform_error hs _ _

/-- Settles O41: the loop only swaps, and it stops at a draw 0x7FFFFFFF. -/
theorem shufPermutes : Obligations.ShufPermutes := by
  intro s t hs hcfg h
  have hdraws := shuffleRule_eq_error_iff (s.permN.toNat - 1) s.rngSeed.toNat s.permAt
  cases hloop : s.shuffleLoop with
  | ok r =>
    obtain ⟨p, v⟩ := r
    rw [exec_shuf_of_ok hcfg hloop, State.perform_running hs] at h
    obtain rfl := Host.Outcome.next.inj h
    refine ⟨fun _ => ?perm, fun hfault => absurd (hs.symm.trans hfault) nofun, fun hdraw => ?draw⟩
    case perm =>
      have helems : (List.range s.permN.toNat).map (s.shuffled p v).permAt =
          (List.range s.permN.toNat).map p :=
        List.map_congr_left fun i hi => s.permAt_shuffled p v (List.mem_range.1 hi)
      rw [State.settle_ok, helems]
      exact perm_of_shuffleRule le_rfl hloop
    case draw =>
      obtain ⟨e, he⟩ := hdraws.2 hdraw
      cases hloop.symm.trans he
  | error i =>
    rw [exec_shuf_of_error hcfg hloop, State.perform_running hs] at h
    obtain rfl := Host.Outcome.next.inj h
    exact ⟨nofun, fun _ => hdraws.1 ⟨i, hloop⟩, fun _ => rfl⟩

/-! ### Draw counts (R168) -/

/-- Settles O12: the drawing commands by what they write, and every other command by the column "written
by" of `RNG_SEED`. -/
theorem drawCounts : Obligations.DrawCounts := by
  intro s t hcfg
  refine ⟨fun h ht => ?shuf, fun rd h ht => ?next, fun rd rs1 rs2 h ht => ?nexti,
    fun rd h ht => ?sprd, fun i hshuf hnext hnexti hsprd hseed h => ?other⟩
  case shuf =>
    cases hloop : s.shuffleLoop with
    | ok r =>
      obtain ⟨p, v⟩ := r
      rw [exec_shuf_of_ok hcfg hloop] at h
      cases State.eq_ok_of_perform h ht
      rw [State.toNat_rngSeed_shuffled hloop, eq_iterate_of_shuffleRule hloop]
    | error i =>
      rw [exec_shuf_of_error hcfg hloop] at h
      cases State.eq_ok_of_perform h ht
  case next =>
    cases State.eq_ok_of_perform h ht
    exact State.toNat_rngSeed_drawn hcfg
  case nexti =>
    by_cases hle : s.natX rs1 ≤ s.natX rs2
    · rw [exec_nexti_of_le hle] at h
      cases State.eq_ok_of_perform h ht
      exact State.toNat_rngSeed_drawn hcfg
    · rw [exec_nexti_of_gt (not_le.1 hle)] at h
      cases State.eq_ok_of_perform h ht
  case sprd =>
    cases State.eq_ok_of_perform h ht
    exact State.toNat_rngSeed_drawn hcfg
  case other =>
    by_contra hne
    obtain ⟨hwriters, -⟩ := registersWrittenBy i s t h
    obtain rfl | ⟨rd, rfl | rfl | rfl⟩ | ⟨rd, rs1, rs2, rfl⟩ := hwriters hne
    · exact hshuf rfl
    · exact hnext rd rfl
    · exact hsprd rd rfl
    · exact hseed rd rfl
    · exact hnexti rd rs1 rs2 rfl

end Sys2Proof.Machine

/-! The 8×8 transform units (R180 to R186).  Over the reals `dct2d` and `idct2d` are products with the
matrix of the basis and its transpose.  The rows of the basis are orthonormal, because a sum of cosines
at odd multiples of an angle telescopes; so its columns are too, and the transforms undo each other.
The commands write these products within the tolerance of R12. -/

namespace Sys2Proof.Machine

/-! ### The basis is orthonormal (R180, R183) -/

/-- The sum of the cosines of one row of the basis, without its weight: `∑ cos((2j+1)*m*π/16)`. -/
noncomputable def cosineRowSum (m : ℤ) : ℝ :=
  ∑ j ∈ Finset.range 8, Real.cos ((2 * j + 1) * (m * Real.pi / 16))

/-- A sum of cosines at odd multiples of an angle telescopes. -/
theorem two_sin_mul_sum_cos_odd (x : ℝ) (n : Nat) :
    2 * Real.sin x * ∑ j ∈ Finset.range n, Real.cos ((2 * j + 1) * x) = Real.sin (2 * n * x) := by
  induction n with
  | zero => simp
  | succ n ih =>
    have hstep : 2 * Real.sin x * Real.cos ((2 * n + 1) * x) =
        Real.sin (2 * (n + 1 : ℕ) * x) - Real.sin (2 * n * x) := by
      rw [Real.sin_sub_sin]
      push_cast
      ring_nf
    rw [Finset.sum_range_succ, mul_add, ih, hstep]
    ring

@[simp] theorem cosineRowSum_zero : cosineRowSum 0 = 8 := by simp [cosineRowSum]

theorem cosineRowSum_eq_zero {m : ℤ} (hm : ¬ 16 ∣ m) : cosineRowSum m = 0 := by
  have hsin : Real.sin (m * Real.pi / 16) ≠ 0 := fun h => by
    obtain ⟨k, hk⟩ := Real.sin_eq_zero_iff.1 h
    have hreal : (m : ℝ) = 16 * k := by
      refine mul_right_cancel₀ Real.pi_ne_zero ?_
      linear_combination -16 * hk
    exact hm ⟨k, by exact_mod_cast hreal⟩
  have htelescope : 2 * Real.sin (m * Real.pi / 16) * cosineRowSum m = 0 := by
    rw [cosineRowSum, two_sin_mul_sum_cos_odd]
    convert Real.sin_int_mul_pi m using 2
    push_cast
    ring
  exact (mul_eq_zero.1 htelescope).resolve_left (mul_ne_zero two_ne_zero hsin)

/-- `c(i)` of R180. -/
noncomputable def basisWeight (i : Nat) : ℝ := if i = 0 then 1 / Real.sqrt 8 else 1 / 2

theorem basisReal_eq_weight_mul_cos (i j : Nat) :
    basisReal i j = basisWeight i * Real.cos ((2 * j + 1) * i * Real.pi / 16) := rfl

theorem basisWeight_zero_mul_self : basisWeight 0 * basisWeight 0 = 1 / 8 := by
  rw [basisWeight, if_pos rfl, div_mul_div_comm, Real.mul_self_sqrt (by norm_num), one_mul]

theorem basisWeight_of_ne_zero {i : Nat} (hi : i ≠ 0) : basisWeight i = 1 / 2 := if_neg hi

/-- The product of two rows, by the product of cosines. -/
theorem sum_basisReal_mul_basisReal (i k : Nat) :
    ∑ j ∈ Finset.range 8, basisReal i j * basisReal k j =
      basisWeight i * basisWeight k / 2 * (cosineRowSum (i - k) + cosineRowSum (i + k)) := by
  rw [cosineRowSum, cosineRowSum, ← Finset.sum_add_distrib, Finset.mul_sum]
  refine Finset.sum_congr rfl fun j _ => ?_
  have hsub : (2 * j + 1) * (((i - k : ℤ) : ℝ) * Real.pi / 16) =
      (2 * j + 1) * i * Real.pi / 16 - (2 * j + 1) * k * Real.pi / 16 := by push_cast; ring
  have hadd : (2 * j + 1) * (((i + k : ℤ) : ℝ) * Real.pi / 16) =
      (2 * j + 1) * i * Real.pi / 16 + (2 * j + 1) * k * Real.pi / 16 := by push_cast; ring
  rw [hsub, hadd, ← Real.two_mul_cos_mul_cos, basisReal_eq_weight_mul_cos,
    basisReal_eq_weight_mul_cos]
  ring

theorem basisReal_rows_orthonormal {i k : Nat} (hi : i < 8) (hk : k < 8) :
    ∑ j ∈ Finset.range 8, basisReal i j * basisReal k j = if i = k then 1 else 0 := by
  rw [sum_basisReal_mul_basisReal]
  split_ifs with h
  · subst h
    rw [sub_self, cosineRowSum_zero]
    by_cases h0 : i = 0
    · subst h0
      rw [basisWeight_zero_mul_self, Nat.cast_zero, add_zero, cosineRowSum_zero]
      norm_num
    · rw [cosineRowSum_eq_zero (m := i + i) (by omega), basisWeight_of_ne_zero h0]
      norm_num
  · rw [cosineRowSum_eq_zero (m := i - k) (by omega), cosineRowSum_eq_zero (m := i + k) (by omega)]
    ring

/-! ### The transforms as products of matrices (R181, R183) -/

section Matrices

open Matrix

/-- The matrix of a block. -/
def blockMatrix (f : Nat → Nat → ℝ) : Matrix (Fin 8) (Fin 8) ℝ := .of fun i j => f i j

/-- `C` of R180. -/
noncomputable def basisMatrix : Matrix (Fin 8) (Fin 8) ℝ := blockMatrix basisReal

theorem basisMatrix_mul_transpose : basisMatrix * basisMatrixᵀ = 1 := by
  ext i k
  have hrows := basisReal_rows_orthonormal i.isLt k.isLt
  rw [Finset.sum_range] at hrows
  rw [Matrix.mul_apply, Matrix.one_apply, ← if_congr Fin.ext_iff.symm rfl rfl]
  exact hrows

/-- A square matrix with orthonormal rows has orthonormal columns. -/
theorem transpose_mul_basisMatrix : basisMatrixᵀ * basisMatrix = 1 :=
  mul_eq_one_comm.1 basisMatrix_mul_transpose

/-- `dct2d(B) = C * B * Cᵀ`. -/
theorem blockMatrix_dctReal (b : Nat → Nat → ℝ) :
    blockMatrix (dctReal b) = basisMatrix * blockMatrix b * basisMatrixᵀ := by
  ext u v
  simp only [blockMatrix, basisMatrix, dctReal, Matrix.of_apply, Matrix.mul_apply,
    Matrix.transpose_apply, Finset.sum_range, Finset.sum_mul]
  exact Finset.sum_comm

/-- `idct2d(F) = Cᵀ * F * C`. -/
theorem blockMatrix_idctReal (f : Nat → Nat → ℝ) :
    blockMatrix (idctReal f) = basisMatrixᵀ * blockMatrix f * basisMatrix := by
  ext i j
  simp only [blockMatrix, basisMatrix, idctReal, Matrix.of_apply, Matrix.mul_apply,
    Matrix.transpose_apply, Finset.sum_range, Finset.sum_mul]
  exact Finset.sum_comm

theorem blockMatrix_idctReal_dctReal (b : Nat → Nat → ℝ) :
    blockMatrix (idctReal (dctReal b)) = blockMatrix b := by
  calc blockMatrix (idctReal (dctReal b))
      = basisMatrixᵀ * (basisMatrix * blockMatrix b * basisMatrixᵀ) * basisMatrix := by
        rw [blockMatrix_idctReal, blockMatrix_dctReal]
    _ = (basisMatrixᵀ * basisMatrix) * blockMatrix b * (basisMatrixᵀ * basisMatrix) := by
        simp only [Matrix.mul_assoc]
    _ = blockMatrix b := by rw [transpose_mul_basisMatrix, Matrix.one_mul, Matrix.mul_one]

/-- The inverse transform of the transform is the block (R183). -/
theorem idctReal_dctReal (b : Nat → Nat → ℝ) {i j : Nat} (hi : i < 8) (hj : j < 8) :
    idctReal (dctReal b) i j = b i j :=
  congrFun (congrFun (blockMatrix_idctReal_dctReal b) ⟨i, hi⟩) ⟨j, hj⟩

end Matrices

/-- The transforms read the 64 elements of the block only. -/
theorem dctReal_congr {b b' : Nat → Nat → ℝ} (h : ∀ i < 8, ∀ j < 8, b i j = b' i j) (u v : Nat) :
    dctReal b u v = dctReal b' u v :=
  Finset.sum_congr rfl fun i hi => Finset.sum_congr rfl fun j hj => by
    rw [h i (Finset.mem_range.1 hi) j (Finset.mem_range.1 hj)]

theorem idctReal_congr {f f' : Nat → Nat → ℝ} (h : ∀ u < 8, ∀ v < 8, f u v = f' u v) (i j : Nat) :
    idctReal f i j = idctReal f' i j :=
  Finset.sum_congr rfl fun u hu => Finset.sum_congr rfl fun v hv => by
    rw [h u (Finset.mem_range.1 hu) v (Finset.mem_range.1 hv)]

/-! ### Blocks as lists, and their results within the tolerance (R12, R44) -/

/-- The 64 elements of a block, row by row. -/
def blockList (x : Nat → Num) : List Num := (List.range (8 * 8)).map x

theorem matAt_blockList (x : Nat → Num) {i j : Nat} (hi : i < 8) (hj : j < 8) :
    matAt 8 (blockList x) i j = x (8 * i + j) := by
  have hlt : 8 * i + j < 8 * 8 := by omega
  simp [matAt, blockList, List.getD_eq_getElem?_getD, List.getElem?_range hlt]

theorem State.getD_approxAll (s : State) (site : NumSite) (inputs : List Num) {l : List Num} {k : Nat}
    (hk : k < l.length) (old free : Num) :
    (s.approxAll site inputs l).getD k old = s.approx site inputs k (l.getD k free) := by
  simp [State.approxAll, List.getD_eq_getElem?_getD, hk]

/-- Every element of a block that a command writes lies within the tolerance of its rule's value. -/
theorem State.abs_getD_approxAll_sub_le (s : State) (site : NumSite) (inputs : List Num)
    {l : List Num} (hl : l.length = 8 * 8) {i j : Nat} (hi : i < 8) (hj : j < 8) (old : Num) :
    |((s.approxAll site inputs l).getD (8 * i + j) old).toReal - (matAt 8 l i j).toReal| ≤
      s.tolerance site := by
  rw [s.getD_approxAll site inputs (by omega) old (Num.ofRat 0)]
  exact abs_approx_sub_le s site inputs _ _

theorem State.tolerance_of_exact {s : State} (h : s.cfg.num = .exact) (site : NumSite) :
    s.tolerance site = 0 := by
  rw [State.tolerance, h]

/-! ### The spaces the commands write -/

theorem State.blkfAt_writeBlkf_cellsFrom (s : State) (l : List Num) (i : Nat) :
    (s.writeBlkf (Mem.cellsFrom 0 l)).blkfAt i = l.getD i (s.blkfAt i) := by
  rw [State.blkfAt_writeBlkf, Mem.getD_get?_cellsFrom, if_pos (Nat.zero_le i), Nat.sub_zero]

theorem State.blkrAt_writeBlkr_cellsFrom (s : State) (l : List Num) (i : Nat) :
    (s.writeBlkr (Mem.cellsFrom 0 l)).blkrAt i = l.getD i (s.blkrAt i) := by
  rw [State.blkrAt_writeBlkr, Mem.getD_get?_cellsFrom, if_pos (Nat.zero_le i), Nat.sub_zero]

theorem State.sameBut_writeBlkf_cellsFrom (s : State) (l : List Num) :
    s.SameBut (s.writeBlkf (Mem.cellsFrom 0 l)) [] [] false false (cellRange .blkf 0 l.length) := by
  refine State.sameBut_of_spaces rfl (fun sp i hsp => s.element_writeBlkf _ hsp i) fun i hi => ?_
  have hout : l.length ≤ i := not_lt.1 fun hlt => hi ⟨Nat.zero_le i, hlt⟩
  exact congrArg Elem.num
    ((s.blkfAt_writeBlkf_cellsFrom l i).trans (List.getD_eq_default _ _ hout))

theorem State.sameBut_writeBlkr_cellsFrom (s : State) (l : List Num) :
    s.SameBut (s.writeBlkr (Mem.cellsFrom 0 l)) [] [] false false (cellRange .blkr 0 l.length) := by
  refine State.sameBut_of_spaces rfl (fun sp i hsp => s.element_writeBlkr _ hsp i) fun i hi => ?_
  have hout : l.length ≤ i := not_lt.1 fun hlt => hi ⟨Nat.zero_le i, hlt⟩
  exact congrArg Elem.num
    ((s.blkrAt_writeBlkr_cellsFrom l i).trans (List.getD_eq_default _ _ hout))

/-! ### `DCT` (R180, R182) -/

variable {s : State}

/-- What `DCT` writes, row by row. -/
def State.dctResults (s : State) : List Num :=
  s.approxAll .dct (blockList s.blksAt) (dct2d 8 (matAt 8 (blockList s.blksAt)))

@[simp] theorem State.length_dctResults (s : State) : s.dctResults.length = 64 := by
  simp [State.dctResults]

theorem exec_dct (hcfg : s.cfg.Standard) :
    exec .dct s = s.perform (.ok (s.writeBlkf (Mem.cellsFrom 0 s.dctResults))) := by
  obtain ⟨-, hshape⟩ := hcfg
  simp only [exec, execDct, hshape]
  rfl

theorem State.abs_dctResults_sub_le (s : State) {u v : Nat} (hu : u < 8) (hv : v < 8) (old : Num) :
    |(s.dctResults.getD (8 * u + v) old).toReal -
        dctReal (fun a b => (s.blksAt (8 * a + b)).toReal) u v| ≤ s.tolerance .dct := by
  have hreal : (matAt 8 (dct2d 8 (matAt 8 (blockList s.blksAt))) u v).toReal =
      dctReal (fun a b => (s.blksAt (8 * a + b)).toReal) u v :=
    (toReal_dct2d _ u v hu hv).trans
      (dctReal_congr (fun a ha b hb => congrArg Num.toReal (matAt_blockList _ ha hb)) u v)
  rw [← hreal]
  exact s.abs_getD_approxAll_sub_le .dct _ (length_dct2d 8 _) hu hv old

theorem State.element_dctc (hcfg : s.cfg.Standard) (i : Nat) {j : Nat} (hj : j < 8) :
    s.element .dctc (8 * i + j) = .num (Num.ofCos (basis i j)) := by
  have hblock : s.cfg.shape.block = 8 := congrArg Shape.block hcfg.2
  rw [State.element, dctcAt, hblock, Nat.mul_add_div (by omega), Nat.div_eq_of_lt hj, Nat.add_zero,
    Nat.mul_add_mod, Nat.mod_eq_of_lt hj]

/-- Settles O42: the unit's product is R181's double sum, and only `BLKF` is written. -/
theorem dctWritesTransform : Obligations.DctWritesTransform := by
  refine ⟨fun i _ j hj s hcfg => ?basis, fun s hs hcfg => ?transform⟩
  case basis =>
    exact ⟨_, State.element_dctc hcfg i hj, (Num.toReal_ofCos _).trans (toReal_basis i j)⟩
  case transform =>
    have hframe := s.sameBut_writeBlkf_cellsFrom s.dctResults
    rw [s.length_dctResults] at hframe
    rw [exec_dct hcfg]
    refine ⟨_, State.perform_running hs _, hframe, fun u hu v hv => ?_⟩
    rw [State.settle_ok, s.blkfAt_writeBlkf_cellsFrom]
    exact s.abs_dctResults_sub_le hu hv _

/-! ### `IDCT` (R184) -/

/-- What `IDCT` writes, row by row. -/
def State.idctResults (s : State) : List Num :=
  s.approxAll .idct (blockList s.blkfAt) (idct2d 8 (matAt 8 (blockList s.blkfAt)))

@[simp] theorem State.length_idctResults (s : State) : s.idctResults.length = 64 := by
  simp [State.idctResults]

theorem exec_idct (hcfg : s.cfg.Standard) :
    exec .idct s = s.perform (.ok (s.writeBlkr (Mem.cellsFrom 0 s.idctResults))) := by
  obtain ⟨-, hshape⟩ := hcfg
  simp only [exec, execIdct, hshape]
  rfl

theorem State.abs_idctResults_sub_le (s : State) {i j : Nat} (hi : i < 8) (hj : j < 8) (old : Num) :
    |(s.idctResults.getD (8 * i + j) old).toReal -
        idctReal (fun u v => (s.blkfAt (8 * u + v)).toReal) i j| ≤ s.tolerance .idct := by
  have hreal : (matAt 8 (idct2d 8 (matAt 8 (blockList s.blkfAt))) i j).toReal =
      idctReal (fun u v => (s.blkfAt (8 * u + v)).toReal) i j :=
    (toReal_idct2d _ i j hi hj).trans
      (idctReal_congr (fun u hu v hv => congrArg Num.toReal (matAt_blockList _ hu hv)) i j)
  rw [← hreal]
  exact s.abs_getD_approxAll_sub_le .idct _ (length_idct2d 8 _) hi hj old

/-- Settles O43: the unit's product is R183's double sum, and only `BLKR` is written. -/
theorem idctWritesInverse : Obligations.IdctWritesInverse := by
  intro s hs hcfg
  have hframe := s.sameBut_writeBlkr_cellsFrom s.idctResults
  rw [s.length_idctResults] at hframe
  rw [exec_idct hcfg]
  refine ⟨_, State.perform_running hs _, hframe, fun i hi j hj => ?_⟩
  rw [State.settle_ok, s.blkrAt_writeBlkr_cellsFrom]
  exact s.abs_idctResults_sub_le hi hj _

/-! ### The round trip (R183, R185) -/

/-- In the exact system a written element has its rule's value. -/
theorem State.eq_of_abs_sub_le_tolerance (hexact : s.cfg.num = .exact) {site : NumSite} {x y : ℝ}
    (h : |x - y| ≤ s.tolerance site) : x = y := by
  rw [State.tolerance_of_exact hexact] at h
  exact sub_eq_zero.1 (abs_nonpos_iff.1 h)

/-- Settles O44: the two commands in turn are the two products, and the basis is orthonormal. -/
theorem idctInvertsDct : Obligations.IdctInvertsDct := by
  refine ⟨fun i hi k hk => basisReal_rows_orthonormal hi hk, fun s hs hcfg hexact => ?_⟩
  obtain ⟨-, hdct⟩ := dctWritesTransform
  obtain ⟨t, ht, hframe, hforward⟩ := hdct s hs hcfg
  have hcfg' : t.cfg.Standard := hframe.cfg ▸ hcfg
  have hexact' : t.cfg.num = .exact := hframe.cfg ▸ hexact
  obtain ⟨u, hu, -, hback⟩ := idctWritesInverse t (hframe.fault.trans hs) hcfg'
  refine ⟨t, u, ht, hu, fun k hk => ?_⟩
  have hrow : k / 8 < 8 := by omega
  have hcol : k % 8 < 8 := by omega
  calc (u.blkrAt k).toReal
      = (u.blkrAt (8 * (k / 8) + k % 8)).toReal := by rw [Nat.div_add_mod]
    _ = idctReal (fun a b => (t.blkfAt (8 * a + b)).toReal) (k / 8) (k % 8) :=
        State.eq_of_abs_sub_le_tolerance hexact' (hback _ hrow _ hcol)
    _ = idctReal (dctReal fun a b => (s.blksAt (8 * a + b)).toReal) (k / 8) (k % 8) :=
        idctReal_congr (fun a ha b hb =>
          State.eq_of_abs_sub_le_tolerance hexact (hforward a ha b hb)) _ _
    _ = (s.blksAt (8 * (k / 8) + k % 8)).toReal := idctReal_dctReal _ hrow hcol
    _ = (s.blksAt k).toReal := by rw [Nat.div_add_mod]

end Sys2Proof.Machine

/-! The coefficient quantizer and the majority voter (R196 to R209).  Each command is performed as the
checks of its rule, in order, and then one write; what it writes is read over the reals (R12), and for
`BLKPUT` from the pixels of the block, which lie at distinct addresses. -/

namespace Sys2Proof

/-- Where all cells of one index hold one value, that is what a read gives. -/
theorem Mem.get?_eq_some_of_unique {α : Type} {m : Mem α} {k : Nat} {v : α} (hmem : (k, v) ∈ m)
    (hunique : ∀ a ∈ m, a.1 = k → a.2 = v) : m.get? k = some v := by
  induction m with
  | nil => cases hmem
  | cons d m ih =>
    obtain ⟨j, w⟩ := d
    rw [Mem.get?_cons]
    split_ifs with hk
    · exact congrArg some (hunique (j, w) (.head _) hk.symm)
    · have htail : (k, v) ∈ m :=
        (List.mem_cons.1 hmem).resolve_left fun heq => hk (Prod.ext_iff.1 heq).1
      exact ih htail fun a ha => hunique a (.tail _ ha)

end Sys2Proof

namespace Sys2Proof.Machine

/-! ### Frames put together -/

section Frames

variable {s t u : State} {regs regs' : List RegNum} {csrs csrs' : List Csr}
  {rserr rserr' found found' : Bool} {cells cells' : Space → Nat → Prop}

theorem State.SameBut.mono (h : s.SameBut t regs csrs rserr found cells)
    (hcells : ∀ sp i, cells sp i → cells' sp i) : s.SameBut t regs csrs rserr found cells' :=
  { h with cells := fun sp i hi => h.cells sp i (mt (hcells sp i) hi) }

/-- Two updates in turn change what either of them changes. -/
theorem State.SameBut.trans (h : s.SameBut t regs csrs rserr found cells)
    (h' : t.SameBut u regs' csrs' rserr' found' cells') :
    s.SameBut u (regs ++ regs') (csrs ++ csrs') (rserr || rserr') (found || found')
      fun sp i => cells sp i ∨ cells' sp i where
  regs r hr := by
    rw [List.mem_append, not_or] at hr
    exact (h'.regs r hr.2).trans (h.regs r hr.1)
  csrs c hc hmem := by
    rw [List.mem_append, not_or] at hmem
    exact (h'.csrs c hc hmem.2).trans (h.csrs c hc hmem.1)
  fault := h'.fault.trans h.fault
  rserr hr := by
    rw [Bool.or_eq_false_iff] at hr
    exact (h'.rserr hr.2).trans (h.rserr hr.1)
  found hf := by
    rw [Bool.or_eq_false_iff] at hf
    exact (h'.found hf.2).trans (h.found hf.1)
  cells sp i hi := by
    rw [not_or] at hi
    exact (h'.cells sp i hi.2).trans (h.cells sp i hi.1)
  cfg := h'.cfg.trans h.cfg
  input := h'.input.trans h.input

end Frames

variable {s t : State} {rd rs1 rs2 : RegNum}

theorem State.sameBut_setFound (s : State) (b : Bool) :
    s.SameBut (s.setFound b) [] [] false true noCells where
  regs _ _ := rfl
  csrs c hc _ := by
    cases c with
    | status => exact absurd rfl hc
    | _ => rfl
  fault := rfl
  rserr _ := rfl
  found := nofun
  cells sp i _ := s.element_setFound b sp i
  cfg := rfl
  input := rfl

/-- A store of a real to a space but `CONF` reaches the element at its index only. -/
theorem State.sameBut_storeNum_of_ne_conf (s : State) {sp : Space} (hrw : spaceWritable sp = true)
    (hwidth : spaceWidth sp = none) (hconf : sp ≠ .conf) (n : Nat) (v : Num) :
    s.SameBut (s.storeNum sp n v) [] [] false false fun sp' i => sp' = sp ∧ i = n :=
  (s.sameBut_storeNum hrw hwidth n v).mono fun _ _ h => h.imp_right (Or.resolve_right · hconf)

/-- The frame of an update that reaches one space of reals only, where it writes the elements of a list
from index 0 on. -/
theorem State.sameBut_of_numList {sp : Space} {l : List Num} {old : Nat → Num}
    (hrest : t = s.withSpacesOf t)
    (hother : ∀ sp' i, sp' ≠ sp → t.element sp' i = s.element sp' i)
    (hnew : ∀ i, t.element sp i = .num (l.getD i (old i)))
    (hold : ∀ i, s.element sp i = .num (old i)) :
    s.SameBut t [] [] false false (cellRange sp 0 l.length) := by
  refine State.sameBut_of_spaces hrest hother fun i hi => ?_
  have hout : l.length ≤ i := not_lt.1 fun hlt => hi ⟨Nat.zero_le i, hlt⟩
  rw [hnew, hold, List.getD_eq_default _ _ hout]

theorem getD_map_range_num (f : Nat → Num) {n i : Nat} (hi : i < n) (old : Num) :
    ((List.range n).map f).getD i old = f i := by
  simp [List.getD_eq_getElem?_getD, hi]

/-! ### Checks and comparisons -/

/-- A check that fails raises its fault (R312). -/
theorem State.perform_check_of_fails (hs : s.fault = false) {p : Prop} [Decidable p] (hp : p)
    (k : FaultKind) (v : Nat) (c : Cmd) :
    s.perform (if p then .error (k, v) else c) = .next (s.faulted k.code v) := by
  rw [if_pos hp]
  exact State.perform_error hs k v

theorem numLt_eq_true {x y : Num} (h : x.toReal < y.toReal) : Num.lt x y = true :=
  (Num.lt_iff x y).2 h

theorem numLt_eq_false {x y : Num} (h : y.toReal ≤ x.toReal) : Num.lt x y = false :=
  Bool.eq_false_iff.2 ((Num.lt_iff x y).not.2 h.not_gt)

/-! ### The voter (R204 to R207) -/

theorem State.acc0At_writeAcc0_cellsFrom (s : State) (l : List Num) (i : Nat) :
    (s.writeAcc0 (Mem.cellsFrom 0 l)).acc0At i = l.getD i (s.acc0At i) := by
  rw [State.acc0At_writeAcc0, Mem.getD_get?_cellsFrom, if_pos (Nat.zero_le i), Nat.sub_zero]

theorem State.acc1At_writeAcc1_cellsFrom (s : State) (l : List Num) (i : Nat) :
    (s.writeAcc1 (Mem.cellsFrom 0 l)).acc1At i = l.getD i (s.acc1At i) := by
  rw [State.acc1At_writeAcc1, Mem.getD_get?_cellsFrom, if_pos (Nat.zero_le i), Nat.sub_zero]

/-- What `VCLR` makes of the number 0 for result `k` (R12, R205). -/
def State.clearedSum (s : State) (n k : Nat) : Num :=
  s.approx .vclr [Num.ofInt n] k (Num.ofRat 0)

/-- The sums for 0 and for 1 that `VCLR` writes; they are numbered alternately. -/
def State.clearedSums (s : State) (n bit : Nat) : List Num :=
  (List.range n).map fun i => s.clearedSum n (2 * i + bit)

theorem State.length_clearedSums (s : State) (n bit : Nat) : (s.clearedSums n bit).length = n := by
  simp [State.clearedSums]

theorem State.abs_clearedSum_le (s : State) (n k : Nat) :
    |(s.clearedSum n k).toReal| ≤ s.tolerance .vclr := by
  simpa [State.clearedSum] using abs_approx_sub_le s .vclr [Num.ofInt n] k (Num.ofRat 0)

/-- The state that `VCLR` gives. -/
def State.sumsCleared (s : State) (n : Nat) : State :=
  (s.writeAcc0 (Mem.cellsFrom 0 (s.clearedSums n 0))).writeAcc1
    (Mem.cellsFrom 0 (s.clearedSums n 1))

theorem exec_vclr (rs1 : RegNum) (s : State) :
    exec (.vclr rs1) s = s.perform (if s.cfg.bitSize < s.natX rs1
      then .error (.bufferBounds, s.natX rs1) else .ok (s.sumsCleared (s.natX rs1))) := rfl

theorem State.acc0At_sumsCleared (s : State) {n i : Nat} (hi : i < n) :
    (s.sumsCleared n).acc0At i = s.clearedSum n (2 * i) :=
  (s.acc0At_writeAcc0_cellsFrom _ i).trans (getD_map_range_num _ hi _)

theorem State.acc1At_sumsCleared (s : State) {n i : Nat} (hi : i < n) :
    (s.sumsCleared n).acc1At i = s.clearedSum n (2 * i + 1) :=
  (State.acc1At_writeAcc1_cellsFrom _ _ i).trans (getD_map_range_num _ hi _)

theorem State.sameBut_sumsCleared (s : State) (n : Nat) :
    s.SameBut (s.sumsCleared n) [] [] false false
      fun sp i => (sp = .acc0 ∨ sp = .acc1) ∧ i < n := by
  have hzero : s.SameBut (s.writeAcc0 (Mem.cellsFrom 0 (s.clearedSums n 0))) [] [] false false
      (cellRange .acc0 0 (s.clearedSums n 0).length) :=
    State.sameBut_of_numList rfl (fun _ i hsp => s.element_writeAcc0 _ hsp i)
      (fun i => congrArg Elem.num (s.acc0At_writeAcc0_cellsFrom _ i)) fun _ => rfl
  have hone (t : State) : t.SameBut (t.writeAcc1 (Mem.cellsFrom 0 (s.clearedSums n 1))) [] [] false
      false (cellRange .acc1 0 (s.clearedSums n 1).length) :=
    State.sameBut_of_numList rfl (fun _ i hsp => t.element_writeAcc1 _ hsp i)
      (fun i => congrArg Elem.num (t.acc1At_writeAcc1_cellsFrom _ i)) fun _ => rfl
  rw [State.length_clearedSums] at hzero
  simp only [State.length_clearedSums] at hone
  refine (hzero.trans (hone _)).mono fun sp i hi => ?_
  obtain ⟨hsp, -, hlt⟩ | ⟨hsp, -, hlt⟩ := hi
  · exact ⟨.inl hsp, hlt⟩
  · exact ⟨.inr hsp, hlt⟩

/-- Settles O50: every sum written is 0 within the tolerance, and only the first `n` of each are
written. -/
theorem vclrClearsSums : Obligations.VclrClearsSums := by
  intro s rs1 hs n
  rw [exec_vclr]
  refine ⟨fun hn => ?cleared, fun hn => State.perform_check_of_fails hs hn _ _ _⟩
  case cleared =>
    rw [if_neg hn.not_gt]
    refine ⟨_, State.perform_running hs _, fun i hi => ?_, s.sameBut_sumsCleared n⟩
    rw [State.settle_ok, s.acc0At_sumsCleared hi, s.acc1At_sumsCleared hi]
    exact ⟨s.abs_clearedSum_le n _, s.abs_clearedSum_le n _⟩

/-- The sum that `VACC` writes for the value `v` over the old sum (R206). -/
def State.addedConf (s : State) (i v : Nat) (old : Num) : Num :=
  s.approx .vacc [Num.ofInt i, Num.ofInt v, old, s.confVal] 0 (Num.add old s.confVal)

theorem State.abs_addedConf_sub_le (s : State) (i v : Nat) (old : Num) :
    |(s.addedConf i v old).toReal - (old.toReal + s.confVal.toReal)| ≤ s.tolerance .vacc := by
  rw [← Num.toReal_add]
  exact abs_approx_sub_le s .vacc _ 0 _

theorem exec_vacc (rs1 rs2 : RegNum) (s : State) :
    exec (.vacc rs1 rs2) s = s.perform
      (if s.cfg.bitSize ≤ s.natX rs1 then .error (.bufferBounds, s.natX rs1)
      else if 1 < s.natX rs2 then .error (.operandRange, s.natX rs2)
      else if s.natX rs2 = 1 then .ok (s.storeNum .acc1 (s.natX rs1)
        (s.addedConf (s.natX rs1) (s.natX rs2) (s.acc1At (s.natX rs1))))
      else .ok (s.storeNum .acc0 (s.natX rs1)
        (s.addedConf (s.natX rs1) (s.natX rs2) (s.acc0At (s.natX rs1))))) := rfl

theorem State.acc0At_storeNum_self (s : State) (i : Nat) (v : Num) :
    (s.storeNum .acc0 i v).acc0At i = v :=
  (s.acc0At_writeAcc0 [(i, v)] i).trans (by simp [Mem.get?_cons])

theorem State.acc1At_storeNum_self (s : State) (i : Nat) (v : Num) :
    (s.storeNum .acc1 i v).acc1At i = v :=
  (s.acc1At_writeAcc1 [(i, v)] i).trans (by simp [Mem.get?_cons])

/-- Settles O51: the value chooses the sum, and each check has its fault. -/
theorem vaccAddsConfidence : Obligations.VaccAddsConfidence := by
  intro s rs1 rs2 hs i v
  rw [exec_vacc]
  refine ⟨fun hi hv => ?one, fun hi hv => ?zero, fun hi => ?bounds, fun hi hv => ?range⟩
  case one =>
    rw [if_neg hi.not_ge, if_neg hv.le.not_gt, if_pos hv]
    refine ⟨_, State.perform_running hs _, ?_,
      s.sameBut_storeNum_of_ne_conf (sp := .acc1) rfl rfl nofun i _⟩
    rw [State.settle_ok, s.acc1At_storeNum_self]
    exact s.abs_addedConf_sub_le i v _
  case zero =>
    rw [if_neg hi.not_ge, if_neg (by omega), if_neg (by omega)]
    refine ⟨_, State.perform_running hs _, ?_,
      s.sameBut_storeNum_of_ne_conf (sp := .acc0) rfl rfl nofun i _⟩
    rw [State.settle_ok, s.acc0At_storeNum_self]
    exact s.abs_addedConf_sub_le i v _
  case bounds => exact State.perform_check_of_fails hs hi _ _ _
  case range => rw [if_neg hi.not_ge]; exact State.perform_check_of_fails hs hv _ _ _

/-- The state that `VOTE` gives for the result `b`. -/
def State.voted (s : State) (rd : RegNum) (i : Nat) (b : Bool) : State :=
  (s.writeBit [(i, BitVec.ofBool b)]).setX rd (boolWord b)

theorem exec_vote (rd rs1 : RegNum) (s : State) :
    exec (.vote rd rs1) s = s.perform
      (if s.cfg.bitSize ≤ s.natX rs1 then .error (.bufferBounds, s.natX rs1)
      else .ok (s.voted rd (s.natX rs1)
        (Num.lt (s.acc0At (s.natX rs1)) (s.acc1At (s.natX rs1))))) := rfl

theorem State.bitAt_voted (s : State) (rd : RegNum) (i : Nat) (b : Bool) :
    (s.voted rd i b).bitAt i = BitVec.ofBool b :=
  (s.bitAt_writeBit [(i, BitVec.ofBool b)] i).trans (by simp [Mem.get?_cons])

theorem State.getX_voted (s : State) (rd : RegNum) (i : Nat) (b : Bool) :
    (s.voted rd i b).getX rd = boolWord b := State.getX_setX_same _ rd _

theorem State.sameBut_voted (s : State) (rd : RegNum) (i : Nat) (b : Bool) :
    s.SameBut (s.voted rd i b) [rd] [] false false fun sp j => sp = .bit ∧ j = i := by
  refine State.SameBut.setX (State.sameBut_of_spaces rfl
    (fun _ j hsp => s.element_writeBit _ hsp j) fun j hj => ?_) rd _
  refine congrArg (fun c : Bit => Elem.int c.toNat) ((s.bitAt_writeBit _ j).trans ?_)
  rw [Mem.get?_cons, if_neg hj]
  rfl

/-- Settles O52: the comparison of the stored sums is that of the reals, and a tie gives 0. -/
theorem voteComparesSums : Obligations.VoteComparesSums := by
  intro s rd rs1 hs i
  rw [exec_vote]
  refine ⟨fun hi => ?vote, fun hi => State.perform_check_of_fails hs hi _ _ _⟩
  case vote =>
    rw [if_neg hi.not_ge]
    refine ⟨_, State.perform_running hs _, fun hgreater => ?one, fun hle => ?zero,
      s.sameBut_voted rd i _⟩
    all_goals rw [State.settle_ok, State.getX_voted, State.bitAt_voted]
    case one => rw [numLt_eq_true hgreater]; exact ⟨rfl, rfl⟩
    case zero => rw [numLt_eq_false hle]; exact ⟨rfl, rfl⟩

/-! ### The magic pattern (R208) -/

/-- The unit's count is the count of the rule. -/
theorem State.magicMatches_eq_card (s : State) :
    s.magicMatches = ((Finset.range 16).filter fun i =>
      (s.bitAt i).toNat = (s.cfg.magic.getLsbD (15 - i)).toNat).card := by
  rw [State.magicMatches, List.countP_eq_length_filter]
  simp only [← BitVec.toNat_inj, BitVec.toNat_ofBool]
  rfl

theorem State.magicMatches_le (s : State) : s.magicMatches ≤ 16 :=
  List.countP_le_length.trans (by rw [List.length_range])

theorem exec_magcmp (rd : RegNum) (s : State) :
    exec (.magcmp rd) s = s.perform (.ok ((s.putX rd s.magicMatches).setFound
      (magicFound s.cfg.rpl s.magicMatches))) := rfl

/-- Settles O53: the count fits the register, and `FOUND` compares it with `MAGIC_MIN`. -/
theorem magcmpCountsMatches : Obligations.MagcmpCountsMatches := by
  intro s rd hs hcfg
  obtain ⟨hrpl, -⟩ := hcfg
  have hsmall := s.magicMatches_le
  have hcount : ((s.putX rd s.magicMatches).getX rd).toNat = s.magicMatches := by
    rw [State.toNat_getX_putX, Nat.mod_eq_of_lt (by omega)]
  rw [exec_magcmp]
  refine ⟨_, State.perform_running hs _, ?count, ?found, ?frame⟩
  case count => exact hcount.trans s.magicMatches_eq_card
  case found =>
    rw [State.settle_ok, State.getX_setFound, hcount, hrpl]
    exact decide_eq_true_iff
  case frame =>
    refine ((s.sameBut_setX rd _).trans (State.sameBut_setFound _ _)).mono fun sp i hi => ?_
    exact hi.elim id id

/-! ### The embedding function over the reals (R201) -/

/-- `spr(sf)` as the real it stands for. -/
theorem sprOfFlag_real (sf : Nat) : ((sprOfFlag sf : Int) : ℝ) = if sf = 1 then 1 else -1 := by
  rw [sprOfFlag]
  split_ifs <;> norm_num

/-- `m` of R209: the multiple of `q = 2*T` that `qim` rounds to. -/
noncomputable def qimStep (c : ℝ) (T : Nat) : ℤ := ⌊c / (2 * T) + 1 / 2⌋

theorem qimReal_eq (c : ℝ) (bit sf T : Nat) :
    qimReal c bit sf T = qimStep c T * (2 * T) + (sgnOfBit bit * sprOfFlag sf * T : Int) := rfl

theorem toReal_qim (c : Num) (bit sf T : Nat) :
    (Num.ofInt (qim c bit sf T)).toReal = qimReal c.toReal bit sf T := by
  have hquot : ((1 / ((2 * T : Nat) : Rat) : Rat) : ℝ) * c.toReal = c.toReal / (2 * T) := by
    push_cast
    ring
  rw [qimReal_eq, qimStep, Num.toReal_ofInt, qim, Num.roundHalfUp_eq, Num.toReal_scale, hquot]
  push_cast
  ring

section Quantizing

variable {c : ℝ} {T : Nat}

/-- The three ranges of R209. -/
theorem qimStep_eq_zero (hT : 1 ≤ T) (hlo : -(T : ℝ) ≤ c) (hhi : c < T) : qimStep c T = 0 := by
  have hpos : (0 : ℝ) < 2 * T := by positivity
  have hlow : -(1 / 2) ≤ c / (2 * T) := by rw [le_div_iff₀ hpos]; linarith
  have hhigh : c / (2 * T) < 1 / 2 := by rw [div_lt_iff₀ hpos]; linarith
  exact Int.floor_eq_zero_iff.2 ⟨by linarith, by linarith⟩

theorem qimStep_neg (hT : 1 ≤ T) (hc : c < -(T : ℝ)) : qimStep c T ≤ -1 := by
  have hpos : (0 : ℝ) < 2 * T := by positivity
  have hquot : c / (2 * T) < -(1 / 2) := by rw [div_lt_iff₀ hpos]; linarith
  have hfloor : qimStep c T < 0 := Int.floor_lt.2 (by push_cast; linarith)
  omega

theorem qimStep_pos (hT : 1 ≤ T) (hc : (T : ℝ) ≤ c) : 1 ≤ qimStep c T := by
  have hpos : (0 : ℝ) < 2 * T := by positivity
  have hquot : 1 / 2 ≤ c / (2 * T) := by rw [le_div_iff₀ hpos]; linarith
  exact Int.le_floor.2 (by push_cast; linarith)

/-- What the bit and the flag add is `T` or `-T`. -/
theorem abs_sgn_mul_spr (bit sf T : Nat) :
    |((sgnOfBit bit * sprOfFlag sf * T : Int) : ℝ)| = T := by
  rw [sgnOfBit, sprOfFlag]
  split_ifs <;> simp

/-- A step below 0 outweighs what the bit adds, so the sign does not depend on it (R209). -/
theorem qimReal_neg (hT : 1 ≤ T) (hc : c < -(T : ℝ)) (bit sf : Nat) : qimReal c bit sf T < 0 := by
  have hpos : (1 : ℝ) ≤ T := by exact_mod_cast hT
  have hstep : (qimStep c T : ℝ) ≤ -1 := by exact_mod_cast qimStep_neg hT hc
  have hadd := (abs_le.1 (abs_sgn_mul_spr bit sf T).le).2
  rw [qimReal_eq]
  nlinarith

/-- And one above 0. -/
theorem qimReal_pos (hT : 1 ≤ T) (hc : (T : ℝ) ≤ c) (bit sf : Nat) : 0 < qimReal c bit sf T := by
  have hpos : (1 : ℝ) ≤ T := by exact_mod_cast hT
  have hstep : (1 : ℝ) ≤ qimStep c T := by exact_mod_cast qimStep_pos hT hc
  have hadd := (abs_le.1 (abs_sgn_mul_spr bit sf T).le).1
  rw [qimReal_eq]
  nlinarith

/-- With step 0 the correlation is `T` with the sign of the bit (R209). -/
theorem qimReal_mul_spr (hT : 1 ≤ T) (hlo : -(T : ℝ) ≤ c) (hhi : c < T) (bit sf : Nat) :
    qimReal c bit sf T * (if sf = 1 then 1 else -1) = if bit = 1 then (T : ℝ) else -T := by
  rw [qimReal_eq, qimStep_eq_zero hT hlo hhi, sgnOfBit, sprOfFlag]
  split_ifs <;> simp

end Quantizing

/-! ### `QEMB` and `QEXT` (R202, R203) -/

/-- The positions of R196, for the side and the count that R8 states. -/
theorem posIndex_of_standard {p : Params} (hp : p.Standard) (k : Nat) :
    posIndex p k = 8 * (p.embedPos.getD k (0, 0)).1 + (p.embedPos.getD k (0, 0)).2 := by
  rw [posIndex, hp.2]
  rfl

/-- The coefficient that `QEMB` writes over the old one (R202). -/
def State.quantized (s : State) (k bit sf : Nat) (c : Num) : Num :=
  s.approx .qemb [Num.ofInt k, Num.ofInt bit, Num.ofInt sf, Num.ofInt s.strength.toNat, c] 0
    (Num.ofInt (qim c bit sf s.strength.toNat))

theorem State.abs_quantized_sub_le (s : State) (k bit sf : Nat) (c : Num) :
    |(s.quantized k bit sf c).toReal - qimReal c.toReal bit sf s.strength.toNat| ≤
      s.tolerance .qemb := by
  rw [← toReal_qim]
  exact abs_approx_sub_le s .qemb _ 0 _

theorem exec_qemb (rd rs1 rs2 : RegNum) (hcfg : s.cfg.Standard) :
    exec (.qemb rd rs1 rs2) s = s.perform
      (if 14 < s.natX rd then .error (.operandRange, s.natX rd)
      else if 1 < s.natX rs1 then .error (.operandRange, s.natX rs1)
      else if 1 < s.natX rs2 then .error (.operandRange, s.natX rs2)
      else if s.strength.toNat = 0 then .error (.operandRange, 0)
      else .ok (s.storeNum .blkf (posIndex s.cfg (s.natX rd))
        (s.quantized (s.natX rd) (s.natX rs1) (s.natX rs2)
          (s.blkfAt (posIndex s.cfg (s.natX rd)))))) := by
  have hnpos : s.cfg.shape.npos = 15 := congrArg Shape.npos hcfg.2
  simp only [exec, execQemb, hnpos]
  rfl

theorem State.blkfAt_storeNum_self (s : State) (i : Nat) (v : Num) :
    (s.storeNum .blkf i v).blkfAt i = v :=
  (s.blkfAt_writeBlkf [(i, v)] i).trans (by simp [Mem.get?_cons])

/-- Settles O47: the quantizer computes R201 over the reals, and the checks fault in order. -/
theorem qembQuantizes : Obligations.QembQuantizes := by
  intro s rd rs1 rs2 hs hcfg k bit sf T uv i
  have hindex : posIndex s.cfg k = i := posIndex_of_standard hcfg k
  rw [exec_qemb rd rs1 rs2 hcfg, hindex]
  refine ⟨fun hk hbit hsf hT => ?quantized, fun hk => ?position, fun hk hbit => ?bit,
    fun hk hbit hsf => ?flag, fun hk hbit hsf hT => ?strength⟩
  case quantized =>
    rw [if_neg hk.not_gt, if_neg hbit.not_gt, if_neg hsf.not_gt, if_neg (Nat.ne_of_gt hT)]
    refine ⟨_, State.perform_running hs _,
      s.sameBut_storeNum_of_ne_conf (sp := .blkf) rfl rfl nofun i _, ?_⟩
    rw [State.settle_ok, s.blkfAt_storeNum_self]
    exact s.abs_quantized_sub_le k bit sf _
  case position => exact State.perform_check_of_fails hs hk _ _ _
  case bit => rw [if_neg hk.not_gt]; exact State.perform_check_of_fails hs hbit _ _ _
  case flag =>
    rw [if_neg hk.not_gt, if_neg hbit.not_gt]
    exact State.perform_check_of_fails hs hsf _ _ _
  case strength =>
    rw [if_neg hk.not_gt, if_neg hbit.not_gt, if_neg hsf.not_gt]
    exact State.perform_check_of_fails hs hT _ _ _

/-- `corr` of R203. -/
def correlation (sf : Nat) (c : Num) : Num := Num.scale (sprOfFlag sf : Rat) c

theorem toReal_correlation (sf : Nat) (c : Num) :
    (correlation sf c).toReal = c.toReal * (if sf = 1 then 1 else -1) := by
  rw [correlation, Num.toReal_scale, Rat.cast_intCast, sprOfFlag_real, mul_comm]

/-- The state that `QEXT` gives for position `k` with the coefficient `c`. -/
def State.estimated (s : State) (rd : RegNum) (k sf : Nat) (c : Num) : State :=
  (s.setX rd (boolWord (Num.lt (Num.ofRat 0) (correlation sf c)))).writeConf
    (s.approx .qext [Num.ofInt k, Num.ofInt sf, c] 0 (correlation sf c).abs)

theorem exec_qext (rd rs1 rs2 : RegNum) (hcfg : s.cfg.Standard) :
    exec (.qext rd rs1 rs2) s = s.perform
      (if 14 < s.natX rs1 then .error (.operandRange, s.natX rs1)
      else if 1 < s.natX rs2 then .error (.operandRange, s.natX rs2)
      else .ok (s.estimated rd (s.natX rs1) (s.natX rs2)
        (s.blkfAt (posIndex s.cfg (s.natX rs1))))) := by
  have hnpos : s.cfg.shape.npos = 15 := congrArg Shape.npos hcfg.2
  simp only [exec, execQext, hnpos]
  rfl

theorem State.getX_estimated (s : State) (rd : RegNum) (k sf : Nat) (c : Num) :
    (s.estimated rd k sf c).getX rd =
      boolWord (Num.lt (Num.ofRat 0) (correlation sf c)) := by
  rw [State.estimated, State.getX_writeConf, State.getX_setX_same]

theorem State.abs_confVal_estimated_sub_le (s : State) (rd : RegNum) (k sf : Nat) (c : Num) :
    |(s.estimated rd k sf c).confVal.toReal - abs (correlation sf c).toReal| ≤
      s.tolerance .qext := by
  rw [State.estimated, State.confVal_writeConf, ← Num.toReal_abs]
  exact abs_approx_sub_le s .qext _ 0 _

theorem State.sameBut_estimated (s : State) (rd : RegNum) (k sf : Nat) (c : Num) :
    s.SameBut (s.estimated rd k sf c) [rd] [] false false fun sp _ => sp = .conf :=
  ((s.sameBut_setX rd _).trans (State.sameBut_storeNum _ (sp := .conf) rfl rfl 0 _)).mono
    fun _ _ hi => hi.elim False.elim And.left

/-- Settles O48: the sign and the size of the correlation, and the checks fault in order. -/
theorem qextEstimates : Obligations.QextEstimates := by
  intro s rd rs1 rs2 hs hcfg k sf uv corr
  have hindex : posIndex s.cfg k = 8 * uv.1 + uv.2 := posIndex_of_standard hcfg k
  have hcorr : (correlation sf (s.blkfAt (8 * uv.1 + uv.2))).toReal = corr :=
    toReal_correlation sf _
  rw [exec_qext rd rs1 rs2 hcfg, hindex]
  refine ⟨fun hk hsf => ?estimate, fun hk => ?position, fun hk hsf => ?flag⟩
  case estimate =>
    rw [if_neg hk.not_gt, if_neg hsf.not_gt, ← hcorr]
    refine ⟨_, State.perform_running hs _, fun hpos => ?one, fun hneg => ?zero,
      s.abs_confVal_estimated_sub_le rd k sf _, s.sameBut_estimated rd k sf _⟩
    case one => rw [State.settle_ok, State.getX_estimated, numLt_eq_true (by simpa using hpos)]; rfl
    case zero => rw [State.settle_ok, State.getX_estimated, numLt_eq_false (by simpa using hneg)]; rfl
  case position => exact State.perform_check_of_fails hs hk _ _ _
  case flag => rw [if_neg hk.not_gt]; exact State.perform_check_of_fails hs hsf _ _ _

/-! ### What `QEXT` recovers of `QEMB` (R209) -/

/-- Settles O49: after `QEMB` the coefficient is R201's value, and the estimate is the sign of its product
with the spread sign. -/
theorem qextRecoversQemb : Obligations.QextRecoversQemb := by
  intro s t rd rs1 rs2 rd' rs1' hs hcfg hexact k bit sf T uv c hk hbit hsf hT ht hpos
  obtain ⟨hembed, -⟩ := qembQuantizes s rd rs1 rs2 hs hcfg
  obtain ⟨t', ht', hframe, hcoeff⟩ := hembed hk hbit hsf hT
  obtain rfl : t = t' := Host.Outcome.next.inj (ht.symm.trans ht')
  have hcoeff := State.eq_of_abs_sub_le_tolerance hexact hcoeff
  have hcfg' : t.cfg = s.cfg := hframe.cfg
  have hflag : t.natX rs2 = sf := congrArg BitVec.toNat (hframe.regs rs2 nofun)
  obtain ⟨hextract, -⟩ :=
    qextEstimates t rd' rs1' rs2 (hframe.fault.trans hs) (hcfg' ▸ hcfg)
  rw [hpos, hflag, hcfg', hcoeff] at hextract
  obtain ⟨u, hu, hone, hzero, hconf, -⟩ := hextract hk hsf
  have hconf := State.eq_of_abs_sub_le_tolerance (hcfg' ▸ hexact) hconf
  refine ⟨u, hu, fun hlo hhi => ?near, fun hlow => ?below, fun hhigh => ?above⟩
  case near =>
    have hTpos : (0 : ℝ) < T := Nat.cast_pos.2 hT
    rw [qimReal_mul_spr hT hlo hhi] at hone hzero hconf
    by_cases hb : bit = 1
    · rw [if_pos hb] at hone hconf
      rw [hone hTpos, hb]
      exact ⟨rfl, hconf.trans (abs_of_pos hTpos)⟩
    · have hb0 : bit = 0 := by omega
      rw [if_neg hb] at hzero hconf
      rw [hzero (neg_nonpos.2 hTpos.le), hb0]
      exact ⟨rfl, hconf.trans ((abs_neg T).trans (abs_of_pos hTpos))⟩
  case below =>
    have hneg := qimReal_neg hT hlow bit sf
    by_cases hflag1 : sf = 1
    · rw [hzero (by rw [if_pos hflag1]; linarith), hflag1]
      rfl
    · have hflag0 : sf = 0 := by omega
      rw [hone (by rw [if_neg hflag1]; linarith), hflag0]
      rfl
  case above =>
    have hpos := qimReal_pos hT hhigh bit sf
    by_cases hflag1 : sf = 1
    · rw [hone (by rw [if_pos hflag1]; linarith), hflag1]
      rfl
    · have hflag0 : sf = 0 := by omega
      rw [hzero (by rw [if_neg hflag1]; linarith), hflag0]
      rfl

/-! ### The blocks of an image (R35, R197) -/

/-- The checks of R199 and R200, with the numbers of R35. -/
theorem State.blockFault_of_standard (hcfg : s.cfg.Standard) (b : Nat) :
    s.blockFault b =
      if s.cfg.pixSize < 4 * s.imgW.toNat * s.imgH.toNat then
        some (.bufferBounds, 4 * s.imgW.toNat * s.imgH.toNat)
      else if s.imgW.toNat / 8 * (s.imgH.toNat / 8) ≤ b then some (.bufferBounds, b)
      else none := by
  have hblock : s.cfg.shape.block = 8 := congrArg Shape.block hcfg.2
  have hblocks : s.blocks = s.imgW.toNat / 8 * (s.imgH.toNat / 8) := by
    rw [State.blocks, State.blockCols, State.blockRows, hblock]
    rfl
  rw [State.blockFault, hblocks, State.imageFits, Bool.not_not]
  exact if_congr decide_eq_true_iff rfl rfl

theorem State.blockPixel_of_standard (hcfg : s.cfg.Standard) (b r c : Nat) :
    s.blockPixel b r c = s.samplePixel b r c := by
  have hblock : s.cfg.shape.block = 8 := congrArg Shape.block hcfg.2
  rw [State.blockPixel, State.blockCols, hblock]
  rfl

theorem State.blockSamples_of_standard (hcfg : s.cfg.Standard) :
    s.blockSamples = List.range (8 * 8) := by
  rw [State.blockSamples, hcfg.2]
  rfl

/-- Sample number `8*r + c` is the pixel of row `r` and column `c` (R44, R197). -/
theorem State.samplePixelNumber_of_standard (hcfg : s.cfg.Standard) (b r : Nat) {c : Nat}
    (hc : c < 8) : s.samplePixelNumber b (8 * r + c) = s.samplePixel b r c := by
  have hblock : s.cfg.shape.block = 8 := congrArg Shape.block hcfg.2
  rw [State.samplePixelNumber, hblock, Nat.mul_add_div (by omega), Nat.div_eq_of_lt hc,
    Nat.add_zero, Nat.mul_add_mod, Nat.mod_eq_of_lt hc, State.blockPixel_of_standard hcfg]

/-- A block lies inside the columns of the image, so a sample of it is in the pixel row of its row. -/
theorem State.samplePixel_div {b c : Nat} (hb : 0 < s.imgW.toNat / 8) (r : Nat) (hc : c < 8) :
    s.samplePixel b r c / s.imgW.toNat = 8 * (b / (s.imgW.toNat / 8)) + r := by
  have hmod : b % (s.imgW.toNat / 8) < s.imgW.toNat / 8 := Nat.mod_lt b hb
  have hcol : 8 * (b % (s.imgW.toNat / 8)) + c < s.imgW.toNat := by omega
  rw [State.samplePixel, Nat.mul_comm, Nat.mul_add_div (by omega), Nat.div_eq_of_lt hcol,
    Nat.add_zero]

/-- Two samples of a block at one pixel are one sample. -/
theorem State.samplePixel_inj {b r c r' c' : Nat} (hb : 0 < s.imgW.toNat / 8) (hc : c < 8)
    (hc' : c' < 8) (h : s.samplePixel b r c = s.samplePixel b r' c') : r = r' ∧ c = c' := by
  have hrows := congrArg (· / s.imgW.toNat) h
  simp only [State.samplePixel_div hb _ hc, State.samplePixel_div hb _ hc'] at hrows
  obtain rfl : r = r' := by omega
  rw [State.samplePixel, State.samplePixel] at h
  exact ⟨rfl, by omega⟩

/-! ### `BLKGET` (R198, R199) -/

theorem exec_blkget_of_fault (hs : s.fault = false) {k : FaultKind} {v : Nat}
    (h : s.blockFault (s.natX rs1) = some (k, v)) :
    exec (.blkget rs1) s = .next (s.faulted k.code v) := by
  simp only [exec, execBlkget, h]
  exact State.perform_error hs k v

theorem State.toReal_lumaAt (hcfg : s.cfg.Standard) (n : Nat) :
    (Num.ofRat (s.lumaAt n)).toReal = s.lumaReal n := by
  rw [Num.toReal_ofRat, State.lumaAt, luma, hcfg.1, Config.rplValues, State.lumaReal]
  push_cast
  norm_num

/-- What `BLKGET` writes, row by row. -/
def State.blockLuma (s : State) (b : Nat) : List Num :=
  s.approxAll .blkget (s.blockInputs b)
    (blockList fun k => Num.ofRat (s.lumaAt (s.samplePixelNumber b k)))

theorem State.length_blockLuma (s : State) (b : Nat) : (s.blockLuma b).length = 64 := by
  simp [State.blockLuma, blockList]

theorem exec_blkget_of_none (hcfg : s.cfg.Standard) (h : s.blockFault (s.natX rs1) = none) :
    exec (.blkget rs1) s =
      s.perform (.ok (s.writeBlks (Mem.cellsFrom 0 (s.blockLuma (s.natX rs1))))) := by
  simp only [exec, execBlkget, h, State.blockSamples_of_standard hcfg]
  rfl

theorem State.blksAt_writeBlks_cellsFrom (s : State) (l : List Num) (i : Nat) :
    (s.writeBlks (Mem.cellsFrom 0 l)).blksAt i = l.getD i (s.blksAt i) := by
  rw [State.blksAt_writeBlks, Mem.getD_get?_cellsFrom, if_pos (Nat.zero_le i), Nat.sub_zero]

theorem State.sameBut_writeBlks_cellsFrom (s : State) (l : List Num) :
    s.SameBut (s.writeBlks (Mem.cellsFrom 0 l)) [] [] false false (cellRange .blks 0 l.length) :=
  State.sameBut_of_numList rfl (fun _ i hsp => s.element_writeBlks _ hsp i)
    (fun i => congrArg Elem.num (s.blksAt_writeBlks_cellsFrom l i)) fun _ => rfl

theorem State.abs_blockLuma_sub_le (hcfg : s.cfg.Standard) (b : Nat) {r c : Nat} (hr : r < 8)
    (hc : c < 8) (old : Num) :
    |((s.blockLuma b).getD (8 * r + c) old).toReal - s.lumaReal (s.samplePixel b r c)| ≤
      s.tolerance .blkget := by
  have hlen : (blockList fun k => Num.ofRat (s.lumaAt (s.samplePixelNumber b k))).length = 8 * 8 := by
    simp [blockList]
  have hluma := s.abs_getD_approxAll_sub_le .blkget (s.blockInputs b) hlen hr hc old
  rwa [matAt_blockList _ hr hc, State.toReal_lumaAt hcfg,
    State.samplePixelNumber_of_standard hcfg b r hc] at hluma

/-- Settles O45: the samples are the luma of the block's pixels, and the two checks fault in order. -/
theorem blkgetWritesLuma : Obligations.BlkgetWritesLuma := by
  intro s rs1 hs hcfg b w h
  have hfault := State.blockFault_of_standard hcfg b
  refine ⟨fun hfit hb => ?luma, fun hlarge => ?image, fun hfit hb => ?block⟩
  case luma =>
    rw [if_neg hfit.not_gt, if_neg hb.not_ge] at hfault
    have hframe := s.sameBut_writeBlks_cellsFrom (s.blockLuma b)
    rw [s.length_blockLuma b] at hframe
    rw [exec_blkget_of_none hcfg hfault]
    refine ⟨_, State.perform_running hs _, hframe, fun r hr c hc => ?_⟩
    rw [State.settle_ok, s.blksAt_writeBlks_cellsFrom]
    exact State.abs_blockLuma_sub_le hcfg b hr hc _
  case image => exact exec_blkget_of_fault hs (hfault.trans (if_pos hlarge))
  case block =>
    exact exec_blkget_of_fault hs (hfault.trans ((if_neg hfit.not_gt).trans (if_pos hb)))

/-! ### `BLKPUT` (R200) -/

/-- The luma weight of channel 0, 1 or 2 (R198). -/
def channelWeight (v : RplValues) : Nat → Rat
  | 0 => v.lumaR
  | 1 => v.lumaG
  | _ => v.lumaB

/-- The byte that `BLKPUT` writes to channel `j` of sample `k` of block `b`. -/
def State.newByte (s : State) (b k j : Nat) : Byte :=
  writeBack (s.pixAt (4 * s.samplePixelNumber b k + j)) (channelWeight s.cfg.rpl j)
    (Num.sub (s.blkrAt k) (s.blksAt k))

theorem State.mem_blkputCells {b k : Nat} {a : Nat × Byte} :
    a ∈ s.blkputCells b k ↔
      ∃ j < 3, a = (4 * s.samplePixelNumber b k + j, s.newByte b k j) := by
  constructor
  · intro ha
    simp only [State.blkputCells, List.mem_cons, List.not_mem_nil, or_false] at ha
    obtain rfl | rfl | rfl := ha
    · exact ⟨0, by omega, rfl⟩
    · exact ⟨1, by omega, rfl⟩
    · exact ⟨2, by omega, rfl⟩
  · rintro ⟨j, hj, rfl⟩
    match j, hj with
    | 0, _ => exact .head _
    | 1, _ => exact .tail _ (.head _)
    | 2, _ => exact .tail _ (.tail _ (.head _))

/-- The cells that `BLKPUT` writes for block `b`. -/
def State.blockCells (s : State) (b : Nat) : List (Nat × Byte) :=
  s.blockSamples.flatMap (s.blkputCells b)

/-- One cell for each channel of each pixel of the block (R197, R200). -/
theorem State.mem_blockCells (hcfg : s.cfg.Standard) {b : Nat} {a : Nat × Byte} :
    a ∈ s.blockCells b ↔ ∃ r < 8, ∃ c < 8, ∃ j < 3,
      a = (4 * s.samplePixel b r c + j, s.newByte b (8 * r + c) j) := by
  simp only [State.blockCells, State.blockSamples_of_standard hcfg, List.mem_flatMap,
    List.mem_range, State.mem_blkputCells]
  constructor
  · rintro ⟨k, hk, j, hj, rfl⟩
    refine ⟨k / 8, by omega, k % 8, by omega, j, hj, ?_⟩
    rw [← State.samplePixelNumber_of_standard hcfg b _ (by omega), Nat.div_add_mod]
  · rintro ⟨r, hr, c, hc, j, hj, rfl⟩
    refine ⟨8 * r + c, by omega, j, hj, ?_⟩
    rw [State.samplePixelNumber_of_standard hcfg b r hc]

/-- The state that `BLKPUT` gives. -/
def State.blockPut (s : State) (b : Nat) : State := s.writePix (s.blockCells b)

theorem exec_blkput_of_fault (hs : s.fault = false) {k : FaultKind} {v : Nat}
    (h : s.blockFault (s.natX rs1) = some (k, v)) :
    exec (.blkput rs1) s = .next (s.faulted k.code v) := by
  simp only [exec, execBlkput, h]
  exact State.perform_error hs k v

theorem exec_blkput_of_none (h : s.blockFault (s.natX rs1) = none) :
    exec (.blkput rs1) s = s.perform (.ok (s.blockPut (s.natX rs1))) := by
  simp only [exec, execBlkput, h]
  rfl

/-- The channels of the pixels of a block lie at distinct addresses, so each has the byte written for
it. -/
theorem State.pixAt_blockPut (hcfg : s.cfg.Standard) {b r c j : Nat} (hb : 0 < s.imgW.toNat / 8)
    (hr : r < 8) (hc : c < 8) (hj : j < 3) :
    (s.blockPut b).pixAt (4 * s.samplePixel b r c + j) = s.newByte b (8 * r + c) j := by
  have hcell : Mem.get? (s.blockCells b) (4 * s.samplePixel b r c + j) =
      some (s.newByte b (8 * r + c) j) := by
    refine Mem.get?_eq_some_of_unique ((State.mem_blockCells hcfg).2 ⟨r, hr, c, hc, j, hj, rfl⟩)
      fun a ha haddr => ?_
    obtain ⟨r', hr', c', hc', j', hj', rfl⟩ := (State.mem_blockCells hcfg).1 ha
    dsimp only at haddr
    obtain ⟨rfl, rfl⟩ := State.samplePixel_inj (s := s) (b := b) (r := r') (r' := r) hb hc' hc
      (by omega)
    obtain rfl : j' = j := by omega
    rfl
  rw [State.blockPut, State.pixAt_writePix, hcell]
  rfl

theorem State.sameBut_blockPut (hcfg : s.cfg.Standard) (b : Nat) :
    s.SameBut (s.blockPut b) [] [] false false (s.blockBytes b) := by
  refine State.sameBut_of_spaces rfl (fun sp i hsp => s.element_writePix _ hsp i) fun i hi => ?_
  have hnone : Mem.get? (s.blockCells b) i = none := Mem.get?_eq_none fun a ha haddr => by
    obtain ⟨r, hr, c, hc, j, hj, rfl⟩ := (State.mem_blockCells hcfg).1 ha
    exact hi ⟨r, hr, c, hc, j, hj, by rw [State.blockPixel_of_standard hcfg]; exact haddr.symm⟩
  refine congrArg (fun v : Byte => Elem.int v.toNat) ((s.pixAt_writePix _ i).trans ?_)
  rw [hnone]
  rfl

/-- The byte is the one of R200 over the reals. -/
theorem writeBack_eq (old : Byte) (weight : Rat) (delta : Num) :
    writeBack old weight delta = writeBackReal old weight delta.toReal := by
  rw [writeBack, writeBackReal, Num.roundHalfUp_eq, Num.toReal_add, Num.toReal_ofInt,
    Num.toReal_scale, Int.cast_natCast]

theorem State.newByte_eq (hcfg : s.cfg.Standard) (b r : Nat) {c : Nat} (hc : c < 8) (j : Nat) :
    s.newByte b (8 * r + c) j =
      writeBackReal (s.pixAt (4 * s.samplePixel b r c + j)) (channelWeight Config.rplValues j)
        ((s.blkrAt (8 * r + c)).toReal - (s.blksAt (8 * r + c)).toReal) := by
  rw [State.newByte, writeBack_eq, State.samplePixelNumber_of_standard hcfg b r hc, hcfg.1,
    Num.toReal_sub]

/-- Settles O46: every channel byte of the block is R200's, and the two checks fault in order. -/
theorem blkputWritesBytes : Obligations.BlkputWritesBytes := by
  intro s rs1 hs hcfg b w h
  have hfault := State.blockFault_of_standard hcfg b
  refine ⟨fun hfit hb => ?bytes, fun hlarge => ?image, fun hfit hb => ?block⟩
  case bytes =>
    have hcols : 0 < w / 8 := Nat.pos_of_mul_pos_right (lt_of_le_of_lt (Nat.zero_le b) hb)
    rw [if_neg hfit.not_gt, if_neg hb.not_ge] at hfault
    rw [exec_blkput_of_none hfault]
    refine ⟨_, State.perform_running hs _, State.sameBut_blockPut hcfg b, fun r hr c hc => ?_⟩
    have hbyte {j : Nat} (hj : j < 3) :=
      (State.pixAt_blockPut hcfg (b := b) hcols hr hc hj).trans (State.newByte_eq hcfg b r hc j)
    exact ⟨hbyte (j := 0) (by omega), hbyte (j := 1) (by omega), hbyte (j := 2) (by omega)⟩
  case image => exact exec_blkput_of_fault hs (hfault.trans (if_pos hlarge))
  case block =>
    exact exec_blkput_of_fault hs (hfault.trans ((if_neg hfit.not_gt).trans (if_pos hb)))

end Sys2Proof.Machine

/-! The perceptual hash (R230 to R240).  The grid, its transform and their mean are the sums of R231 to
R233 over the reals, so in the exact system the bits compare the reals.  On a uniform image the sum of
the cosines of one frequency is a factor of every coefficient, and it is 0 (R236). -/

namespace Sys2Proof.Machine

variable {s : State}

/-! ### Lists over an index -/

/-- A sum along consecutive indices is the sum over their interval. -/
theorem sum_map_range'_eq_sum_Ico {α : Type} [AddCommMonoid α] (f : Nat → α) (a b : Nat) :
    ((List.range' a (b - a)).map f).sum = ∑ i ∈ Finset.Ico a b, f i := rfl

theorem map_zipIdx_map_range {α β : Type} (f : Nat → α) (g : α × Nat → β) (n : Nat) :
    ((List.range n).map f).zipIdx.map g = (List.range n).map fun i => g (f i, i) := by
  refine List.ext_getElem (by simp) fun i _ _ => ?_
  simp

/-- A sum of `Num`s is the sum of their reals. -/
theorem toReal_numSum (l : List Num) : (numSum l).toReal = (l.map Num.toReal).sum := by
  have hfold (x : Num) : (l.foldl Num.add x).toReal = x.toReal + (l.map Num.toReal).sum := by
    induction l generalizing x with
    | nil => simp
    | cons y l ih => rw [List.foldl_cons, ih, Num.toReal_add, List.map_cons, List.sum_cons, add_assoc]
  rw [numSum, hfold, Num.toReal_ofRat, Rat.cast_zero, zero_add]

theorem toReal_numSum_map_range (f : Nat → Num) (n : Nat) :
    (numSum ((List.range n).map f)).toReal = ∑ i ∈ Finset.range n, (f i).toReal := by
  rw [toReal_numSum, List.map_map]
  rfl

/-! ### The grid of box averages (R231) -/

theorem boxEnd_eq_max (side n i : Nat) :
    boxEnd side n i = max ((i + 1) * n / side) (i * n / side + 1) := by
  rw [boxEnd, boxStart]
  split_ifs <;> omega

/-- The luma of a pixel is R198's combination over the reals. -/
theorem State.cast_lumaAt (hcfg : s.cfg.Standard) (n : Nat) : (s.lumaAt n : ℝ) = s.lumaReal n :=
  (Num.toReal_ofRat _).symm.trans (State.toReal_lumaAt hcfg n)

theorem State.cast_boxMean (hcfg : s.cfg.Standard) (i j : Nat) :
    (s.boxMean i j : ℝ) = s.boxReal i j := by
  have hside : s.cfg.shape.phSide = 32 := congrArg Shape.phSide hcfg.2
  simp only [State.boxMean, hside, boxEnd_eq_max, sum_map_range'_eq_sum_Ico, Rat.cast_div,
    Rat.cast_sum, State.cast_lumaAt hcfg, Rat.cast_natCast]
  rfl

/-! ### The coefficients and their mean (R232 to R234) -/

theorem toReal_hashRow (f : Nat → Rat) (n v : Nat) :
    (hashRow ((List.range n).map f) v).toReal = ∑ j ∈ Finset.range n,
      (f j : ℝ) * (hashWeight v * Real.cos ((2 * j + 1) * v * Real.pi / 64)) := by
  rw [hashRow, map_zipIdx_map_range, toReal_numSum_map_range]
  simp only [Num.toReal_ofCos, CosNum.toReal_scale, toReal_hashBasis]

/-- One coefficient from the transforms of the rows. -/
theorem toReal_hashCoeff (low n : Nat) (row : Nat → List Rat) (u : Nat) {v : Nat} (hv : v < low) :
    (hashCoeff (hashRows low ((List.range n).map row)) u v).toReal = ∑ i ∈ Finset.range n,
      hashWeight u * Real.cos ((2 * i + 1) * u * Real.pi / 64) * (hashRow (row i) v).toReal := by
  rw [hashCoeff, hashRows, List.map_map, map_zipIdx_map_range, toReal_numSum_map_range]
  simp only [Function.comp_apply, Num.toReal_smul, toReal_hashBasis, getD_map_range_num _ hv]

/-- The unit's coefficient is R232's double sum. -/
theorem State.toReal_hashCoeff_boxGrid (hcfg : s.cfg.Standard) (u : Nat) {v : Nat} (hv : v < 8) :
    (hashCoeff (hashRows 8 s.boxGrid) u v).toReal = s.hashReal u v := by
  have hside : s.cfg.shape.phSide = 32 := congrArg Shape.phSide hcfg.2
  rw [State.boxGrid, hside, toReal_hashCoeff 8 32 _ u hv, State.hashReal, Finset.mul_sum]
  refine Finset.sum_congr rfl fun i _ => ?_
  rw [toReal_hashRow, Finset.mul_sum, Finset.mul_sum]
  refine Finset.sum_congr rfl fun j _ => ?_
  rw [State.cast_boxMean hcfg]
  ring

/-- Coefficient number `k` of the image in `PIX`, as the unit computes it. -/
def State.coeffAt (s : State) (k : Nat) : Num :=
  hashCoeff (hashRows 8 s.boxGrid) ((k + 1) / 8) ((k + 1) % 8)

theorem State.hashCoeffs_boxGrid (hcfg : s.cfg.Standard) :
    hashCoeffs s.cfg.shape s.boxGrid = (List.range 63).map s.coeffAt := by
  rw [hcfg.2]
  rfl

theorem State.toReal_coeffAt (hcfg : s.cfg.Standard) (k : Nat) :
    (s.coeffAt k).toReal = s.hashRealAt k :=
  State.toReal_hashCoeff_boxGrid hcfg _ (Nat.mod_lt _ (by decide))

/-- The mean of the 63 coefficients, as the unit computes it. -/
def State.coeffMean (s : State) : Num := hashMean s.cfg.shape ((List.range 63).map s.coeffAt)

theorem State.toReal_coeffMean (hcfg : s.cfg.Standard) : s.coeffMean.toReal = s.hashMeanReal := by
  have hbits : s.cfg.shape.phBits = 63 := congrArg Shape.phBits hcfg.2
  rw [State.coeffMean, hashMean, hbits, Num.toReal_scale, toReal_numSum_map_range, State.hashMeanReal]
  simp only [State.toReal_coeffAt hcfg]
  push_cast
  ring

/-! ### The bits (R233) -/

/-- The exact system takes the rule's value (R12). -/
theorem State.approx_of_exact (hexact : s.cfg.num = .exact) (site : NumSite) (inputs : List Num)
    (k : Nat) (v : Num) : s.approx site inputs k v = v := by
  rw [State.approx, hexact]

theorem State.approxAll_of_exact (hexact : s.cfg.num = .exact) (site : NumSite)
    (inputs l : List Num) : s.approxAll site inputs l = l := by
  simp only [State.approxAll, State.approx_of_exact hexact]
  exact List.zipIdx_map_fst 0 l

theorem State.hashBits_of_exact (hcfg : s.cfg.Standard) (hexact : s.cfg.num = .exact) :
    s.hashBits =
      (List.range 63).map fun k => BitVec.ofBool (Num.lt s.coeffMean (s.coeffAt k)) := by
  simp only [State.hashBits, State.approx_of_exact hexact, State.approxAll_of_exact hexact,
    State.hashCoeffs_boxGrid hcfg, List.map_map]
  rfl

/-! ### `PHASH` (R235) -/

/-- The state that `PHASH` gives. -/
def State.fingerprinted (s : State) : State := s.writePh (Mem.cellsFrom 0 s.hashBits)

theorem exec_phash (s : State) :
    exec .phash s = s.perform
      (if s.imgW.toNat = 0 ∨ s.imgH.toNat = 0 then .error (.operandRange, 0)
      else if s.cfg.pixSize < 4 * s.imgW.toNat * s.imgH.toNat then
        .error (.bufferBounds, 4 * s.imgW.toNat * s.imgH.toNat)
      else .ok s.fingerprinted) := by
  simp only [exec, execPhash, State.imageFits, Bool.not_not, decide_eq_true_eq]
  rfl

theorem State.phAt_fingerprinted (s : State) (i : Nat) :
    s.fingerprinted.phAt i = s.hashBits.getD i (s.phAt i) := by
  rw [State.fingerprinted, State.phAt_writePh, Mem.getD_get?_cellsFrom, if_pos (Nat.zero_le i),
    Nat.sub_zero]

theorem State.sameBut_fingerprinted (hcfg : s.cfg.Standard) :
    s.SameBut s.fingerprinted [] [] false false (cellRange .ph 0 63) := by
  have hlen : s.hashBits.length = 63 := s.length_hashBits.trans (congrArg Shape.phBits hcfg.2)
  refine State.sameBut_of_spaces rfl (fun sp i hsp => s.element_writePh _ hsp i) fun i hi => ?_
  have hout : s.hashBits.length ≤ i := not_lt.1 fun hlt => hi ⟨Nat.zero_le i, hlen ▸ hlt⟩
  exact congrArg (fun b : Bit => Elem.int b.toNat)
    ((s.phAt_fingerprinted i).trans (List.getD_eq_default _ _ hout))

/-- In the exact system a bit says whether its coefficient is above the mean (R233). -/
theorem State.phAt_fingerprinted_of_exact (hcfg : s.cfg.Standard) (hexact : s.cfg.num = .exact)
    {k : Nat} (hk : k < 63) :
    s.fingerprinted.phAt k = BitVec.ofBool (Num.lt s.coeffMean (s.coeffAt k)) := by
  rw [s.phAt_fingerprinted, State.hashBits_of_exact hcfg hexact]
  simp [List.getD_eq_getElem?_getD, hk]

/-- Settles O54: the unit's coefficients and mean are those of R231 to R233 over the reals, and the two
checks fault in order. -/
theorem phashWritesFingerprint : Obligations.PhashWritesFingerprint := by
  intro s hs hcfg w h
  rw [exec_phash]
  refine ⟨fun hw hh hfit => ?bits, fun hempty => State.perform_check_of_fails hs hempty _ _ _,
    fun hw hh hlarge => ?large⟩
  case bits =>
    rw [if_neg (by omega), if_neg hfit.not_gt]
    refine ⟨_, State.perform_running hs _, State.sameBut_fingerprinted hcfg,
      fun hexact k hk => ?_⟩
    rw [State.settle_ok, State.phAt_fingerprinted_of_exact hcfg hexact hk,
      ← State.toReal_coeffMean hcfg, ← State.toReal_coeffAt hcfg]
    refine ⟨fun habove => ?one, fun hbelow => ?zero⟩
    case one => rw [numLt_eq_true habove]; rfl
    case zero => rw [numLt_eq_false hbelow]; rfl
  case large =>
    rw [if_neg (by omega)]
    exact State.perform_check_of_fails hs hlarge _ _ _

/-! ### A uniform image (R236) -/

/-- The cosines of one frequency, other than 0, cancel along the grid. -/
theorem sum_hash_cos_eq_zero {k : Nat} (hpos : 0 < k) (hk : k < 64) :
    ∑ j ∈ Finset.range 32, Real.cos ((2 * j + 1) * k * Real.pi / 64) = 0 := by
  have hsin : 0 < Real.sin (k * Real.pi / 64) := by
    have hpos' : (0 : ℝ) < k := Nat.cast_pos.2 hpos
    have hk' : (k : ℝ) < 64 := by exact_mod_cast hk
    have hpi := Real.pi_pos
    exact Real.sin_pos_of_pos_of_lt_pi (by positivity) (by nlinarith)
  have htelescope := two_sin_mul_sum_cos_odd (k * Real.pi / 64) 32
  have hend : Real.sin (2 * (32 : ℕ) * (k * Real.pi / 64)) = 0 := by
    rw [← Real.sin_nat_mul_pi k]
    congr 1
    push_cast
    ring
  have hangle (j : ℕ) : (2 * j + 1) * (k * Real.pi / 64) = (2 * j + 1) * k * Real.pi / 64 := by ring
  simp only [hend, hangle] at htelescope
  exact (mul_eq_zero.1 htelescope).resolve_left (by positivity)

/-- On a constant grid every sampled coefficient is 0. -/
theorem State.hashReal_of_uniform {c : ℝ} (hbox : ∀ i < 32, ∀ j < 32, s.boxReal i j = c)
    {u v : Nat} (hu : u < 8) (hv : v < 8) (hne : 0 < u ∨ 0 < v) : s.hashReal u v = 0 := by
  have hfactor : ∑ i ∈ Finset.range 32, ∑ j ∈ Finset.range 32,
      s.boxReal i j * Real.cos ((2 * i + 1) * u * Real.pi / 64) *
        Real.cos ((2 * j + 1) * v * Real.pi / 64) =
      c * ((∑ i ∈ Finset.range 32, Real.cos ((2 * i + 1) * u * Real.pi / 64)) *
        ∑ j ∈ Finset.range 32, Real.cos ((2 * j + 1) * v * Real.pi / 64)) := by
    rw [Finset.sum_mul_sum, Finset.mul_sum]
    refine Finset.sum_congr rfl fun i hi => ?_
    rw [Finset.mul_sum]
    refine Finset.sum_congr rfl fun j hj => ?_
    rw [hbox i (Finset.mem_range.1 hi) j (Finset.mem_range.1 hj), mul_assoc]
  rw [State.hashReal, hfactor]
  obtain hu0 | hv0 := hne
  · rw [sum_hash_cos_eq_zero hu0 (by omega), zero_mul, mul_zero, mul_zero]
  · rw [sum_hash_cos_eq_zero hv0 (by omega), mul_zero, mul_zero, mul_zero]

/-- A box of the grid ends inside the image (R231). -/
theorem box_end_le {n i : Nat} (hn : 1 ≤ n) (hi : i < 32) :
    max ((i + 1) * n / 32) (i * n / 32 + 1) ≤ n := by
  have hend : (i + 1) * n ≤ 32 * n := Nat.mul_le_mul_right n hi
  have hstart : i * n + n = (i + 1) * n := (Nat.succ_mul i n).symm
  omega

/-- The mean of one value over a box that is not empty is that value. -/
theorem sum_box_div_card {f : Nat → Nat → ℝ} {c : ℝ} {y0 y1 x0 x1 : Nat} (hy : y0 < y1)
    (hx : x0 < x1) (hf : ∀ y ∈ Finset.Ico y0 y1, ∀ x ∈ Finset.Ico x0 x1, f y x = c) :
    (∑ y ∈ Finset.Ico y0 y1, ∑ x ∈ Finset.Ico x0 x1, f y x) /
      (((y1 - y0) * (x1 - x0) : Nat) : ℝ) = c := by
  have hcard : 0 < (y1 - y0) * (x1 - x0) := Nat.mul_pos (by omega) (by omega)
  rw [div_eq_iff (Nat.cast_ne_zero.2 hcard.ne'),
    Finset.sum_congr rfl fun y hy => Finset.sum_congr rfl (hf y hy)]
  simp only [Finset.sum_const, Nat.card_Ico, nsmul_eq_mul]
  push_cast
  ring

/-- Pixels are numbered row by row (R43). -/
theorem pixel_lt_pixels {w h y x : Nat} (hy : y < h) (hx : x < w) : y * w + x < w * h := by
  calc y * w + x < (y + 1) * w := by rw [Nat.succ_mul]; omega
    _ ≤ h * w := Nat.mul_le_mul_right _ hy
    _ = w * h := Nat.mul_comm _ _

/-- The boxes of pixels of one luma have that luma. -/
theorem State.boxReal_of_uniform {c : ℝ} (hw : 1 ≤ s.imgW.toNat) (hh : 1 ≤ s.imgH.toNat)
    (hluma : ∀ n < s.imgW.toNat * s.imgH.toNat, s.lumaReal n = c) {i j : Nat} (hi : i < 32)
    (hj : j < 32) : s.boxReal i j = c := by
  refine sum_box_div_card (lt_max_of_lt_right (Nat.lt_succ_self _))
    (lt_max_of_lt_right (Nat.lt_succ_self _)) fun y hy x hx => hluma _ (pixel_lt_pixels ?row ?col)
  case row => exact (Finset.mem_Ico.1 hy).2.trans_le (box_end_le hh hi)
  case col => exact (Finset.mem_Ico.1 hx).2.trans_le (box_end_le hw hj)

/-- Settles O55: every coefficient and so their mean is 0, and a bit needs a coefficient above the
mean. -/
theorem uniformImageHash : Obligations.UniformImageHash := by
  intro s r g b hs hcfg hexact hw hh hfit hcolour
  obtain ⟨hphash, -⟩ := phashWritesFingerprint s hs hcfg
  obtain ⟨t, ht, -, hbits⟩ := hphash hw hh hfit
  have hluma : ∀ n < s.imgW.toNat * s.imgH.toNat,
      s.lumaReal n = 0.299 * r.toNat + 0.587 * g.toNat + 0.114 * b.toNat := fun n hn => by
    obtain ⟨hr, hg, hb⟩ := hcolour n hn
    rw [State.lumaReal, hr, hg, hb]
  have hzero : ∀ k < 63, s.hashRealAt k = 0 := fun k hk =>
    State.hashReal_of_uniform (fun i hi j hj => State.boxReal_of_uniform hw hh hluma hi hj)
      (by omega) (by omega) (by omega)
  have hmean : s.hashMeanReal = 0 := by
    rw [State.hashMeanReal, Finset.sum_eq_zero fun k hk => hzero k (Finset.mem_range.1 hk), zero_div]
  exact ⟨t, ht, fun k hk => (hbits hexact k hk).2 (by rw [hzero k hk, hmean])⟩

/-! ### `PHCMP` and `PHVER` (R239, R240) -/

/-- The unit's count is the count of R239. -/
theorem State.hashMatches_eq_card (hcfg : s.cfg.Standard) :
    s.hashMatches = ((Finset.range 63).filter fun k => s.phAt k = s.phrefAt k).card := by
  rw [State.hashMatches, hcfg.2, List.countP_eq_length_filter]
  rfl

theorem State.hashMatches_le (s : State) : s.hashMatches ≤ s.cfg.shape.phBits :=
  List.countP_le_length.trans_eq List.length_range

theorem exec_phcmp (rd : RegNum) (s : State) :
    exec (.phcmp rd) s = s.perform (.ok (s.putX rd s.hashMatches)) := rfl

theorem exec_phver (rd rs1 rs2 : RegNum) (hcfg : s.cfg.Standard) :
    exec (.phver rd rs1 rs2) s = s.perform
      (if s.natX rs2 = 0 then .error (.operandRange, 0)
      else .ok (s.setX rd (boolWord
        (decide (s.natX rs1 * 63 ≤ s.hashMatches * s.natX rs2))))) := by
  simp only [exec, execPhver, hcfg.2]
  rfl

/-- Settles O56: the count fits the register, and the fractions are compared over the integers. -/
theorem phcmpPhverCompare : Obligations.PhcmpPhverCompare := by
  intro s rd rs1 rs2 hs hcfg cnt num den
  have hcnt : s.hashMatches = cnt := State.hashMatches_eq_card hcfg
  rw [exec_phcmp, exec_phver rd rs1 rs2 hcfg]
  refine ⟨⟨_, State.perform_running hs _, ?count, s.sameBut_setX rd _⟩, fun hden => ?verdict,
    fun hden => State.perform_check_of_fails hs hden _ _ _⟩
  case count =>
    have hbits : s.cfg.shape.phBits = 63 := congrArg Shape.phBits hcfg.2
    have hsmall := s.hashMatches_le
    rw [State.settle_ok, State.toNat_getX_putX, Nat.mod_eq_of_lt (by omega), hcnt]
  case verdict =>
    rw [if_neg hden]
    refine ⟨_, State.perform_running hs _, ?_, s.sameBut_setX rd _⟩
    rw [State.settle_ok, State.getX_setX_same, hcnt, boolWord]
    exact if_congr decide_eq_true_iff rfl rfl

end Sys2Proof.Machine

/-! The LSB codec (R246 to R253).  The stream is one bit for each number below its length, and the bytes
that carry them are distinct; so what `LSBENC` leaves reads back bit by bit, and `LSBDEC` puts the bits
of the magic, of the length and of each unit together to the numbers they came from (R252). -/

namespace Sys2Proof.Machine

/-! ### Bits, most significant first (R64) -/

theorem ofBitsMsb_append_singleton (l : List Bit) (b : Bit) :
    ofBitsMsb (l ++ [b]) = 2 * ofBitsMsb l + b.toNat := by
  simp [ofBitsMsb]

theorem ofBitsMsb_lt (l : List Bit) : ofBitsMsb l < 2 ^ l.length := by
  induction l using List.reverseRecOn with
  | nil => simp [ofBitsMsb]
  | append_singleton l b ih =>
    have hb := b.isLt
    rw [ofBitsMsb_append_singleton, List.length_append, List.length_singleton, pow_succ]
    omega

theorem ofBitsMsb_map_range (f : Nat → Bit) (w : Nat) :
    ofBitsMsb ((List.range w).map f) = ∑ k ∈ Finset.range w, (f k).toNat * 2 ^ (w - 1 - k) := by
  induction w with
  | zero => rfl
  | succ w ih =>
    have hdouble : ∀ k ∈ Finset.range w,
        (f k).toNat * 2 ^ (w - k) = 2 * ((f k).toNat * 2 ^ (w - 1 - k)) := fun k hk => by
      have hk : k < w := Finset.mem_range.1 hk
      rw [show w - k = w - 1 - k + 1 by omega, pow_succ]
      ring
    rw [List.range_succ, List.map_append, List.map_singleton, ofBitsMsb_append_singleton, ih,
      Finset.sum_range_succ, Nat.add_sub_cancel, Finset.sum_congr rfl hdouble, ← Finset.mul_sum,
      Nat.sub_self, pow_zero, mul_one]

theorem bitsMsb_succ (w v : Nat) :
    bitsMsb (w + 1) v = bitsMsb w (v / 2) ++ [BitVec.ofBool (v.testBit 0)] := by
  rw [bitsMsb, bitsMsb, List.range_succ, List.map_append, List.map_singleton, Nat.add_sub_cancel,
    Nat.sub_self]
  congr 1
  refine List.map_congr_left fun t ht => ?_
  have ht : t < w := List.mem_range.1 ht
  rw [show w - t = w - 1 - t + 1 by omega, Nat.testBit_succ]

/-- The bits of a number that fits are put together to it again. -/
theorem ofBitsMsb_bitsMsb {w v : Nat} (hv : v < 2 ^ w) : ofBitsMsb (bitsMsb w v) = v := by
  induction w generalizing v with
  | zero => exact (Nat.lt_one_iff.1 hv).symm
  | succ w ih =>
    rw [bitsMsb_succ, ofBitsMsb_append_singleton, ih (by omega), BitVec.toNat_ofBool,
      Nat.toNat_testBit, pow_zero, Nat.div_one, Nat.div_add_mod]

/-! ### The stream (R246, R247) -/

/-- Equal pieces one after another are one run over a single index. -/
theorem flatMap_range_map_range {α : Type} (g : Nat → Nat → α) {k : Nat} (hk : 0 < k) (n : Nat) :
    ((List.range n).flatMap fun i => (List.range k).map (g i)) =
      (List.range (k * n)).map fun t => g (t / k) (t % k) := by
  induction n with
  | zero => rfl
  | succ n ih =>
    rw [List.range_succ, List.flatMap_append, ih, List.flatMap_singleton, Nat.mul_succ,
      List.range_add, List.map_append, List.map_map]
    congr 1
    refine List.map_congr_left fun j hj => ?_
    have hj : j < k := List.mem_range.1 hj
    rw [Function.comp_apply, Nat.mul_add_div hk, Nat.div_eq_of_lt hj, Nat.mul_add_mod,
      Nat.mod_eq_of_lt hj, Nat.add_zero]

variable {s t : State} {rd rs1 : RegNum}

theorem State.lsbStream_msgList (s : State) (n : Nat) :
    lsbStream s.cfg.lsbMagic (s.msgList n) =
      (List.range (lsbBits n)).map fun t => BitVec.ofBool (s.streamBit n t) := by
  have hlen : (s.msgList n).length = n := by simp [State.msgList]
  have hunits : ((s.msgList n).flatMap fun u => bitsMsb 16 u.toNat) =
      (List.range (16 * n)).map fun t =>
        BitVec.ofBool ((s.msgAt (t / 16)).toNat.testBit (16 - 1 - t % 16)) := by
    rw [State.msgList, List.flatMap_map]
    exact flatMap_range_map_range
      (fun i j => BitVec.ofBool ((s.msgAt i).toNat.testBit (16 - 1 - j))) (by omega) n
  rw [lsbStream, hlen, hunits, lsbBits, show 48 = 16 + 32 from rfl, List.range_add, List.range_add,
    List.map_append, List.map_append, List.map_map, List.map_map, bitsMsb, bitsMsb]
  refine congrArg₂ (· ++ ·) (congrArg₂ (· ++ ·) ?magicBits ?lengthBits) ?unitBits
  case magicBits =>
    refine List.map_congr_left fun k hk => ?_
    rw [State.streamBit, if_pos (List.mem_range.1 hk)]
    rfl
  case lengthBits =>
    refine List.map_congr_left fun k hk => ?_
    have hk : k < 32 := List.mem_range.1 hk
    rw [Function.comp_apply, State.streamBit, if_neg (by omega), if_pos (by omega),
      Nat.add_sub_cancel_left]
  case unitBits =>
    refine List.map_congr_left fun k _ => ?_
    rw [Function.comp_apply, State.streamBit, if_neg (by omega), if_neg (by omega),
      Nat.add_sub_cancel_left]
    rfl

/-- Each stream bit has a byte of its own (R247). -/
theorem lsbPos_inj {t t' : Nat} (h : lsbPos t = lsbPos t') : t = t' := by
  simp only [lsbPos] at h
  omega

theorem lsbPut_ofBool (y : Byte) (b : Bool) :
    lsbPut y (BitVec.ofBool b) = (y &&& 0xFE#8) ||| (if b then 1#8 else 0#8) := by
  cases b <;> rfl

theorem setWidth_lsbPut (y : Byte) (b : Bit) : (lsbPut y b).setWidth 1 = b := by
  refine BitVec.eq_of_getLsbD_eq fun i hi => ?_
  obtain rfl : i = 0 := by omega
  simp [lsbPut]

/-! ### `LSBENC` (R249) -/

/-- The cells that `LSBENC` writes for `n` units. -/
def State.streamCells (s : State) (n : Nat) : List (Nat × Byte) :=
  (List.range (lsbBits n)).map fun t =>
    (lsbPos t, lsbPut (s.pixAt (lsbPos t)) (BitVec.ofBool (s.streamBit n t)))

theorem State.mem_streamCells {n : Nat} {a : Nat × Byte} :
    a ∈ s.streamCells n ↔ ∃ t < lsbBits n,
      a = (lsbPos t, lsbPut (s.pixAt (lsbPos t)) (BitVec.ofBool (s.streamBit n t))) := by
  simp only [State.streamCells, List.mem_map, List.mem_range, eq_comm]

/-- The state that `LSBENC` gives for `n` units. -/
def State.lsbEncoded (s : State) (n : Nat) : State := s.writePix (s.streamCells n)

theorem exec_lsbenc (rs1 : RegNum) (s : State) :
    exec (.lsbenc rs1) s = s.perform
      (if s.cfg.pixSize < 4 * s.imgW.toNat * s.imgH.toNat then
        .error (.bufferBounds, 4 * s.imgW.toNat * s.imgH.toNat)
      else if s.cfg.msgSize < s.natX rs1 then .error (.bufferBounds, s.natX rs1)
      else if s.imgW.toNat * s.imgH.toNat < (lsbBits (s.natX rs1) + 2) / 3 then
        .error (.capacity, s.natX rs1)
      else .ok (s.lsbEncoded (s.natX rs1))) := by
  simp only [exec, execLsbenc, State.imageFits, Bool.not_not, decide_eq_true_eq,
    State.lsbStream_msgList, map_zipIdx_map_range]
  rfl

/-- The pixels that the stream of `n` units takes, three bits to a pixel (R249). -/
theorem ceil_stream_thirds (n : Nat) :
    Nat.ceil (((48 + 16 * n : Nat) : ℚ) / 3) = (lsbBits n + 2) / 3 := by
  refine eq_of_forall_ge_iff fun k => ?_
  rw [Nat.ceil_le, div_le_iff₀ (by norm_num), lsbBits]
  norm_cast
  omega

theorem State.pixAt_lsbEncoded (s : State) {n k : Nat} (hk : k < lsbBits n) :
    (s.lsbEncoded n).pixAt (lsbPos k) =
      lsbPut (s.pixAt (lsbPos k)) (BitVec.ofBool (s.streamBit n k)) := by
  have hcell : Mem.get? (s.streamCells n) (lsbPos k) =
      some (lsbPut (s.pixAt (lsbPos k)) (BitVec.ofBool (s.streamBit n k))) := by
    refine Mem.get?_eq_some_of_unique (State.mem_streamCells.2 ⟨k, hk, rfl⟩) fun a ha haddr => ?_
    obtain ⟨k', -, rfl⟩ := State.mem_streamCells.1 ha
    rw [lsbPos_inj haddr]
  rw [State.lsbEncoded, State.pixAt_writePix, hcell]
  rfl

theorem State.sameBut_lsbEncoded (s : State) (n : Nat) :
    s.SameBut (s.lsbEncoded n) [] [] false false (streamBytes n) := by
  refine State.sameBut_of_spaces rfl (fun sp i hsp => s.element_writePix _ hsp i) fun i hi => ?_
  have hnone : Mem.get? (s.streamCells n) i = none := Mem.get?_eq_none fun a ha haddr => by
    obtain ⟨k, hk, rfl⟩ := State.mem_streamCells.1 ha
    exact hi ⟨k, hk, haddr.symm⟩
  refine congrArg (fun v : Byte => Elem.int v.toNat) ((s.pixAt_writePix _ i).trans ?_)
  rw [hnone]
  rfl

/-- Settles O57: the unit's stream is the one of R246, each bit goes to a byte of its own, and the three
checks fault in order. -/
theorem lsbencWritesStream : Obligations.LsbencWritesStream := by
  intro s rs1 hs n w h
  rw [exec_lsbenc, ceil_stream_thirds]
  refine ⟨fun hfit hmsg hroom => ?stream, fun hlarge => ?image, fun hfit hmsg => ?message,
    fun hfit hmsg hroom => ?capacity⟩
  case stream =>
    rw [if_neg hfit.not_gt, if_neg hmsg.not_gt, if_neg hroom.not_gt]
    exact ⟨_, State.perform_running hs _,
      fun k hk => (s.pixAt_lsbEncoded hk).trans (lsbPut_ofBool _ _), s.sameBut_lsbEncoded n⟩
  case image => exact State.perform_check_of_fails hs hlarge _ _ _
  case message =>
    rw [if_neg hfit.not_gt]
    exact State.perform_check_of_fails hs hmsg _ _ _
  case capacity =>
    rw [if_neg hfit.not_gt, if_neg hmsg.not_gt]
    exact State.perform_check_of_fails hs hroom _ _ _

/-! ### The fields of the stream in an image (R250, R251) -/

theorem State.toNat_lsbAt (s : State) (k : Nat) :
    (s.lsbAt k).toNat = (s.pixAt (lsbPos k)).toNat % 2 := by
  rw [State.lsbAt, BitVec.toNat_setWidth, pow_one]

theorem State.lsbField_eq_hiddenField (s : State) (k w : Nat) :
    s.lsbField k w = s.hiddenField k w := by
  simp only [State.lsbField, ofBitsMsb_map_range, State.toNat_lsbAt, State.hiddenField]

theorem State.lsbField_lt (s : State) (k w : Nat) : s.lsbField k w < 2 ^ w :=
  (ofBitsMsb_lt _).trans_eq (by rw [List.length_map, List.length_range])

theorem State.lsbLength_eq_hiddenLength (hcfg : s.cfg.Standard) : s.lsbLength = s.hiddenLength := by
  simp only [State.lsbLength, State.hiddenLength, State.lsbField_eq_hiddenField, hcfg.1]
  rfl

/-! ### `LSBDEC` (R251) -/

/-- The units that `LSBDEC` reads. -/
def State.hiddenUnits (s : State) : List Half :=
  (List.range s.lsbLength).map fun i => BitVec.ofNat 16 (s.lsbField (48 + 16 * i) 16)

/-- The state that `LSBDEC` gives. -/
def State.lsbDecoded (s : State) (rd : RegNum) : State :=
  (s.writeMsg (Mem.cellsFrom 0 s.hiddenUnits)).putX rd s.lsbLength

theorem exec_lsbdec (rd : RegNum) (s : State) :
    exec (.lsbdec rd) s = s.perform
      (if s.cfg.pixSize < 4 * s.imgW.toNat * s.imgH.toNat then
        .error (.bufferBounds, 4 * s.imgW.toNat * s.imgH.toNat)
      else .ok (s.lsbDecoded rd)) := by
  simp only [exec, execLsbdec, State.imageFits, Bool.not_not, decide_eq_true_eq]
  rfl

/-- The length fits the register: it is read from 32 bits. -/
theorem State.lsbLength_lt (s : State) : s.lsbLength < 2 ^ 32 := by
  have hfield := s.lsbField_lt 16 32
  simp only [State.lsbLength]
  split_ifs <;> omega

theorem State.toNat_getX_lsbDecoded (s : State) (rd : RegNum) :
    ((s.lsbDecoded rd).getX rd).toNat = s.lsbLength := by
  rw [State.lsbDecoded, State.toNat_getX_putX, Nat.mod_eq_of_lt s.lsbLength_lt]

theorem State.msgAt_lsbDecoded (s : State) (rd : RegNum) (i : Nat) :
    (s.lsbDecoded rd).msgAt i =
      if i < s.lsbLength then BitVec.ofNat 16 (s.lsbField (48 + 16 * i) 16) else s.msgAt i := by
  refine (s.msgAt_writeMsg _ i).trans ?_
  rw [Mem.getD_get?_cellsFrom, if_pos (Nat.zero_le i), Nat.sub_zero, State.hiddenUnits]
  split_ifs with hi <;> simp [List.getD_eq_getElem?_getD, hi]

theorem State.sameBut_lsbDecoded (s : State) (rd : RegNum) :
    s.SameBut (s.lsbDecoded rd) [rd] [] false false (cellRange .msg 0 s.lsbLength) := by
  refine State.SameBut.setX (State.sameBut_of_spaces rfl
    (fun _ i hsp => s.element_writeMsg _ hsp i) fun i hi => ?_) rd _
  have hout : ¬ i < s.lsbLength := fun hlt => hi ⟨Nat.zero_le i, hlt⟩
  exact congrArg (fun u : Half => Elem.int u.toNat)
    ((s.msgAt_lsbDecoded rd i).trans (if_neg hout))

/-- Settles O58: the length and the units are the fields of R250 and R251, and an image too large
faults. -/
theorem lsbdecFindsMessage : Obligations.LsbdecFindsMessage := by
  intro s rd hs hcfg w h
  rw [exec_lsbdec, ← State.lsbLength_eq_hiddenLength hcfg]
  refine ⟨fun hfit => ?message, fun hlarge => State.perform_check_of_fails hs hlarge _ _ _⟩
  case message =>
    rw [if_neg hfit.not_gt]
    refine ⟨_, State.perform_running hs _, s.toNat_getX_lsbDecoded rd, fun i hi => ?_,
      s.sameBut_lsbDecoded rd⟩
    rw [State.settle_ok, s.msgAt_lsbDecoded, if_pos hi, BitVec.toNat_ofNat,
      Nat.mod_eq_of_lt (s.lsbField_lt _ 16), s.lsbField_eq_hiddenField]

/-! ### `LSBHAS` (R253) -/

/-- What `LSBHAS` answers: whether there is room for the magic and it is there. -/
def State.magicAnswer (s : State) : Word :=
  if 16 ≤ 3 * (s.imgW.toNat * s.imgH.toNat) ∧ s.hiddenField 0 16 = s.cfg.lsbMagic.toNat then 1#32
  else 0#32

theorem exec_lsbhas (rd : RegNum) (s : State) :
    exec (.lsbhas rd) s = s.perform
      (if s.cfg.pixSize < 4 * s.imgW.toNat * s.imgH.toNat then
        .error (.bufferBounds, 4 * s.imgW.toNat * s.imgH.toNat)
      else .ok (s.setX rd s.magicAnswer)) := by
  have hanswer : (if 3 * s.pixels < 16 then .ok (s.setX rd 0#32)
      else .ok (s.setX rd (boolWord (decide (s.lsbField 0 16 = s.cfg.lsbMagic.toNat)))) : Cmd) =
        .ok (s.setX rd s.magicAnswer) := by
    rw [State.magicAnswer, ← s.lsbField_eq_hiddenField]
    by_cases hroom : 3 * s.pixels < 16
    · rw [if_pos hroom, if_neg fun h => hroom.not_ge h.1]
    · rw [if_neg hroom, boolWord]
      exact congrArg (fun v => Except.ok (s.setX rd v))
        (if_congr (decide_eq_true_iff.trans (and_iff_right (not_lt.1 hroom)).symm) rfl rfl)
  simp only [exec, execLsbhas, State.imageFits, Bool.not_not, decide_eq_true_eq, hanswer]
  rfl

/-- Settles O59: the answer compares the first 16 stream bits with the magic where there is room for
them, and an image too large faults. -/
theorem lsbhasTestsMagic : Obligations.LsbhasTestsMagic := by
  intro s rd hs w h
  rw [exec_lsbhas]
  refine ⟨fun hfit => ?answer, fun hlarge => State.perform_check_of_fails hs hlarge _ _ _⟩
  case answer =>
    rw [if_neg hfit.not_gt]
    exact ⟨_, State.perform_running hs _, s.sameBut_setX rd _, State.getX_setX_same s rd _⟩

/-! ### What `LSBDEC` and `LSBHAS` find of `LSBENC` (R252) -/

/-- A `LSBENC` that does not fault passed the three checks. -/
theorem eq_lsbEncoded_of_exec (h : exec (.lsbenc rs1) s = .next t) (ht : t.fault = false) :
    t = s.lsbEncoded (s.natX rs1) ∧ 4 * s.imgW.toNat * s.imgH.toNat ≤ s.cfg.pixSize ∧
      lsbBits (s.natX rs1) ≤ 3 * (s.imgW.toNat * s.imgH.toNat) := by
  rw [exec_lsbenc] at h
  have hok := State.eq_ok_of_perform h ht
  split_ifs at hok with hfit hmsg hroom
  exact ⟨(Except.ok.inj hok).symm, not_lt.1 hfit, by omega⟩

theorem State.lsbAt_lsbEncoded (s : State) {n k : Nat} (hk : k < lsbBits n) :
    (s.lsbEncoded n).lsbAt k = BitVec.ofBool (s.streamBit n k) := by
  rw [State.lsbAt, s.pixAt_lsbEncoded hk, setWidth_lsbPut]

/-- A field of the encoded stream that holds the bits of a number reads as it. -/
theorem State.lsbField_lsbEncoded (s : State) {n k w v : Nat} (hv : v < 2 ^ w)
    (hin : k + w ≤ lsbBits n) (hbits : ∀ j < w, s.streamBit n (k + j) = v.testBit (w - 1 - j)) :
    (s.lsbEncoded n).lsbField k w = v := by
  have hlist : ((List.range w).map fun j => (s.lsbEncoded n).lsbAt (k + j)) = bitsMsb w v :=
    List.map_congr_left fun j hj => by
      have hj : j < w := List.mem_range.1 hj
      rw [s.lsbAt_lsbEncoded (by omega), hbits j hj]
  rw [State.lsbField, hlist, ofBitsMsb_bitsMsb hv]

theorem State.lsbField_magic_lsbEncoded (s : State) (n : Nat) :
    (s.lsbEncoded n).lsbField 0 16 = s.cfg.lsbMagic.toNat := by
  refine s.lsbField_lsbEncoded (BitVec.isLt _) (by rw [lsbBits]; omega) fun j hj => ?_
  rw [Nat.zero_add, State.streamBit, if_pos hj]
  rfl

theorem State.lsbField_length_lsbEncoded (s : State) {n : Nat} (hn : n < 2 ^ 32) :
    (s.lsbEncoded n).lsbField 16 32 = n := by
  refine s.lsbField_lsbEncoded hn (by rw [lsbBits]; omega) fun j hj => ?_
  rw [State.streamBit, if_neg (by omega), if_pos (by omega), Nat.add_sub_cancel_left]

theorem State.lsbField_unit_lsbEncoded (s : State) {n i : Nat} (hi : i < n) :
    (s.lsbEncoded n).lsbField (48 + 16 * i) 16 = (s.msgAt i).toNat := by
  refine s.lsbField_lsbEncoded (BitVec.isLt _) (by rw [lsbBits]; omega) fun j hj => ?_
  rw [State.streamBit, if_neg (by omega), if_neg (by omega),
    show (48 + 16 * i + j - 48) / 16 = i by omega, show (48 + 16 * i + j - 48) % 16 = j by omega]
  rfl

/-- In an image with room for the stream, the length is found where `LSBDEC` accepts it (R251, R252). -/
theorem State.lsbLength_lsbEncoded (hcfg : s.cfg.Standard) {n : Nat} (hn : n < 2 ^ 32)
    (hroom : lsbBits n ≤ 3 * (s.imgW.toNat * s.imgH.toNat)) :
    (s.lsbEncoded n).lsbLength = if n = 0 ∨ 100000 < n then 0 else n := by
  have hpixels : (s.lsbEncoded n).pixels = s.imgW.toNat * s.imgH.toNat := rfl
  have hmax : (s.lsbEncoded n).cfg.rpl.lsbLenMax = 100000 := congrArg RplValues.lsbLenMax hcfg.1
  have hheader : ¬ 3 * (s.imgW.toNat * s.imgH.toNat) < 48 := by
    rw [lsbBits] at hroom
    omega
  have hmagic : (s.lsbEncoded n).lsbField 0 16 = (s.lsbEncoded n).cfg.lsbMagic.toNat :=
    s.lsbField_magic_lsbEncoded n
  rw [State.lsbLength, hpixels, if_neg hheader, if_neg (not_not.2 hmagic)]
  simp only [s.lsbField_length_lsbEncoded hn, hmax, if_neg hroom.not_gt, gt_iff_lt]

theorem State.magicAnswer_lsbEncoded {n : Nat}
    (hroom : lsbBits n ≤ 3 * (s.imgW.toNat * s.imgH.toNat)) :
    (s.lsbEncoded n).magicAnswer = 1#32 := by
  rw [lsbBits] at hroom
  refine if_pos ⟨show 16 ≤ 3 * (s.imgW.toNat * s.imgH.toNat) by omega, ?_⟩
  rw [← State.lsbField_eq_hiddenField]
  exact s.lsbField_magic_lsbEncoded n

/-- Settles O60: each field of the encoded stream reads back as what was hidden, and the length decides
whether `LSBDEC` accepts it. -/
theorem lsbRoundTrip : Obligations.LsbRoundTrip := by
  intro s t rs1 rd hs hcfg hexec ht
  obtain ⟨rfl, hfit, hroom⟩ := eq_lsbEncoded_of_exec hexec ht
  have hword : s.natX rs1 < 2 ^ 32 := (s.getX rs1).isLt
  have hlen := State.lsbLength_lsbEncoded hcfg hword hroom
  have hfit' : ¬ (s.lsbEncoded (s.natX rs1)).cfg.pixSize <
      4 * (s.lsbEncoded (s.natX rs1)).imgW.toNat * (s.lsbEncoded (s.natX rs1)).imgH.toNat :=
    hfit.not_gt
  rw [exec_lsbdec, exec_lsbhas, if_neg hfit', if_neg hfit']
  refine ⟨_, _, State.perform_running ht _, State.perform_running ht _, ?magic,
    fun hpos hle => ?found, fun hnull => ?null⟩
  case magic => exact (State.getX_setX_same _ rd _).trans (State.magicAnswer_lsbEncoded hroom)
  case found =>
    have hlen : (s.lsbEncoded (s.natX rs1)).lsbLength = s.natX rs1 :=
      hlen.trans (if_neg (by omega))
    refine ⟨(State.toNat_getX_lsbDecoded _ rd).trans hlen, fun i hi => ?_⟩
    rw [State.settle_ok, State.msgAt_lsbDecoded, hlen, if_pos hi, s.lsbField_unit_lsbEncoded hi,
      BitVec.ofNat_toNat, BitVec.setWidth_eq]
  case null =>
    exact BitVec.eq_of_toNat_eq
      ((State.toNat_getX_lsbDecoded _ rd).trans (hlen.trans (if_pos hnull)))

end Sys2Proof.Machine

/-! The system and data-movement commands and the front end's faults (R265 to R272, R310 to R316).  Each
command is rewritten, case by case of its rule, to `State.perform` of the state it gives or of the fault
it raises; performing the one writes what the rule says, and performing the other takes the fault. -/

namespace Sys2Proof.Machine

/-! ### Faults are precise, and nothing else stops a step (R312, R313, R314) -/

section Faults

variable {s t : State}

/-- No command stops the machine or is refused (R343). -/
theorem exec_total (i : Instr) (s : State) : ∃ t, exec i s = .next t := by
  cases i <;> exact ⟨_, rfl⟩

/-- No effect but taking a fault sets `FAULT`. -/
theorem State.Effect.eq_raise {i : Instr} (he : s.Effect i t) (hs : s.fault = false)
    (ht : t.fault = true) : ∃ k v, t = s.raise k v := by
  have habsurd (hsame : t.fault = s.fault) : ∃ k v, t = s.raise k v :=
    absurd (hsame.symm.trans ht) (by simp [hs])
  cases he with
  | raise _ k v => exact ⟨k, v, rfl⟩
  | acknowledge => cases ht
  | storeInt _ _ v _ hw _ =>
    obtain ⟨_, _, _, _, _, _, heq⟩ := s.storeInt_registers _ _ v
    exact habsurd (by rw [heq])
  | storeNum _ _ v _ hw _ =>
    obtain ⟨_, _, _, _, _, _, heq⟩ := s.storeNum_registers _ _ v
    exact habsurd (by rw [heq])
  | writeCsr _ v =>
    obtain ⟨_, _, _, heq⟩ := s.writeCsr_registers _ v
    exact habsurd (by rw [heq])
  | _ => exact habsurd rfl

theorem State.issue_total (s : State) (w : Word) : ∃ t, s.issue w = .next t := by
  unfold State.issue
  split
  · exact ⟨_, rfl⟩
  · cases decode w with
    | ok i => exact exec_total i s
    | error e => exact ⟨_, rfl⟩

/-- A write that is checked is performed or refused. -/
theorem checked_next_or_refused (ok : Bool) (t : State) :
    (∃ u, (if ok then .next t else .refused .hostWrite : Host.Outcome State Fault Refusal) = .next u) ∨
      (if ok then .next t else .refused .hostWrite : Host.Outcome State Fault Refusal) =
        .refused .hostWrite := by
  cases ok with
  | true => exact .inl ⟨t, rfl⟩
  | false => exact .inr rfl

/-- An action of the host ends in a next state, or is a write that the model refuses (R70). -/
theorem State.act_next_or_refused (s : State) (a : HostAct) :
    (∃ t, s.act a = .next t) ∨ s.act a = .refused .hostWrite := by
  cases a with
  | command w => exact .inl (s.issue_total w)
  | writeSpace sp i e => cases e <;> exact checked_next_or_refused _ _
  | writeReg r v => exact .inl ⟨_, rfl⟩
  | writeCsr c v => exact checked_next_or_refused _ _
  | reset => exact .inl ⟨_, rfl⟩

/-- Settles O11: a command that leaves `FAULT` set has the effect of taking a fault, and of the host's
actions only a write can be refused. -/
theorem commandsEndPrecisely : Obligations.CommandsEndPrecisely := by
  refine ⟨fun i s hs => ?command, fun s => ?step⟩
  case command =>
    obtain ⟨t, ht⟩ := exec_total i s
    refine ⟨t, ht, fun hfault => ?_⟩
    obtain ⟨k, v, rfl⟩ := (exec_effect ht).eq_raise hs hfault
    exact ⟨k.code, BitVec.ofNat 32 v, k.code_range.1, k.code_range.2, rfl⟩
  case step =>
    cases hin : s.input with
    | nil => exact .inl ⟨s, by rw [step, hin]⟩
    | cons a rest =>
      rw [step_of_input hin]
      exact State.act_next_or_refused _ a

/-- A word that the front end discards (R314). -/
theorem State.issue_of_pending {w : Word} (hs : s.fault = true) (hw : w ≠ clrfWord) :
    s.issue w = .next s :=
  if_pos (by simp [hs, hw])

/-- Settles O6: every other word is discarded before decoding, and the word of `CLRF` is performed. -/
theorem pendingFaultDiscards : Obligations.PendingFaultDiscards := by
  intro s w rest hs hin
  refine ⟨fun hw => ?discarded, fun hw => ?performed⟩
  case discarded =>
    rw [step_of_input hin]
    exact State.issue_of_pending hs hw
  case performed =>
    subst hw
    exact stepRunsDecodedCommand s _ rest .clrf hin (.inr rfl) (by decide)

/-- Settles O19: without a pending fault the invariant has `CAUSE` and `FINFO` at 0 already. -/
theorem clrfClearsFault : Obligations.ClrfClearsFault := by
  refine fun s => ⟨rfl, fun hinv hs => ?_⟩
  obtain ⟨hcause, hfinfo⟩ := hinv.quiet hs
  have hsame : s.acknowledge = s := by rw [State.acknowledge, ← hs, ← hcause, ← hfinfo]
  exact congrArg Host.Outcome.next hsame

end Faults

variable {s : State} {rd rs1 rs2 : RegNum} {sel : Sel} {sp : Space} {i : Nat} {word v : Word}

/-! ### `NOP`, `LI` and `LIH` (R265, R266, R267) -/

/-- A command whose rule writes `rd` and nothing else. -/
theorem State.perform_setX (hs : s.fault = false) (rd : RegNum) (v : Word) :
    ∃ t, s.perform (.ok (s.setX rd v)) = .next t ∧ t.getX rd = v ∧
      s.SameBut t [rd] [] false false noCells :=
  ⟨_, State.perform_running hs _, s.getX_setX_same rd v, s.sameBut_setX rd v⟩

theorem toNat_immLow (imm : BitVec 16) : (immLow imm).toNat = imm.toNat :=
  BitVec.toNat_setWidth_of_le (by decide)

theorem toNat_immHigh (imm : BitVec 16) (old : Word) :
    (immHigh imm old).toNat = imm.toNat * 65536 + old.toNat % 65536 := by
  rw [immHigh, toNat_append_eq_add, toNat_extractLsb', pow_zero, Nat.div_one]
  rfl

/-- Settles O15: the two immediates are halves of the register written. -/
theorem nopLiLihEffects : Obligations.NopLiLihEffects := by
  intro s rd imm hs
  refine ⟨State.perform_running hs _, ?li, ?lih⟩
  case li =>
    obtain ⟨t, hnext, hval, hframe⟩ := State.perform_setX hs rd (immLow imm)
    exact ⟨t, hnext, hval ▸ toNat_immLow imm, hframe⟩
  case lih =>
    obtain ⟨t, hnext, hval, hframe⟩ := State.perform_setX hs rd (immHigh imm (s.getX rd))
    exact ⟨t, hnext, hval ▸ toNat_immHigh imm (s.getX rd), hframe⟩

/-! ### What `MemRead` answers (R60, R69) -/

theorem State.memRead_of_inBounds (hsel : spaceOfSel sel = some sp) (hb : s.inBounds sp i = true) :
    s.memRead word sel i = elementWord (s.element sp i) := by
  simp only [State.memRead, hsel, hb, if_true]

/-- There is no `GFLOG` of 0 (R41, R62). -/
theorem State.memRead_gflog_zero (hsel : spaceOfSel sel = some .gflog) (hi : i = 0) :
    s.memRead word sel i = .error (.gfLogOfZero, 0) := by
  subst hi
  have hb : s.inBounds .gflog 0 = false := by simp [State.inBounds, State.live]
  simp [State.memRead, hsel, hb]

theorem State.memRead_of_outOfBounds (hsel : spaceOfSel sel = some sp)
    (hb : s.inBounds sp i = false) (hz : ¬ (sel = 8 ∧ i = 0)) :
    s.memRead word sel i = .error (.bufferBounds, i) := by
  have hgflog : ¬ (sp = .gflog ∧ i = 0) := by
    rintro ⟨rfl, hi⟩
    exact hz ⟨spaceOfSel_eq_some hsel, hi⟩
  simp only [State.memRead, hsel, hb, Bool.false_eq_true, if_false, if_neg hgflog]

theorem elementWord_num_of_range {e : Num}
    (h : -(2 ^ 31) ≤ ⌊e.toReal + 1 / 2⌋ ∧ ⌊e.toReal + 1 / 2⌋ ≤ 2 ^ 31 - 1) :
    elementWord (.num e) = .ok (BitVec.ofInt 32 ⌊e.toReal + 1 / 2⌋) := by
  rw [← Num.roundHalfUp_eq] at h ⊢
  exact if_neg (by omega)

theorem elementWord_num_of_outOfRange {e : Num}
    (h : ⌊e.toReal + 1 / 2⌋ < -(2 ^ 31) ∨ 2 ^ 31 - 1 < ⌊e.toReal + 1 / 2⌋) :
    elementWord (.num e) = .error (.numRange, 0) := by
  rw [← Num.roundHalfUp_eq] at h
  exact if_pos h

/-- The signed range is that of a register (R69). -/
theorem toInt_ofInt_of_range {r : Int} (h : -(2 ^ 31) ≤ r ∧ r ≤ 2 ^ 31 - 1) :
    (BitVec.ofInt 32 r).toInt = r := by
  rw [BitVec.toInt_ofInt]
  exact Int.bmod_eq_of_le (by omega) (by omega)

/-- Every logarithm of the table is an index of the 255 powers, whatever the parameters are (R120). -/
theorem gfLog_gfTable_lt (p : Params) {v : Byte} (hv : v ≠ 0#8) : gfLog (gfTable p) v < 255 := by
  rw [gfLog_gfTable p hv]
  by_cases hmem : v ∈ gfPowers p
  · obtain ⟨k, hk, hget⟩ := lastIndex_of_mem hmem 0 0
    have hlt : k < 255 := by simpa [gfPowers] using (List.getElem?_eq_some_iff.1 hget).1
    omega
  · rw [lastIndex_of_notMem hmem]
    decide

/-- Every integer element fits a register (R40). -/
theorem State.element_int_lt {n : Nat} (hb : s.inBounds sp i = true) (hn : s.element sp i = .int n) :
    n < 2 ^ 32 := by
  cases sp <;> cases hn
  case gflog =>
    rw [State.inBounds_iff] at hb
    have hi : BitVec.ofNat 8 i ≠ 0#8 := by
      obtain ⟨hsize, hlive⟩ := hb
      simp only [spaceSize, State.live, decide_eq_true_eq] at hsize hlive
      rw [Ne, ← BitVec.toNat_inj, BitVec.toNat_ofNat, BitVec.toNat_ofNat]
      omega
    exact (gfLog_gfTable_lt s.cfg hi).trans (by decide)
  -- the others are bit vectors of at most 32 bits
  all_goals exact (BitVec.isLt _).trans_le (by decide)

/-! ### `LDS` (R268) -/

theorem exec_lds_of_ok (h : s.memRead (encode (.lds rd sel rs1)) sel (s.natX rs1) = .ok v) :
    exec (.lds rd sel rs1) s = s.perform (.ok (s.setX rd v)) := by
  rw [exec, execLds, h]

theorem exec_lds_of_error {e : FaultKind × Nat}
    (h : s.memRead (encode (.lds rd sel rs1)) sel (s.natX rs1) = .error e) :
    exec (.lds rd sel rs1) s = s.perform (.error e) := by
  rw [exec, execLds, h]

/-- Settles O16: `MemRead` answers the element's register value or the first fault of the rule. -/
theorem ldsLoadsElementOrFaults : Obligations.LdsLoadsElementOrFaults := by
  intro s rd sel rs1 hs
  refine ⟨fun sp n hsel hb hn => ?int,
    fun sp e hsel hb he => ⟨fun hrange => ?num, fun hrange => ?numRange⟩,
    fun hsel => ?illegal, fun hsel hzero => ?zero, fun sp hsel hb hz => ?bounds⟩
  case int =>
    rw [exec_lds_of_ok ((State.memRead_of_inBounds hsel hb).trans (congrArg elementWord hn))]
    obtain ⟨t, hnext, hval, hframe⟩ := State.perform_setX hs rd (BitVec.ofNat 32 n)
    exact ⟨t, hnext, hval ▸ Nat.mod_eq_of_lt (State.element_int_lt hb hn), hframe⟩
  case num =>
    have hword := (congrArg elementWord he).trans (elementWord_num_of_range hrange)
    rw [exec_lds_of_ok ((State.memRead_of_inBounds hsel hb).trans hword)]
    obtain ⟨t, hnext, hval, hframe⟩ := State.perform_setX hs rd (BitVec.ofInt 32 _)
    exact ⟨t, hnext, hval ▸ toInt_ofInt_of_range hrange, hframe⟩
  case numRange =>
    have hword := (congrArg elementWord he).trans (elementWord_num_of_outOfRange hrange)
    rw [exec_lds_of_error ((State.memRead_of_inBounds hsel hb).trans hword)]
    exact State.perform_error hs _ _
  case illegal =>
    rw [exec_lds_of_illegal hsel, encode, toNat_formatS]
    exact State.perform_error hs _ _
  case zero =>
    subst hsel
    rw [exec_lds_of_error (State.memRead_gflog_zero rfl hzero)]
    exact State.perform_error hs _ _
  case bounds =>
    rw [exec_lds_of_error (State.memRead_of_outOfBounds hsel hb hz)]
    exact State.perform_error hs _ _

/-! ### What `MemWrite` answers (R61, R69) -/

/-- The value that `STS` writes to a space of reals for the register value `v` (R61). -/
def State.stsValue (s : State) (sel : Sel) (i : Nat) (v : Word) : Num :=
  s.approx .sts (storeInputs sel i v) 0 (Num.ofInt v.toInt)

/-- It lies within the tolerance of the integer (R12, R69). -/
theorem State.abs_stsValue_sub_le (s : State) (sel : Sel) (i : Nat) (v : Word) :
    |(s.stsValue sel i v).toReal - (v.toInt : ℝ)| ≤ s.tolerance .sts := by
  rw [← Num.toReal_ofInt]
  exact abs_approx_sub_le s .sts _ 0 _

section MemWrite

variable {w : Nat} (hsel : spaceOfSel sel = some sp)

include hsel

theorem State.memWrite_of_readOnly (hro : spaceWritable sp = false) :
    s.memWrite word sel i v = .error (.readOnly, sel.toNat) := by
  simp [State.memWrite, hsel, hro]

variable (hrw : spaceWritable sp = true)

include hrw

theorem State.memWrite_of_outOfBounds (hb : s.inBounds sp i = false) :
    s.memWrite word sel i v = .error (.bufferBounds, i) := by
  simp [State.memWrite, hsel, hrw, hb]

variable (hb : s.inBounds sp i = true)

include hb

theorem State.memWrite_num (hwidth : spaceWidth sp = none) :
    s.memWrite word sel i v = .ok (s.storeNum sp i (s.stsValue sel i v)) := by
  simp [State.memWrite, State.stsValue, hsel, hrw, hb, hwidth]

theorem State.memWrite_int_of_lt (hwidth : spaceWidth sp = some w) (hv : v.toNat < 2 ^ w) :
    s.memWrite word sel i v = .ok (s.storeInt sp i v.toNat) := by
  simp [State.memWrite, hsel, hrw, hb, hwidth, hv.not_ge]

theorem State.memWrite_int_of_ge (hwidth : spaceWidth sp = some w) (hv : 2 ^ w ≤ v.toNat) :
    s.memWrite word sel i v = .error (.operandRange, v.toNat) := by
  simp [State.memWrite, hsel, hrw, hb, hwidth, hv]

end MemWrite

/-- The numbers of the spaces that are not written by `STS` (R40). -/
theorem spaceOfSel_readOnly (hsel : sel ∈ ([5, 6, 7, 8, 9, 16] : List Sel)) :
    ∃ sp, spaceOfSel sel = some sp ∧ spaceWritable sp = false := by
  simp only [List.mem_cons, List.not_mem_nil, or_false] at hsel
  obtain rfl | rfl | rfl | rfl | rfl | rfl := hsel <;> exact ⟨_, rfl, rfl⟩

/-! ### `STS` (R269) -/

theorem exec_sts (sel : Sel) (rs1 rs2 : RegNum) (s : State) :
    exec (.sts sel rs1 rs2) s =
      s.perform (s.memWrite (encode (.sts sel rs1 rs2)) sel (s.natX rs1) (s.getX rs2)) := rfl

/-- Settles O17: `MemWrite` answers the store of one element or the first fault of the rule. -/
theorem stsStoresElementOrFaults : Obligations.StsStoresElementOrFaults := by
  intro s sel rs1 rs2 hs
  refine ⟨fun sp w hsel hrw hb hwidth => ⟨fun hv => ?int, fun hv => ?wide⟩,
    fun sp hsel hrw hb hwidth => ?num, fun hsel => ?illegal, fun hsel => ?readOnly,
    fun sp hsel hrw hb => ?bounds⟩
  case int =>
    rw [exec_sts, State.memWrite_int_of_lt hsel hrw hb hwidth hv]
    refine ⟨_, State.perform_running hs _, ?_, s.sameBut_storeInt hrw hwidth _ _⟩
    rw [State.settle_ok, s.element_storeInt_self hrw hwidth, if_pos rfl]
    exact congrArg Elem.int (Nat.mod_eq_of_lt hv)
  case wide =>
    rw [exec_sts, State.memWrite_int_of_ge hsel hrw hb hwidth hv]
    exact State.perform_error hs _ _
  case num =>
    rw [exec_sts, State.memWrite_num hsel hrw hb hwidth]
    refine ⟨_, s.stsValue sel (s.natX rs1) (s.getX rs2), State.perform_running hs _, ?_,
      s.abs_stsValue_sub_le sel _ _, s.sameBut_storeNum hrw hwidth _ _⟩
    rw [State.settle_ok, s.element_storeNum_self hrw hwidth, if_pos (.inl rfl)]
  case illegal =>
    rw [exec_sts_of_illegal hsel, encode, toNat_formatS]
    exact State.perform_error hs _ _
  case readOnly =>
    obtain ⟨sp, hsp, hro⟩ := spaceOfSel_readOnly hsel
    rw [exec_sts, State.memWrite_of_readOnly hsp hro]
    exact State.perform_error hs _ _
  case bounds =>
    rw [exec_sts, State.memWrite_of_outOfBounds hsel hrw hb]
    exact State.perform_error hs _ _

/-! ### `CSRR` (R271) -/

theorem exec_csrr_of_some {c : Csr} (hsel : csrOfSel sel = some c) :
    exec (.csrr rd sel) s = s.perform (.ok (s.setX rd (s.readCsr c))) := by
  rw [exec, execCsrr, hsel]

/-- `STATUS` as a number (R31). -/
theorem State.toNat_statusWord (s : State) :
    s.statusWord.toNat = s.fault.toNat + 2 * s.rserr.toNat + 4 * s.found.toNat := by
  simp only [State.statusWord, toNat_append_eq_add, BitVec.toNat_ofBool]
  omega

/-- The values of the twelve control registers in the order of their numbers (R30). -/
def State.csrValues (s : State) : List Nat :=
  [s.fault.toNat + 2 * s.rserr.toNat + 4 * s.found.toNat, s.cause.toNat, s.finfo.toNat,
    s.rngSeed.toNat, s.rsNsym.toNat, s.permN.toNat, s.imgW.toNat, s.imgH.toNat, s.strength.toNat,
    s.cfg.magic.toNat, s.cfg.lsbMagic.toNat, 0x52504C31]

/-- The number of a control register is its place in R30. -/
theorem State.toNat_readCsr (s : State) {c : Csr} (hsel : csrOfSel sel = some c) :
    (s.readCsr c).toNat = s.csrValues.getD sel.toNat 0 := by
  unfold csrOfSel at hsel
  split at hsel <;> cases hsel
  all_goals
    rename_i hnum
    rw [hnum]
  case h_1 => exact (BitVec.toNat_setWidth_of_le (by decide)).trans s.toNat_statusWord
  all_goals rfl

theorem csrOfSel_of_lt (hsel : sel.toNat < 12) : ∃ c, csrOfSel sel = some c := by
  unfold csrOfSel
  interval_cases sel.toNat <;> exact ⟨_, rfl⟩

/-- Settles O20: the value written is that of the control register with the number. -/
theorem csrrReadsRegisterOrFaults : Obligations.CsrrReadsRegisterOrFaults := by
  intro s rd sel hs
  refine ⟨fun hsel => ?read, fun hsel => ?illegal⟩
  case read =>
    obtain ⟨c, hc⟩ := csrOfSel_of_lt hsel
    rw [exec_csrr_of_some hc]
    obtain ⟨t, hnext, hval, hframe⟩ := State.perform_setX hs rd (s.readCsr c)
    refine ⟨t, hnext, hframe, ?_⟩
    rw [hval, s.toNat_readCsr hc, State.csrValues, hs, Bool.toNat_false, Nat.zero_add]
  case illegal =>
    rw [exec_csrr_of_illegal hsel, encode, toNat_formatS]
    exact State.perform_error hs _ _

/-! ### `CSRW` (R272) -/

theorem exec_csrw_of_readOnly {c : Csr} (hsel : csrOfSel sel = some c) (hro : csrWritable c = false) :
    exec (.csrw sel rs1) s = s.perform (.error (.readOnly, sel.toNat)) := by
  simp [exec, execCsrw, hsel, hro]

theorem exec_csrw_of_writable {c : Csr} (hsel : csrOfSel sel = some c) (hrw : csrWritable c = true) :
    exec (.csrw sel rs1) s = s.perform
      (if c = .strength ∧ 65535 < s.natX rs1 then .error (.operandRange, s.natX rs1)
      else .ok (s.writeCsr c (s.natX rs1))) := by
  simp [exec, execCsrw, hsel, hrw]

/-- A write that no check of the rule refuses. -/
theorem exec_csrw_of_fits {c : Csr} (hs : s.fault = false) (hsel : csrOfSel sel = some c)
    (hrw : csrWritable c = true) (hfits : ¬ (c = .strength ∧ 65535 < s.natX rs1)) :
    exec (.csrw sel rs1) s = .next (s.writeCsr c (s.natX rs1)) := by
  rw [exec_csrw_of_writable hsel hrw, if_neg hfits]
  exact State.perform_running hs _

/-- The numbers of the control registers that are not written by `CSRW` (R30). -/
theorem csrOfSel_readOnly (hsel : sel ∈ ([0, 1, 2, 3, 4, 5, 9, 10, 11] : List Sel)) :
    ∃ c, csrOfSel sel = some c ∧ csrWritable c = false := by
  simp only [List.mem_cons, List.not_mem_nil, or_false] at hsel
  obtain rfl | rfl | rfl | rfl | rfl | rfl | rfl | rfl | rfl := hsel <;> exact ⟨_, rfl, rfl⟩

/-- Settles O21: each number names its control register, and the checks of the rule decide whether it is
written. -/
theorem csrwWritesRegisterOrFaults : Obligations.CsrwWritesRegisterOrFaults := by
  intro s sel rs1 hs
  have hword : BitVec.ofNat 32 (s.natX rs1) = s.getX rs1 := by
    rw [State.natX, BitVec.ofNat_toNat, BitVec.setWidth_eq]
  refine ⟨fun hsel => ?width, fun hsel => ?height, fun hsel hv => ?strength, fun hsel => ?illegal,
    fun hsel => ?readOnly, fun hsel hv => ?range⟩
  case width =>
    subst hsel
    exact ⟨_, exec_csrw_of_fits (c := .imgW) hs rfl rfl (by simp), hword,
      s.sameBut_writeCsr .imgW _⟩
  case height =>
    subst hsel
    exact ⟨_, exec_csrw_of_fits (c := .imgH) hs rfl rfl (by simp), hword,
      s.sameBut_writeCsr .imgH _⟩
  case strength =>
    subst hsel
    exact ⟨_, exec_csrw_of_fits (c := .strength) hs rfl rfl (by simpa using hv),
      Nat.mod_eq_of_lt (Nat.lt_succ_of_le hv), s.sameBut_writeCsr .strength _⟩
  case illegal =>
    rw [exec_csrw_of_illegal hsel, encode, toNat_formatS]
    exact State.perform_error hs _ _
  case readOnly =>
    obtain ⟨c, hc, hro⟩ := csrOfSel_readOnly hsel
    rw [exec_csrw_of_readOnly hc hro]
    exact State.perform_error hs _ _
  case range =>
    subst hsel
    rw [exec_csrw_of_writable (c := .strength) rfl rfl]
    exact State.perform_check_of_fails hs ⟨rfl, hv⟩ _ _ _

end Sys2Proof.Machine
